-- ==== Sys2Proof/Word.lean ====
section
/-! DEFINITION. The plain words of the ULV240: bytes, beats, strobes, addresses and digests. -/

namespace Sys2Proof

/-- One byte. -/
abbrev Byte := BitVec 8

/-- A byte address on either link: 40 bits (CONVENTIONS, Numbers). -/
abbrev Addr := BitVec 40

/-- The sixteen data bytes of a beat: byte j, the byte at the beat's address plus j (R159), is
bits 8j to 8j+7. -/
abbrev Beat := BitVec 128

/-- The sixteen byte strobes of a beat: strobe j is bit j (R159). -/
abbrev Strobes := BitVec 16

/-- A 32-byte digest, a byte string and not a number (R175): byte k is bits 8k to 8k+7. -/
abbrev Digest := BitVec 256

/-- A 32-bit word of SHA-256. -/
abbrev W32 := BitVec 32

/-- The number of one of the four digest engines (R47). -/
abbrev EngineId := Fin 4

end Sys2Proof
end

