-- ==== Sys2Proof/Syntax.lean ====
section
/-! DEFINITION. The commands of the ULV240: one constructor of `Instr` for each row of
spec/opcode_table.json. -/

namespace Sys2Proof

/-- The two kinds of request and of response on a link (R159, R160). -/
inductive LinkKind where
  | read
  | write
  deriving DecidableEq, Repr

/-- The statuses of a response (R160). -/
inductive LinkStatus where
  | ok
  | memfault
  | refused
  | malformed
  deriving DecidableEq, Repr

/-- A beat of a WRITE request: sixteen data bytes and sixteen strobes (R159). -/
structure WriteBeat where
  data : Beat
  strobes : Strobes
  deriving DecidableEq, Repr

/-- What sensing reads in the PRIMARY slot (R103). A slot read as REVOKED holds a digest that the part
does not use. -/
inductive SlotReading where
  | blank
  | programmed (anchor : Digest)
  | revoked
  deriving DecidableEq, Repr

/-- The two moments of a transfer out of the part: the receiver becomes ready, and the part offers; the
receiver takes what is offered (R166, R170: an offer stands until it is taken; log 15). -/
inductive LinkMoment where
  | ready
  | taken
  deriving DecidableEq, Repr

/-- The commands, one constructor per row of spec/opcode_table.json. The table lists no operands; each
operand is what the row's rule names. -/
inductive Instr where
  /-- COLD_RESET: CRSTn asserted (R124, R180). -/
  | coldReset
  /-- WARM_RESET: WRSTn asserted with CRSTn high (R120, R180). -/
  | warmReset
  /-- RESET_END: both reset inputs high; the straps as sampled (R102). -/
  | resetEnd (msel1 msel0 : Bool)
  /-- SENSING_DONE: what the fuses of PRIMARY and ALTERNATE (absent: BLANK) read as (R103, R104; log 3). -/
  | sensingDone (primary : SlotReading) (alternate : Option Digest)
  /-- HOST_READ_ACCEPT: a READ request taken whole from the host link (R86). -/
  | hostReadAccept (tag : Nat) (addr : Addr) (beatCount : Nat)
  /-- HOST_WRITE_ACCEPT: a WRITE request at its last data beat; its beat count is the number of its
  beats (R86, R159). -/
  | hostWriteAccept (tag : Nat) (addr : Addr) (beats : List WriteBeat)
  /-- CONSUMER_UPDATE: a strobed consumer field of header beat 1 (R152). -/
  | consumerUpdate (value : BitVec 16)
  /-- REOPEN: the command fields of header beat 1 (R155). -/
  | reopen (seq image : BitVec 8)
  /-- ABANDON: the command fields of header beat 1 (R155). -/
  | abandon (seq image : BitVec 8)
  /-- RESEND: the command fields of header beat 1 (R156). -/
  | resend (seq image : BitVec 8)
  /-- RESUME: the command fields of header beat 1; the index is not examined (R151, R154). -/
  | resume (seq image : BitVec 8)
  /-- MEMORY_TAKES_REQUEST: memory becomes ready, or takes the request offered (R166). -/
  | memoryTakesRequest (moment : LinkMoment)
  /-- FWD_WRITE_RESPONSE: a WRITE_RESPONSE for a host tag (R34, R167). -/
  | fwdWriteResponse (tag : Nat) (status : LinkStatus)
  /-- FWD_READ_RESPONSE: a READ_RESPONSE for a host tag (R167, R169). -/
  | fwdReadResponse (tag : Nat) (status : LinkStatus) (data : List Beat)
  /-- REFILL_RESPONSE: a READ_RESPONSE on a refill tag (R76 to R80). -/
  | refillResponse (tag : Nat) (status : LinkStatus) (data : List Beat)
  /-- REPORT_WRITE_RESPONSE: a WRITE_RESPONSE on a report tag (R147 to R150). -/
  | reportWriteResponse (tag : Nat) (status : LinkStatus)
  /-- UNKNOWN_TAG_RESPONSE: a response of either kind whose tag is not outstanding (R168). -/
  | unknownTagResponse (kind : LinkKind) (tag : Nat) (status : LinkStatus) (data : List Beat)
  /-- HOST_RESPONSE_DELIVERY: the host becomes ready, or takes the response offered (R170, R171). -/
  | hostResponseDelivery (moment : LinkMoment)
  /-- REFILL_LIMIT_EXPIRY: 250 µs with no response on a refill tag (R78). -/
  | refillLimitExpiry (tag : Nat)
  /-- REPORT_LIMIT_EXPIRY: 250 µs with no response on a report tag (R150). -/
  | reportLimitExpiry (tag : Nat)
  /-- RESTORE_DONE: an engine completes a restore (R54). -/
  | restoreDone (engine : EngineId)
  /-- SEED_STEP_DONE: an engine completes the seed step (R53). -/
  | seedStepDone (engine : EngineId)
  /-- BEAT_STEP_DONE: an engine completes a beat step (R57). -/
  | beatStepDone (engine : EngineId)
  /-- FINALISATION_DONE: an engine completes the finalisation of an image (R60). -/
  | finalisationDone (engine : EngineId)
  /-- PARK_DONE: an engine completes a park (R61). -/
  | parkDone (engine : EngineId)
  /-- MANIFEST_BEAT_STEP_DONE: engine 0 completes a beat step of the manifest (R109). -/
  | manifestBeatStepDone
  /-- MANIFEST_CHECK_DONE: finalisation and the anchor comparisons complete (R112). -/
  | manifestCheckDone
  /-- PARSING_DONE: parsing completes (R113). -/
  | parsingDone
  /-- FUSE_BLOWN: the revocation fuse reads as blown before the limit (R122). -/
  | fuseBlown
  /-- BURN_LIMIT_EXPIRY: the 20 ms limit of the burn expires (R122). -/
  | burnLimitExpiry
  /-- VPROG_SUPPLY_CHANGE: the fuse supply is lost or returns (R122). -/
  | vprogSupplyChange (present : Bool)
  deriving DecidableEq, Repr

end Sys2Proof
end

