-- ==== Sys2Proof/Config.lean ====
section
/-! DEFINITION. The free values: what the spec leaves open is an opaque constant here, with no body, so
that no proof can lean on a value of it. The sizes the spec fixes stand here too. -/

namespace Sys2Proof

/-- FREE VALUE (R165, log 10). When refill reads and a report write are created at one instant, either
may join the own-request queue first. Applied to the count of free values used, it gives the position
at which the report write joins among them (taken modulo the number of positions). -/
opaque Config.ownJoinPosition : Nat → Nat

/-- FREE VALUE (R172 item 2 not met, log 11). The k-th beat that an OK response on a refill tag did not
bring, by the count of free values used. -/
opaque Config.unreturnedBeat : Nat → Nat → Beat

/-- FREE VALUE (R106, log 12). What a byte of a manifest buffer beat that is not present holds, by
window offset: "Contents not defined". -/
opaque Config.absentBufferByte : Nat → Byte

/-- The entries of the run table (R20). -/
def Config.runEntries : Nat := 256

/-- The slots of the staging store (R22). -/
def Config.stagingSlots : Nat := 1024

/-- The entries of the host port's inbound queue (R162). -/
def Config.inboundEntries : Nat := 16

/-- The bytes of an address page, which no request crosses (R87). -/
def Config.pageBytes : Nat := 4096

/-- The bytes of the manifest window (R102). -/
def Config.windowBytes : Nat := 4096

/-- One past the last byte address: 2^40 (R115, R116). -/
def Config.addressEnd : Nat := 2 ^ 40

end Sys2Proof
end

