-- ==== Sys2Proof/Machine/State.lean ====
section
/-! DEFINITION. Everything the ULV240 holds, block by block, as plain data, and its value right after a
cold reset. -/

namespace Sys2Proof.Machine

/-! ### Why a command can stop -/

/-- Why the machine stops: never. The part has no exception entry and no state in which it goes no
further; its failures are states, lines and responses (R7, R119, R136, R149, R89). -/
inductive Fault where
  deriving DecidableEq, Repr

/-- Why a command has no meaning. -/
inductive Refusal where
  /-- A command of the table without a meaning yet, raised by its arm of `exec` alone. Safe: the model
  stops where the hardware goes on. No arm raises it in this model. -/
  | notModelled (mnemonic : String)
  deriving DecidableEq, Repr

/-! ### The digest engines' data -/

/-- The running state of SHA-256: eight words, 32 bytes (R46). -/
structure HashState where
  (a b c d e f g h : W32)
  deriving DecidableEq, Repr

/-- A digest computation in progress (R46). -/
structure Context where
  hash : HashState
  /-- The bytes not yet compressed. -/
  block : List Byte
  /-- Bytes taken in, seed included. -/
  total : Nat
  /-- Set once the predecessor's result digest has been taken in. -/
  seeded : Bool
  deriving DecidableEq, Repr

/-! ### Images, segments and runs -/

/-- A write sequence number (R23): the 32-bit number, and the model's count of numbers given before it,
so that "lower" is "given earlier" across the continuation at 1 (log 14). -/
structure SeqNo where
  number : BitVec 32
  order : Nat
  deriving DecidableEq, Repr

/-- What a run holds (R20): a STAGED run the data of its beats in offset order, a DEFERRED run its beat
count, its newest contributing sequence number and its settled mark. -/
inductive RunBody where
  | staged (beats : List Beat)
  | deferred (count : Nat) (newest : SeqNo) (settled : Bool)
  deriving DecidableEq, Repr

/-- An entry of the run table; its image is the one in whose run list it stands (R20, R21). -/
structure Run where
  start : Nat
  body : RunBody
  deriving DecidableEq, Repr

/-- The break reasons (R7). -/
inductive BreakReason where
  | rewrite
  | partialBeat
  | runsExhausted
  | writeFault
  | refillFault
  | refillTimeout
  | predecessorFailed
  | abandoned
  deriving DecidableEq, Repr

/-- The result of a finalisation that waits for writes in flight, with its comparison outcome (R60). -/
structure PendingResult where
  digest : Digest
  matched : Bool
  deriving DecidableEq, Repr

/-- The seven image states (R6), each with what is present in that state alone: the break reason in
BROKEN, the result digest in the three verdict states, the pending result in FINISHING (R5). -/
inductive ImageState where
  | declared
  | filling
  | finishing (pending : Option PendingResult)
  | verified (result : Digest)
  | recorded (result : Digest)
  | mismatched (result : Digest)
  | broken (reason : BreakReason)
  deriving DecidableEq, Repr

/-- The policy flags (R4). -/
structure Policy where
  readWhileLoading : Bool
  readAfterFail : Bool
  reopenable : Bool
  measureOnly : Bool
  deriving DecidableEq, Repr

/-- The declared part of an image record (R3). -/
structure Declared where
  policy : Policy
  predecessor : Option Nat
  pin : Option EngineId
  firstSegment : Nat
  segmentCount : Nat
  length : Nat
  expected : Digest
  deriving DecidableEq, Repr

/-- An image record (R3, R5, R19) with the image's run list (R21). -/
structure Image where
  declared : Declared
  state : ImageState
  cursor : Nat
  handOff : Nat
  epoch : BitVec 8
  inFlight : Nat
  transitions : Nat
  /-- The context-store slot: live exactly while it holds the parked context (R49). -/
  slot : Option Context
  runs : List Run
  deriving DecidableEq, Repr

/-- A segment entry (R2). -/
structure Segment where
  base : Nat
  length : Nat
  owner : Option Nat
  imageOffset : Nat
  deriving DecidableEq, Repr

/-- A write entry (R24): the recorded set gives each image with its epoch at acceptance. -/
structure WriteEntry where
  tag : Nat
  seq : SeqNo
  recorded : List (Nat × BitVec 8)
  deriving DecidableEq, Repr

/-! ### Engines and refill tags -/

/-- What an ABSORBING engine takes in its current step (R48). -/
inductive AbsorbStep where
  | seed
  | beat
  deriving DecidableEq, Repr

/-- The engine states (R48). -/
inductive EngineState where
  | free
  | restoring
  | absorbing (step : AbsorbStep)
  | awaitingRefill
  | holding
  | parking
  | finalizing
  deriving DecidableEq, Repr

/-- The record of an engine (R47), with the context it holds (R46), the refill beats delivered to it and
not yet taken (R19), and whether the manifest unit holds it (R68). -/
structure Engine where
  state : EngineState
  bound : Option Nat
  discard : Bool
  parkOrder : Bool
  claimant : Option Nat
  reservation : Option Nat
  holdingSince : Nat
  context : Option Context
  delivered : List Beat
  manifest : Bool
  deriving DecidableEq, Repr

/-- An engine after reset (R69). The holding-since instant means something in HOLDING alone (R47), so R69
gives it no value; the model's is 0 (DESIGN CHOICE, log 31). -/
def idleEngine : Engine :=
  { state := .free, bound := none, discard := false, parkOrder := false, claimant := none,
    reservation := none, holdingSince := 0, context := none, delivered := [], manifest := false }

/-- The record of a refill tag (R70). The tag is ATTACHED exactly while its engine field is present
(R80), and its limit runs exactly while it is BUSY (R78). -/
inductive RefillTag where
  | free
  | busy (image : Nat) (engine : Option EngineId) (start count : Nat) (address : Nat)
  | quarantined
  deriving DecidableEq, Repr

/-- A request of an engine that waits for a FREE refill tag (R72). -/
structure RefillRequest where
  engine : EngineId
  image : Nat
  deriving DecidableEq, Repr

/-- The blocks that work on images together: the region table's segments, the order tracker, the engine
pool, the refill unit, the report queue and the verified record. -/
structure MeasureState where
  segments : List Segment
  images : List Image
  entries : List WriteEntry
  nextSeq : BitVec 32
  /-- MODEL's own: how many sequence numbers have been given (log 14). -/
  nextOrder : Nat
  engines : Vector Engine 4
  waitList : List Nat
  refillTags : Vector RefillTag 8
  refillPending : List RefillRequest
  /-- The report queue (R142). -/
  subjects : List Nat
  /-- The verified record (R133). -/
  verified : List Nat
  /-- MODEL's own: the count of events, which stands for the instants of R47 (log 9). -/
  now : Nat
  deriving DecidableEq, Repr

/-! ### The manifest unit -/

/-- The phases (R101). -/
inductive Phase where
  | sensing
  | unprovisioned
  | manifestLoading
  | manifestCheck
  | parsing
  | armed
  | rejected
  | lockout
  deriving DecidableEq, Repr

/-- The reasons of a failed attempt (R119). -/
inductive RejectReason where
  | rewrite
  | partialBeat
  | writeFault
  | badLength
  | noAnchorMatch
  | badVersion
  | tooManyImages
  | tooManySegments
  | badSegment
  | overlap
  | badReportArea
  | badPredecessor
  | badPin
  | badReleaseSet
  deriving DecidableEq, Repr

/-- The anchor states held from sensing to the next reset (R103). -/
structure Anchors where
  primary : SlotReading
  alternate : Option Digest
  deriving DecidableEq, Repr

/-- The slot under which a manifest was accepted (R112). -/
inductive AnchorSlot where
  | primary
  | alternate
  deriving DecidableEq, Repr

/-- The revocation outcomes (R121, R122). -/
inductive Revocation where
  | none
  | inProgress
  | done
  | failed
  | notApplicable
  | already
  deriving DecidableEq, Repr

/-- The manifest record values fixed at ARMED, other than the revocation outcome (R118), with the
manifest length in bytes that the record's cursor field shows (R146). -/
structure ManifestRecord where
  slot : AnchorSlot
  failedAttempts : Nat
  lastReason : Option RejectReason
  digest : Digest
  lengthBytes : Nat
  deriving DecidableEq, Repr

/-- The manifest unit (R101 to R124). -/
structure ManifestState where
  phase : Phase
  windowBase : Addr
  anchors : Option Anchors
  /-- The buffer with its presence marks: window offset and beat, offsets rising, a beat listed exactly
  while it is present (R106). -/
  buffer : List (Nat × Beat)
  /-- The manifest length in 64-byte units (R106). -/
  length : Option Nat
  absorbOffset : Nat
  /-- The window write set (R106). -/
  windowWrites : List Nat
  attempts : Nat
  lastReason : Option RejectReason
  /-- The slot and the digest kept at the check (R112). -/
  checked : Option (AnchorSlot × Digest)
  record : Option ManifestRecord
  /-- The revocation outcome; a burn runs exactly while it is IN_PROGRESS (R121, R122). -/
  revocation : Option Revocation
  deriving DecidableEq, Repr

/-- The PRIMARY slot's fuses: blank, programmed with the revocation fuse whole, programmed with it left
partly burnt or whole by a burn that expired or was stopped, or revoked (R122, R123). -/
inductive PrimaryFuse where
  | blank
  | whole (anchor : Digest)
  | uncertain (anchor : Digest)
  | revoked
  deriving DecidableEq, Repr

/-- The fuses as far as sensing has read them (R103; log 3). -/
inductive Fuses where
  | unread
  | read (primary : PrimaryFuse) (alternate : Option Digest)
  deriving DecidableEq, Repr

/-! ### The report unit -/

/-- The states of the report channel (R143). -/
inductive Channel where
  | dormant
  | ready
  | writingRecord
  | writingHeader
  | halted
  deriving DecidableEq, Repr

/-- The results of commands, NONE before any (R154). -/
inductive CommandResult where
  | none
  | done
  | badIndex
  | badState
  | dependentLocked
  | badKind
  | notHalted
  deriving DecidableEq, Repr

/-- The target of a report write (R144). -/
inductive ReportTarget where
  | header
  | slot (index : Nat)
  deriving DecidableEq, Repr

/-- A report tag (R150). Its limit runs exactly while it is BUSY. -/
inductive ReportTag where
  | free
  | busy (target : ReportTarget)
  | quarantined (target : ReportTarget)
  deriving DecidableEq, Repr

/-- What exists of the report unit from ARMED to reset alone: the area's base B and record count N
(R139), and the next record sequence number (R140). -/
structure ReportArea where
  base : Nat
  slots : Nat
  nextRecord : BitVec 32
  deriving DecidableEq, Repr

/-- The record write in flight (R140). -/
structure RecordInFlight where
  subject : Nat
  captured : Nat
  deriving DecidableEq, Repr

/-- The report unit (R140). -/
structure ReportState where
  channel : Channel
  area : Option ReportArea
  producer : BitVec 16
  consumer : BitVec 16
  advanceOwed : Bool
  headerFirst : Bool
  headerDirty : Bool
  lastSeq : BitVec 8
  lastResult : CommandResult
  tags : Vector ReportTag 2
  inFlight : Option RecordInFlight
  deriving DecidableEq, Repr

/-! ### Line control and the links -/

/-- Line control (R133 to R136): the two release sets and the three output pins. -/
structure LineState where
  sets : Option (BitVec 32 × BitVec 32)
  rls0 : Bool
  rls1 : Bool
  fault : Bool
  deriving DecidableEq, Repr

/-- A request on a link (R159). -/
inductive LinkRequest where
  | read (tag : Nat) (addr : Addr) (beatCount : Nat)
  | write (tag : Nat) (addr : Addr) (beats : List WriteBeat)
  deriving DecidableEq, Repr

/-- A response on a link (R160). -/
structure Response where
  kind : LinkKind
  tag : Nat
  status : LinkStatus
  data : List Beat
  deriving DecidableEq, Repr

/-- Where the memory-port arbiter's offer comes from (R166). -/
inductive RequestSource where
  | forward
  | own
  deriving DecidableEq, Repr

/-- Where the host response merger's offer comes from (R170). -/
inductive ResponseSource where
  | relayed
  | part
  deriving DecidableEq, Repr

/-- The host port and the memory port (R161 to R171). -/
structure LinkState where
  /-- The host port's outstanding READ tags (R88). -/
  hostReads : List Nat
  /-- The host port's outstanding WRITE tags (R88). -/
  hostWrites : List Nat
  /-- Host tags outstanding in the memory port's READ table (R161). -/
  memReads : List Nat
  /-- Host tags outstanding in the memory port's WRITE table (R161). -/
  memWrites : List Nat
  /-- The forward queue (R164). -/
  forward : List LinkRequest
  /-- The refusal response queue (R163). -/
  refusals : List Response
  /-- The own-request queue (R165). -/
  own : List LinkRequest
  /-- The head-wait count (R166). -/
  headWait : Nat
  /-- The request that stands offered to memory (R166). -/
  memOffer : Option RequestSource
  /-- MODEL's own: the request memory took last (log 16). -/
  memOut : Option LinkRequest
  /-- The relay queue (R169). -/
  relay : List Response
  /-- The last-source mark (R170). -/
  lastSource : ResponseSource
  /-- The response that stands offered to the host (R170). -/
  hostOffer : Option ResponseSource
  /-- MODEL's own: the response the host took last (log 16). -/
  hostOut : Option Response
  deriving DecidableEq, Repr

/-- The reset in progress on CRSTn and WRSTn, if any: cold once CRSTn has been low during it (R102, R180). -/
inductive ResetLine where
  | inactive
  | warm
  | cold
  deriving DecidableEq, Repr

/-- The whole part. -/
structure State where
  link : LinkState
  manifest : ManifestState
  measure : MeasureState
  report : ReportState
  lines : LineState
  resetLine : ResetLine
  /-- The pin VPROG (R122, R180). -/
  vprog : Bool
  fuses : Fuses
  /-- MODEL's own: how many free values have been used (log 23). -/
  freeCount : Nat
  /-- The commands waiting, first in first out (log 1). -/
  pending : List Instr
  deriving DecidableEq, Repr

/-! ### The values after a cold reset -/

/-- R174. -/
def LinkState.reset : LinkState :=
  { hostReads := [], hostWrites := [], memReads := [], memWrites := [], forward := [], refusals := [],
    own := [], headWait := 0, memOffer := none, memOut := none, relay := [], lastSource := .part,
    hostOffer := none, hostOut := none }

/-- R124, with the window base before the first sampling of the straps (log 2). -/
def ManifestState.reset : ManifestState :=
  { phase := .sensing, windowBase := 0, anchors := none, buffer := [], length := none, absorbOffset := 0,
    windowWrites := [], attempts := 0, lastReason := none, checked := none, record := none,
    revocation := none }

/-- R1, R44, R69, R85, R138, R158. -/
def MeasureState.reset : MeasureState :=
  { segments := [], images := [], entries := [], nextSeq := 1, nextOrder := 0,
    engines := #v[idleEngine, idleEngine, idleEngine, idleEngine], waitList := [],
    refillTags := #v[.free, .free, .free, .free, .free, .free, .free, .free], refillPending := [],
    subjects := [], verified := [], now := 0 }

/-- R158. -/
def ReportState.reset : ReportState :=
  { channel := .dormant, area := none, producer := 0, consumer := 0, advanceOwed := false,
    headerFirst := false, headerDirty := false, lastSeq := 0, lastResult := .none,
    tags := #v[.free, .free], inFlight := none }

/-- R138. -/
def LineState.reset : LineState := { sets := none, rls0 := false, rls1 := false, fault := false }

/-- The part right after a cold reset is asserted for the first time, the reset not yet ended: RESET_END
samples the straps and starts sensing (R102, R103; log 2). -/
def State.reset : State :=
  { link := .reset, manifest := .reset, measure := .reset, report := .reset, lines := .reset,
    resetLine := .cold, vprog := false, fuses := .unread, freeCount := 0, pending := [] }

end Sys2Proof.Machine
end

