-- ==== Sys2Proof/Machine/Operands.lean ====
section
/-! DEFINITION. Operand forms: bytes of beats and digests, little-endian fields, strobes, and the tables
of tags. -/

namespace Sys2Proof.Machine

/-! ### Bytes -/

/-- Byte j of a beat (R159). -/
def beatByte (b : Beat) (j : Nat) : Byte := b.extractLsb' (8 * j) 8

/-- The sixteen bytes of a beat, in address order. -/
def beatBytes (b : Beat) : List Byte := (List.range 16).map (beatByte b)

/-- A beat from its bytes in address order. -/
def beatOfBytes (bytes : List Byte) : Beat :=
  bytes.foldr (fun x rest => (rest <<< 8) ||| x.setWidth 128) 0

/-- Byte k of a digest (R175). -/
def digestByte (d : Digest) (k : Nat) : Byte := d.extractLsb' (8 * k) 8

/-- The 32 bytes of a digest, in order. -/
def digestBytes (d : Digest) : List Byte := (List.range 32).map (digestByte d)

/-- A digest from its bytes in order. -/
def digestOfBytes (bytes : List Byte) : Digest :=
  bytes.foldr (fun x rest => (rest <<< 8) ||| x.setWidth 256) 0

/-- A little-endian number (R175). -/
def littleEndian (bytes : List Byte) : Nat :=
  bytes.foldr (fun x rest => rest * 256 + x.toNat) 0

/-- The n bytes of a number, least significant first (R175). -/
def leBytes (n v : Nat) : List Byte :=
  (List.range n).map (fun k => BitVec.ofNat 8 (v / 256 ^ k))

/-- The n bytes of a number, most significant first (R59). -/
def beBytes (n v : Nat) : List Byte := (leBytes n v).reverse

/-- Sixteen bytes at a time, the beats of a structure of n beats. -/
def beatsOfBytes : Nat → List Byte → List Beat
  | 0, _ => []
  | n + 1, bytes => beatOfBytes (bytes.take 16) :: beatsOfBytes n (bytes.drop 16)

/-! ### Strobes -/

/-- All sixteen strobes set. -/
def fullStrobes : Strobes := 0xFFFF

/-- All 16 strobes are set (CONVENTIONS, Beats). -/
def beatFull (b : WriteBeat) : Bool := b.strobes == fullStrobes

/-- No strobe is set. -/
def beatEmpty (b : WriteBeat) : Bool := b.strobes == 0

/-- Some but not all strobes are set. -/
def beatPartial (b : WriteBeat) : Bool := !beatFull b && !beatEmpty b

/-- Every strobe of the listed bytes is set. -/
def strobed (b : WriteBeat) (bytes : List Nat) : Bool := bytes.all (fun j => b.strobes.getLsbD j)

/-- A fully strobed beat, as the part writes (R139). -/
def fullBeat (data : Beat) : WriteBeat := { data := data, strobes := fullStrobes }

/-! ### Counters -/

/-- A count that stays at 255 (R10). -/
def saturate (n : Nat) : Nat := min n 255

/-! ### Lists used as sets and queues -/

/-- Joining the tail unless already in the list (R50, R142). -/
def joinTail (l : List Nat) (x : Nat) : List Nat := if l.contains x then l else l ++ [x]

/-- Moving or joining to the head (R149, R64). -/
def joinHead (l : List Nat) (x : Nat) : List Nat := x :: l.filter (· != x)

/-- Leaving the list, whatever the position. -/
def leave (l : List Nat) (x : Nat) : List Nat := l.filter (· != x)

end Sys2Proof.Machine
end

