-- ==== Sys2Proof/Machine/Regions.lean ====
section
/-! DEFINITION. The region table and the access gate: how an address is classified (R16, R17) and how a
request is forwarded, refused or found malformed (R87 to R96). -/

namespace Sys2Proof.Machine

/-! ### Images by index -/

/-- The record of image i, 1 to the image count (R1). -/
def MeasureState.image? (m : MeasureState) (i : Nat) : Option Image :=
  if i = 0 then none else m.images[i - 1]?

/-- The image indices, 1 to the image count, in increasing order. -/
def MeasureState.indices (m : MeasureState) : List Nat := (List.range m.images.length).map (· + 1)

/-! ### Classification -/

/-- The regions and what classification carries (R16). -/
inductive Region where
  | none
  | window (offset : Nat)
  | header (beat : Nat)
  | record (slot beat : Nat)
  | image (index offset : Nat)
  deriving DecidableEq, Repr

/-- The segment holds the byte address. -/
def segmentHolds (g : Segment) (a : Nat) : Bool := g.base ≤ a && a < g.base + g.length

/-- The window offset of an address inside the manifest window (R102). -/
def windowOffset (base : Addr) (a : Nat) : Option Nat :=
  if base.toNat ≤ a ∧ a < base.toNat + Config.windowBytes then some (a - base.toNat) else none

/-- The header or record beat of an address inside the report area (R17, R139). -/
def reportBeat (area : ReportArea) (a : Nat) : Option Region :=
  if area.base ≤ a ∧ a < area.base + 64 + 64 * area.slots then
    let d := a - area.base
    if d < 64 then some (.header (d / 16)) else some (.record ((d - 64) / 64) ((d - 64) % 64 / 16))
  else none

/-- The image and image offset of an address inside a segment with an owner (R17). -/
def imageBeat (segments : List Segment) (a : Nat) : Option Region :=
  (segments.find? (segmentHolds · a)).bind (fun g =>
    g.owner.map (fun i => .image i (g.imageOffset + (a - g.base))))

/-- The region of a beat by its address (R16): the report area and the segments exist in ARMED alone,
since the tables are empty in every other phase (R1, R139). -/
def classify (s : State) (a : Nat) : Region :=
  match windowOffset s.manifest.windowBase a with
  | some d => .window d
  | none =>
    match s.report.area.bind (reportBeat · a) with
    | some r => r
    | none => (imageBeat s.measure.segments a).getD .none

/-- The address of beat k of a request (R159). -/
def beatAddress (addr : Addr) (k : Nat) : Nat := addr.toNat + 16 * k

/-- The regions of a request's beats, in address order. -/
def classifyBeats (s : State) (addr : Addr) (count : Nat) : List Region :=
  (List.range count).map (fun k => classify s (beatAddress addr k))

/-! ### The form check -/

/-- The host port's outstanding table of a kind (R88). -/
def hostTable (l : LinkState) : LinkKind → List Nat
  | .read => l.hostReads
  | .write => l.hostWrites

/-- The first and last bytes lie in different 4 KiB pages (R87). -/
def crossesPage (addr : Addr) (count : Nat) : Bool :=
  addr.toNat / Config.pageBytes != (addr.toNat + 16 * count - 1) / Config.pageBytes

/-- The form check (R87): misaligned, bad beat count, page crossing, bad tag or duplicate tag. -/
def malformed (l : LinkState) (kind : LinkKind) (tag : Nat) (addr : Addr) (count : Nat) : Bool :=
  addr.toNat % 16 != 0 || count == 0 || 16 < count || crossesPage addr count || 31 < tag ||
    (hostTable l kind).contains tag

/-! ### The decision -/

/-- The decision for a beat in an image by the image's state and policy (R95). A write into an image in
BROKEN is forwarded, before a reopen as at any other time: R95 and R6 say so, where row 5 of R99 calls every
write before a reopen from a terminal state refused (DEDUCED, log 32). -/
def imageForwards (g : Image) : LinkKind → Bool
  | .read =>
    match g.state with
    | .declared | .filling | .finishing _ => g.declared.policy.readWhileLoading
    | .verified _ | .recorded _ => true
    | .mismatched _ | .broken _ => g.declared.policy.readAfterFail
  | .write =>
    match g.state with
    | .declared | .filling | .broken _ => true
    | .finishing _ | .verified _ | .recorded _ | .mismatched _ => false

/-- The decision for a beat in ARMED by its region (R94). -/
def armedForwards (m : MeasureState) (kind : LinkKind) : Region → Bool
  | .none => true
  | .window _ => kind == .read
  | .header b => kind == .read || b == 1
  | .record _ _ => kind == .read
  | .image i _ =>
    match m.image? i with
    | some g => imageForwards g kind
    | none => true

/-- The decision for a beat by phase and region (R92, R94). -/
def beatForwards (s : State) (kind : LinkKind) (r : Region) : Bool :=
  match s.manifest.phase with
  | .sensing => false
  | .unprovisioned | .manifestLoading | .rejected => true
  | .manifestCheck | .parsing | .lockout =>
    match kind, r with
    | .write, .window _ => false
    | _, _ => true
  | .armed => armedForwards s.measure kind r

/-- The whole-request rule (R90): forwarded when every beat is forwarded. -/
def requestForwards (s : State) (kind : LinkKind) (addr : Addr) (count : Nat) : Bool :=
  (classifyBeats s addr count).all (beatForwards s kind)

/-- The request lies in the manifest window (R87: wholly, if at all). -/
def inWindow (s : State) (addr : Addr) : Bool :=
  (windowOffset s.manifest.windowBase addr.toNat).isSome

end Sys2Proof.Machine
end

