-- ==== Sys2Proof/Machine/Ops.lean ====
section
/-! DEFINITION. Named operations over images, runs, engines and refill tags: the state-change rule
(R10), the break and reopen actions with their cascades (R12, R14, R128 to R131), teardown (R65),
verdicts (R8, R60) and readiness (R41). -/

namespace Sys2Proof.Machine

/-! ### Updates of one record -/

/-- Change the record of image i, if there is one. -/
def MeasureState.modImage (m : MeasureState) (i : Nat) (f : Image → Image) : MeasureState :=
  { m with images := if i = 0 then m.images else m.images.modify (i - 1) f }

/-- Change the record of an engine. -/
def MeasureState.modEngine (m : MeasureState) (e : EngineId) (f : Engine → Engine) : MeasureState :=
  { m with engines := m.engines.set e.val (f m.engines[e]) }

/-- The engine numbers, in increasing order. -/
def engineIds : List EngineId := [0, 1, 2, 3]

/-- Change the record of every engine. -/
def MeasureState.mapEngines (m : MeasureState) (f : Engine → Engine) : MeasureState :=
  { m with engines := #v[f m.engines[0], f m.engines[1], f m.engines[2], f m.engines[3]] }

/-- The refill tags as numbers 0 to 7, for tags 32 to 39 (R70). -/
def refillTagIds : List (Fin 8) := [0, 1, 2, 3, 4, 5, 6, 7]

/-- Set the record of a refill tag. -/
def MeasureState.setRefillTag (m : MeasureState) (t : Fin 8) (r : RefillTag) : MeasureState :=
  { m with refillTags := m.refillTags.set t.val r }

/-- Enqueue a subject: at the tail unless already queued (R142). -/
def MeasureState.enqueue (m : MeasureState) (subject : Nat) : MeasureState :=
  { m with subjects := joinTail m.subjects subject }

/-- What every state change and every reopen of an image does (R10): its transitions count rises,
saturating, and it is enqueued. -/
def MeasureState.noteChange (m : MeasureState) (i : Nat) : MeasureState :=
  (m.modImage i (fun g => { g with transitions := saturate (g.transitions + 1) })).enqueue i

/-- An image enters a state (R10). -/
def MeasureState.enter (m : MeasureState) (i : Nat) (st : ImageState) : MeasureState :=
  (m.modImage i (fun g => { g with state := st })).noteChange i

/-! ### Reading records -/

/-- The engine bound to image i: the engine binding of the record, seen from the engine (R47). -/
def MeasureState.bindingOf (m : MeasureState) (i : Nat) : Option EngineId :=
  engineIds.find? (fun e => m.engines[e].bound == some i)

/-- Some engine is promised to image i (R47). -/
def MeasureState.isClaimant (m : MeasureState) (i : Nat) : Bool :=
  engineIds.any (fun e => m.engines[e].claimant == some i)

/-- The state takes measured beats: DECLARED or FILLING (R25). -/
def ImageState.isOpen : ImageState → Bool
  | .declared | .filling => true
  | _ => false

/-- The break action applies: DECLARED, FILLING or FINISHING (R12). -/
def ImageState.isMeasuring : ImageState → Bool
  | .declared | .filling | .finishing _ => true
  | _ => false

/-- MISMATCHED or BROKEN (R136). -/
def ImageState.isFailed : ImageState → Bool
  | .mismatched _ | .broken _ => true
  | _ => false

/-- The result digest of VERIFIED and RECORDED, the two states that make dependents eligible and give
their seed (R126, R127). -/
def ImageState.goodResult : ImageState → Option Digest
  | .verified d | .recorded d => some d
  | _ => none

/-- Image i takes measured beats. -/
def MeasureState.isOpen (m : MeasureState) (i : Nat) : Bool :=
  (m.image? i).any (·.state.isOpen)

/-- The break action applies to image i. -/
def MeasureState.isMeasuring (m : MeasureState) (i : Nat) : Bool :=
  (m.image? i).any (·.state.isMeasuring)

/-- Beats of a run. -/
def RunBody.beatCount : RunBody → Nat
  | .staged beats => beats.length
  | .deferred count _ _ => count

/-- The image offset one past the run (R20). -/
def Run.stop (r : Run) : Nat := r.start + 16 * r.body.beatCount

/-- An engine can take the run's beats: STAGED, or DEFERRED and settled (R41). -/
def RunBody.takeable : RunBody → Bool
  | .staged _ => true
  | .deferred _ _ settled => settled

/-- The predecessor condition: none, or VERIFIED or RECORDED (R126). -/
def MeasureState.eligible (m : MeasureState) (g : Image) : Bool :=
  match g.declared.predecessor with
  | none => true
  | some p => ((m.image? p).bind (·.state.goodResult)).isSome

/-- The head run starts at the cursor with hand-off 0 and can be taken (R41). -/
def headReady (g : Image) : Bool :=
  match g.runs with
  | [] => false
  | r :: _ => r.start == g.cursor && g.handOff == 0 && r.body.takeable

/-- Readiness of a record (R41). -/
def MeasureState.readyImage (m : MeasureState) (g : Image) : Bool :=
  g.state == .filling && headReady g && m.eligible g

/-- Readiness of image i (R41). -/
def MeasureState.ready (m : MeasureState) (i : Nat) : Bool :=
  (m.image? i).any m.readyImage

/-! ### Run table and staging store -/

/-- Run entries an image uses. -/
def Image.entriesUsed (g : Image) : Nat := g.runs.length

/-- Staging slots a run uses: one per beat of a STAGED run (R22). -/
def RunBody.slots : RunBody → Nat
  | .staged beats => beats.length
  | .deferred _ _ _ => 0

/-- Staging slots an image uses. -/
def Image.slotsUsed (g : Image) : Nat := (g.runs.map (·.body.slots)).sum

/-- Run entries in use (R20). -/
def MeasureState.entriesUsed (m : MeasureState) : Nat := (m.images.map Image.entriesUsed).sum

/-- Staging slots in use (R22). -/
def MeasureState.slotsUsed (m : MeasureState) : Nat := (m.images.map Image.slotsUsed).sum

/-- The count of free run entries (R22). -/
def MeasureState.freeEntries (m : MeasureState) : Nat := Config.runEntries - m.entriesUsed

/-- The count of free staging slots (R22). -/
def MeasureState.freeSlots (m : MeasureState) : Nat := Config.stagingSlots - m.slotsUsed

/-! ### Teardown -/

/-- How an engine reacts when its bound image is broken or reopened (R65): at once FREE from
AWAITING_REFILL and HOLDING, otherwise its step runs on with the discard mark. Its park order is cleared;
its claimant and its reservation stay. -/
def Engine.teardown (e : Engine) : Engine :=
  match e.state with
  | .awaitingRefill | .holding | .free =>
    { e with state := .free, bound := none, parkOrder := false, context := none, delivered := [] }
  | .restoring | .absorbing _ | .parking | .finalizing =>
    { e with bound := none, discard := true, parkOrder := false, context := none, delivered := [] }

/-- The teardown of whatever engine is bound to image i. -/
def Engine.tearFrom (i : Nat) (e : Engine) : Engine :=
  if e.bound = some i then e.teardown else e

/-- The claim of image i is dropped (R52). -/
def Engine.dropClaim (i : Nat) (e : Engine) : Engine :=
  if e.claimant = some i then { e with claimant := none } else e

/-- The reservation for image i lapses (R64). -/
def Engine.lapse (i : Nat) (e : Engine) : Engine :=
  if e.reservation = some i then { e with reservation := none } else e

/-- A refill for image i is detached: the tag stays BUSY without an engine (R80). -/
def RefillTag.detach (i : Nat) : RefillTag → RefillTag
  | .busy img eng start count addr => .busy img (if img = i then none else eng) start count addr
  | t => t

/-- Detach every refill for image i (R80). -/
def MeasureState.detachRefills (m : MeasureState) (i : Nat) : MeasureState :=
  let f (t : Fin 8) := m.refillTags[t].detach i
  { m with refillTags := #v[f 0, f 1, f 2, f 3, f 4, f 5, f 6, f 7] }

/-- What the break and the reopen actions both do to the work on an image (R12 steps 2, 4, 5, 6; R14
steps 1, 3, 4, 5): runs and hand-off removed, the context-store slot not live, the wait list and any claim
left, the bound engine torn down, a pending refill request withdrawn (R73), an issued one detached (R80). -/
def MeasureState.dropWork (m : MeasureState) (i : Nat) : MeasureState :=
  let m := m.modImage i (fun g => { g with runs := [], handOff := 0, slot := none })
  let m := { m with waitList := leave m.waitList i,
                    refillPending := m.refillPending.filter (·.image != i) }
  (m.mapEngines (fun e => (e.tearFrom i).dropClaim i)).detachRefills i

/-! ### Dependents -/

/-- One image of the pass that collects the dependents of x. -/
def dependentStep (m : MeasureState) (x : Nat) (found : List Nat) (d : Nat) : List Nat :=
  match (m.image? d).bind (·.declared.predecessor) with
  | some p => if p = x ∨ p ∈ found then found ++ [d] else found
  | none => found

/-- The dependents of image x, in increasing index order (R125): every predecessor has a lower index, so
one pass in increasing order finds them all. -/
def MeasureState.dependents (m : MeasureState) (x : Nat) : List Nat :=
  m.indices.foldl (dependentStep m x) []

/-! ### Break -/

/-- The break action on one image (R12), without the cascade of its step 9: nothing unless the image is
in DECLARED, FILLING or FINISHING (R13). -/
def MeasureState.breakOne (m : MeasureState) (i : Nat) (why : BreakReason) : MeasureState :=
  if m.isMeasuring i then
    ((m.dropWork i).mapEngines (·.lapse i)).enter i (.broken why)
  else m

/-- The failure cascade from image x (R128, R129). -/
def MeasureState.failDependents (m : MeasureState) (x : Nat) : MeasureState :=
  (m.dependents x).foldl (fun m d => m.breakOne d .predecessorFailed) m

/-- The break action with its cascade (R12). -/
def MeasureState.breakImage (m : MeasureState) (i : Nat) (why : BreakReason) : MeasureState :=
  if m.isMeasuring i then (m.breakOne i why).failDependents i else m

/-! ### Verdict -/

/-- The state a verdict leads to (R6, R60). -/
def verdictState (g : Image) (r : PendingResult) : ImageState :=
  if g.declared.policy.measureOnly then .recorded r.digest
  else if r.matched then .verified r.digest
  else .mismatched r.digest

/-- FINISHING, the one state in which a verdict is taken (R6, R8). -/
def ImageState.isFinishing : ImageState → Bool
  | .finishing _ => true
  | _ => false

/-- The verdict on image i, in FINISHING (R8, R60): the image enters its verdict state, its reservation
lapses (R64), a VERIFIED image is recorded for the release lines (R133) and a MISMATCHED one starts the
cascade (R128). -/
def MeasureState.verdict (m : MeasureState) (i : Nat) (r : PendingResult) : MeasureState :=
  match m.image? i with
  | none => m
  | some g =>
    if g.state.isFinishing then
      let m := (m.mapEngines (·.lapse i)).enter i (verdictState g r)
      match verdictState g r with
      | .verified _ => { m with verified := joinTail m.verified i }
      | .mismatched _ => m.failDependents i
      | _ => m
    else m

/-! ### Reopen -/

/-- The displacement of whatever occupies an engine whose reservation is taken again (R64). -/
def MeasureState.displace (m : MeasureState) (e : EngineId) : MeasureState :=
  let eng := m.engines[e]
  match eng.state with
  | .holding => m.modEngine e (fun g => { g with state := .parking })
  | .restoring | .absorbing _ =>
    if eng.discard then m else m.modEngine e (fun g => { g with parkOrder := true })
  | .awaitingRefill =>
    if m.refillPending.any (·.engine == e) then
      { m with refillPending := m.refillPending.filter (·.engine != e) }.modEngine e
        (fun g => { g with state := .parking })
    else m.modEngine e (fun g => { g with parkOrder := true })
  | .parking =>
    match eng.claimant with
    | none => m
    | some y =>
      let m := m.modEngine e (fun g => { g with claimant := none })
      if m.ready y then { m with waitList := joinHead m.waitList y } else m
  | .free | .finalizing => m

/-- The reservation of a pinned image is taken again at its reopen (R14 step 9, R64). -/
def MeasureState.retake (m : MeasureState) (i : Nat) : MeasureState :=
  match (m.image? i).bind (·.declared.pin) with
  | none => m
  | some e => (m.modEngine e (fun g => { g with reservation := some i })).displace e

/-- An image leaves the recorded set of every write entry (R9, R14 step 6). -/
def forgetWrites (i : Nat) (entries : List WriteEntry) : List WriteEntry :=
  entries.map (fun w => { w with recorded := w.recorded.filter (·.1 != i) })

/-- The reopen action on one image (R14). -/
def MeasureState.reopenOne (m : MeasureState) (i : Nat) : MeasureState :=
  let m := m.dropWork i
  let m := { m with entries := forgetWrites i m.entries }
  let m := m.modImage i (fun g => { g with cursor := 0, epoch := g.epoch + 1, inFlight := 0 })
  (m.enter i .declared).retake i

/-- The closure of image x reopened, x first, then its dependents in increasing index order (R131). -/
def MeasureState.reopenClosure (m : MeasureState) (x : Nat) : MeasureState :=
  (x :: m.dependents x).foldl (fun m d => m.reopenOne d) m

/-- A dependent that locks the closure of x: VERIFIED or RECORDED with REOPENABLE clear (R130). -/
def MeasureState.locked (m : MeasureState) (x : Nat) : Bool :=
  (m.dependents x).any (fun d =>
    (m.image? d).any (fun g => g.state.goodResult.isSome && !g.declared.policy.reopenable))

end Sys2Proof.Machine
end

