-- ==== Sys2Proof/Machine/Flags.lean ====
section
/-! DEFINITION. The output lines: RLS0, RLS1 and FAULT, from the states of the part (R133 to R137). -/

namespace Sys2Proof.Machine

/-- Every member of a release set is in the verified record (R134). -/
def allVerified (verified : List Nat) (set : BitVec 32) : Bool :=
  (List.range 32).all (fun i => !set.getLsbD i || verified.contains i)

/-- Images in MISMATCHED or BROKEN (R136). -/
def MeasureState.failedCount (m : MeasureState) : Nat := (m.images.filter (·.state.isFailed)).length

/-- The four conditions of FAULT (R136). -/
def faultCondition (s : State) : Bool :=
  0 < s.measure.failedCount || s.manifest.phase == .rejected || s.manifest.phase == .lockout ||
    s.report.channel == .halted || s.manifest.revocation == some .failed

/-- The conditions under which the release lines assert: in ARMED their sets (R134), in UNPROVISIONED both
(R135). -/
def releaseCondition (s : State) : Bool × Bool :=
  match s.manifest.phase, s.lines.sets with
  | .unprovisioned, _ => (true, true)
  | .armed, some (set0, set1) =>
    (allVerified s.measure.verified set0, allVerified s.measure.verified set1)
  | _, _ => (false, false)

/-- The lines after an event: a release line once asserted stays asserted (R134), FAULT follows its
conditions (R136). -/
def updateLines (s : State) : LineState :=
  { s.lines with rls0 := s.lines.rls0 || (releaseCondition s).1,
                 rls1 := s.lines.rls1 || (releaseCondition s).2,
                 fault := faultCondition s }

end Sys2Proof.Machine
end

