-- ==== Sys2Proof/Machine/Digest.lean ====
section
/-! DEFINITION. SHA-256, the public hash function that R45 takes as a fixed function of a byte string,
and the contexts of R46. Its constants and round function are the public standard's (log 13). -/

namespace Sys2Proof.Machine

/-- The function's initial value (R46). -/
def initialHash : HashState :=
  { a := 0x6a09e667, b := 0xbb67ae85, c := 0x3c6ef372, d := 0xa54ff53a, e := 0x510e527f, f := 0x9b05688c, g := 0x1f83d9ab, h := 0x5be0cd19 }

/-- The 64 round constants. -/
def roundConstants : List W32 :=
  [0x428a2f98, 0x71374491, 0xb5c0fbcf, 0xe9b5dba5, 0x3956c25b, 0x59f111f1, 0x923f82a4, 0xab1c5ed5] ++
  [0xd807aa98, 0x12835b01, 0x243185be, 0x550c7dc3, 0x72be5d74, 0x80deb1fe, 0x9bdc06a7, 0xc19bf174] ++
  [0xe49b69c1, 0xefbe4786, 0x0fc19dc6, 0x240ca1cc, 0x2de92c6f, 0x4a7484aa, 0x5cb0a9dc, 0x76f988da] ++
  [0x983e5152, 0xa831c66d, 0xb00327c8, 0xbf597fc7, 0xc6e00bf3, 0xd5a79147, 0x06ca6351, 0x14292967] ++
  [0x27b70a85, 0x2e1b2138, 0x4d2c6dfc, 0x53380d13, 0x650a7354, 0x766a0abb, 0x81c2c92e, 0x92722c85] ++
  [0xa2bfe8a1, 0xa81a664b, 0xc24b8b70, 0xc76c51a3, 0xd192e819, 0xd6990624, 0xf40e3585, 0x106aa070] ++
  [0x19a4c116, 0x1e376c08, 0x2748774c, 0x34b0bcb5, 0x391c0cb3, 0x4ed8aa4a, 0x5b9cca4f, 0x682e6ff3] ++
  [0x748f82ee, 0x78a5636f, 0x84c87814, 0x8cc70208, 0x90befffa, 0xa4506ceb, 0xbef9a3f7, 0xc67178f2]

/-- Big-endian words of a block. -/
def blockWords : List Byte → List W32
  | p :: q :: r :: s :: rest => (p ++ q ++ r ++ s) :: blockWords rest
  | _ => []

/-- The message schedule's next word, from the last sixteen. -/
def scheduleNext (w : List W32) : W32 :=
  let x := w.getD 1 0
  let y := w.getD 14 0
  (y.rotateRight 17 ^^^ y.rotateRight 19 ^^^ y >>> 10) + w.getD 9 0 +
    (x.rotateRight 7 ^^^ x.rotateRight 18 ^^^ x >>> 3) + w.getD 0 0

/-- One round, with its constant and its schedule word. -/
def hashRound (s : HashState) (k w : W32) : HashState :=
  let t1 := s.h + (s.e.rotateRight 6 ^^^ s.e.rotateRight 11 ^^^ s.e.rotateRight 25) +
    ((s.e &&& s.f) ^^^ (~~~s.e &&& s.g)) + k + w
  let t2 := (s.a.rotateRight 2 ^^^ s.a.rotateRight 13 ^^^ s.a.rotateRight 22) +
    ((s.a &&& s.b) ^^^ (s.a &&& s.c) ^^^ (s.b &&& s.c))
  { a := t1 + t2, b := s.a, c := s.b, d := s.c, e := s.d + t1, f := s.e, g := s.f, h := s.g }

/-- The rounds over the constants left, with the window of the last sixteen schedule words. -/
def hashRounds : List W32 → List W32 → HashState → HashState
  | [], _, s => s
  | k :: ks, w, s => hashRounds ks (w.tail ++ [scheduleNext w]) (hashRound s k (w.headD 0))

/-- Compression of a 64-byte block into the hash state (R46). -/
def compress (s : HashState) (block : List Byte) : HashState :=
  let r := hashRounds roundConstants (blockWords block) s
  { a := s.a + r.a, b := s.b + r.b, c := s.c + r.c, d := s.d + r.d,
    e := s.e + r.e, f := s.f + r.f, g := s.g + r.g, h := s.h + r.h }

/-- The hash state read out as 32 bytes (R59). -/
def hashDigest (s : HashState) : Digest :=
  digestOfBytes ([s.a, s.b, s.c, s.d, s.e, s.f, s.g, s.h].flatMap (fun x => beBytes 4 x.toNat))

/-! ### Contexts -/

/-- A fresh context (R53). -/
def freshContext : Context := { hash := initialHash, block := [], total := 0, seeded := false }

/-- Bytes enter the partial block at the beginning of a step (R46, R57; log 18). -/
def takeBytes (c : Context) (bytes : List Byte) : Context :=
  { c with block := c.block ++ bytes, total := c.total + bytes.length }

/-- The predecessor's result digest enters as the seed (R53). -/
def takeSeed (c : Context) (seed : Digest) : Context :=
  { takeBytes c (digestBytes seed) with seeded := true }

/-- A full block is compressed within the step (R46, R57). -/
def compressFull (c : Context) : Context :=
  if 64 ≤ c.block.length then
    { c with hash := compress c.hash (c.block.take 64), block := c.block.drop 64 }
  else c

/-- The closing block: the partial block, the byte 80H, zero bytes, and the bit count as eight bytes most
significant first (R59). -/
def closingBlock (c : Context) : List Byte :=
  c.block ++ [0x80] ++ List.replicate (55 - c.block.length) 0 ++ beBytes 8 (8 * c.total)

/-- The result of finalisation (R59). -/
def finalResult (c : Context) : Digest := hashDigest (compress c.hash (closingBlock c))

/-- The digest of a byte string that comes in whole beats, as an engine computes it step by step (R45). -/
def digestOfBeats (beats : List Beat) : Digest :=
  finalResult (beats.foldl (fun c b => compressFull (takeBytes c (beatBytes b))) freshContext)

end Sys2Proof.Machine
end

