-- ==== Sys2Proof/Machine/Pool.lean ====
section
/-! DEFINITION. The engine pool and the refill unit at work: beats taken (R39, R57), the next-step choice
(R55), grants (R53), the arbiter (R51), readiness acted on (R42, R50, R56, R63), refill requests, chunks
and their issue (R72 to R75, R81). -/

namespace Sys2Proof.Machine

/-! ### Taking beats -/

/-- An image takes one beat into its context (R18): the cursor rises by 16. -/
def Image.advance (g : Image) : Image := { g with cursor := g.cursor + 16 }

/-- The head run loses its lowest beat, and is removed when none is left (R39). -/
def dropStagedBeat : List Run → List Run
  | { start := start, body := .staged (_ :: b :: rest) } :: runs =>
    { start := start + 16, body := .staged (b :: rest) } :: runs
  | { start := _, body := .staged _ } :: runs => runs
  | runs => runs

/-- The data of the head run's lowest slot (R39). -/
def headStagedBeat : List Run → Option Beat
  | { start := _, body := .staged (b :: _) } :: _ => some b
  | _ => none

/-- A beat step begins on an engine (R57): the bytes enter the context, and the engine is ABSORBING. -/
def Engine.absorb (data : Beat) (e : Engine) : Engine :=
  { e with state := .absorbing .beat, context := e.context.map (takeBytes · (beatBytes data)) }

/-- The image, in FILLING, enters FINISHING when the cursor has reached its length (R6, R18, R59). -/
def MeasureState.finishIfWhole (m : MeasureState) (i : Nat) : MeasureState :=
  if (m.image? i).any (fun g => g.state == .filling && g.cursor == g.declared.length) then
    m.enter i (.finishing none)
  else m

/-- Engine e takes the lowest staged beat of its image's head run (R39, R57). -/
def MeasureState.takeStaged (m : MeasureState) (e : EngineId) (i : Nat) : MeasureState :=
  match (m.image? i).bind (fun g => headStagedBeat g.runs) with
  | none => m
  | some data =>
    let m := m.modEngine e (·.absorb data)
    (m.modImage i (fun g => { g.advance with runs := dropStagedBeat g.runs })).finishIfWhole i

/-- Engine e takes the next delivered beat (R40, R58). -/
def MeasureState.takeDelivered (m : MeasureState) (e : EngineId) (i : Nat) : MeasureState :=
  match m.engines[e].delivered with
  | [] => m
  | data :: rest =>
    let m := m.modEngine e (fun g => { g.absorb data with delivered := rest })
    (m.modImage i (fun g => { g.advance with handOff := g.handOff - 1 })).finishIfWhole i

/-! ### The next-step choice -/

/-- An engine enters HOLDING at this instant (R55 case 6). -/
def MeasureState.hold (m : MeasureState) (e : EngineId) : MeasureState :=
  m.modEngine e (fun g => { g with state := .holding, holdingSince := m.now })

/-- The next-step choice of an engine with a bound image (R55). Case 5 leaves the engine in
AWAITING_REFILL; its request is made by `requestRefills`, in engine order (R72). -/
def MeasureState.choose (m : MeasureState) (e : EngineId) : MeasureState :=
  match m.engines[e].bound with
  | none => m
  | some i =>
    match m.image? i with
    | none => m
    | some g =>
      if g.cursor = g.declared.length then m.modEngine e (fun x => { x with state := .finalizing })
      else if 0 < g.handOff then m.takeDelivered e i
      else if m.engines[e].parkOrder then
        m.modEngine e (fun x => { x with state := .parking, parkOrder := false })
      else if m.readyImage g then
        match g.runs with
        | { start := _, body := .staged _ } :: _ => m.takeStaged e i
        | _ => m.modEngine e (fun x => { x with state := .awaitingRefill })
      else m.hold e

/-! ### Grants -/

/-- A grant of engine e to image i (R53): the parked context is restored, or a fresh context is created,
with the seed step when the image has a predecessor. -/
def MeasureState.grant (m : MeasureState) (e : EngineId) (i : Nat) : MeasureState :=
  match m.image? i with
  | none => m
  | some g =>
    let m := { m with waitList := leave m.waitList i }
    match g.slot with
    | some _ =>
      m.modEngine e (fun x => { x with bound := some i, state := .restoring, claimant := none })
    | none =>
      let seed := (g.declared.predecessor.bind m.image?).bind (·.state.goodResult)
      match seed with
      | some d =>
        m.modEngine e (fun x => { x with bound := some i, state := .absorbing .seed, claimant := none,
                                         context := some (takeSeed freshContext d) })
      | none =>
        (m.modEngine e (fun x => { x with bound := some i, claimant := none,
                                          context := some freshContext })).choose e

/-! ### The arbiter -/

/-- The lowest-numbered FREE engine without a reservation (R51). -/
def MeasureState.freeEngine (m : MeasureState) : Option EngineId :=
  engineIds.find? (fun e => m.engines[e].state == .free && m.engines[e].reservation.isNone)

/-- The engine may be evicted: HOLDING, no reservation, no claimant (R51). -/
def Engine.evictable (e : Engine) : Bool :=
  e.state == .holding && e.reservation.isNone && e.claimant.isNone

/-- The evictable engine with the earliest holding-since instant, the lowest-numbered of equals (R51). -/
def MeasureState.evictionChoice (m : MeasureState) : Option EngineId :=
  engineIds.foldl (fun best e =>
    if m.engines[e].evictable then
      match best with
      | none => some e
      | some b => if m.engines[e].holdingSince < m.engines[b].holdingSince then some e else best
    else best) none

/-- One action of the arbiter for the head image, if one is possible (R51). -/
def MeasureState.arbitrateOne (m : MeasureState) : Option MeasureState :=
  match m.waitList with
  | [] => none
  | i :: rest =>
    match m.freeEngine with
    | some e => some ({ m with waitList := rest }.grant e i)
    | none =>
      match m.evictionChoice with
      | some e =>
        some ({ m with waitList := rest }.modEngine e
          (fun x => { x with state := .parking, claimant := some i }))
      | none => none

/-- The arbiter repeats while the list is non-empty and an action is possible (R51); each action takes
one image off the list, so the length of the list bounds the repetitions. -/
def MeasureState.arbitrate : Nat → MeasureState → MeasureState
  | 0, m => m
  | n + 1, m =>
    match m.arbitrateOne with
    | some m' => m'.arbitrate n
    | none => m

/-! ### Readiness acted on -/

/-- The engine of a pending request whose image is no longer ready enters HOLDING (R58, R73). -/
def MeasureState.withdrawUnready (m : MeasureState) : MeasureState :=
  let stale := m.refillPending.filter (fun r => !m.ready r.image)
  let m' := { m with refillPending := m.refillPending.filter (fun r => m.ready r.image) }
  stale.foldl (fun m r => m.hold r.engine) m'

/-- The claim of an engine whose claimant is no longer ready is dropped (R52), and images no longer ready
leave the wait list (R50). -/
def MeasureState.dropUnready (m : MeasureState) : MeasureState :=
  let m := m.mapEngines (fun e => if e.claimant.any (fun i => !m.ready i) then { e with claimant := none } else e)
  { m with waitList := m.waitList.filter m.ready }

/-- A HOLDING engine whose bound image is ready resumes (R56). -/
def MeasureState.resumeHolding (m : MeasureState) (e : EngineId) : MeasureState :=
  if m.engines[e].state == .holding && m.engines[e].bound.any m.ready then m.choose e else m

/-- A ready pinned image without an engine is granted its FREE reserved engine (R63). -/
def MeasureState.grantPinned (m : MeasureState) (e : EngineId) : MeasureState :=
  match m.engines[e].reservation with
  | some p =>
    if m.engines[e].state == .free && m.ready p && (m.bindingOf p).isNone then m.grant e p else m
  | none => m

/-- Image i belongs in the wait list: ready, no engine, no pinned engine, no claimant (R50). -/
def MeasureState.mayWait (m : MeasureState) (i : Nat) : Bool :=
  m.ready i && (m.bindingOf i).isNone && !m.isClaimant i &&
    ((m.image? i).bind (·.declared.pin)).isNone

/-- Images that come to wait join the tail in increasing index order (R50). -/
def MeasureState.joinWaiting (m : MeasureState) : MeasureState :=
  { m with waitList := (m.indices.filter m.mayWait).foldl joinTail m.waitList }

/-- What the pool does at the end of an event, at that same instant (R42, R50, R51, R56, R63; the order
inside one event is log 8). -/
def MeasureState.settlePool (m : MeasureState) : MeasureState :=
  let m := m.withdrawUnready.dropUnready
  let m := engineIds.foldl MeasureState.resumeHolding m
  let m := engineIds.foldl MeasureState.grantPinned m
  let m := m.joinWaiting
  m.arbitrate m.waitList.length

/-! ### Refill requests -/

/-- The engine has an issued refill that is attached to it (R70). -/
def MeasureState.hasIssued (m : MeasureState) (e : EngineId) : Bool :=
  refillTagIds.any (fun t =>
    match m.refillTags[t] with
    | .busy _ eng _ _ _ => eng == some e
    | _ => false)

/-- The request an engine in AWAITING_REFILL has yet to make (R72). -/
def MeasureState.newRequest (m : MeasureState) (e : EngineId) : Option RefillRequest :=
  if m.engines[e].state == .awaitingRefill && !m.refillPending.any (·.engine == e) && !m.hasIssued e then
    m.engines[e].bound.map (fun i => { engine := e, image := i })
  else none

/-- The requests made at one event join the pending list in increasing order of engine number (R72). -/
def MeasureState.requestRefills (m : MeasureState) : MeasureState :=
  { m with refillPending := m.refillPending ++ engineIds.filterMap m.newRequest }

/-- The segment of image i that holds image offset x (R3). -/
def segmentOf (segments : List Segment) (i x : Nat) : Option Segment :=
  segments.find? (fun g => g.owner == some i && g.imageOffset ≤ x && x < g.imageOffset + g.length)

/-- The chunk of a DEFERRED head run (R74): its address, its start offset and its beat count, the least of
16, the run, the segment end and the 4 KiB address page. -/
def chunkOf (segments : List Segment) (i : Nat) (r : Run) : Option (Nat × Nat × Nat) :=
  (segmentOf segments i r.start).map (fun g =>
    let address := g.base + (r.start - g.imageOffset)
    let toSegmentEnd := (g.imageOffset + g.length - r.start) / 16
    let toPageEnd := (Config.pageBytes - address % Config.pageBytes) / 16
    (address, r.start, min (min 16 r.body.beatCount) (min toSegmentEnd toPageEnd)))

/-- The lowest-numbered FREE refill tag (R75). -/
def MeasureState.freeRefillTag (m : MeasureState) : Option (Fin 8) :=
  refillTagIds.find? (fun t => m.refillTags[t] == .free)

/-- The issue of one request (R75): the tag becomes BUSY and ATTACHED, and a READ is created for the
own-request queue. -/
def MeasureState.issueRefill (m : MeasureState) (r : RefillRequest) : Option (MeasureState × LinkRequest) :=
  match m.freeRefillTag, ((m.image? r.image).bind (·.runs.head?)).bind (chunkOf m.segments r.image) with
  | some t, some (address, start, count) =>
    some (m.setRefillTag t (.busy r.image (some r.engine) start count address),
      .read (32 + t.val) (BitVec.ofNat 40 address) count)
  | _, _ => none

/-- The pending list served from its head while a tag is FREE (R72, R81): what stays in the list, and the
reads created. -/
def MeasureState.serveFrom (m : MeasureState) :
    List RefillRequest → MeasureState × List RefillRequest × List LinkRequest
  | [] => (m, [], [])
  | r :: rest =>
    match m.issueRefill r with
    | none =>
      let later := m.serveFrom rest
      (later.1, r :: later.2.1, later.2.2)
    | some issued =>
      let later := issued.1.serveFrom rest
      (later.1, later.2.1, issued.2 :: later.2.2)

/-- The refill unit at the end of an event: new requests join the pending list, and the list is served. -/
def MeasureState.serveRefills (m : MeasureState) : MeasureState × List LinkRequest :=
  let asked := m.requestRefills
  let served := asked.serveFrom asked.refillPending
  ({ served.1 with refillPending := served.2.1 }, served.2.2)

end Sys2Proof.Machine
end

