-- ==== Sys2Proof/Machine/Manifest.lean ====
section
/-! DEFINITION. The manifest unit: the buffer (R106), the handling of window beats (R107, R108), failed
attempts (R119), absorption on engine 0 (R109, R111), the anchor check (R112), the parse checks (R113 to
R117) and the tables (R2, R3, R118), and the revocation decision (R121). -/

namespace Sys2Proof.Machine

/-! ### The manifest buffer -/

/-- The canonical form of the buffer: window offsets strictly rising (R106). -/
def bufferWf (buffer : List (Nat × Beat)) : Bool := decide ((buffer.map (·.1)).Pairwise (· < ·))

/-- The beat at a window offset, if it is present. -/
def bufferAt (buffer : List (Nat × Beat)) (offset : Nat) : Option Beat :=
  (buffer.find? (·.1 == offset)).map (·.2)

/-- A beat becomes present. -/
def bufferPut (offset : Nat) (data : Beat) : List (Nat × Beat) → List (Nat × Beat)
  | [] => [(offset, data)]
  | x :: rest =>
    if offset < x.1 then (offset, data) :: x :: rest
    else if offset = x.1 then (offset, data) :: rest
    else x :: bufferPut offset data rest

/-- Beats at or above an offset are dropped (R108). -/
def bufferDrop (limit : Nat) (buffer : List (Nat × Beat)) : List (Nat × Beat) :=
  buffer.filter (fun x => decide (x.1 < limit))

/-- The byte at a window offset; of a beat that is not present, a free value (log 12). -/
def bufferByte (buffer : List (Nat × Beat)) (offset : Nat) : Byte :=
  match bufferAt buffer (offset / 16 * 16) with
  | some b => beatByte b (offset % 16)
  | none => Config.absentBufferByte offset

/-- The n bytes from a window offset on. -/
def bufferBytes (buffer : List (Nat × Beat)) (offset n : Nat) : List Byte :=
  (List.range n).map (fun k => bufferByte buffer (offset + k))

/-- The little-endian field of n bytes at a window offset (R175). -/
def bufferField (buffer : List (Nat × Beat)) (offset n : Nat) : Nat :=
  littleEndian (bufferBytes buffer offset n)

/-! ### Attempts -/

/-- The loading state at the start of loading (R106) and after a failed attempt (R119). -/
def ManifestState.clearLoading (u : ManifestState) : ManifestState :=
  { u with buffer := [], length := none, absorbOffset := 0, windowWrites := [] }

/-- Engine 0 at a failed attempt (R119 step 3): a step in progress runs on with its result to be
discarded, and a HOLDING engine is FREE at once. -/
def Engine.releaseManifest (e : Engine) : Engine :=
  if e.manifest then
    match e.state with
    | .holding => { e with state := .free, context := none, manifest := false }
    | _ => { e with discard := true, context := none }
  else e

/-- The attempt fails (R119). -/
def State.failAttempt (s : State) (why : RejectReason) : State :=
  let count := s.manifest.attempts + 1
  { s with
    manifest := { s.manifest.clearLoading with
      attempts := count, lastReason := some why, checked := none,
      phase := if 3 ≤ count then .lockout else .rejected },
    measure := s.measure.modEngine 0 Engine.releaseManifest }

/-! ### Window beats -/

/-- The manifest length in bytes, when it is known. -/
def ManifestState.lengthBytes (u : ManifestState) : Option Nat := u.length.map (64 * ·)

/-- The length field of beat 0, bytes 4 and 5 (R108). -/
def lengthField (b : Beat) : Nat := littleEndian [beatByte b 4, beatByte b 5]

/-- A beat becomes present, and at offset 0 brings the length (R107, R108). -/
def State.presentBeat (s : State) (offset : Nat) (data : Beat) : State :=
  let u := { s.manifest with buffer := bufferPut offset data s.manifest.buffer }
  let s := { s with manifest := u }
  if offset = 0 then
    let n := lengthField data
    if n = 0 ∨ 64 < n then s.failAttempt .badLength
    else { s with manifest := { u with length := some n, buffer := bufferDrop (64 * n) u.buffer } }
  else s

/-- One window beat of a write, under the first case that applies (R107); after a failure the later beats
of the write are not handled. -/
def State.windowBeat (s : State) (offset : Nat) (b : WriteBeat) : State :=
  if s.manifest.phase ≠ .manifestLoading then s
  else if s.manifest.lengthBytes.any (fun n => decide (n ≤ offset)) then s
  else if beatEmpty b then s
  else if beatPartial b then s.failAttempt .partialBeat
  else if (bufferAt s.manifest.buffer offset).isSome then s.failAttempt .rewrite
  else s.presentBeat offset b.data

/-- The beats of a write, in address order from a window offset on. -/
def State.windowBeats (s : State) : Nat → List WriteBeat → State
  | _, [] => s
  | offset, b :: rest => (s.windowBeat offset b).windowBeats (offset + 16) rest

/-- A forwarded window write in MANIFEST_LOADING (R107): its tag joins the window write set, then its
beats are handled. -/
def State.windowWrite (s : State) (tag : Nat) (addr : Addr) (beats : List WriteBeat) : State :=
  let s := { s with manifest := { s.manifest with windowWrites := joinTail s.manifest.windowWrites tag } }
  s.windowBeats (addr.toNat - s.manifest.windowBase.toNat) beats

/-- The acceptance in REJECTED of a window write starts a new attempt (R93). -/
def State.startAttempt (s : State) : State :=
  if s.manifest.phase = .rejected then
    { s with manifest := { s.manifest.clearLoading with phase := .manifestLoading } }
  else s

/-! ### Absorption -/

/-- Engine 0 has no step in progress: FREE, or HOLDING for the manifest unit (R109). -/
def Engine.idleForManifest (e : Engine) : Bool :=
  e.state == .free || (e.manifest && e.state == .holding)

/-- Engine 0 begins a beat step of the manifest (R109). -/
def Engine.absorbManifest (data : Beat) (e : Engine) : Engine :=
  { e with state := .absorbing .beat, manifest := true,
           context := some (takeBytes (if e.state = .free then freshContext else e.context.getD freshContext)
             (beatBytes data)) }

/-- What the manifest unit does at the end of an event in MANIFEST_LOADING: engine 0 takes the beat at
the absorb offset when it is present (R109), and when all are absorbed and no window write is in flight the
phase moves to MANIFEST_CHECK and engine 0 to FINALIZING (R111). -/
def State.advanceManifest (s : State) : State :=
  match s.manifest.phase, s.manifest.lengthBytes with
  | .manifestLoading, some whole =>
    if !s.measure.engines[(0 : EngineId)].idleForManifest then s
    else if s.manifest.absorbOffset < whole then
      match bufferAt s.manifest.buffer s.manifest.absorbOffset with
      | some data =>
        { s with
          manifest := { s.manifest with absorbOffset := s.manifest.absorbOffset + 16 },
          measure := s.measure.modEngine 0 (·.absorbManifest data) }
      | none => s
    else if s.manifest.windowWrites.isEmpty then
      { s with
        manifest := { s.manifest with phase := .manifestCheck },
        measure := s.measure.modEngine 0 (fun e => { e with state := .finalizing }) }
    else s
  | _, _ => s

/-- The manifest unit at a write response (R110). -/
def State.windowAnswered (s : State) (tag : Nat) (status : LinkStatus) : State :=
  if s.manifest.windowWrites.contains tag then
    let s := { s with manifest := { s.manifest with windowWrites := leave s.manifest.windowWrites tag } }
    if status = .ok then s else s.failAttempt .writeFault
  else s

/-! ### The anchor check -/

/-- The slot under which a manifest with this digest is accepted, if any (R112). -/
def acceptingSlot (anchors : Anchors) (digest : Digest) : Option AnchorSlot :=
  if anchors.primary = .programmed digest then some .primary
  else if anchors.alternate = some digest then some .alternate
  else none

/-! ### Parsing -/

/-- The manifest header (R176). -/
structure ManifestHeader where
  version : Nat
  imageCount : Nat
  segmentCount : Nat
  revokePrimary : Bool
  reportBase : Nat
  recordCount : Nat
  set0 : BitVec 32
  set1 : BitVec 32
  deriving DecidableEq, Repr

/-- The header read from the buffer (R176). -/
def readHeader (buffer : List (Nat × Beat)) : ManifestHeader :=
  { version := bufferField buffer 0 1, imageCount := bufferField buffer 1 1,
    segmentCount := bufferField buffer 2 1, revokePrimary := (bufferByte buffer 3).getLsbD 0,
    reportBase := bufferField buffer 8 8, recordCount := bufferField buffer 16 2,
    set0 := BitVec.ofNat 32 (bufferField buffer 20 4), set1 := BitVec.ofNat 32 (bufferField buffer 24 4) }

/-- An image record of the manifest (R177). -/
structure ImageFields where
  policy : Policy
  predecessor : Nat
  pin : Nat
  first : Nat
  count : Nat
  expected : Digest
  deriving DecidableEq, Repr

/-- The record of image i, at 40H + 64 × (i − 1) (R176, R177). -/
def readImage (buffer : List (Nat × Beat)) (i : Nat) : ImageFields :=
  let at0 := 64 + 64 * (i - 1)
  let flags := bufferByte buffer at0
  { policy := { readWhileLoading := flags.getLsbD 0, readAfterFail := flags.getLsbD 1,
                reopenable := flags.getLsbD 2, measureOnly := flags.getLsbD 3 },
    predecessor := bufferField buffer (at0 + 1) 1, pin := bufferField buffer (at0 + 2) 1,
    first := bufferField buffer (at0 + 3) 1, count := bufferField buffer (at0 + 4) 1,
    expected := digestOfBytes (bufferBytes buffer (at0 + 32) 32) }

/-- A segment record of the manifest (R177). -/
structure SegmentFields where
  base : Nat
  length : Nat
  deriving DecidableEq, Repr

/-- The record of entry e, at 40H + 64 × image count + 16 × e (R176, R177). -/
def readSegment (buffer : List (Nat × Beat)) (imageCount e : Nat) : SegmentFields :=
  let at0 := 64 + 64 * imageCount + 16 * e
  { base := bufferField buffer at0 8, length := bufferField buffer (at0 + 8) 4 }

/-- All of the manifest's contents. -/
structure Contents where
  header : ManifestHeader
  images : List ImageFields
  segments : List SegmentFields
  deriving DecidableEq, Repr

/-- The contents, images 1 to the image count and entries 0 to the segment count minus 1 (R113). -/
def readContents (buffer : List (Nat × Beat)) : Contents :=
  let h := readHeader buffer
  { header := h,
    images := (List.range h.imageCount).map (fun k => readImage buffer (k + 1)),
    segments := (List.range h.segmentCount).map (readSegment buffer h.imageCount) }

/-- Some two entries of a list, the first before the second, stand in the relation. -/
def anyPair {α : Type} (related : α → α → Bool) : List α → Bool
  | [] => false
  | x :: rest => rest.any (related x) || anyPair related rest

/-- Two half-open ranges share a place. -/
def rangesMeet (x y : Nat × Nat) : Bool := x.1 < y.2 && y.1 < x.2

/-- Checks 1 to 4, on the header and the length alone (R114). -/
def checkCounts (h : ManifestHeader) (lengthBytes : Nat) : Option RejectReason :=
  if h.version ≠ 1 then some .badVersion
  else if 31 < h.imageCount then some .tooManyImages
  else if 64 < h.segmentCount then some .tooManySegments
  else if lengthBytes < 64 + 64 * h.imageCount + 16 * h.segmentCount then some .badLength
  else none

/-- The range of entries an image record gives. -/
def entryRange (i : ImageFields) : Nat × Nat := (i.first, i.first + i.count)

/-- Check 5 fails (R115). -/
def badSegmentLists (c : Contents) : Bool :=
  c.images.any (fun i => i.count == 0 || 8 < i.count || c.header.segmentCount < i.first + i.count) ||
    anyPair rangesMeet (c.images.map entryRange)

/-- Check 6 fails for a segment record (R115). -/
def badSegmentRecord (g : SegmentFields) : Bool :=
  g.base % 16 != 0 || g.length % 16 != 0 || g.length == 0 || 0x1000000 < g.length ||
    Config.addressEnd < g.base + g.length

/-- The bytes of the report area (R139). -/
def areaBytes (n : Nat) : Nat := 64 + 64 * n

/-- Check 7 fails (R116). -/
def badReportArea (h : ManifestHeader) : Bool :=
  h.reportBase % 64 != 0 || !([8, 16, 32, 64, 128, 256].contains h.recordCount) ||
    Config.addressEnd < h.reportBase + areaBytes h.recordCount

/-- The ranges that check 8 compares: every segment entry, the manifest window and the report area (R116). -/
def placedRanges (c : Contents) (windowBase : Addr) : List (Nat × Nat) :=
  c.segments.map (fun g => (g.base, g.base + g.length)) ++
    [(windowBase.toNat, windowBase.toNat + Config.windowBytes),
     (c.header.reportBase, c.header.reportBase + areaBytes c.header.recordCount)]

/-- Check 9 fails: a predecessor byte that is neither 0 nor a lower index (R117). -/
def badPredecessors (c : Contents) : Bool :=
  (List.range c.images.length).any (fun k =>
    (c.images[k]?).any (fun i => decide (k + 1 ≤ i.predecessor)))

/-- The pins given, FFH giving none (R177). -/
def pinsGiven (c : Contents) : List Nat := (c.images.map (·.pin)).filter (· != 0xFF)

/-- Check 10 fails (R117). -/
def badPins (c : Contents) : Bool :=
  (pinsGiven c).any (fun p => decide (3 < p)) || anyPair (· == ·) (pinsGiven c) ||
    decide (2 < (pinsGiven c).length)

/-- Check 11 fails for a release set (R117). -/
def badReleaseSet (c : Contents) (set : BitVec 32) : Bool :=
  (List.range 32).any (fun i => set.getLsbD i &&
    (i == 0 || decide (c.header.imageCount < i) ||
      (c.images[i - 1]?).any (·.policy.measureOnly)))

/-- Checks 5 to 11, in order (R115 to R117). -/
def checkContents (c : Contents) (windowBase : Addr) : Option RejectReason :=
  if badSegmentLists c then some .tooManySegments
  else if c.segments.any badSegmentRecord then some .badSegment
  else if badReportArea c.header then some .badReportArea
  else if anyPair rangesMeet (placedRanges c windowBase) then some .overlap
  else if badPredecessors c then some .badPredecessor
  else if badPins c then some .badPin
  else if badReleaseSet c c.header.set0 || badReleaseSet c c.header.set1 then some .badReleaseSet
  else none

/-- The parse checks in order (R113): the first that fails gives the reason, and no record is read before
the length check has passed. -/
def parseManifest (buffer : List (Nat × Beat)) (lengthBytes : Nat) (windowBase : Addr) :
    Except RejectReason Contents :=
  match checkCounts (readHeader buffer) lengthBytes with
  | some why => .error why
  | none =>
    match checkContents (readContents buffer) windowBase with
    | some why => .error why
    | none => .ok (readContents buffer)

/-! ### The tables -/

/-- The image whose entry range includes entry e (R2). -/
def ownerOf (images : List ImageFields) (e : Nat) : Option Nat :=
  ((List.range images.length).find? (fun k =>
    (images[k]?).any (fun i => decide (i.first ≤ e ∧ e < i.first + i.count)))).map (· + 1)

/-- The image offset of entry e: the lengths of the entries before it in the same image (R2). R2 gives an
entry without an owner none; the model's field holds 0 there (DESIGN CHOICE, log 30). -/
def imageOffsetOf (c : Contents) (e : Nat) : Nat :=
  match (ownerOf c.images e).bind (fun i => c.images[i - 1]?) with
  | some i => (((c.segments.take e).drop i.first).map (·.length)).sum
  | none => 0

/-- The segment table (R2). -/
def segmentTable (c : Contents) : List Segment :=
  (List.range c.segments.length).filterMap (fun e =>
    (c.segments[e]?).map (fun g =>
      { base := g.base, length := g.length, owner := ownerOf c.images e, imageOffset := imageOffsetOf c e }))

/-- A pin byte as an engine (R177). -/
def pinOf (p : Nat) : Option EngineId := if h : p < 4 then some ⟨p, h⟩ else none

/-- The declared part of an image record (R3). -/
def declaredOf (c : Contents) (i : ImageFields) : Declared :=
  { policy := i.policy, predecessor := if i.predecessor = 0 then none else some i.predecessor,
    pin := pinOf i.pin, firstSegment := i.first, segmentCount := i.count,
    length := (((c.segments.drop i.first).take i.count).map (·.length)).sum, expected := i.expected }

/-- An image record at ARMED (R5). -/
def declaredImage (d : Declared) : Image :=
  { declared := d, state := .declared, cursor := 0, handOff := 0, epoch := 0, inFlight := 0,
    transitions := 0, slot := none, runs := [] }

/-- The image table (R1, R3, R5). -/
def imageTable (c : Contents) : List Image := c.images.map (fun i => declaredImage (declaredOf c i))

/-- The pinned image of an engine (R62). -/
def pinnedImage (images : List Image) (e : EngineId) : Option Nat :=
  ((List.range images.length).find? (fun k =>
    (images[k]?).any (fun g => g.declared.pin == some e))).map (· + 1)

/-! ### Revocation -/

/-- The revocation decision at ARMED (R121), and the end of a burn that finds no VPROG at its start
(R122). -/
def revocationAtArmed (flag : Bool) (slot : AnchorSlot) (primary : SlotReading) (vprog : Bool) : Revocation :=
  if flag then
    match slot, primary with
    | .primary, _ => .notApplicable
    | .alternate, .programmed _ => if vprog then .inProgress else .failed
    | .alternate, .revoked => .already
    | .alternate, .blank => .notApplicable
  else .none

end Sys2Proof.Machine
end

