-- ==== Sys2Proof/Machine/Report.lean ====
section
/-! DEFINITION. The report unit: record and header layouts (R145, R146, R178, R179), the choice in READY
(R144), issues (R147, R148), acknowledgements and failures (R147 to R150), consumer updates (R152). -/

namespace Sys2Proof.Machine

/-! ### Codes (R178, R179) -/

/-- The code of an image state. -/
def imageStateCode : ImageState → Byte
  | .declared => 0x01
  | .filling => 0x02
  | .finishing _ => 0x03
  | .verified _ => 0x04
  | .recorded _ => 0x05
  | .mismatched _ => 0x06
  | .broken _ => 0x07

/-- The code of a break reason. -/
def breakReasonCode : BreakReason → Byte
  | .rewrite => 0x01
  | .partialBeat => 0x02
  | .runsExhausted => 0x03
  | .writeFault => 0x04
  | .refillFault => 0x05
  | .refillTimeout => 0x06
  | .predecessorFailed => 0x07
  | .abandoned => 0x08

/-- The code of a rejection reason. -/
def rejectReasonCode : RejectReason → Byte
  | .rewrite => 0x01
  | .partialBeat => 0x02
  | .writeFault => 0x04
  | .badLength => 0x10
  | .noAnchorMatch => 0x11
  | .badVersion => 0x12
  | .tooManyImages => 0x13
  | .tooManySegments => 0x14
  | .badSegment => 0x15
  | .overlap => 0x16
  | .badReportArea => 0x17
  | .badPredecessor => 0x18
  | .badPin => 0x19
  | .badReleaseSet => 0x1A

/-- The code of a revocation outcome. -/
def revocationCode : Revocation → Byte
  | .none => 0x00
  | .inProgress => 0x01
  | .done => 0x02
  | .failed => 0x03
  | .notApplicable => 0x04
  | .already => 0x05

/-- The code of a command result. -/
def resultCode : CommandResult → Byte
  | .none => 0x00
  | .done => 0x01
  | .badIndex => 0x02
  | .badState => 0x03
  | .dependentLocked => 0x04
  | .badKind => 0x05
  | .notHalted => 0x06

/-- The code of an anchor slot. -/
def anchorSlotCode : AnchorSlot → Byte
  | .primary => 0x01
  | .alternate => 0x02

/-- The code of ARMED, as phase of a header and as state of a manifest record. -/
def armedCode : Byte := 0x10

/-- The reason byte of an image record: the break reason in BROKEN, 00H otherwise (R145). -/
def imageReasonCode : ImageState → Byte
  | .broken why => breakReasonCode why
  | _ => 0x00

/-- The digest field of an image record: the result digest in the three verdict states, zero otherwise
(R145). -/
def reportedDigest : ImageState → Digest
  | .verified d | .recorded d | .mismatched d => d
  | _ => 0

/-! ### Layouts -/

/-- A 64-byte image record (R145, R179). -/
def imageRecordBytes (number : BitVec 32) (i : Nat) (g : Image) : List Byte :=
  [0x01, BitVec.ofNat 8 i, imageStateCode g.state, imageReasonCode g.state] ++ leBytes 4 number.toNat ++
    [g.epoch, BitVec.ofNat 8 g.transitions] ++ List.replicate 6 0 ++ leBytes 4 g.cursor ++
    List.replicate 12 0 ++ digestBytes (reportedDigest g.state)

/-- A 64-byte manifest record (R146, R179). -/
def manifestRecordBytes (number : BitVec 32) (r : ManifestRecord) (outcome : Revocation) : List Byte :=
  [0x02, 0x00, armedCode, (r.lastReason.map rejectReasonCode).getD 0x00] ++ leBytes 4 number.toNat ++
    [0x00, 0x00, anchorSlotCode r.slot, BitVec.ofNat 8 r.failedAttempts, revocationCode outcome] ++
    List.replicate 3 0 ++ leBytes 4 r.lengthBytes ++ List.replicate 12 0 ++ digestBytes r.digest

/-- Header beat 0 (R148, R178). -/
def headerBytes (producer : BitVec 16) (seq : BitVec 8) (result : CommandResult) : List Byte :=
  leBytes 2 producer.toNat ++ [seq, resultCode result, armedCode] ++ List.replicate 11 0

/-- A report write of fully strobed beats (R139). -/
def reportWrite (tag : Fin 2) (address : Nat) (beats : Nat) (bytes : List Byte) : LinkRequest :=
  .write (32 + tag.val) (BitVec.ofNat 40 address) ((beatsOfBytes beats bytes).map fullBeat)

/-! ### The ring -/

/-- Records published and not yet returned (R141). -/
def ReportState.fill (r : ReportState) : Nat := (r.producer - r.consumer).toNat

/-- The slot of the next record (R141). -/
def ReportState.nextSlot (r : ReportState) (area : ReportArea) : Nat := r.producer.toNat % area.slots

/-- The address of record slot k (R139). -/
def slotAddress (area : ReportArea) (k : Nat) : Nat := area.base + 64 + 64 * k

/-! ### Issues -/

/-- The report tags as numbers 0 and 1, for tags 32 and 33 (R150). -/
def reportTagIds : List (Fin 2) := [0, 1]

/-- The lowest-numbered FREE report tag (R144). -/
def ReportState.freeTag (r : ReportState) : Option (Fin 2) :=
  reportTagIds.find? (fun t => r.tags[t] == .free)

/-- A QUARANTINED tag holds the target (R144). -/
def ReportState.targetHeld (r : ReportState) (target : ReportTarget) : Bool :=
  reportTagIds.any (fun t => r.tags[t] == .quarantined target)

/-- The tag on which a write to the target may be issued now (R144). -/
def ReportState.tagFor (r : ReportState) (target : ReportTarget) : Option (Fin 2) :=
  if r.targetHeld target then none else r.freeTag

/-- Set the record of a report tag. -/
def ReportState.setTag (r : ReportState) (t : Fin 2) (v : ReportTag) : ReportState :=
  { r with tags := r.tags.set t.val v }

/-- The producer index a header carries (R148). -/
def ReportState.headerProducer (r : ReportState) : BitVec 16 :=
  if r.advanceOwed then r.producer + 1 else r.producer

/-- The issue of a header write on a tag (R148). -/
def ReportState.issueHeader (r : ReportState) (area : ReportArea) (t : Fin 2) : ReportState × LinkRequest :=
  ({ r.setTag t (.busy .header) with channel := .writingHeader, headerFirst := false, headerDirty := false },
    reportWrite t area.base 1 (headerBytes r.headerProducer r.lastSeq r.lastResult))

/-- The record bytes of a subject as it stands now, and its transitions count (R145, R146). -/
def captureRecord (man : ManifestState) (m : MeasureState) (number : BitVec 32) (subject : Nat) :
    Option (List Byte × Nat) :=
  if subject = 0 then
    man.record.map (fun r => (manifestRecordBytes number r (man.revocation.getD .none), 0))
  else (m.image? subject).map (fun g => (imageRecordBytes number subject g, g.transitions))

/-- The issue of a record write for the head subject on a tag (R147): the subject leaves the queue, the
record is captured, and an image's transitions count becomes 0. -/
def issueRecord (m : MeasureState) (r : ReportState) (area : ReportArea) (t : Fin 2) (subject : Nat)
    (bytes : List Byte) (captured : Nat) : ReportState × MeasureState × LinkRequest :=
  let k := r.nextSlot area
  ({ r.setTag t (.busy (.slot k)) with
      channel := .writingRecord, inFlight := some { subject := subject, captured := captured } },
    { m.modImage subject (fun g => { g with transitions := 0 }) with subjects := m.subjects.tail },
    reportWrite t (slotAddress area k) 4 bytes)

/-- The report unit at the end of an event (R144): in READY it takes the first case that holds, a header
owed or first, a record when a subject waits and the ring is not full, a dirty header; and it issues
nothing when the chosen write finds no FREE tag or its target held. -/
def chooseReport (man : ManifestState) (m : MeasureState) (r : ReportState) :
    ReportState × MeasureState × Option LinkRequest :=
  match r.channel, r.area with
  | .ready, some area =>
    let header :=
      match r.tagFor .header with
      | some t => ((r.issueHeader area t).1, m, some (r.issueHeader area t).2)
      | none => (r, m, none)
    if r.advanceOwed || r.headerFirst then header
    else
      match m.subjects, decide (r.fill < area.slots) with
      | subject :: _, true =>
        match r.tagFor (.slot (r.nextSlot area)), captureRecord man m area.nextRecord subject with
        | some t, some (bytes, captured) =>
          let issued := issueRecord m r area t subject bytes captured
          (issued.1, issued.2.1, some issued.2.2)
        | _, _ => (r, m, none)
      | _, _ => if r.headerDirty then header else (r, m, none)
  | _, _ => (r, m, none)

/-! ### Acknowledgements and failures -/

/-- The OK response of a record write (R147) or of a header write (R148). -/
def ReportState.acknowledged (r : ReportState) (t : Fin 2) (target : ReportTarget) : ReportState :=
  let r := { r.setTag t .free with channel := .ready }
  match target with
  | .slot _ => { r with advanceOwed := true, inFlight := none }
  | .header =>
    if r.advanceOwed then
      { r with producer := r.producer + 1, advanceOwed := false,
               area := r.area.map (fun a => { a with nextRecord := a.nextRecord + 1 }) }
    else r

/-- The failure of a report write (R149); the tag becomes FREE at a response and QUARANTINED at the limit
(R150). -/
def ReportState.failed (r : ReportState) (t : Fin 2) (target : ReportTarget) (tag : ReportTag) : ReportState :=
  let r := { r.setTag t tag with channel := .halted }
  match target with
  | .slot _ => { r with inFlight := none }
  | .header => { r with headerFirst := true }

/-- A failed record write's subject returns to the head of the queue and an image's captured count is
added back (R149). -/
def MeasureState.returnSubject (m : MeasureState) (w : RecordInFlight) : MeasureState :=
  { m.modImage w.subject (fun g => { g with transitions := saturate (g.transitions + w.captured) }) with
    subjects := joinHead m.subjects w.subject }

/-- The order tracker's and the report queue's side of a failed report write (R149). -/
def MeasureState.reportFailed (m : MeasureState) (r : ReportState) (target : ReportTarget) : MeasureState :=
  match target, r.inFlight with
  | .slot _, some w => m.returnSubject w
  | _, _ => m

/-! ### Consumer updates -/

/-- The consumer field (R152): a value from C to P, counting forward modulo 65536, becomes C. -/
def ReportState.takeConsumer (r : ReportState) (v : BitVec 16) : ReportState :=
  if r.channel = .dormant then r
  else if (v - r.consumer).toNat ≤ r.fill then { r with consumer := v } else r

end Sys2Proof.Machine
end

