-- ==== Sys2Proof/Machine/Tracker.lean ====
section
/-! DEFINITION. The order tracker: write sequence numbers (R23, R24), the measuring of a forwarded write
(R25 to R32), write responses (R34 to R36) and settlement (R37). -/

namespace Sys2Proof.Machine

/-! ### Write sequence numbers -/

/-- The number after n: FFFF_FFFFH is followed by 1 (R23). -/
def nextNumber (n : BitVec 32) : BitVec 32 := if n = BitVec.allOnes 32 then 1 else n + 1

/-- The first number from n on that the unanswered set does not hold (R23); the set holds at most 32, so
33 tries are enough. -/
def passOver (held : List (BitVec 32)) : Nat → BitVec 32 → BitVec 32
  | 0, n => n
  | tries + 1, n => if held.contains n then passOver held tries (nextNumber n) else n

/-- The numbers of the unanswered set (R24). -/
def MeasureState.unanswered (m : MeasureState) : List (BitVec 32) := m.entries.map (·.seq.number)

/-- The number the next forwarded write receives (R23). -/
def MeasureState.giveNumber (m : MeasureState) : SeqNo :=
  { number := passOver m.unanswered 33 m.nextSeq, order := m.nextOrder }

/-- A forwarded write is numbered and entered, with an empty recorded set (R23, R24). -/
def MeasureState.addEntry (m : MeasureState) (tag : Nat) : MeasureState :=
  let q := m.giveNumber
  { m with entries := m.entries ++ [{ tag := tag, seq := q, recorded := [] }],
           nextSeq := nextNumber q.number, nextOrder := m.nextOrder + 1 }

/-! ### Recording -/

/-- A beat of a request that lies in an image: the image, the image offset and the beat. -/
structure ImageBeat where
  image : Nat
  offset : Nat
  beat : WriteBeat
  deriving DecidableEq, Repr

/-- The beats of a request by region: those in an image, and none for every other beat (R97). -/
def imageBeats (regions : List Region) (beats : List WriteBeat) : List (Option ImageBeat) :=
  (regions.zip beats).map (fun (r, b) =>
    match r with
    | .image i x => some { image := i, offset := x, beat := b }
    | _ => none)

/-- The images with a beat in the request that are in DECLARED or FILLING, each once, in address order
(R25 step 2). -/
def MeasureState.touched (m : MeasureState) (beats : List (Option ImageBeat)) : List Nat :=
  ((beats.filterMap id).map (·.image)).foldl
    (fun l i => if m.isOpen i then joinTail l i else l) []

/-- An image joins the recorded set of a write entry (R24). -/
def WriteEntry.record (i : Nat) (epoch : BitVec 8) (w : WriteEntry) : WriteEntry :=
  { w with recorded := w.recorded ++ [(i, epoch)] }

/-- The image is recorded in the last write entry with its epoch, and its writes in flight rises (R25). -/
def MeasureState.recordIn (m : MeasureState) (i : Nat) : MeasureState :=
  match m.image? i with
  | none => m
  | some g =>
    let entries := m.entries.modify (m.entries.length - 1) (·.record i g.epoch)
    { m.modImage i (fun g => { g with inFlight := g.inFlight + 1 }) with entries := entries }

/-! ### The partial-strobe check -/

/-- A partial beat breaks its image with PARTIAL (R26); an image already broken keeps its reason (R13). -/
def MeasureState.checkPartial (m : MeasureState) (b : Option ImageBeat) : MeasureState :=
  match b with
  | some x => if beatPartial x.beat && m.isOpen x.image then m.breakImage x.image .partialBeat else m
  | none => m

/-! ### Groups -/

/-- A group of kept beats (R27). -/
structure Group where
  image : Nat
  start : Nat
  data : List Beat
  deriving DecidableEq, Repr

/-- The image offset one past the group. -/
def Group.stop (g : Group) : Nat := g.start + 16 * g.data.length

/-- The groups so far and the one still open. -/
structure Grouping where
  done : List Group
  current : Option Group
  deriving DecidableEq, Repr

/-- The open group is closed (R27). -/
def Grouping.close (g : Grouping) : Grouping :=
  match g.current with
  | some c => { done := g.done ++ [c], current := none }
  | none => g

/-- A beat is kept when it is fully strobed and its image still takes measured beats (R26). -/
def MeasureState.keeps (m : MeasureState) (x : ImageBeat) : Bool := beatFull x.beat && m.isOpen x.image

/-- One beat of the request, in address order (R27): a kept beat that continues the open group joins it,
another kept beat opens a group, and a beat that is not kept closes it. -/
def MeasureState.groupBeat (m : MeasureState) (g : Grouping) (b : Option ImageBeat) : Grouping :=
  match b with
  | some x =>
    if m.keeps x then
      match g.current with
      | some c =>
        if c.image = x.image ∧ c.stop = x.offset then
          { g with current := some { c with data := c.data ++ [x.beat.data] } }
        else
          { g.close with current := some { image := x.image, start := x.offset, data := [x.beat.data] } }
      | none => { g with current := some { image := x.image, start := x.offset, data := [x.beat.data] } }
    else g.close
  | none => g.close

/-- The groups of a request, in address order (R27). -/
def MeasureState.groups (m : MeasureState) (beats : List (Option ImageBeat)) : List Group :=
  (beats.foldl m.groupBeat { done := [], current := none }).close.done

/-! ### Placing a group -/

/-- The group overlaps the run. -/
def Group.overlaps (x : Group) (r : Run) : Bool := x.start < r.stop && r.start < x.stop

/-- The rewrite check (R28). -/
def isRewrite (g : Image) (x : Group) : Bool :=
  x.start < g.cursor + 16 * g.handOff || g.runs.any x.overlaps

/-- A run placed in a run list kept in offset order (R21). -/
def insertRun (r : Run) : List Run → List Run
  | [] => [r]
  | x :: rest => if r.start < x.start then r :: x :: rest else x :: insertRun r rest

/-- A DEFERRED run. -/
def RunBody.isDeferred : RunBody → Bool
  | .deferred _ _ _ => true
  | .staged _ => false

/-- A DEFERRED run that ends at the byte before the group (R30). -/
def Group.follows (x : Group) (r : Run) : Bool := r.body.isDeferred && r.stop == x.start

/-- A DEFERRED run that begins at the byte after the group (R30). -/
def Group.precedes (x : Group) (r : Run) : Bool := r.body.isDeferred && r.start == x.stop

/-- A group becomes a STAGED run (R29). -/
def stageRun (x : Group) (runs : List Run) : List Run :=
  insertRun { start := x.start, body := .staged x.data } runs

/-- A group becomes DEFERRED, merged with the adjacent DEFERRED runs (R30): the resulting run covers them
all, has the request's number as its newest, and its settled mark is clear. -/
def deferRun (x : Group) (q : SeqNo) (runs : List Run) : List Run :=
  let before := runs.find? x.follows
  let after := runs.find? x.precedes
  let size := fun (r : Option Run) => (r.map (·.body.beatCount)).getD 0
  insertRun
    { start := (before.map (·.start)).getD x.start,
      body := .deferred (size before + x.data.length + size after) q false }
    (runs.filter (fun r => !x.follows r && !x.precedes r))

/-- A deferral of the group merges, and so needs no run entry (R30). -/
def mergesDeferred (x : Group) (runs : List Run) : Bool := runs.any (fun r => x.follows r || x.precedes r)

/-- The group's run is placed; the first run moves a DECLARED image to FILLING (R32). -/
def MeasureState.place (m : MeasureState) (i : Nat) (f : List Run → List Run) : MeasureState :=
  let m' := m.modImage i (fun g => { g with runs := f g.runs })
  if (m.image? i).any (fun g => g.state == .declared) then m'.enter i .filling else m'

/-- One group (R28 to R31): ignored when its image has been broken by an earlier group, a rewrite, staged,
deferred, or broken for want of a run entry. -/
def MeasureState.handleGroup (q : SeqNo) (m : MeasureState) (x : Group) : MeasureState :=
  match m.image? x.image with
  | none => m
  | some g =>
    if !g.state.isOpen then m
    else if isRewrite g x then m.breakImage x.image .rewrite
    else if x.data.length ≤ m.freeSlots ∧ 0 < m.freeEntries then m.place x.image (stageRun x)
    else if mergesDeferred x g.runs ∨ 0 < m.freeEntries then m.place x.image (deferRun x q)
    else m.breakImage x.image .runsExhausted

/-- The measuring of a forwarded write (R25): numbered and entered, its images recorded, the partial
check, then its groups. Outside ARMED no beat lies in an image, so step 1 alone applies (R43). -/
def MeasureState.measureWrite (m : MeasureState) (tag : Nat) (beats : List (Option ImageBeat)) : MeasureState :=
  let q := m.giveNumber
  let m := m.addEntry tag
  let m := (m.touched beats).foldl MeasureState.recordIn m
  let m := beats.foldl MeasureState.checkPartial m
  (m.groups beats).foldl (MeasureState.handleGroup q) m

/-! ### Settlement -/

/-- The number is lower than every number of the unanswered set, or the set is empty (R37). -/
def settledBy (entries : List WriteEntry) (q : SeqNo) : Bool := entries.all (fun w => q.order < w.seq.order)

/-- A DEFERRED run is re-examined; a mark once set stays set (R37). -/
def settleRun (entries : List WriteEntry) (r : Run) : Run :=
  match r.body with
  | .deferred count newest settled =>
    { r with body := .deferred count newest (settled || settledBy entries newest) }
  | .staged _ => r

/-- Every write response re-examines every DEFERRED run (R37). -/
def MeasureState.settleRuns (m : MeasureState) : MeasureState :=
  { m with images := m.images.map (fun g => { g with runs := g.runs.map (settleRun m.entries) }) }

/-! ### Write responses -/

/-- The images of a recorded set on which the response acts: those still in the epoch recorded (R9). -/
def MeasureState.current (m : MeasureState) (recorded : List (Nat × BitVec 8)) : List Nat :=
  m.indices.filter (fun i => (m.image? i).any (fun g => recorded.contains (i, g.epoch)))

/-- Writes in flight falls by 1 (R35). -/
def MeasureState.answered (m : MeasureState) (i : Nat) : MeasureState :=
  m.modImage i (fun g => { g with inFlight := g.inFlight - 1 })

/-- The verdict of an image in FINISHING whose pending result waited for this response (R8, R35). -/
def MeasureState.pendingVerdict (m : MeasureState) (i : Nat) : MeasureState :=
  match m.image? i with
  | some g =>
    match g.state with
    | .finishing (some r) => if g.inFlight = 0 then m.verdict i r else m
    | _ => m
  | none => m

/-- The order tracker at a write response (R34 to R36): OK takes pending verdicts, any other status breaks
the images still measuring with WRITE_FAULT, both in increasing index order; then settlement. -/
def MeasureState.writeAnswered (m : MeasureState) (tag : Nat) (status : LinkStatus) : MeasureState :=
  match m.entries.find? (·.tag == tag) with
  | none => m
  | some w =>
    let m := { m with entries := m.entries.filter (·.tag != tag) }
    let acted := m.current w.recorded
    let m := acted.foldl MeasureState.answered m
    let m :=
      if status = .ok then acted.foldl MeasureState.pendingVerdict m
      else acted.foldl (fun m i => m.breakImage i .writeFault) m
    m.settleRuns

end Sys2Proof.Machine
end

