-- ==== Sys2Proof/Machine/Settle.lean ====
section
/-! DEFINITION. What follows inside the step of an event, at that same instant: the pool acts on
readiness, the refill unit serves requests, the report unit chooses, own requests join their queue and the
lines follow. -/

namespace Sys2Proof.Machine

/-- The own requests created in one step, in the order in which they join (R165): refill reads in the
order of their issue, and the report write at a position that is free (log 10). -/
def joinOrder (position : Nat) (reads : List LinkRequest) : Option LinkRequest → List LinkRequest
  | none => reads
  | some w =>
    let k := position % (reads.length + 1)
    reads.take k ++ w :: reads.drop k

/-- Requests join the own-request queue; the head-wait count becomes 0 when one becomes the head by
joining an empty queue (R165, R166). -/
def LinkState.joinOwn (l : LinkState) (new : List LinkRequest) : LinkState :=
  { l with own := l.own ++ new,
           headWait := if l.own.isEmpty && !new.isEmpty then 0 else l.headWait }

/-- A free value is used when a refill read and a report write are created at one instant (R165). -/
def freeUsed (reads : List LinkRequest) (write : Option LinkRequest) : Nat :=
  if !reads.isEmpty && write.isSome then 1 else 0

/-- The end of an event, in its own step. -/
def State.settle (s : State) : State :=
  let served := s.measure.settlePool.serveRefills
  let chosen := chooseReport s.manifest served.1 s.report
  let used := freeUsed served.2 chosen.2.2
  let new := joinOrder (if used = 0 then 0 else Config.ownJoinPosition s.freeCount) served.2 chosen.2.2
  let t := { s with link := s.link.joinOwn new, measure := { chosen.2.1 with now := chosen.2.1.now + 1 },
                    report := chosen.1, freeCount := s.freeCount + used }
  { t with lines := updateLines t }

end Sys2Proof.Machine
end

