-- ==== Sys2Proof/Machine/Acceptance.lean ====
section
/-! DEFINITION. The check, parsing and revocation: MANIFEST_CHECK_DONE, PARSING_DONE, FUSE_BLOWN,
BURN_LIMIT_EXPIRY, VPROG_SUPPLY_CHANGE. -/

namespace Sys2Proof.Machine

/-- Engine 0 after the check: FREE, its context discarded (R112). -/
def Engine.endCheck (e : Engine) : Engine :=
  { e with state := .free, context := none, manifest := false, discard := false }

/-- MANIFEST_CHECK_DONE (R112): accepted into PARSING under the slot whose anchor the digest equals, or
the attempt fails with NO_ANCHOR_MATCH. -/
def execManifestCheckDone (s : State) : Host.Outcome State Fault Refusal :=
  match s.manifest.phase, s.manifest.anchors, s.measure.engines[(0 : EngineId)].context with
  | .manifestCheck, some anchors, some c =>
    let s := { s with measure := s.measure.modEngine 0 Engine.endCheck }
    match acceptingSlot anchors (finalResult c) with
    | some slot =>
      .next ({ s with manifest := { s.manifest with
        phase := .parsing, checked := some (slot, finalResult c) } } : State).settle
    | none => .next (s.failAttempt .noAnchorMatch).settle
  | _, _, _ => .next s

/-- The tables and the reservations at ARMED (R1, R62, R68, R118 steps 1, 2 and 4): the write entries of
writes forwarded before stay (R43), and the manifest subject is queued. -/
def MeasureState.armed (m : MeasureState) (c : Contents) : MeasureState :=
  let images := imageTable c
  let m := { m with segments := segmentTable c, images := images, waitList := [], refillPending := [],
                    subjects := [0], verified := [] }
  engineIds.foldl (fun m e => m.modEngine e (fun x => { x with reservation := pinnedImage images e })) m

/-- The report unit at ARMED (R140). -/
def ReportState.armed (r : ReportState) (base slots : Nat) : ReportState :=
  { r with channel := .ready, area := some { base := base, slots := slots, nextRecord := 1 }, producer := 0,
           consumer := 0, advanceOwed := false, headerFirst := true, headerDirty := false,
           tags := #v[.free, .free], inFlight := none }

/-- The manifest unit at ARMED (R118 step 5, R121). -/
def ManifestState.armed (u : ManifestState) (c : Contents) (slot : AnchorSlot) (digest : Digest)
    (primary : SlotReading) (lengthBytes : Nat) (vprog : Bool) : ManifestState :=
  { u with
    phase := .armed,
    record := some { slot := slot, failedAttempts := u.attempts, lastReason := u.lastReason,
                     digest := digest, lengthBytes := lengthBytes },
    revocation := some (revocationAtArmed c.header.revokePrimary slot primary vprog) }

/-- The step that brings the phase to ARMED (R118). -/
def State.arm (s : State) (c : Contents) (slot : AnchorSlot) (digest : Digest) (primary : SlotReading)
    (lengthBytes : Nat) : State :=
  { s with
    manifest := s.manifest.armed c slot digest primary lengthBytes s.vprog,
    measure := s.measure.armed c,
    report := s.report.armed c.header.reportBase c.header.recordCount,
    lines := { s.lines with sets := some (c.header.set0, c.header.set1) } }

/-- PARSING_DONE (R113 to R118): the checks in order; the attempt fails with the first that fails, or the
manifest is accepted. -/
def execParsingDone (s : State) : Host.Outcome State Fault Refusal :=
  match s.manifest.phase, s.manifest.checked, s.manifest.anchors, s.manifest.lengthBytes with
  | .parsing, some (slot, digest), some anchors, some lengthBytes =>
    match parseManifest s.manifest.buffer lengthBytes s.manifest.windowBase with
    | .error why => .next (s.failAttempt why).settle
    | .ok c => .next (s.arm c slot digest anchors.primary lengthBytes).settle
  | _, _, _, _ => .next s

/-- A burn is running (R121, R122). -/
def State.burning (s : State) : Bool := s.manifest.revocation == some .inProgress

/-- The end of a burn with an outcome: the manifest subject is enqueued (R122). -/
def State.endBurn (s : State) (outcome : Revocation) (fuses : Fuses) : State :=
  { s with manifest := { s.manifest with revocation := some outcome },
           measure := s.measure.enqueue 0, fuses := fuses }

/-- The fuses after DONE: PRIMARY reads REVOKED (R122). -/
def fusesBlown : Fuses → Fuses
  | .read _ alternate => .read .revoked alternate
  | .unread => .unread

/-- The fuses after an expiry: PRIMARY reads REVOKED or PROGRAMMED (R122). -/
def fusesExpired : Fuses → Fuses
  | .read (.whole d) alternate => .read (.uncertain d) alternate
  | f => f

/-- FUSE_BLOWN (R122): the burn, which makes progress only while VPROG is present, ends with DONE. -/
def execFuseBlown (s : State) : Host.Outcome State Fault Refusal :=
  if s.burning && s.vprog then .next (s.endBurn .done (fusesBlown s.fuses)).settle
  else .next s

/-- BURN_LIMIT_EXPIRY (R122): the burn ends with FAILED. -/
def execBurnLimitExpiry (s : State) : Host.Outcome State Fault Refusal :=
  if s.burning then .next (s.endBurn .failed (fusesExpired s.fuses)).settle
  else .next s

/-- VPROG_SUPPLY_CHANGE (R122): the supply is lost or returns; a running burn stops or goes on making
progress. -/
def execVprogSupplyChange (present : Bool) (s : State) : Host.Outcome State Fault Refusal :=
  .next { s with vprog := present }

end Sys2Proof.Machine
end

