-- ==== Sys2Proof/Machine/Engines.lean ====
section
/-! DEFINITION. The ends of the engines' steps: RESTORE_DONE, SEED_STEP_DONE, BEAT_STEP_DONE,
FINALISATION_DONE, PARK_DONE, and of the manifest's on engine 0: MANIFEST_BEAT_STEP_DONE. A step that is
not under way on the engine has no end, and the command then has no effect (log 4). -/

namespace Sys2Proof.Machine

/-- The engine is at work on an image, or finishing a discarded step of one. -/
def Engine.worksIn (e : Engine) (st : EngineState) : Bool := e.state == st && !e.manifest

/-- An engine becomes FREE; its claimant and reservation stay. -/
def Engine.release (e : Engine) : Engine :=
  { e with state := .free, bound := none, discard := false, parkOrder := false, context := none,
           delivered := [] }

/-- The end of a step with the discard mark set (R66): the mark is cleared, the result dropped, and the
engine FREE. -/
def MeasureState.endDiscarded (m : MeasureState) (e : EngineId) : MeasureState := m.modEngine e Engine.release

/-- The end of a park (R52): the engine passes to its claimant when it is not reserved. -/
def MeasureState.passOn (m : MeasureState) (e : EngineId) : MeasureState :=
  match m.engines[e].claimant, m.engines[e].reservation with
  | some y, none => (m.modEngine e (fun x => { x with claimant := none })).grant e y
  | _, _ => m

/-- RESTORE_DONE (R54, R66): the slot becomes not live and the engine chooses. -/
def restoreDone (m : MeasureState) (e : EngineId) : MeasureState :=
  if m.engines[e].discard then m.endDiscarded e
  else
    match m.engines[e].bound with
    | none => m
    | some i =>
      let parked := (m.image? i).bind (·.slot)
      let m := m.modImage i (fun g => { g with slot := none })
      (m.modEngine e (fun x => { x with context := parked })).choose e

/-- The end of a seed step or a beat step (R53, R57, R66): a full block is compressed, and the engine
chooses. -/
def absorbDone (m : MeasureState) (e : EngineId) : MeasureState :=
  if m.engines[e].discard then m.endDiscarded e
  else (m.modEngine e (fun x => { x with context := x.context.map compressFull })).choose e

/-- FINALISATION_DONE (R60, R66): the engine is FREE, and the verdict is taken at once or the result kept
as pending while writes are in flight. -/
def finalisationDone (m : MeasureState) (e : EngineId) : MeasureState :=
  if m.engines[e].discard then m.endDiscarded e
  else
    match m.engines[e].bound, m.engines[e].context with
    | some i, some c =>
      let m' := m.modEngine e Engine.release
      match m.image? i with
      | none => m'
      | some g =>
        let r := { digest := finalResult c, matched := finalResult c == g.declared.expected }
        if g.inFlight = 0 then m'.verdict i r
        else if g.state.isFinishing then m'.modImage i (fun g => { g with state := .finishing (some r) })
        else m'
    | _, _ => m

/-- PARK_DONE (R52, R61, R66): the slot becomes live, unless the park is discarded, and the engine passes
to its claimant or is FREE. -/
def parkDone (m : MeasureState) (e : EngineId) : MeasureState :=
  if m.engines[e].discard then (m.endDiscarded e).passOn e
  else
    match m.engines[e].bound with
    | none => m
    | some i =>
      let parked := m.engines[e].context
      let m := m.modImage i (fun g => { g with slot := parked })
      (m.modEngine e Engine.release).passOn e

/-- The end of a manifest beat step (R109, R119): a full block is compressed and engine 0 waits in
HOLDING from this instant on (R47), or after a failed attempt is FREE. -/
def Engine.manifestBeatDone (now : Nat) (e : Engine) : Engine :=
  if e.discard then { e.release with manifest := false }
  else { e with state := .holding, holdingSince := now, context := e.context.map compressFull }

/-- RESTORE_DONE (R54). -/
def execRestoreDone (e : EngineId) (s : State) : Host.Outcome State Fault Refusal :=
  if s.measure.engines[e].worksIn .restoring then
    .next ({ s with measure := restoreDone s.measure e } : State).settle
  else .next s

/-- SEED_STEP_DONE (R53). -/
def execSeedStepDone (e : EngineId) (s : State) : Host.Outcome State Fault Refusal :=
  if s.measure.engines[e].worksIn (.absorbing .seed) then
    .next ({ s with measure := absorbDone s.measure e } : State).settle
  else .next s

/-- BEAT_STEP_DONE (R57). -/
def execBeatStepDone (e : EngineId) (s : State) : Host.Outcome State Fault Refusal :=
  if s.measure.engines[e].worksIn (.absorbing .beat) then
    .next ({ s with measure := absorbDone s.measure e } : State).settle
  else .next s

/-- FINALISATION_DONE (R60). -/
def execFinalisationDone (e : EngineId) (s : State) : Host.Outcome State Fault Refusal :=
  if s.measure.engines[e].worksIn .finalizing then
    .next ({ s with measure := finalisationDone s.measure e } : State).settle
  else .next s

/-- PARK_DONE (R61). -/
def execParkDone (e : EngineId) (s : State) : Host.Outcome State Fault Refusal :=
  if s.measure.engines[e].worksIn .parking then
    .next ({ s with measure := parkDone s.measure e } : State).settle
  else .next s

/-- MANIFEST_BEAT_STEP_DONE (R109, R111): the beat step ends, and engine 0 takes the next present beat,
waits, or finalises. -/
def execManifestBeatStepDone (s : State) : Host.Outcome State Fault Refusal :=
  if s.measure.engines[(0 : EngineId)].manifest &&
      s.measure.engines[(0 : EngineId)].state == .absorbing .beat then
    .next ({ s with measure := s.measure.modEngine 0 (Engine.manifestBeatDone s.measure.now) } : State).advanceManifest.settle
  else .next s

end Sys2Proof.Machine
end

