-- ==== Sys2Proof/Machine/Commands.lean ====
section
/-! DEFINITION. Header beat 1: the consumer field and the four commands, as the report unit takes them
(R152 to R156). A host write of header beat 1 (HOST_WRITE_ACCEPT) performs the same operations in its own
step; the rows CONSUMER_UPDATE, REOPEN, ABANDON, RESEND and RESUME are the taking of one field or command
by itself (log 6). -/

namespace Sys2Proof.Machine

/-- A command with its kind as check 1 finds it (R154): the kind code names none, one of four. -/
inductive CommandKind where
  | reopen
  | abandon
  | resend
  | resume
  deriving DecidableEq, Repr

/-- The command kind of a code (R178). -/
def commandKind (code : BitVec 8) : Option CommandKind :=
  if code = 0x01 then some .reopen
  else if code = 0x02 then some .abandon
  else if code = 0x03 then some .resend
  else if code = 0x04 then some .resume
  else none

/-- Check 3 for a REOPEN: MISMATCHED or BROKEN, or VERIFIED or RECORDED with REOPENABLE set (R154). -/
def reopenAllowed (g : Image) : Bool :=
  g.state.isFailed || (g.state.goodResult.isSome && g.declared.policy.reopenable)

/-- The result of a command by the checks of R154, in order, DONE when all pass. -/
def commandResult (s : State) (kind : Option CommandKind) (i : Nat) : CommandResult :=
  match kind with
  | none => .badKind
  | some .reopen =>
    match s.measure.image? i with
    | none => .badIndex
    | some g =>
      if !reopenAllowed g then .badState
      else if s.measure.locked i then .dependentLocked
      else .done
  | some .abandon =>
    match s.measure.image? i with
    | none => .badIndex
    | some g => if g.state.isMeasuring then .done else .badState
  | some .resend => if i ≤ s.measure.images.length then .done else .badIndex
  | some .resume => if s.report.channel = .halted then .done else .notHalted

/-- What a command that passes its checks carries out (R155, R156). -/
def carryOut (s : State) (kind : CommandKind) (i : Nat) : State :=
  match kind with
  | .reopen => { s with measure := s.measure.reopenClosure i }
  | .abandon => { s with measure := s.measure.breakImage i .abandoned }
  | .resend => { s with measure := s.measure.enqueue i }
  | .resume => { s with report := { s.report with channel := .ready } }

/-- The command fields (R153): a command is taken outside DORMANT when its sequence differs from the last
taken; it is checked, carried out if it passes, and its sequence and result are held. -/
def takeCommand (s : State) (seq : BitVec 8) (kind : Option CommandKind) (i : Nat) : State :=
  if s.report.channel = .dormant ∨ seq = s.report.lastSeq then s
  else
    let result := commandResult s kind i
    let s :=
      match kind, result with
      | some k, .done => carryOut s k i
      | _, _ => s
    { s with report := { s.report with lastSeq := seq, lastResult := result, headerDirty := true } }

/-- Header beat 1 of a forwarded write (R152, R153): the consumer field when both its bytes are strobed,
then the command fields when all three are. -/
def snoopHeader (s : State) (b : WriteBeat) : State :=
  let s :=
    if strobed b [0, 1] then
      { s with report := s.report.takeConsumer (BitVec.ofNat 16 (littleEndian [beatByte b.data 0, beatByte b.data 1])) }
    else s
  if strobed b [2, 3, 4] then
    takeCommand s (beatByte b.data 2) (commandKind (beatByte b.data 3)) (beatByte b.data 4).toNat
  else s

/-- CONSUMER_UPDATE (R152). -/
def execConsumerUpdate (value : BitVec 16) (s : State) : Host.Outcome State Fault Refusal :=
  if s.report.channel = .dormant then .next s
  else .next ({ s with report := s.report.takeConsumer value } : State).settle

/-- REOPEN (R155, R130, R131). -/
def execReopen (seq image : BitVec 8) (s : State) : Host.Outcome State Fault Refusal :=
  if s.report.channel = .dormant then .next s
  else .next (takeCommand s seq (some .reopen) image.toNat).settle

/-- ABANDON (R155). -/
def execAbandon (seq image : BitVec 8) (s : State) : Host.Outcome State Fault Refusal :=
  if s.report.channel = .dormant then .next s
  else .next (takeCommand s seq (some .abandon) image.toNat).settle

/-- RESEND (R156). -/
def execResend (seq image : BitVec 8) (s : State) : Host.Outcome State Fault Refusal :=
  if s.report.channel = .dormant then .next s
  else .next (takeCommand s seq (some .resend) image.toNat).settle

/-- RESUME (R151, R156). -/
def execResume (seq image : BitVec 8) (s : State) : Host.Outcome State Fault Refusal :=
  if s.report.channel = .dormant then .next s
  else .next (takeCommand s seq (some .resume) image.toNat).settle

end Sys2Proof.Machine
end

