-- ==== Sys2Proof/Machine/HostPort.lean ====
section
/-! DEFINITION. The host port: HOST_READ_ACCEPT, HOST_WRITE_ACCEPT, HOST_RESPONSE_DELIVERY. -/

namespace Sys2Proof.Machine

/-- Occupied entries of the inbound queue (R162): the forward queue and the refusal response queue. -/
def LinkState.occupied (l : LinkState) : Nat := l.forward.length + l.refusals.length

/-- The host port takes requests: not in SENSING, and an entry is free (R86, R162). -/
def State.takesRequests (s : State) : Bool :=
  s.manifest.phase != .sensing && decide (s.link.occupied < Config.inboundEntries)

/-- A response of the part's own joins the refusal response queue (R89, R163). -/
def LinkState.refuse (l : LinkState) (kind : LinkKind) (tag : Nat) (status : LinkStatus) : LinkState :=
  { l with refusals := l.refusals ++ [{ kind := kind, tag := tag, status := status, data := [] }] }

/-- A well-formed request's tag enters the host port's outstanding table (R88). -/
def LinkState.enterHost (l : LinkState) (kind : LinkKind) (tag : Nat) : LinkState :=
  match kind with
  | .read => { l with hostReads := l.hostReads ++ [tag] }
  | .write => { l with hostWrites := l.hostWrites ++ [tag] }

/-- A forwarded request joins the forward queue and its tag the memory-port table (R164). -/
def LinkState.forwardRequest (l : LinkState) (r : LinkRequest) : LinkState :=
  match r with
  | .read tag _ _ => { l with forward := l.forward ++ [r], memReads := l.memReads ++ [tag] }
  | .write tag _ _ => { l with forward := l.forward ++ [r], memWrites := l.memWrites ++ [tag] }

/-- HOST_READ_ACCEPT (R86): held while the host port takes no request; otherwise malformed (R87, R89),
refused, or forwarded whole (R90). -/
def execHostReadAccept (tag : Nat) (addr : Addr) (beatCount : Nat) (s : State) :
    Host.Outcome State Fault Refusal :=
  if !s.takesRequests then .next s
  else if malformed s.link .read tag addr beatCount then
    .next { s with link := s.link.refuse .read tag .malformed }
  else if requestForwards s .read addr beatCount then
    .next { s with link := (s.link.enterHost .read tag).forwardRequest (.read tag addr beatCount) }
  else .next { s with link := (s.link.enterHost .read tag).refuse .read tag .refused }

/-- The hand-off of a forwarded write's beats in ARMED (R97, R98): header beat 1 to the report unit, image
beats to the order tracker; the write is numbered in either case (R23). -/
def handOffArmed (s : State) (tag : Nat) (addr : Addr) (beats : List WriteBeat) : State :=
  let regions := classifyBeats s addr beats.length
  let s := { s with measure := s.measure.measureWrite tag (imageBeats regions beats) }
  match regions, beats with
  | [.header 1], [b] => snoopHeader s b
  | _, _ => s

/-- The hand-off of a forwarded write's beats by phase (R97); outside ARMED the write is numbered and
entered alone (R43), and a window write in MANIFEST_LOADING, or the one that starts an attempt, goes to the
manifest unit. The spec leaves open whether engine 0 takes a beat at the absorb offset before the later beats of
the same write are handled: here it takes one after the last of them, so a write that fails the attempt at a beat
starts no beat step (R107, R109; DESIGN CHOICE, log 33). -/
def handOff (s : State) (tag : Nat) (addr : Addr) (beats : List WriteBeat) : State :=
  match s.manifest.phase with
  | .armed => handOffArmed s tag addr beats
  | .manifestLoading | .rejected =>
    let s := { s with measure := s.measure.addEntry tag }
    if inWindow s addr then (s.startAttempt.windowWrite tag addr beats).advanceManifest else s
  | _ => { s with measure := s.measure.addEntry tag }

/-- HOST_WRITE_ACCEPT (R86): held while the host port takes no request; otherwise malformed (R87, R89),
refused whole (R90), or forwarded whole with its beats handed off (R97). -/
def execHostWriteAccept (tag : Nat) (addr : Addr) (beats : List WriteBeat) (s : State) :
    Host.Outcome State Fault Refusal :=
  if !s.takesRequests then .next s
  else if malformed s.link .write tag addr beats.length then
    .next { s with link := s.link.refuse .write tag .malformed }
  else if requestForwards s .write addr beats.length then
    .next (handOff { s with
      link := (s.link.enterHost .write tag).forwardRequest (.write tag addr beats) } tag addr beats).settle
  else .next { s with link := (s.link.enterHost .write tag).refuse .write tag .refused }

/-! ### Deliveries -/

/-- The merger's choice (R170). -/
def LinkState.hostChoice (l : LinkState) : Option ResponseSource :=
  match l.relay, l.refusals with
  | [], [] => none
  | _ :: _, [] => some .relayed
  | [], _ :: _ => some .part
  | _ :: _, _ :: _ =>
    match l.lastSource with
    | .part => some .relayed
    | .relayed => some .part

/-- A tag leaves the host port's outstanding table of its kind (R171). -/
def LinkState.releaseHost (l : LinkState) (kind : LinkKind) (tag : Nat) : LinkState :=
  match kind with
  | .read => { l with hostReads := leave l.hostReads tag }
  | .write => { l with hostWrites := leave l.hostWrites tag }

/-- The host takes a response from a source (R171): it leaves its queue, and its tag its table unless the
response is MALFORMED. -/
def LinkState.deliver (l : LinkState) (source : ResponseSource) : LinkState :=
  match source with
  | .relayed =>
    match l.relay with
    | [] => { l with hostOffer := none }
    | r :: rest =>
      { (l.releaseHost r.kind r.tag) with
        relay := rest, hostOffer := none, lastSource := .relayed, hostOut := some r }
  | .part =>
    match l.refusals with
    | [] => { l with hostOffer := none }
    | r :: rest =>
      let l' := if r.status = .malformed then l else l.releaseHost r.kind r.tag
      { l' with refusals := rest, hostOffer := none, lastSource := .part, hostOut := some r }

/-- HOST_RESPONSE_DELIVERY (R170, R171): the host becomes ready and the merger offers, an offer standing
until taken; or the host takes what is offered (log 15). -/
def execHostResponseDelivery (moment : LinkMoment) (s : State) : Host.Outcome State Fault Refusal :=
  match moment with
  | .ready => .next { s with link := { s.link with hostOffer := s.link.hostOffer.or s.link.hostChoice } }
  | .taken =>
    match s.link.hostOffer.or s.link.hostChoice with
    | none => .next s
    | some source => .next { s with link := s.link.deliver source }

end Sys2Proof.Machine
end

