-- ==== Sys2Proof/Machine/MemoryPort.lean ====
section
/-! DEFINITION. The memory port: MEMORY_TAKES_REQUEST, the five responses of memory and the two 250 µs
limits. -/

namespace Sys2Proof.Machine

/-! ### Requests to memory -/

/-- The arbiter's choice (R166). -/
def LinkState.memChoice (l : LinkState) : Option RequestSource :=
  match l.forward, l.own with
  | [], [] => none
  | _ :: _, [] => some .forward
  | [], _ :: _ => some .own
  | _ :: _, _ :: _ => if l.headWait < 4 then some .forward else some .own

/-- Memory takes a request from a source (R164, R165, R166): the head-wait count counts the forwarded
requests sent since the own head became the head, and is 0 when the next own request becomes the head. -/
def LinkState.send (l : LinkState) (source : RequestSource) : LinkState :=
  match source with
  | .forward =>
    match l.forward with
    | [] => { l with memOffer := none }
    | r :: rest =>
      { l with forward := rest, memOffer := none, memOut := some r,
               headWait := if l.own.isEmpty then l.headWait else l.headWait + 1 }
  | .own =>
    match l.own with
    | [] => { l with memOffer := none }
    | r :: rest => { l with own := rest, memOffer := none, memOut := some r, headWait := 0 }

/-- MEMORY_TAKES_REQUEST (R166): memory becomes ready and the arbiter offers, an offer standing until
taken; or memory takes what is offered (log 15). -/
def execMemoryTakesRequest (moment : LinkMoment) (s : State) : Host.Outcome State Fault Refusal :=
  match moment with
  | .ready => .next { s with link := { s.link with memOffer := s.link.memOffer.or s.link.memChoice } }
  | .taken =>
    match s.link.memOffer.or s.link.memChoice with
    | none => .next s
    | some source => .next { s with link := s.link.send source }

/-! ### Routing of a response (R167) -/

/-- A response of memory joins the relay queue, and its tag leaves the memory-port table (R167, R169). -/
def LinkState.relayResponse (l : LinkState) (r : Response) : LinkState :=
  match r.kind with
  | .read => { l with memReads := leave l.memReads r.tag, relay := l.relay ++ [r] }
  | .write => { l with memWrites := leave l.memWrites r.tag, relay := l.relay ++ [r] }

/-- A refill tag by its number on the link, 32 to 39 (R70). -/
def refillTagOf (tag : Nat) : Option (Fin 8) :=
  if h : 32 ≤ tag ∧ tag < 40 then some ⟨tag - 32, by omega⟩ else none

/-- A report tag by its number on the link, 32 and 33 (R150). -/
def reportTagOf (tag : Nat) : Option (Fin 2) :=
  if h : 32 ≤ tag ∧ tag < 34 then some ⟨tag - 32, by omega⟩ else none

/-- A response for a forwarded read (R169). -/
def answerRead (s : State) (tag : Nat) (status : LinkStatus) (data : List Beat) : State :=
  { s with link := s.link.relayResponse { kind := .read, tag := tag, status := status, data := data } }

/-- A response for a forwarded write (R34, R110, R167): relayed, and acted on at once by the order tracker
and the manifest unit. -/
def answerWrite (s : State) (tag : Nat) (status : LinkStatus) : State :=
  let s := { s with
    link := s.link.relayResponse { kind := .write, tag := tag, status := status, data := [] },
    measure := s.measure.writeAnswered tag status }
  (s.windowAnswered tag status).advanceManifest.settle

/-! ### The refill unit's responses -/

/-- The beats of an OK response, as many as the tag's request named; a beat that the response did not
bring is a free value (R76, R172; log 11). -/
def returnedBeats (free count : Nat) (data : List Beat) : List Beat :=
  (List.range count).map (fun k => data.getD k (Config.unreturnedBeat free k))

/-- A DEFERRED head run loses a chunk from its low end (R40). -/
def dropChunk (count : Nat) : List Run → List Run
  | { start := start, body := .deferred n newest settled } :: runs =>
    if n ≤ count then runs
    else { start := start + 16 * count, body := .deferred (n - count) newest settled } :: runs
  | runs => runs

/-- A chunk completes (R40, R76): the head run shrinks, the hand-off count rises, the beats go to the
engine, which chooses its next step (R55, R58). -/
def MeasureState.deliverChunk (m : MeasureState) (e : EngineId) (i count : Nat) (beats : List Beat) :
    MeasureState :=
  let m := m.modImage i (fun g =>
    { g with runs := dropChunk count g.runs, handOff := g.handOff + count })
  (m.modEngine e (fun x => { x with delivered := x.delivered ++ beats })).choose e

/-- A read response on a refill tag, by the tag's state and attachment (R76, R77, R79, R80). -/
def answerRefill (s : State) (t : Fin 8) (status : LinkStatus) (data : List Beat) : State :=
  let m := s.measure.setRefillTag t .free
  match s.measure.refillTags[t] with
  | .free => s
  | .quarantined => ({ s with measure := m } : State).settle
  | .busy _ none _ _ _ => ({ s with measure := m } : State).settle
  | .busy i (some e) _ count _ =>
    if status = .ok then
      ({ s with
        measure := m.deliverChunk e i count (returnedBeats s.freeCount count data),
        freeCount := if data.length < count then s.freeCount + 1 else s.freeCount } : State).settle
    else ({ s with measure := m.breakImage i .refillFault } : State).settle

/-! ### The report unit's responses -/

/-- A write response on a report tag (R147, R148, R149, R150). -/
def answerReport (s : State) (t : Fin 2) (status : LinkStatus) : State :=
  match s.report.tags[t] with
  | .free => s
  | .quarantined _ => ({ s with report := s.report.setTag t .free } : State).settle
  | .busy target =>
    if status = .ok then ({ s with report := s.report.acknowledged t target } : State).settle
    else
      ({ s with measure := s.measure.reportFailed s.report target,
                report := s.report.failed t target .free } : State).settle

/-- Every response that memory offers is routed by its kind and tag, and discarded when its tag is not
outstanding in the table of its kind (R167, R168). -/
def routeResponse (s : State) (kind : LinkKind) (tag : Nat) (status : LinkStatus) (data : List Beat) : State :=
  match kind with
  | .read =>
    if tag < 32 then
      if s.link.memReads.contains tag then answerRead s tag status data else s
    else
      match refillTagOf tag with
      | some t => answerRefill s t status data
      | none => s
  | .write =>
    if tag < 32 then
      if s.link.memWrites.contains tag then answerWrite s tag status else s
    else
      match reportTagOf tag with
      | some t => answerReport s t status
      | none => s

/-- FWD_WRITE_RESPONSE (R34, R167). -/
def execFwdWriteResponse (tag : Nat) (status : LinkStatus) (s : State) : Host.Outcome State Fault Refusal :=
  .next (routeResponse s .write tag status [])

/-- FWD_READ_RESPONSE (R167, R169). -/
def execFwdReadResponse (tag : Nat) (status : LinkStatus) (data : List Beat) (s : State) :
    Host.Outcome State Fault Refusal :=
  .next (routeResponse s .read tag status data)

/-- REFILL_RESPONSE (R76, R77, R79, R80). -/
def execRefillResponse (tag : Nat) (status : LinkStatus) (data : List Beat) (s : State) :
    Host.Outcome State Fault Refusal :=
  .next (routeResponse s .read tag status data)

/-- REPORT_WRITE_RESPONSE (R147, R148, R149, R150). -/
def execReportWriteResponse (tag : Nat) (status : LinkStatus) (s : State) :
    Host.Outcome State Fault Refusal :=
  .next (routeResponse s .write tag status [])

/-- UNKNOWN_TAG_RESPONSE (R168): a response whose tag is not outstanding is discarded. The memory port
looks the tag up as for every response, so one whose tag is outstanding is routed (R167; log 20). -/
def execUnknownTagResponse (kind : LinkKind) (tag : Nat) (status : LinkStatus) (data : List Beat) (s : State) :
    Host.Outcome State Fault Refusal :=
  .next (routeResponse s kind tag status data)

/-! ### The limits -/

/-- REFILL_LIMIT_EXPIRY (R78): a BUSY tag is quarantined, and the image of an attached one is broken with
REFILL_TIMEOUT. A tag that is not BUSY carries no limit. -/
def execRefillLimitExpiry (tag : Nat) (s : State) : Host.Outcome State Fault Refusal :=
  match refillTagOf tag with
  | none => .next s
  | some t =>
    let m := s.measure.setRefillTag t .quarantined
    match s.measure.refillTags[t] with
    | .busy i (some _) _ _ _ => .next ({ s with measure := m.breakImage i .refillTimeout } : State).settle
    | .busy _ none _ _ _ => .next ({ s with measure := m } : State).settle
    | .free => .next s
    | .quarantined => .next s

/-- REPORT_LIMIT_EXPIRY (R150): a BUSY tag is quarantined with its target, and the write is handled as a
failure (R149). A tag that is not BUSY carries no limit. -/
def execReportLimitExpiry (tag : Nat) (s : State) : Host.Outcome State Fault Refusal :=
  match reportTagOf tag with
  | none => .next s
  | some t =>
    match s.report.tags[t] with
    | .busy target =>
      .next ({ s with measure := s.measure.reportFailed s.report target,
                      report := s.report.failed t target (.quarantined target) } : State).settle
    | .free => .next s
    | .quarantined _ => .next s

end Sys2Proof.Machine
end

