-- ==== Sys2Proof/Machine/Resets.lean ====
section
/-! DEFINITION. Resets and sensing: COLD_RESET, WARM_RESET, RESET_END, SENSING_DONE. -/

namespace Sys2Proof.Machine

/-- A reset during a burn leaves the revocation fuse partly burnt or whole (R123). -/
def fusesAfterReset (s : State) : Fuses :=
  match s.manifest.revocation, s.fuses with
  | some .inProgress, .read (.whole d) alternate => .read (.uncertain d) alternate
  | _, f => f

/-- The values that both resets set (R1, R44, R69, R85, R124, R138, R158, R174), with the attempt counter
and the last rejection reason given. The window base is kept until the straps are sampled (R102); the pin
VPROG, the fuses, the queue of commands and the model's own count of free values are no state that a reset
sets (log 23). -/
def resetTo (s : State) (line : ResetLine) (attempts : Nat) (reason : Option RejectReason) : State :=
  { State.reset with
    manifest := { ManifestState.reset with
      windowBase := s.manifest.windowBase, attempts := attempts, lastReason := reason },
    resetLine := line, vprog := s.vprog, fuses := fusesAfterReset s, freeCount := s.freeCount,
    pending := s.pending }

/-- COLD_RESET (R124, R180). -/
def execColdReset (s : State) : Host.Outcome State Fault Refusal :=
  .next (resetTo s .cold 0 none)

/-- WARM_RESET (R120, R124, R180): the attempt counter and the last rejection reason are kept. A reset in
which CRSTn has been low stays a cold reset (R102; log 22). -/
def execWarmReset (s : State) : Host.Outcome State Fault Refusal :=
  .next (resetTo s (if s.resetLine = .cold then .cold else .warm) s.manifest.attempts s.manifest.lastReason)

/-- The window base that the straps select (R102). -/
def windowBaseOf : Bool → Bool → Addr
  | false, false => 0x0000000000#40
  | false, true => 0x0000100000#40
  | true, false => 0x0040000000#40
  | true, true => 0xFFFFFFF000#40

/-- RESET_END (R102, R103): the straps are sampled and sensing begins. Without a reset in progress the
straps have no effect (R102). -/
def execResetEnd (msel1 msel0 : Bool) (s : State) : Host.Outcome State Fault Refusal :=
  if s.resetLine = .inactive then .next s
  else .next { s with manifest := { s.manifest with windowBase := windowBaseOf msel1 msel0 },
                      resetLine := .inactive }

/-- What sensing reads, given the fuses as far as known (log 3): fuses read before read as their content
and the burns since have left them (R122, R123), and the operand settles only what is open. -/
def sensedAnchors (fuses : Fuses) (primary : SlotReading) (alternate : Option Digest) : Anchors :=
  match fuses with
  | .unread => { primary := primary, alternate := alternate }
  | .read p a =>
    { primary :=
        match p with
        | .blank => .blank
        | .whole d => .programmed d
        | .uncertain d => if primary = .revoked then .revoked else .programmed d
        | .revoked => .revoked,
      alternate := a }

/-- The fuses as sensing has read them. -/
def fusesOf (anchors : Anchors) : Fuses :=
  .read (match anchors.primary with
    | .blank => .blank
    | .programmed d => .whole d
    | .revoked => .revoked) anchors.alternate

/-- The phase after sensing (R104). -/
def phaseAfterSensing (attempts : Nat) (anchors : Anchors) : Phase :=
  if attempts = 3 then .lockout
  else if anchors.primary = .blank ∧ anchors.alternate = none then .unprovisioned
  else .manifestLoading

/-- SENSING_DONE (R103, R104, R105): the anchor states are held and the next phase is chosen. Sensing is
under way in SENSING once the reset has ended. -/
def execSensingDone (primary : SlotReading) (alternate : Option Digest) (s : State) :
    Host.Outcome State Fault Refusal :=
  if s.manifest.phase = .sensing ∧ s.resetLine = .inactive then
    let anchors := sensedAnchors s.fuses primary alternate
    .next ({ s with
      fuses := fusesOf anchors,
      manifest := { s.manifest.clearLoading with
        anchors := some anchors, phase := phaseAfterSensing s.manifest.attempts anchors } } : State).settle
  else .next s

end Sys2Proof.Machine
end

