-- ==== Sys2Proof/Machine/Dispatch.lean ====
section
/-! DEFINITION. The meaning of every command, one arm per constructor. -/

namespace Sys2Proof.Machine

def exec (i : Instr) (s : State) : Host.Outcome State Fault Refusal :=
  match i with
  | .coldReset => Sys2Proof.Machine.execColdReset s
  | .warmReset => Sys2Proof.Machine.execWarmReset s
  | .resetEnd msel1 msel0 => Sys2Proof.Machine.execResetEnd msel1 msel0 s
  | .sensingDone primary alternate => Sys2Proof.Machine.execSensingDone primary alternate s
  | .hostReadAccept tag addr beatCount => Sys2Proof.Machine.execHostReadAccept tag addr beatCount s
  | .hostWriteAccept tag addr beats => Sys2Proof.Machine.execHostWriteAccept tag addr beats s
  | .consumerUpdate value => Sys2Proof.Machine.execConsumerUpdate value s
  | .reopen seq image => Sys2Proof.Machine.execReopen seq image s
  | .abandon seq image => Sys2Proof.Machine.execAbandon seq image s
  | .resend seq image => Sys2Proof.Machine.execResend seq image s
  | .resume seq image => Sys2Proof.Machine.execResume seq image s
  | .memoryTakesRequest moment => Sys2Proof.Machine.execMemoryTakesRequest moment s
  | .fwdWriteResponse tag status => Sys2Proof.Machine.execFwdWriteResponse tag status s
  | .fwdReadResponse tag status data => Sys2Proof.Machine.execFwdReadResponse tag status data s
  | .refillResponse tag status data => Sys2Proof.Machine.execRefillResponse tag status data s
  | .reportWriteResponse tag status => Sys2Proof.Machine.execReportWriteResponse tag status s
  | .unknownTagResponse kind tag status data => Sys2Proof.Machine.execUnknownTagResponse kind tag status data s
  | .hostResponseDelivery moment => Sys2Proof.Machine.execHostResponseDelivery moment s
  | .refillLimitExpiry tag => Sys2Proof.Machine.execRefillLimitExpiry tag s
  | .reportLimitExpiry tag => Sys2Proof.Machine.execReportLimitExpiry tag s
  | .restoreDone engine => Sys2Proof.Machine.execRestoreDone engine s
  | .seedStepDone engine => Sys2Proof.Machine.execSeedStepDone engine s
  | .beatStepDone engine => Sys2Proof.Machine.execBeatStepDone engine s
  | .finalisationDone engine => Sys2Proof.Machine.execFinalisationDone engine s
  | .parkDone engine => Sys2Proof.Machine.execParkDone engine s
  | .manifestBeatStepDone => Sys2Proof.Machine.execManifestBeatStepDone s
  | .manifestCheckDone => Sys2Proof.Machine.execManifestCheckDone s
  | .parsingDone => Sys2Proof.Machine.execParsingDone s
  | .fuseBlown => Sys2Proof.Machine.execFuseBlown s
  | .burnLimitExpiry => Sys2Proof.Machine.execBurnLimitExpiry s
  | .vprogSupplyChange present => Sys2Proof.Machine.execVprogSupplyChange present s

end Sys2Proof.Machine
end

