-- ==== Sys2Proof/Safety.lean ====
section
/-! DEFINITION. What the claims about the part are made of: how far an image has come, what a run list
holds, how the tags of the links stand, and when a state of each block is one the rules allow. -/

namespace Sys2Proof.Machine

/-! ### Images -/

/-- How far measurement has come: DECLARED, FILLING, FINISHING, terminal (R6). -/
def ImageState.stage : ImageState → Nat
  | .declared => 0
  | .filling => 1
  | .finishing _ => 2
  | .verified _ | .recorded _ | .mismatched _ | .broken _ => 3

/-- What the transitions of R6 other than a reopen lead to: a terminal state is not left, and the others
are left forwards alone. -/
def ImageState.movesTo (a b : ImageState) : Prop := b = a ∨ (a.stage < 3 ∧ a.stage ≤ b.stage)

/-- Two runs of one image, the first below the second: apart, and not both DEFERRED when they touch (R21). -/
def runBefore (r r' : Run) : Prop :=
  r.stop ≤ r'.start ∧ ¬ (r.body.isDeferred = true ∧ r'.body.isDeferred = true ∧ r.stop = r'.start)

/-- The beats a run may hold (R20): 1 to 16 when STAGED, 1 or more when DEFERRED. -/
def RunBody.sizeOk : RunBody → Prop
  | .staged beats => 1 ≤ beats.length ∧ beats.length ≤ 16
  | .deferred count _ _ => 1 ≤ count

/-- The laws of R20 and R21 that concern the runs of one image among themselves. -/
def runsOk (runs : List Run) : Prop :=
  runs.Pairwise runBefore ∧ ∀ r ∈ runs, r.body.sizeOk

/-- The laws of the run table and the staging store (R20, R21, R22), but for the place of the runs against
the cursor. -/
def MeasureState.runTableOk (m : MeasureState) : Prop :=
  (∀ g ∈ m.images, runsOk g.runs) ∧ m.entriesUsed ≤ Config.runEntries ∧ m.slotsUsed ≤ Config.stagingSlots

/-! ### The engine pool and the refill unit -/

/-- No engine is bound to image i (R47). -/
def MeasureState.unbound (m : MeasureState) (i : Nat) : Prop := ∀ e : EngineId, m.engines[e].bound ≠ some i

/-- Image i has no pinned engine (R3). -/
def MeasureState.unpinned (m : MeasureState) (i : Nat) : Prop :=
  ∃ g, m.image? i = some g ∧ g.declared.pin = none

/-- The tag is BUSY and ATTACHED for image i on engine e, with a beat count (R70, R80). -/
def RefillTag.attachedTo (t : RefillTag) (i : Nat) (e : EngineId) (n : Nat) : Prop :=
  ∃ start address, t = .busy i (some e) start n address

/-- The head run is DEFERRED and starts at the cursor, with nothing handed off before it (R41, R72). -/
def Image.awaits (g : Image) : Prop :=
  g.handOff = 0 ∧ ∃ r runs, g.runs = r :: runs ∧ r.body.isDeferred = true ∧ r.start = g.cursor

/-- What the record of one engine keeps (R47, R48, R65, R68): an engine that is FREE, or whose step is
discarded, or that works for the manifest unit, has no bound image; without one it holds no delivered beat;
and delivered beats wait in RESTORING and ABSORBING alone. -/
structure Engine.workOk (x : Engine) : Prop where
  free : x.state = .free → x.bound = none ∧ x.discard = false ∧ x.manifest = false
  holding : x.state = .holding → x.discard = false
  elsewhere : x.discard = true ∨ x.manifest = true → x.bound = none
  nothing : x.bound = none → x.delivered = []
  delivered : x.delivered ≠ [] → x.state = .restoring ∨ ∃ step, x.state = .absorbing step

/-- How engines, images, the wait list and the refills stand to one another (R19, R47, R50, R52, R62, R70,
R72). -/
structure MeasureState.poolOk (m : MeasureState) : Prop where
  /-- Each engine by itself. -/
  engines : ∀ e : EngineId, m.engines[e].workOk
  /-- An image has at most one engine, and each beat handed off to it and not yet taken waits there. -/
  single : ∀ (e e' : EngineId) (i : Nat), m.engines[e].bound = some i → m.engines[e'].bound = some i → e = e'
  bound : ∀ (e : EngineId) (i : Nat), m.engines[e].bound = some i → ∃ g, m.image? i = some g ∧
    g.handOff = m.engines[e].delivered.length ∧ (m.engines[e].state = .awaitingRefill → g.awaits)
  handOff : ∀ i g, m.image? i = some g → m.unbound i → g.handOff = 0
  /-- A reservation is for an image pinned to the engine. -/
  pins : ∀ (e : EngineId) (p : Nat), m.engines[e].reservation = some p →
    ∃ g, m.image? p = some g ∧ g.declared.pin = some e
  /-- An image waits in the list or for one parking engine, not both, and only without an engine and
  without a pin. -/
  waiting : ∀ i ∈ m.waitList, m.unpinned i ∧ m.unbound i ∧ ∀ e : EngineId, m.engines[e].claimant ≠ some i
  claims : ∀ (e : EngineId) (i : Nat), m.engines[e].claimant = some i → m.unpinned i ∧ m.unbound i ∧
    m.engines[e].state = .parking ∧ m.engines[e].reservation = none ∧
    ∀ e' : EngineId, m.engines[e'].claimant = some i → e' = e
  /-- A request stands for an engine that awaits a refill and has none issued, once. -/
  requests : ∀ q ∈ m.refillPending, m.engines[q.engine].state = .awaitingRefill ∧
    m.engines[q.engine].bound = some q.image ∧ ∀ (k : Fin 8) i n, ¬ m.refillTags[k].attachedTo i q.engine n
  once : m.refillPending.Pairwise (fun q q' => q.engine ≠ q'.engine)
  /-- An attached refill is for the image of an engine that awaits it, within its head run, once. -/
  attached : ∀ (k : Fin 8) (i : Nat) (e : EngineId) (n : Nat), m.refillTags[k].attachedTo i e n →
    m.engines[e].state = .awaitingRefill ∧ m.engines[e].bound = some i ∧
    (∀ g, m.image? i = some g → ∀ r ∈ g.runs.head?, n ≤ r.body.beatCount) ∧
    ∀ (k' : Fin 8) i' n', m.refillTags[k'].attachedTo i' e n' → k' = k

/-- Where an image stands in its length (R18, R19, R21): the cursor and what is handed off never pass its
end, and every run lies at or above them and within the length. -/
def Image.placed (g : Image) : Prop :=
  g.cursor + 16 * g.handOff ≤ g.declared.length ∧
    ∀ r ∈ g.runs, g.cursor + 16 * g.handOff ≤ r.start ∧ r.stop ≤ g.declared.length

/-- The segments of an image lie within its length, on beats (R2, R3). -/
def MeasureState.segmentsOk (m : MeasureState) : Prop :=
  ∀ x ∈ m.segments, ∀ i, x.owner = some i → ∃ g, m.image? i = some g ∧ x.base % 16 = 0 ∧
    x.length % 16 = 0 ∧ x.imageOffset % 16 = 0 ∧ x.imageOffset + x.length ≤ g.declared.length

/-- The place of every run against the cursor (R18, R21). -/
def MeasureState.placesOk (m : MeasureState) : Prop := m.segmentsOk ∧ ∀ g ∈ m.images, g.placed

/-- The segments of an image hold every one of its bytes (R2, R3). -/
def MeasureState.segmentsCover (m : MeasureState) : Prop :=
  ∀ i g x, m.image? i = some g → x < g.declared.length → ∃ seg, segmentOf m.segments i x = some seg

/-- How the pool and the refill unit stand between events: what they act on at the instant at which it comes
about has been acted on. -/
structure MeasureState.poolSettled (m : MeasureState) : Prop where
  /-- The wait list holds the images that are ready, have no engine and no pinned engine and are promised
  none, and no other (R50). -/
  waiting : ∀ i, i ∈ m.waitList ↔ m.ready i = true ∧ m.unbound i ∧ m.unpinned i ∧
    ∀ e : EngineId, m.engines[e].claimant ≠ some i
  /-- While an image waits, no engine is FREE and unreserved, and none can be evicted (R51). -/
  arbiter : m.waitList ≠ [] → ∀ e : EngineId, m.engines[e].reservation = none →
    m.engines[e].state ≠ .free ∧ (m.engines[e].state = .holding → m.engines[e].claimant ≠ none)
  /-- A claimant is ready (R52). -/
  claims : ∀ (e : EngineId) (i : Nat), m.engines[e].claimant = some i → m.ready i = true
  /-- A HOLDING engine's image is not ready (R56). -/
  holding : ∀ (e : EngineId) (i : Nat), m.engines[e].state = .holding → m.engines[e].bound = some i →
    m.ready i = false
  /-- A FREE engine's pinned image is not ready, or has an engine (R63). -/
  pinned : ∀ (e : EngineId) (p : Nat), m.engines[e].reservation = some p → m.engines[e].state = .free →
    m.ready p = true → ¬ m.unbound p
  /-- An engine that awaits a refill has its request pending or issued (R58, R72). -/
  awaiting : ∀ (e : EngineId) (i : Nat), m.engines[e].state = .awaitingRefill → m.engines[e].bound = some i →
    { engine := e, image := i } ∈ m.refillPending ∨ ∃ (k : Fin 8) (n : Nat), m.refillTags[k].attachedTo i e n
  /-- While a request waits, no refill tag is FREE (R72, R81). -/
  served : m.refillPending ≠ [] → ∀ k : Fin 8, m.refillTags[k] ≠ .free

/-! ### Dependents -/

/-- Every predecessor is lower than its dependent (R3, R125: check 9 of parsing makes it so). -/
def MeasureState.predecessorsLower (m : MeasureState) : Prop :=
  ∀ i g p, m.image? i = some g → g.declared.predecessor = some p → p < i

/-- Image d is a dependent of image x: d's predecessor is x or is itself a dependent of x (R125). -/
inductive dependsOn (m : MeasureState) (x : Nat) : Nat → Prop where
  | direct {d : Nat} {g : Image} (h : m.image? d = some g) (hp : g.declared.predecessor = some x) :
      dependsOn m x d
  | through {d p : Nat} {g : Image} (h : m.image? d = some g) (hp : g.declared.predecessor = some p)
      (hd : dependsOn m x p) : dependsOn m x d

/-! ### Resets -/

/-- The values that both resets set (R1, R44, R69, R85, R124, R138, R158, R174); what a warm reset keeps and
what the straps set is not among them. -/
structure State.clearedByReset (t : State) : Prop where
  tables : t.measure.images = [] ∧ t.measure.segments = []
  tracker : t.measure.nextSeq = 1 ∧ t.measure.entries = []
  engines : ∀ e : EngineId, t.measure.engines[e].state = .free ∧ t.measure.engines[e].bound = none ∧
    t.measure.engines[e].discard = false ∧ t.measure.engines[e].parkOrder = false ∧
    t.measure.engines[e].claimant = none ∧ t.measure.engines[e].reservation = none ∧
    t.measure.engines[e].context = none
  waitList : t.measure.waitList = []
  refills : (∀ k : Fin 8, t.measure.refillTags[k] = .free) ∧ t.measure.refillPending = []
  loading : t.manifest.buffer = [] ∧ t.manifest.length = none ∧ t.manifest.absorbOffset = 0 ∧
    t.manifest.windowWrites = []
  manifest : t.manifest.phase = .sensing ∧ t.manifest.anchors = none ∧ t.manifest.record = none ∧
    t.manifest.revocation = none
  lines : t.lines.rls0 = false ∧ t.lines.rls1 = false ∧ t.lines.fault = false ∧ t.lines.sets = none ∧
    t.measure.verified = []
  channel : t.report.channel = .dormant ∧ t.report.area = none ∧ t.report.producer = 0 ∧
    t.report.consumer = 0 ∧ t.report.advanceOwed = false ∧ t.report.headerFirst = false ∧
    t.report.headerDirty = false
  command : t.report.lastSeq = 0 ∧ t.report.lastResult = .none
  queue : t.measure.subjects = [] ∧ t.report.inFlight = none ∧ ∀ k : Fin 2, t.report.tags[k] = .free
  hostSide : t.link.hostReads = [] ∧ t.link.hostWrites = [] ∧ t.link.refusals = [] ∧ t.link.relay = [] ∧
    t.link.lastSource = .part ∧ t.link.hostOffer = none
  memorySide : t.link.memReads = [] ∧ t.link.memWrites = [] ∧ t.link.forward = [] ∧ t.link.own = [] ∧
    t.link.headWait = 0 ∧ t.link.memOffer = none

/-! ### The manifest unit -/

/-- The attempt counter and the phase agree, and window writes are followed in MANIFEST_LOADING alone
(R106, R110, R120). -/
def ManifestState.attemptsOk (u : ManifestState) : Prop :=
  u.attempts ≤ 3 ∧ (u.phase = .lockout ↔ u.attempts = 3 ∧ u.phase ≠ .sensing) ∧
    (u.windowWrites ≠ [] → u.phase = .manifestLoading)

/-- The buffer is in its canonical form, and holds no beat beyond a length that is known (R106, R108). -/
def ManifestState.bufferOk (u : ManifestState) : Prop :=
  bufferWf u.buffer = true ∧
    ∀ n, u.length = some n → 1 ≤ n ∧ n ≤ 64 ∧ ∀ x ∈ u.buffer, x.1 < 64 * n

/-- The region and image tables, the report area, the release sets and the record exist in ARMED alone
(R1, R118, R133, R139). -/
def State.tablesOk (s : State) : Prop :=
  s.manifest.phase ≠ .armed →
    s.measure.images = [] ∧ s.measure.segments = [] ∧ s.measure.verified = [] ∧ s.measure.subjects = [] ∧
      s.report.area = none ∧ s.report.channel = .dormant ∧ s.lines.sets = none ∧
      s.manifest.record = none ∧ s.manifest.revocation = none

/-! ### The links -/

/-- A well-formed request lies wholly inside the manifest window or wholly outside it (R87, R102). -/
def State.windowWhole (s : State) : Prop :=
  ∀ (kind : LinkKind) (tag n : Nat) (addr : Addr), malformed s.link kind tag addr n = false →
    (∀ k, k < n → ∃ d, classify s (addr.toNat + 16 * k) = .window d) ∨
      ∀ k, k < n → ∀ d, classify s (addr.toNat + 16 * k) ≠ .window d

/-- The head-wait count and a standing offer agree (R166). -/
def LinkState.headWaitOk (l : LinkState) : Prop :=
  l.headWait ≤ 4 ∧ (l.memOffer = some .forward → l.own ≠ [] → l.headWait < 4)

/-- The tags of a kind in the relay queue. -/
def LinkState.relayTags (l : LinkState) (kind : LinkKind) : List Nat :=
  (l.relay.filter (·.kind == kind)).map (·.tag)

/-- The tags of a kind whose REFUSED response waits. -/
def LinkState.refusedTags (l : LinkState) (kind : LinkKind) : List Nat :=
  (l.refusals.filter (fun r => r.kind == kind && r.status != .malformed)).map (·.tag)

/-- A host tag is outstanding on the host port once, and exactly while it is outstanding on the memory
port, or answered by memory and not delivered, or refused and not delivered (R88, R161, R163, R169). -/
def LinkState.tagsOk (l : LinkState) : Prop :=
  l.hostReads.Nodup ∧ l.hostWrites.Nodup ∧ (∀ t ∈ l.hostReads, t < 32) ∧ (∀ t ∈ l.hostWrites, t < 32) ∧
    l.hostReads.Perm (l.memReads ++ (l.relayTags .read ++ l.refusedTags .read)) ∧
    l.hostWrites.Perm (l.memWrites ++ (l.relayTags .write ++ l.refusedTags .write))

/-- Every host tag of the write space on the memory port has its write entry, and no other (R24, R161). -/
def State.entriesOk (s : State) : Prop := s.measure.entries.map (·.tag) = s.link.memWrites

/-- The inbound queue holds at most 16 entries (R162). -/
def LinkState.inboundOk (l : LinkState) : Prop := l.occupied ≤ Config.inboundEntries

/-! ### Lines -/

/-- FAULT stands exactly while one of its conditions holds (R136). -/
def State.faultOk (s : State) : Prop :=
  s.lines.fault = true ↔
    (∃ i g, s.measure.image? i = some g ∧ g.state.isFailed = true) ∨
      s.manifest.phase = .rejected ∨ s.manifest.phase = .lockout ∨ s.report.channel = .halted ∨
      s.manifest.revocation = some .failed

/-- Every member of a release set is in the verified record (R134). -/
def membersVerified (verified : List Nat) (set : BitVec 32) : Prop :=
  ∀ i, i < 32 → set.getLsbD i = true → i ∈ verified

/-- The release lines follow the phase outside ARMED (R135), and in ARMED each stands exactly when every
member of its set has been recorded VERIFIED (R134). -/
def State.releaseOk (s : State) : Prop :=
  (s.manifest.phase = .unprovisioned → s.lines.rls0 = true ∧ s.lines.rls1 = true) ∧
  (s.manifest.phase ≠ .unprovisioned → s.manifest.phase ≠ .armed →
    s.lines.rls0 = false ∧ s.lines.rls1 = false) ∧
  (s.manifest.phase = .armed → ∃ set0 set1, s.lines.sets = some (set0, set1) ∧
    (s.lines.rls0 = true ↔ membersVerified s.measure.verified set0) ∧
    (s.lines.rls1 = true ↔ membersVerified s.measure.verified set1))

/-! ### The report channel -/

/-- No report tag is BUSY. -/
def ReportState.idle (r : ReportState) : Prop := ∀ t target, r.tags[(t : Fin 2)] ≠ .busy target

/-- One report tag is BUSY, with a target of the given kind. -/
def ReportState.oneBusy (r : ReportState) (target : ReportTarget → Prop) : Prop :=
  ∃ (t : Fin 2) (x : ReportTarget), r.tags[t] = .busy x ∧ target x ∧
    ∀ (t' : Fin 2) (x' : ReportTarget), r.tags[t'] = .busy x' → t' = t

/-- The channel has at most one write BUSY, and the one its state names (R143). -/
def ReportState.channelOk (r : ReportState) : Prop :=
  match r.channel with
  | .dormant | .ready | .halted => r.idle
  | .writingRecord => r.oneBusy (fun x => ∃ k, x = .slot k) ∧ r.advanceOwed = false
  | .writingHeader => r.oneBusy (· = .header)

/-- The ring never holds more than N records, and one that is written and not yet published has its room
(R141, R148): N is a record count the parse checks let pass, and the next record's number follows the
producer index. -/
def ReportState.ringOk (r : ReportState) : Prop :=
  ∀ area, r.area = some area →
    area.slots ∈ [8, 16, 32, 64, 128, 256] ∧ r.fill ≤ area.slots ∧
      (r.advanceOwed = true ∨ r.channel = .writingRecord → r.fill < area.slots) ∧
      area.nextRecord.setWidth 16 = r.producer + 1

end Sys2Proof.Machine
end

