-- ==== Sys2Proof/Certificates/Slice0/Obligations.lean ====
section
/-! DEFINITION. The statements about the ULV240. Where a command brings follow-ups at the same instant (the
pool acts on readiness, refills are issued, the report unit chooses, the lines follow), its statement gives
the state before them, and the next state is `State.settle` of it; what `State.settle` leaves alone is a
statement of its own. -/

open Sys2Proof Sys2Proof.Machine

/-! ### One step -/

/-- The front command of the queue is executed on the state with the queue's rest; on an empty queue the
part idles. Every command, in every state, is answered with a next state, and leaves the queue to `step`.
The queue is the model's own (log 1). -/
def Obligations.StepRunsFrontCommand : Prop :=
  (∀ (c : Instr) (s : State), step { s with pending := c :: s.pending } = exec c s) ∧
  (∀ s : State, s.pending = [] → step s = .next s) ∧
  ∀ (c : Instr) (s : State), ∃ t, exec c s = .next t ∧ t.pending = s.pending

/-- What `State.settle`, the follow-ups of an event, leaves alone: the manifest unit, the reset line, the
supply, the fuses, the queue, the release sets, every queue and table of the links but the own-request
queue, to whose tail alone requests are added, the head-wait count becoming 0 when one joins an empty queue and
staying as it is otherwise (R166); the tables and the write entries; the declared fields,
epochs and writes in flight of all images; and all of an image that is not in FILLING, but for its
transitions count, which a record's capture sets to 0 (R10). -/
def Obligations.SettleLeavesAlone : Prop :=
  ∀ s t : State, t = s.settle →
    t.manifest = s.manifest ∧ t.resetLine = s.resetLine ∧ t.vprog = s.vprog ∧ t.fuses = s.fuses ∧
    t.pending = s.pending ∧ t.lines.sets = s.lines.sets ∧
    (∃ new, t.link = { s.link with own := s.link.own ++ new, headWait := t.link.headWait } ∧
      (s.link.own = [] → new ≠ [] → t.link.headWait = 0) ∧
      (s.link.own ≠ [] ∨ new = [] → t.link.headWait = s.link.headWait)) ∧
    t.measure.segments = s.measure.segments ∧ t.measure.entries = s.measure.entries ∧
    t.measure.nextSeq = s.measure.nextSeq ∧ t.measure.images.length = s.measure.images.length ∧
    t.measure.verified = s.measure.verified ∧
    t.report.lastSeq = s.report.lastSeq ∧ t.report.lastResult = s.report.lastResult ∧
    t.report.producer = s.report.producer ∧ t.report.consumer = s.report.consumer ∧
    t.report.advanceOwed = s.report.advanceOwed ∧
    (∀ i g, s.measure.image? i = some g → ∃ g', t.measure.image? i = some g' ∧
      g'.declared = g.declared ∧ g'.epoch = g.epoch ∧ g'.inFlight = g.inFlight ∧
      (g.state ≠ .filling → g' = { g with transitions := g'.transitions } ∧
        (g'.transitions = g.transitions ∨ g'.transitions = 0)) ∧
      (g.state = .filling → (g'.state = .filling ∨ g'.state = .finishing none) ∧ g.cursor ≤ g'.cursor))

/-! ### Resets, straps and sensing -/

/-- COLD_RESET and WARM_RESET (R120, R124 and the reset tables of the other blocks): everything is at its
reset value; a cold reset clears the attempt counter and the last reason, a warm one keeps them; a reset in
which CRSTn has been low is a cold one (R102); the pin VPROG is no state of the part. -/
def Obligations.ResetsClear : Prop :=
  (∀ s : State, ∃ t, exec .coldReset s = .next t ∧ t.clearedByReset ∧ t.manifest.attempts = 0 ∧
    t.manifest.lastReason = none ∧ t.resetLine = .cold ∧ t.vprog = s.vprog ∧ t.pending = s.pending) ∧
  (∀ s : State, ∃ t, exec .warmReset s = .next t ∧ t.clearedByReset ∧
    t.manifest.attempts = s.manifest.attempts ∧ t.manifest.lastReason = s.manifest.lastReason ∧
    (t.resetLine = .cold ↔ s.resetLine = .cold) ∧ t.resetLine ≠ .inactive ∧ t.vprog = s.vprog ∧
    t.pending = s.pending)

/-- R102: the straps are sampled at the end of each reset and fix the window; between resets they have no
effect and the base keeps its value; the window is 4096 bytes from the base, in every phase; a well-formed
request lies wholly inside it or wholly outside it; a reset with CRSTn low at any time is a cold one. That
RESET_END without a reset in progress leaves the whole state as it is, is the model's choice (log 4). -/
def Obligations.StrapsFixTheWindow : Prop :=
  (∀ s : State, s.resetLine ≠ .inactive → ∀ msel1 msel0 : Bool,
    exec (.resetEnd msel1 msel0) s = .next { s with
      resetLine := .inactive
      manifest := { s.manifest with windowBase :=
        if msel1 then (if msel0 then 0xFFFFFFF000#40 else 0x0040000000#40)
        else (if msel0 then 0x0000100000#40 else 0x0000000000#40) } }) ∧
  (∀ s : State, s.resetLine = .inactive → ∀ msel1 msel0 : Bool,
    exec (.resetEnd msel1 msel0) s = .next s) ∧
  (∀ (c : Instr) (s t : State), exec c s = .next t → (∀ msel1 msel0, c ≠ .resetEnd msel1 msel0) →
    t.manifest.windowBase = s.manifest.windowBase) ∧
  (∀ (s : State) (a : Nat), s.manifest.windowBase.toNat ≤ a →
    a < s.manifest.windowBase.toNat + 4096 → classify s a = .window (a - s.manifest.windowBase.toNat)) ∧
  (∀ (s : State) (a d : Nat), classify s a = .window d →
    a = s.manifest.windowBase.toNat + d ∧ d < 4096) ∧
  (∀ s : State, s.manifest.windowBase ∈ [0x0000000000#40, 0x0000100000#40, 0x0040000000#40, 0xFFFFFFF000#40] →
    s.manifest.windowBase.toNat % 0x1000 = 0 ∧ s.windowWhole) ∧
  (∀ s t : State, exec .coldReset s = .next t → t.resetLine = .cold) ∧
  (∀ s t : State, s.resetLine = .cold → exec .warmReset s = .next t → t.resetLine = .cold)

/-- R104: the phase that sensing leads to, from the attempt counter and the anchor states as read; the host
port takes requests from the same instant. -/
def Obligations.SensingChoosesPhase : Prop :=
  ∀ (s : State) (primary : SlotReading) (alternate : Option Digest),
    s.manifest.phase = .sensing → s.resetLine = .inactive →
    ∃ (fuses : Fuses) (u : ManifestState) (an : Anchors),
      exec (.sensingDone primary alternate) s =
        .next (State.settle { s with fuses := fuses, manifest := u }) ∧
      u.anchors = some an ∧
      (s.fuses = .unread → an = { primary := primary, alternate := alternate }) ∧
      (s.manifest.attempts = 3 → u.phase = .lockout) ∧
      (s.manifest.attempts ≠ 3 → an.primary = .blank → an.alternate = none → u.phase = .unprovisioned) ∧
      (s.manifest.attempts ≠ 3 → (an.primary ≠ .blank ∨ an.alternate ≠ none) →
        u.phase = .manifestLoading ∧ u.buffer = [] ∧ u.length = none ∧ u.absorbOffset = 0 ∧
          u.windowWrites = []) ∧
      u.attempts = s.manifest.attempts ∧ u.lastReason = s.manifest.lastReason ∧
      u.windowBase = s.manifest.windowBase ∧
      (State.takesRequests { s with fuses := fuses, manifest := u } = true ↔ s.link.occupied < 16)

/-! ### The host port and the gate -/

/-- R87: the five conditions of the form check, each alone enough; a malformed request is answered once, and
changes nothing but the refusal response queue, in every phase that takes requests; and a well-formed one
lies wholly inside the manifest window or wholly outside it. -/
def Obligations.FormCheckAnswersMalformed : Prop :=
  (∀ (l : LinkState) (kind : LinkKind) (tag : Nat) (addr : Addr) (n : Nat),
    malformed l kind tag addr n = true ↔
      addr.toNat % 16 ≠ 0 ∨ n = 0 ∨ 16 < n ∨
      (1 ≤ n ∧ n ≤ 16 ∧ addr.toNat / 4096 ≠ (addr.toNat + 16 * n - 1) / 4096) ∨
      31 < tag ∨ tag ∈ hostTable l kind) ∧
  (∀ (s : State) (tag n : Nat) (addr : Addr), s.manifest.phase ≠ .sensing → s.link.occupied < 16 →
    malformed s.link .read tag addr n = true →
    exec (.hostReadAccept tag addr n) s = .next { s with link := { s.link with
      refusals := s.link.refusals ++ [{ kind := .read, tag := tag, status := .malformed, data := [] }] } }) ∧
  (∀ (s : State) (tag : Nat) (addr : Addr) (beats : List WriteBeat), s.manifest.phase ≠ .sensing →
    s.link.occupied < 16 → malformed s.link .write tag addr beats.length = true →
    exec (.hostWriteAccept tag addr beats) s = .next { s with link := { s.link with
      refusals := s.link.refusals ++ [{ kind := .write, tag := tag, status := .malformed, data := [] }] } }) ∧
  (∀ s : State, s.manifest.windowBase ∈ [0x0000000000#40, 0x0000100000#40, 0x0040000000#40, 0xFFFFFFF000#40] →
    s.windowWhole)

/-- A request offered in SENSING or with all 16 inbound entries occupied is held: nothing of it is taken
(R86, R162); that the command then has no effect is the model's (log 5). A well-formed write with one
refused beat is refused whole: it is measured nowhere, numbered nowhere and handed to no block (R89, R90). -/
def Obligations.RequestsHeldOrRefused : Prop :=
  (∀ (s : State) (tag n : Nat) (addr : Addr) (beats : List WriteBeat),
    s.manifest.phase = .sensing ∨ 16 ≤ s.link.occupied →
    exec (.hostReadAccept tag addr n) s = .next s ∧ exec (.hostWriteAccept tag addr beats) s = .next s) ∧
  (∀ (s : State) (tag : Nat) (addr : Addr) (beats : List WriteBeat), s.manifest.phase ≠ .sensing →
    s.link.occupied < 16 → malformed s.link .write tag addr beats.length = false →
    (∃ k, k < beats.length ∧ beatForwards s .write (classify s (addr.toNat + 16 * k)) = false) →
    exec (.hostWriteAccept tag addr beats) s = .next { s with link := { s.link with
      hostWrites := s.link.hostWrites ++ [tag],
      refusals := s.link.refusals ++
        [{ kind := .write, tag := tag, status := .refused, data := [] }] } })

/-- A well-formed read is forwarded when every beat is, and otherwise refused whole; nothing but the host
port's and the memory port's tables and queues changes (R88, R89, R90, R164). -/
def Obligations.HostReadDecided : Prop :=
  ∀ (s : State) (tag n : Nat) (addr : Addr), s.manifest.phase ≠ .sensing → s.link.occupied < 16 →
    malformed s.link .read tag addr n = false →
    ((∀ k, k < n → beatForwards s .read (classify s (addr.toNat + 16 * k)) = true) →
      exec (.hostReadAccept tag addr n) s = .next { s with link := { s.link with
        hostReads := s.link.hostReads ++ [tag], memReads := s.link.memReads ++ [tag],
        forward := s.link.forward ++ [.read tag addr n] } }) ∧
    ((∃ k, k < n ∧ beatForwards s .read (classify s (addr.toNat + 16 * k)) = false) →
      exec (.hostReadAccept tag addr n) s = .next { s with link := { s.link with
        hostReads := s.link.hostReads ++ [tag],
        refusals := s.link.refusals ++
          [{ kind := .read, tag := tag, status := .refused, data := [] }] } })

/-- The decisions by phase and region (R92, R94, R95). -/
def Obligations.GateTable : Prop :=
  ∀ (s : State) (kind : LinkKind),
    (s.manifest.phase = .unprovisioned ∨ s.manifest.phase = .manifestLoading ∨
      s.manifest.phase = .rejected → ∀ r, beatForwards s kind r = true) ∧
    (s.manifest.phase = .manifestCheck ∨ s.manifest.phase = .parsing ∨ s.manifest.phase = .lockout →
      ∀ r, beatForwards s kind r = true ↔ ¬ (kind = .write ∧ ∃ d, r = .window d)) ∧
    (s.manifest.phase = .armed →
      beatForwards s kind .none = true ∧
      (∀ d, beatForwards s kind (.window d) = true ↔ kind = .read) ∧
      (∀ b, beatForwards s kind (.header b) = true ↔ kind = .read ∨ b = 1) ∧
      (∀ k b, beatForwards s kind (.record k b) = true ↔ kind = .read) ∧
      (∀ i x g, s.measure.image? i = some g →
        (beatForwards s .write (.image i x) = true ↔
          g.state = .declared ∨ g.state = .filling ∨ ∃ why, g.state = .broken why) ∧
        (beatForwards s .read (.image i x) = true ↔
          (∃ d, g.state = .verified d) ∨ (∃ d, g.state = .recorded d) ∨
          ((g.state = .declared ∨ g.state = .filling ∨ ∃ p, g.state = .finishing p) ∧
            g.declared.policy.readWhileLoading = true) ∨
          (((∃ d, g.state = .mismatched d) ∨ ∃ why, g.state = .broken why) ∧
            g.declared.policy.readAfterFail = true))))

/-- A forwarded write that is measured nowhere and handed to no block still enters the tables and the
forward queue and receives its number and write entry: every write of UNPROVISIONED, and outside ARMED
every write that does not lie in the window (R23, R43, R92, R97). -/
def Obligations.UnmeasuredWriteForwarded : Prop :=
  ∀ (s : State) (tag : Nat) (addr : Addr) (beats : List WriteBeat), s.manifest.phase ≠ .sensing →
    s.manifest.phase ≠ .armed → s.link.occupied < 16 →
    malformed s.link .write tag addr beats.length = false →
    (s.manifest.phase ≠ .unprovisioned →
      ∀ k, k < beats.length → ∀ d, classify s (addr.toNat + 16 * k) ≠ .window d) →
    (∀ k, k < beats.length → ∀ i x, classify s (addr.toNat + 16 * k) ≠ .image i x) →
    exec (.hostWriteAccept tag addr beats) s = .next (State.settle { s with
      link := { s.link with
        hostWrites := s.link.hostWrites ++ [tag], memWrites := s.link.memWrites ++ [tag],
        forward := s.link.forward ++ [.write tag addr beats] }
      measure := { s.measure with
        entries := s.measure.entries ++
          [{ tag := tag, seq := s.measure.giveNumber, recorded := [] }]
        nextSeq := if s.measure.giveNumber.number = 0xFFFFFFFF#32 then 1
          else s.measure.giveNumber.number + 1
        nextOrder := s.measure.nextOrder + 1 } })

/-- The number given is never one that the unanswered set still holds, and is the next one when that is not
held (R23). -/
def Obligations.NumberGivenIsNotHeld : Prop :=
  ∀ m : MeasureState, m.entries.length ≤ 32 →
    (∀ w ∈ m.entries, w.seq.number ≠ m.giveNumber.number) ∧
    ((∀ w ∈ m.entries, w.seq.number ≠ m.nextSeq) → m.giveNumber.number = m.nextSeq) ∧
    (m.nextSeq ≠ 0 → m.giveNumber.number ≠ 0)

/-- Any forwarded write in ARMED but header beat 1 (R23 to R26, R90, R97): it is numbered and entered, its
recorded set is every image in DECLARED or FILLING with a beat in it, with the epochs, and these images
count one more write in flight; declared fields, epochs and cursors stay, and an image changes in no other
way unless a beat lies in it or in an image that it depends on. -/
def Obligations.WriteFrame : Prop :=
  ∀ (s : State) (tag : Nat) (addr : Addr) (beats : List WriteBeat),
    s.manifest.phase = .armed → s.link.occupied < 16 →
    malformed s.link .write tag addr beats.length = false →
    (∀ k, k < beats.length → beatForwards s .write (classify s (addr.toNat + 16 * k)) = true) →
    classify s addr.toNat ≠ .header 1 →
    let holds (i : Nat) : Prop := ∃ k x, k < beats.length ∧ classify s (addr.toNat + 16 * k) = .image i x
    let openTo (g : Image) : Prop := g.state = .declared ∨ g.state = .filling
    ∃ (m : MeasureState) (recorded : List (Nat × BitVec 8)),
      exec (.hostWriteAccept tag addr beats) s = .next (State.settle { s with
        link := { s.link with
          hostWrites := s.link.hostWrites ++ [tag], memWrites := s.link.memWrites ++ [tag],
          forward := s.link.forward ++ [.write tag addr beats] }
        measure := m }) ∧
      m.entries = s.measure.entries ++
        [{ tag := tag, seq := s.measure.giveNumber, recorded := recorded }] ∧
      m.nextSeq = nextNumber s.measure.giveNumber.number ∧ m.segments = s.measure.segments ∧
      m.verified = s.measure.verified ∧ m.images.length = s.measure.images.length ∧
      (∀ i n, (i, n) ∈ recorded ↔
        ∃ g, s.measure.image? i = some g ∧ openTo g ∧ holds i ∧ n = g.epoch) ∧
      ∀ i g, s.measure.image? i = some g → ∃ g', m.image? i = some g' ∧
        g'.declared = g.declared ∧ g'.epoch = g.epoch ∧ g'.cursor = g.cursor ∧
        (openTo g → holds i → g'.inFlight = g.inFlight + 1) ∧
        (¬ (openTo g ∧ holds i) → g'.inFlight = g.inFlight) ∧
        (¬ holds i → (∀ x, holds x → i ∉ s.measure.dependents x) → g' = g)

/-- A write into one image in DECLARED or FILLING (R25 to R32). The write is numbered, entered and recorded with
the image's epoch, and counts in its writes in flight. Then: a partial beat breaks the image with PARTIAL; beats
that are all empty place nothing; beats that are all fully strobed form one group, which breaks the image with
REWRITE when it lies below the cursor and the hand-off or overlaps a run, is staged when enough slots and an
entry are free, is deferred when it merges or an entry is free, and breaks the image with RUNS_EXHAUSTED
otherwise; the first run moves DECLARED to FILLING.
Any forwarded write in ARMED but header beat 1, over however many images and with whatever strobes: once it is
numbered and recorded (R25), its beats are looked at in address order, and a partial one in an image still open
breaks it with PARTIAL (R26), its whole cascade before the next beat, which the model infers (log 28); the fully
strobed beats in images still open are formed into groups (R27), each a stretch of beats that follow one another
in the request and go on in one image, with no two of them one stretch, and no such beat left out; and the
groups are handled in address order (R28 to R32), each against the state that the ones before it have left, as
one group is above, a group of an image broken meanwhile being ignored. -/
def Obligations.WriteIntoOneImage : Prop :=
  (∀ (s : State) (tag : Nat) (addr : Addr) (beats : List WriteBeat) (i off : Nat) (g : Image),
    s.manifest.phase = .armed → s.link.occupied < 16 →
    malformed s.link .write tag addr beats.length = false →
    (∀ k, k < beats.length → classify s (addr.toNat + 16 * k) = .image i (off + 16 * k)) →
    s.measure.image? i = some g → g.state = .declared ∨ g.state = .filling →
    ∀ m₀ : MeasureState,
      m₀ = { s.measure.modImage i (fun g => { g with inFlight := g.inFlight + 1 }) with
        entries := s.measure.entries ++
          [{ tag := tag, seq := s.measure.giveNumber, recorded := [(i, g.epoch)] }]
        nextSeq := nextNumber s.measure.giveNumber.number
        nextOrder := s.measure.nextOrder + 1 } →
    let forwarded (m : MeasureState) : Host.Outcome State Fault Refusal := .next (State.settle { s with
      link := { s.link with
        hostWrites := s.link.hostWrites ++ [tag], memWrites := s.link.memWrites ++ [tag],
        forward := s.link.forward ++ [.write tag addr beats] }
      measure := m })
    let stop := off + 16 * beats.length
    let rewrite := off < g.cursor + 16 * g.handOff ∨ ∃ r ∈ g.runs, off < r.stop ∧ r.start < stop
    let merges := ∃ r ∈ g.runs, r.body.isDeferred = true ∧ (r.stop = off ∨ r.start = stop)
    let group : Group := { image := i, start := off, data := beats.map (·.data) }
    let placed (runs : List Run) : MeasureState :=
      if g.state = .declared then
        (m₀.modImage i (fun g => { g with runs := runs })).enter i .filling
      else m₀.modImage i (fun g => { g with runs := runs })
    ((∃ b ∈ beats, b.strobes ≠ 0 ∧ b.strobes ≠ 0xFFFF) →
      exec (.hostWriteAccept tag addr beats) s = forwarded (m₀.breakImage i .partialBeat)) ∧
    ((∀ b ∈ beats, b.strobes = 0) → exec (.hostWriteAccept tag addr beats) s = forwarded m₀) ∧
    ((∀ b ∈ beats, b.strobes = 0xFFFF) →
      (rewrite → exec (.hostWriteAccept tag addr beats) s = forwarded (m₀.breakImage i .rewrite)) ∧
      (¬ rewrite → beats.length ≤ 1024 - s.measure.slotsUsed → 0 < 256 - s.measure.entriesUsed →
        exec (.hostWriteAccept tag addr beats) s = forwarded (placed (insertRun
          { start := off, body := .staged (beats.map (·.data)) } g.runs))) ∧
      (¬ rewrite → ¬ (beats.length ≤ 1024 - s.measure.slotsUsed ∧ 0 < 256 - s.measure.entriesUsed) →
        (merges ∨ 0 < 256 - s.measure.entriesUsed) →
        exec (.hostWriteAccept tag addr beats) s =
          forwarded (placed (deferRun group s.measure.giveNumber g.runs))) ∧
      (¬ rewrite → ¬ merges → 256 - s.measure.entriesUsed = 0 →
        exec (.hostWriteAccept tag addr beats) s = forwarded (m₀.breakImage i .runsExhausted)))) ∧
  (∀ (s : State) (tag : Nat) (addr : Addr) (beats : List WriteBeat),
    s.manifest.phase = .armed → s.link.occupied < 16 →
    malformed s.link .write tag addr beats.length = false →
    (∀ k, k < beats.length → beatForwards s .write (classify s (addr.toNat + 16 * k)) = true) →
    classify s addr.toNat ≠ .header 1 →
    let place (k : Nat) : Region := classify s (addr.toNat + 16 * k)
    let opens (m : MeasureState) (i : Nat) : Prop :=
      ∃ g, m.image? i = some g ∧ (g.state = .declared ∨ g.state = .filling)
    let holds (i : Nat) : Prop := ∃ k x, k < beats.length ∧ place k = .image i x
    let size (p : Nat × Group) : Nat := p.2.data.length
    ∃ (m₁ m₂ : MeasureState) (recorded : List (Nat × BitVec 8)) (groups : List (Nat × Group)),
      m₁ = { s.measure with
        images := m₁.images
        entries := s.measure.entries ++
          [{ tag := tag, seq := s.measure.giveNumber, recorded := recorded }]
        nextSeq := nextNumber s.measure.giveNumber.number
        nextOrder := s.measure.nextOrder + 1 } ∧
      m₁.images.length = s.measure.images.length ∧
      (∀ i n, (i, n) ∈ recorded ↔
        ∃ g, s.measure.image? i = some g ∧ opens s.measure i ∧ holds i ∧ n = g.epoch) ∧
      (∀ i g, s.measure.image? i = some g →
        (opens s.measure i → holds i → m₁.image? i = some { g with inFlight := g.inFlight + 1 }) ∧
        (¬ (opens s.measure i ∧ holds i) → m₁.image? i = some g)) ∧
      (∃ run : Nat → MeasureState, run 0 = m₁ ∧ run beats.length = m₂ ∧ ∀ k b, beats[k]? = some b →
        (∀ i x, place k = .image i x → b.strobes ≠ 0 → b.strobes ≠ 0xFFFF → opens (run k) i →
          run (k + 1) = (run k).breakImage i .partialBeat) ∧
        (b.strobes = 0 ∨ b.strobes = 0xFFFF ∨ (∀ i x, place k = .image i x → ¬ opens (run k) i) →
          run (k + 1) = run k)) ∧
      (∀ p ∈ groups, 1 ≤ size p ∧ ∀ j, j < size p →
        ∃ b, beats[p.1 + j]? = some b ∧ b.strobes = 0xFFFF ∧
        place (p.1 + j) = .image p.2.image (p.2.start + 16 * j) ∧ opens m₂ p.2.image ∧
        p.2.data[j]? = some b.data) ∧
      groups.Pairwise (fun p q => p.1 + size p ≤ q.1 ∧
        ¬ (p.1 + size p = q.1 ∧ p.2.image = q.2.image ∧ p.2.start + 16 * size p = q.2.start)) ∧
      (∀ k b i x, beats[k]? = some b → b.strobes = 0xFFFF → place k = .image i x → opens m₂ i →
        ∃ p ∈ groups, p.1 ≤ k ∧ k < p.1 + size p) ∧
      exec (.hostWriteAccept tag addr beats) s = .next (State.settle { s with
        link := { s.link with
          hostWrites := s.link.hostWrites ++ [tag], memWrites := s.link.memWrites ++ [tag],
          forward := s.link.forward ++ [.write tag addr beats] }
        measure := (groups.map (·.2)).foldl (MeasureState.handleGroup s.measure.giveNumber) m₂ })) ∧
  (∀ (m : MeasureState) (q : SeqNo) (x : Group) (g : Image), m.image? x.image = some g →
    let stop := x.start + 16 * x.data.length
    let rewrite := x.start < g.cursor + 16 * g.handOff ∨ ∃ r ∈ g.runs, x.start < r.stop ∧ r.start < stop
    let merges := ∃ r ∈ g.runs, r.body.isDeferred = true ∧ (r.stop = x.start ∨ r.start = stop)
    let room := x.data.length ≤ 1024 - m.slotsUsed ∧ 0 < 256 - m.entriesUsed
    let placed (runs : List Run) : MeasureState :=
      if g.state = .declared then
        (m.modImage x.image (fun g => { g with runs := runs })).enter x.image .filling
      else m.modImage x.image (fun g => { g with runs := runs })
    (g.state ≠ .declared → g.state ≠ .filling → m.handleGroup q x = m) ∧
    (g.state = .declared ∨ g.state = .filling →
      (rewrite → m.handleGroup q x = m.breakImage x.image .rewrite) ∧
      (¬ rewrite → room → m.handleGroup q x =
        placed (insertRun { start := x.start, body := .staged x.data } g.runs)) ∧
      (¬ rewrite → ¬ room → (merges ∨ 0 < 256 - m.entriesUsed) →
        m.handleGroup q x = placed (deferRun x q g.runs)) ∧
      (¬ rewrite → ¬ merges → 256 - m.entriesUsed = 0 →
        m.handleGroup q x = m.breakImage x.image .runsExhausted)))

/-- Where a deferred group merges (R30): in a run list in order, the resulting run covers the group and the
DEFERRED runs that touch it, carries the request's number as its newest and a clear mark, and every other
run stays as it is. -/
def Obligations.DeferredGroupMerges : Prop :=
  ∀ (x : Group) (q : SeqNo) (runs : List Run), runsOk runs → 1 ≤ x.data.length →
    (∀ r ∈ runs, r.stop ≤ x.start ∨ x.stop ≤ r.start) →
    ∃ r ∈ deferRun x q runs,
      (∃ n, r.body = .deferred n q false) ∧
      (r.start = x.start ∧ (∀ b ∈ runs, ¬ (b.body.isDeferred = true ∧ b.stop = x.start)) ∨
        ∃ b ∈ runs, b.body.isDeferred = true ∧ b.stop = x.start ∧ r.start = b.start) ∧
      (r.stop = x.stop ∧ (∀ a ∈ runs, ¬ (a.body.isDeferred = true ∧ a.start = x.stop)) ∨
        ∃ a ∈ runs, a.body.isDeferred = true ∧ a.start = x.stop ∧ r.stop = a.stop) ∧
      ∀ r', r' ≠ r →
        (r' ∈ deferRun x q runs ↔
          r' ∈ runs ∧ ¬ (r'.body.isDeferred = true ∧ (r'.stop = x.start ∨ r'.start = x.stop)))

/-- Header beat 1 (R98, R152, R153): the write is forwarded and numbered, the consumer field is taken when
both its bytes are strobed and then the command when its three bytes are, all against the state as it
stands. The kind codes are 1 REOPEN, 2 ABANDON, 3 RESEND and 4 RESUME, and no other (R178). A command is not
taken in DORMANT, nor when its sequence equals the last one taken (R153). One that is taken is checked; one that
fails, as a code that is no kind does with BAD_KIND, changes nothing but the last command values and the dirty
mark, and one that passes is carried out besides (R154 to R156). The consumer field is taken outside DORMANT when
it lies from the consumer index to the producer index (R152). The four command rows and CONSUMER_UPDATE are these
same operations by themselves (log 6). -/
def Obligations.HeaderBeatOneIsSnooped : Prop :=
  (∀ (s : State) (tag : Nat) (addr : Addr) (b : WriteBeat),
    s.manifest.phase = .armed → s.link.occupied < 16 →
    malformed s.link .write tag addr 1 = false → classify s addr.toNat = .header 1 →
    let s₁ : State := { s with
      link := { s.link with
        hostWrites := s.link.hostWrites ++ [tag], memWrites := s.link.memWrites ++ [tag],
        forward := s.link.forward ++ [.write tag addr [b]] }
      measure := { s.measure with
        entries := s.measure.entries ++
          [{ tag := tag, seq := s.measure.giveNumber, recorded := [] }]
        nextSeq := nextNumber s.measure.giveNumber.number
        nextOrder := s.measure.nextOrder + 1 } }
    let s₂ : State :=
      if b.strobes.getLsbD 0 = true ∧ b.strobes.getLsbD 1 = true then
        { s₁ with report := s₁.report.takeConsumer (b.data.extractLsb' 0 16) }
      else s₁
    exec (.hostWriteAccept tag addr [b]) s = .next (State.settle
      (if b.strobes.getLsbD 2 = true ∧ b.strobes.getLsbD 3 = true ∧ b.strobes.getLsbD 4 = true then
        takeCommand s₂ (b.data.extractLsb' 16 8) (commandKind (b.data.extractLsb' 24 8))
          (b.data.extractLsb' 32 8).toNat
      else s₂))) ∧
  (commandKind 0x01 = some .reopen ∧ commandKind 0x02 = some .abandon ∧ commandKind 0x03 = some .resend ∧
    commandKind 0x04 = some .resume ∧
    ∀ code : BitVec 8, code ∉ [0x01#8, 0x02#8, 0x03#8, 0x04#8] → commandKind code = none) ∧
  (∀ (s : State) (seq : BitVec 8) (kind : Option CommandKind) (i : Nat),
    let held (result : CommandResult) : ReportState :=
      { s.report with lastSeq := seq, lastResult := result, headerDirty := true }
    (s.report.channel = .dormant ∨ seq = s.report.lastSeq → takeCommand s seq kind i = s) ∧
    (s.report.channel ≠ .dormant → seq ≠ s.report.lastSeq →
      takeCommand s seq none i = { s with report := held .badKind } ∧
      (commandResult s kind i ≠ .done →
        takeCommand s seq kind i = { s with report := held (commandResult s kind i) }) ∧
      (commandResult s (some .reopen) i = .done → takeCommand s seq (some .reopen) i =
        { s with measure := s.measure.reopenClosure i, report := held .done }) ∧
      (commandResult s (some .abandon) i = .done → takeCommand s seq (some .abandon) i =
        { s with measure := s.measure.breakImage i .abandoned, report := held .done }) ∧
      (commandResult s (some .resend) i = .done → takeCommand s seq (some .resend) i = { s with
        measure := { s.measure with subjects :=
          if i ∈ s.measure.subjects then s.measure.subjects else s.measure.subjects ++ [i] }
        report := held .done }) ∧
      (commandResult s (some .resume) i = .done → takeCommand s seq (some .resume) i =
        { s with report := { held .done with channel := .ready } }))) ∧
  (∀ (r : ReportState) (v : BitVec 16),
    (r.channel = .dormant → r.takeConsumer v = r) ∧
    (r.channel ≠ .dormant →
      ((v - r.consumer).toNat ≤ (r.producer - r.consumer).toNat → r.takeConsumer v = { r with consumer := v }) ∧
      ((r.producer - r.consumer).toNat < (v - r.consumer).toNat → r.takeConsumer v = r))) ∧
  (∀ (s : State) (seq image : BitVec 8) (v : BitVec 16), s.report.channel ≠ .dormant →
    let taken (kind : CommandKind) : Host.Outcome State Fault Refusal :=
      .next (takeCommand s seq (some kind) image.toNat).settle
    exec (.reopen seq image) s = taken .reopen ∧ exec (.abandon seq image) s = taken .abandon ∧
    exec (.resend seq image) s = taken .resend ∧ exec (.resume seq image) s = taken .resume ∧
    exec (.consumerUpdate v) s = .next (State.settle { s with report := s.report.takeConsumer v }))

/-- R170 and R171: what the merger offers, that an offer stands until it is taken, what a delivery takes
from the queues and the tables, and the mark it leaves; nothing outside the host port changes. -/
def Obligations.ResponsesMergedAndDelivered : Prop :=
  (∀ (s : State), ∃ offer,
    exec (.hostResponseDelivery .ready) s = .next { s with link := { s.link with hostOffer := offer } } ∧
    (∀ x, s.link.hostOffer = some x → offer = some x) ∧
    (s.link.hostOffer = none →
      (s.link.relay = [] → s.link.refusals = [] → offer = none) ∧
      (s.link.relay ≠ [] → s.link.refusals = [] → offer = some .relayed) ∧
      (s.link.relay = [] → s.link.refusals ≠ [] → offer = some .part) ∧
      (s.link.relay ≠ [] → s.link.refusals ≠ [] → s.link.lastSource = .part → offer = some .relayed) ∧
      (s.link.relay ≠ [] → s.link.refusals ≠ [] → s.link.lastSource = .relayed → offer = some .part))) ∧
  (∀ (s : State) (r : Response) (rest : List Response),
    s.link.hostOffer = some .relayed → s.link.relay = r :: rest →
    exec (.hostResponseDelivery .taken) s = .next { s with link := { s.link with
      relay := rest, hostOffer := none, lastSource := .relayed, hostOut := some r,
      hostReads := if r.kind = .read then s.link.hostReads.filter (· != r.tag) else s.link.hostReads,
      hostWrites := if r.kind = .write then s.link.hostWrites.filter (· != r.tag)
        else s.link.hostWrites } }) ∧
  (∀ (s : State) (r : Response) (rest : List Response),
    s.link.hostOffer = some .part → s.link.refusals = r :: rest →
    exec (.hostResponseDelivery .taken) s = .next { s with link := { s.link with
      refusals := rest, hostOffer := none, lastSource := .part, hostOut := some r,
      hostReads := if r.kind = .read ∧ r.status ≠ .malformed then
        s.link.hostReads.filter (· != r.tag) else s.link.hostReads,
      hostWrites := if r.kind = .write ∧ r.status ≠ .malformed then
        s.link.hostWrites.filter (· != r.tag) else s.link.hostWrites } }) ∧
  (∀ s t : State, exec .coldReset s = .next t ∨ exec .warmReset s = .next t → t.link.lastSource = .part)

/-! ### The memory port -/

/-- What the arbiter offers, that an offer stands until memory takes it, and what the taking does (R164,
R165, R166). -/
def Obligations.MemoryArbiterOffers : Prop :=
  (∀ (s : State), ∃ offer,
    exec (.memoryTakesRequest .ready) s = .next { s with link := { s.link with memOffer := offer } } ∧
    (∀ x, s.link.memOffer = some x → offer = some x) ∧
    (s.link.memOffer = none →
      (s.link.forward = [] → s.link.own = [] → offer = none) ∧
      (s.link.forward ≠ [] → s.link.own = [] → offer = some .forward) ∧
      (s.link.forward = [] → s.link.own ≠ [] → offer = some .own) ∧
      (s.link.forward ≠ [] → s.link.own ≠ [] → s.link.headWait < 4 → offer = some .forward) ∧
      (s.link.forward ≠ [] → s.link.own ≠ [] → s.link.headWait = 4 → offer = some .own))) ∧
  (∀ (s : State) (r : LinkRequest) (rest : List LinkRequest),
    s.link.memOffer = some .forward → s.link.forward = r :: rest →
    exec (.memoryTakesRequest .taken) s = .next { s with link := { s.link with
      forward := rest, memOffer := none, memOut := some r,
      headWait := if s.link.own = [] then s.link.headWait else s.link.headWait + 1 } }) ∧
  (∀ (s : State) (r : LinkRequest) (rest : List LinkRequest),
    s.link.memOffer = some .own → s.link.own = r :: rest →
    exec (.memoryTakesRequest .taken) s = .next { s with link := { s.link with
      own := rest, memOffer := none, memOut := some r, headWait := 0 } })

/-- An own request waits behind at most 4 forwarded requests from the instant it becomes the head of its
queue (R166): while memory goes on taking requests, it takes the own head within five, and before it
forwarded requests alone, in order. -/
def Obligations.OwnHeadWaitsAtMostFour : Prop :=
  ∀ (s : State) (r : LinkRequest) (rest : List LinkRequest), s.link.own = r :: rest →
    s.link.headWaitOk → ∃ k, k ≤ 4 ∧
      ∃ run : Nat → State, run 0 = s ∧
        (∀ n, n ≤ k → exec (.memoryTakesRequest .taken) (run n) = .next (run (n + 1))) ∧
        (∀ n, n < k → (run (n + 1)).link.memOut = s.link.forward[n]? ∧
          (run (n + 1)).link.own = r :: rest) ∧
        (s.link.memOffer ≠ some .forward ∨ s.link.forward ≠ [] →
          (run (k + 1)).link.memOut = some r ∧ (run (k + 1)).link.own = rest ∧
          (run (k + 1)).link.headWait = 0)

/-- A response of memory for a forwarded read reaches the relay queue unchanged, and its tag leaves the
memory port and no other table (R91, R167, R169). -/
def Obligations.ReadResponseRelayed : Prop :=
  ∀ (s : State) (tag : Nat) (status : LinkStatus) (data : List Beat), tag < 32 → tag ∈ s.link.memReads →
    exec (.fwdReadResponse tag status data) s = .next { s with link := { s.link with
      memReads := s.link.memReads.filter (· != tag),
      relay := s.link.relay ++ [{ kind := .read, tag := tag, status := status, data := data }] } }

/-- A response of memory for a forwarded write (R34 to R37, R167): it is relayed unchanged, and its entry
leaves. An image still in the entry's recorded set, in the epoch recorded, counts one write fewer. With OK, a
pending verdict falls due when that count reaches 0 (R8, R35); with any other status, an image of the set that
is still measuring is broken with WRITE_FAULT (R36). An image whose break or MISMATCHED verdict this brings
fails its dependents: each that is still measuring is broken with PREDECESSOR_FAILED (R128, R129). A dependent
that is itself in the set keeps that reason, since its own turn comes later (R13, R36): an inference of the
model (log 28). No other image changes its state; every DEFERRED run still there is settled when it was or when
its newest number is lower than all unanswered ones, which the model reads as given earlier (R37; log 14);
declared fields, epochs and cursors stay; and where no image is due or fails, nothing else of the measurement
changes.
A response to a write of the window write set (R110, R111), which stands in MANIFEST_LOADING alone and without
images: with OK the tag leaves the set, and when it was the last and the whole length is absorbed, the check
begins at once on engine 0; with any other status the attempt fails with WRITE_FAULT. -/
def Obligations.WriteResponseActs : Prop :=
  (∀ (s : State) (tag : Nat) (status : LinkStatus) (w : WriteEntry), tag < 32 → tag ∈ s.link.memWrites →
    tag ∉ s.manifest.windowWrites → s.measure.entries.find? (·.tag == tag) = some w →
    s.measure.predecessorsLower →
    let answered (m : MeasureState) : State := { s with
      link := { s.link with
        memWrites := s.link.memWrites.filter (· != tag),
        relay := s.link.relay ++ [{ kind := .write, tag := tag, status := status, data := [] }] }
      measure := m }
    let entries := s.measure.entries.filter (·.tag != tag)
    let settledNow (r : Run) : Run := match r.body with
      | .deferred n q settled =>
        { r with body := .deferred n q (settled || entries.all (fun u => decide (q.order < u.seq.order))) }
      | .staged _ => r
    let due (g : Image) (i : Nat) (r : PendingResult) : Prop := (i, g.epoch) ∈ w.recorded ∧ status = .ok ∧
      g.state = .finishing (some r) ∧ g.inFlight ≤ 1
    let fails (i : Nat) : Prop := ∃ g, s.measure.image? i = some g ∧
      (((i, g.epoch) ∈ w.recorded ∧ status ≠ .ok ∧ g.state.isMeasuring = true) ∨
        ∃ r d, due g i r ∧ verdictState g r = .mismatched d)
    let lost (i : Nat) : Prop := ∃ x, fails x ∧ i ∈ s.measure.dependents x
    ∃ m : MeasureState,
      exec (.fwdWriteResponse tag status) s = .next (answered m).advanceManifest.settle ∧
      (s.manifest.phase ≠ .manifestLoading →
        exec (.fwdWriteResponse tag status) s = .next (answered m).settle) ∧
      m.entries = entries ∧ m.segments = s.measure.segments ∧ m.nextSeq = s.measure.nextSeq ∧
      m.nextOrder = s.measure.nextOrder ∧ m.images.length = s.measure.images.length ∧
      (∀ i, i ∈ m.verified ↔ i ∈ s.measure.verified ∨ ∃ g r d, s.measure.image? i = some g ∧ due g i r ∧
        ¬ lost i ∧ verdictState g r = .verified d) ∧
      ((∀ i, ¬ fails i) → (∀ i g r, s.measure.image? i = some g → ¬ due g i r) →
        m = { s.measure with images := m.images, entries := entries }) ∧
      ∀ i g, s.measure.image? i = some g →
        let broken (why : BreakReason) : Image := { g with
          state := .broken why, runs := [], handOff := 0, slot := none, transitions := min (g.transitions + 1) 255 }
        let after : Image → Prop := fun h => m.image? i = some { h with
          inFlight := if (i, g.epoch) ∈ w.recorded then g.inFlight - 1 else g.inFlight
          runs := h.runs.map settledNow }
        (lost i → g.state.isMeasuring = true → after (broken .predecessorFailed)) ∧
        (¬ lost i → (i, g.epoch) ∈ w.recorded → status ≠ .ok → g.state.isMeasuring = true →
          after (broken .writeFault)) ∧
        (¬ lost i → ∀ r, due g i r →
          after { g with state := verdictState g r, transitions := min (g.transitions + 1) 255 }) ∧
        ((lost i → g.state.isMeasuring = false) →
          ((i, g.epoch) ∈ w.recorded → status ≠ .ok → g.state.isMeasuring = false) →
          (∀ r, ¬ due g i r) → after g)) ∧
  (∀ (s : State) (tag : Nat) (status : LinkStatus) (w : WriteEntry), tag < 32 → tag ∈ s.link.memWrites →
    s.manifest.phase = .manifestLoading → tag ∈ s.manifest.windowWrites →
    s.measure.entries.find? (·.tag == tag) = some w → s.measure.images = [] →
    let left := s.manifest.windowWrites.filter (· != tag)
    let s₁ : State := { s with
      link := { s.link with
        memWrites := s.link.memWrites.filter (· != tag),
        relay := s.link.relay ++ [{ kind := .write, tag := tag, status := status, data := [] }] }
      measure := { s.measure with entries := s.measure.entries.filter (·.tag != tag) }
      manifest := { s.manifest with windowWrites := left } }
    (status = .ok → exec (.fwdWriteResponse tag status) s = .next s₁.advanceManifest.settle) ∧
    (status = .ok → left = [] → ∀ n, s.manifest.length = some n → 64 * n ≤ s.manifest.absorbOffset →
      s.measure.engines[(0 : EngineId)].state = .holding →
      s.measure.engines[(0 : EngineId)].manifest = true →
      exec (.fwdWriteResponse tag status) s = .next (State.settle { s₁ with
        manifest := { s₁.manifest with phase := .manifestCheck }
        measure := s₁.measure.modEngine 0 (fun x => { x with state := .finalizing }) })) ∧
    (status = .ok → left ≠ [] → ∃ t, exec (.fwdWriteResponse tag status) s = .next t ∧
      t.manifest.phase = .manifestLoading ∧ t.manifest.windowWrites = left) ∧
    (status ≠ .ok →
      exec (.fwdWriteResponse tag status) s = .next (s₁.failAttempt .writeFault).settle))

/-- R168: a response whose tag is not outstanding in the table of its kind is discarded, and changes no
state: a host tag that no forwarded request holds, an own tag that is FREE, or a tag of neither space. -/
def Obligations.UnknownTagDiscarded : Prop :=
  ∀ (s : State) (tag : Nat) (status : LinkStatus) (data : List Beat),
    ((tag < 32 → tag ∉ s.link.memReads) →
      (∀ k : Fin 8, tag = 32 + k.val → s.measure.refillTags[k] = .free) →
      exec (.unknownTagResponse .read tag status data) s = .next s ∧
      exec (.fwdReadResponse tag status data) s = .next s ∧
      exec (.refillResponse tag status data) s = .next s) ∧
    ((tag < 32 → tag ∉ s.link.memWrites) →
      (∀ k : Fin 2, tag = 32 + k.val → s.report.tags[k] = .free) →
      exec (.unknownTagResponse .write tag status data) s = .next s ∧
      exec (.fwdWriteResponse tag status) s = .next s ∧
      exec (.reportWriteResponse tag status) s = .next s)

/-! ### Refills -/

/-- A read response on a refill tag (R40, R76, R77, R79, R80): an OK response on an attached tag shrinks the
head run by the chunk, raises the hand-off count by it and hands the beats to the engine, which chooses its
next step; any other status breaks the image with REFILL_FAULT; a detached or quarantined tag discards the
response; the tag is FREE in every case. The chunk leaves the head run at its low end: the run starts n beats
higher with n beats fewer, its newest number and its settled mark as they were, and is removed when none is
left. That an OK response with more beats than the tag's request named gives the first of them, and one with
fewer gives free values for the beats that are missing, is the model's choice (log 11). -/
def Obligations.RefillResponseHandled : Prop :=
  (∀ (s : State) (k : Fin 8) (status : LinkStatus) (data : List Beat),
    let freed := s.measure.setRefillTag k .free
    let took (i : Nat) (e : EngineId) (n : Nat) (beats : List Beat) : MeasureState :=
      ((freed.modImage i (fun g =>
          { g with runs := dropChunk n g.runs, handOff := g.handOff + n })).modEngine e
        (fun x => { x with delivered := x.delivered ++ beats })).choose e
    (∀ i e start n addr, s.measure.refillTags[k] = .busy i (some e) start n addr →
      (status = .ok → n ≤ data.length →
        exec (.refillResponse (32 + k.val) status data) s = .next (State.settle { s with
          measure := took i e n (data.take n) })) ∧
      (status = .ok → data.length < n → ∃ missing : List Beat, missing.length = n - data.length ∧
        exec (.refillResponse (32 + k.val) status data) s = .next (State.settle { s with
          measure := took i e n (data ++ missing), freeCount := s.freeCount + 1 })) ∧
      (status ≠ .ok →
        exec (.refillResponse (32 + k.val) status data) s =
          .next (State.settle { s with measure := freed.breakImage i .refillFault }))) ∧
    ((∃ i start n addr, s.measure.refillTags[k] = .busy i none start n addr) ∨
        s.measure.refillTags[k] = .quarantined →
      exec (.refillResponse (32 + k.val) status data) s =
        .next (State.settle { s with measure := freed }))) ∧
  (∀ (n start count : Nat) (newest : SeqNo) (settled : Bool) (rest : List Run),
    (n < count → dropChunk n ({ start := start, body := .deferred count newest settled } :: rest) =
      { start := start + 16 * n, body := .deferred (count - n) newest settled } :: rest) ∧
    (count ≤ n → dropChunk n ({ start := start, body := .deferred count newest settled } :: rest) = rest))

/-- The 250 µs limit on a refill (R78): a BUSY tag is QUARANTINED; an attached one breaks its image with
REFILL_TIMEOUT and a detached one breaks nothing. That an expiry on a tag that is not BUSY, which carries no
limit, leaves the state as it is, is the model's choice (log 4). -/
def Obligations.RefillLimitQuarantines : Prop :=
  ∀ (s : State) (k : Fin 8),
    let held := s.measure.setRefillTag k .quarantined
    (∀ i e start n addr, s.measure.refillTags[k] = .busy i (some e) start n addr →
      exec (.refillLimitExpiry (32 + k.val)) s =
        .next (State.settle { s with measure := held.breakImage i .refillTimeout })) ∧
    (∀ i start n addr, s.measure.refillTags[k] = .busy i none start n addr →
      exec (.refillLimitExpiry (32 + k.val)) s = .next (State.settle { s with measure := held })) ∧
    (s.measure.refillTags[k] = .free ∨ s.measure.refillTags[k] = .quarantined →
      exec (.refillLimitExpiry (32 + k.val)) s = .next s)

/-- R74: the chunk of a head run starts at the run's start, at the address that R3 gives for it; its beat count
is the least of 16, the run's, those to the segment's end and those to the address page's end; and the read it
forms is well formed. The issue (R75) takes the head run as it stands, and the lowest-numbered FREE tag, and
changes nothing else. An engine in AWAITING_REFILL without a request pending or issued makes one, and the
requests made at one event join the tail of the pending list in increasing engine order (R72). The list is then
served from its head (R72, R81): a request that finds a tag FREE is issued and leaves it, any other keeps its
place; and the reads join the own-request queue in the order of their issue (R165); where a report write of the
same event stands among them is left open (log 10). -/
def Obligations.ChunkIsTheLeastOfFour : Prop :=
  (∀ (segments : List Segment) (i : Nat) (r : Run) (g : Segment),
    segmentOf segments i r.start = some g → g.base % 16 = 0 → g.length % 16 = 0 →
    g.imageOffset % 16 = 0 → r.start % 16 = 0 → 1 ≤ r.body.beatCount → g.base + g.length ≤ 2 ^ 40 →
    ∃ addr n, chunkOf segments i r = some (addr, r.start, n) ∧
      addr = g.base + (r.start - g.imageOffset) ∧
      n ≤ 16 ∧ n ≤ r.body.beatCount ∧ 16 * n ≤ g.imageOffset + g.length - r.start ∧
      16 * n ≤ 4096 - addr % 4096 ∧
      (n = 16 ∨ n = r.body.beatCount ∨ 16 * n = g.imageOffset + g.length - r.start ∨
        16 * n = 4096 - addr % 4096) ∧
      1 ≤ n ∧ addr % 16 = 0 ∧ addr / 4096 = (addr + 16 * n - 1) / 4096 ∧ addr + 16 * n ≤ 2 ^ 40) ∧
  (∀ (m : MeasureState) (q : RefillRequest) (g : Image) (r : Run) (runs : List Run) (addr n : Nat)
      (t : Fin 8),
    m.image? q.image = some g → g.runs = r :: runs →
    chunkOf m.segments q.image r = some (addr, r.start, n) →
    m.refillTags[t] = .free → (∀ t' : Fin 8, t' < t → m.refillTags[t'] ≠ .free) →
    m.issueRefill q = some (m.setRefillTag t (.busy q.image (some q.engine) r.start n addr),
      .read (32 + t.val) (BitVec.ofNat 40 addr) n)) ∧
  (∀ m : MeasureState, ∃ new : List RefillRequest,
    m.requestRefills = { m with refillPending := m.refillPending ++ new } ∧
    new.Pairwise (fun q q' => q.engine < q'.engine) ∧
    ∀ q, q ∈ new ↔ m.engines[q.engine].state = .awaitingRefill ∧ m.engines[q.engine].bound = some q.image ∧
      (∀ q' ∈ m.refillPending, q'.engine ≠ q.engine) ∧
      ∀ (k : Fin 8) (i n : Nat), ¬ m.refillTags[k].attachedTo i q.engine n) ∧
  (∀ (m : MeasureState) (q : RefillRequest) (rest : List RefillRequest),
    ((∀ k : Fin 8, m.refillTags[k] ≠ .free) → m.issueRefill q = none) ∧
    m.serveFrom [] = (m, [], []) ∧
    (m.issueRefill q = none → m.serveFrom (q :: rest) =
      ((m.serveFrom rest).1, q :: (m.serveFrom rest).2.1, (m.serveFrom rest).2.2)) ∧
    (∀ m' read, m.issueRefill q = some (m', read) → m.serveFrom (q :: rest) =
      ((m'.serveFrom rest).1, (m'.serveFrom rest).2.1, read :: (m'.serveFrom rest).2.2))) ∧
  (∀ s t : State, t = s.settle →
    let asked := s.measure.settlePool.requestRefills
    let served := asked.serveFrom asked.refillPending
    t.measure.refillPending = served.2.1 ∧ t.measure.refillTags = served.1.refillTags ∧
    ∃ new, t.link.own = s.link.own ++ new ∧ served.2.2.Sublist new ∧
      (new = served.2.2 ∨ ∃ w, new.Perm (w :: served.2.2)))

/-! ### The digest engines -/

/-- R41: readiness. -/
def Obligations.ReadyMeans : Prop :=
  ∀ (m : MeasureState) (i : Nat),
    m.ready i = true ↔ ∃ g, m.image? i = some g ∧ g.state = .filling ∧
      (∃ r runs, g.runs = r :: runs ∧ r.start = g.cursor ∧
        ((∃ beats, r.body = .staged beats) ∨ ∃ n q, r.body = .deferred n q true)) ∧
      g.handOff = 0 ∧
      (g.declared.predecessor = none ∨
        ∃ p h, g.declared.predecessor = some p ∧ m.image? p = some h ∧
          ((∃ d, h.state = .verified d) ∨ ∃ d, h.state = .recorded d))

/-- The next step of an engine with a bound image (R55): finalise, take a delivered beat, park, take a
staged beat, await a refill, or hold, the first that applies; a beat taken raises the cursor by 16, and
moves a FILLING image that has reached its length to FINISHING (R18, R57, R58). No other image and no other
engine is touched. -/
def Obligations.NextStepChoice : Prop :=
  ∀ (m : MeasureState) (e : EngineId) (i : Nat) (g : Image), m.engines[e].bound = some i →
    m.image? i = some g →
    let took (g : Image) : Image :=
      if g.state = .filling ∧ g.cursor = g.declared.length then
        { g with state := .finishing none, transitions := saturate (g.transitions + 1) } else g
    let absorbs (x : Engine) (data : Beat) : Engine :=
      { x with state := .absorbing .beat, context := x.context.map (takeBytes · (beatBytes data)) }
    (∀ j, j ≠ i → (m.choose e).image? j = m.image? j) ∧
    (∀ e', e' ≠ e → (m.choose e).engines[e'] = m.engines[e']) ∧
    (g.cursor = g.declared.length →
      m.choose e = m.modEngine e (fun x => { x with state := .finalizing })) ∧
    (g.cursor ≠ g.declared.length → 0 < g.handOff → ∀ b rest, m.engines[e].delivered = b :: rest →
      (m.choose e).engines[e] = { absorbs m.engines[e] b with delivered := rest } ∧
      (m.choose e).image? i =
        some (took { g with cursor := g.cursor + 16, handOff := g.handOff - 1 })) ∧
    (g.cursor ≠ g.declared.length → g.handOff = 0 → m.engines[e].parkOrder = true →
      m.choose e = m.modEngine e (fun x => { x with state := .parking, parkOrder := false })) ∧
    (g.cursor ≠ g.declared.length → g.handOff = 0 → m.engines[e].parkOrder = false →
      (m.ready i = true → ∀ start b beats runs,
        g.runs = { start := start, body := .staged (b :: beats) } :: runs →
        (m.choose e).engines[e] = absorbs m.engines[e] b ∧
        (m.choose e).image? i = some (took { g with
          cursor := g.cursor + 16,
          runs := if beats = [] then runs
            else { start := start + 16, body := .staged beats } :: runs })) ∧
      (m.ready i = true → ∀ start n q settled runs,
        g.runs = { start := start, body := .deferred n q settled } :: runs →
        m.choose e = m.modEngine e (fun x => { x with state := .awaitingRefill })) ∧
      (m.ready i = false →
        m.choose e = m.modEngine e (fun x => { x with state := .holding, holdingSince := m.now })))

/-- What a grant starts (R53): the parked context is restored; without one a fresh context is created, and takes
the predecessor's result digest as its seed or chooses at once. What the arbiter does for the head of the wait
list (R51): the lowest-numbered FREE engine without a reservation is granted to it; without one the engine that
has held longest, unreserved and unclaimed, parks for it; otherwise it waits. What the pool does when readiness
changes: a request for an image that is no longer ready leaves the pending list, and its engine holds from this
instant, the model's count of events (R58, R73; log 9); a claim for such an image lapses (R52), and such images
leave the wait list (R50); a HOLDING engine whose image is ready chooses its next step (R56); a FREE reserved
engine is granted to its ready pinned image when that has no engine (R63); the ready images without an engine, a
pinned engine or a claim join the tail of the wait list in increasing index order (R50); and the arbiter repeats
while it can act (R51). The end of an event does these once each in that order, engines in increasing number,
which the model infers (log 8). -/
def Obligations.GrantsAndTheArbiter : Prop :=
  (∀ (m : MeasureState) (e : EngineId) (i : Nat) (g : Image), m.image? i = some g →
    let m' : MeasureState := { m with waitList := m.waitList.filter (· != i) }
    (∀ c, g.slot = some c → m.grant e i =
      m'.modEngine e (fun x => { x with bound := some i, state := .restoring, claimant := none })) ∧
    (g.slot = none → ∀ p h d, g.declared.predecessor = some p → m.image? p = some h →
      h.state = .verified d ∨ h.state = .recorded d →
      m.grant e i = m'.modEngine e (fun x => { x with
        bound := some i, state := .absorbing .seed, claimant := none,
        context := some { hash := initialHash, block := digestBytes d, total := 32, seeded := true } })) ∧
    (g.slot = none → g.declared.predecessor = none →
      m.grant e i = (m'.modEngine e (fun x => { x with
        bound := some i, claimant := none,
        context := some { hash := initialHash, block := [], total := 0, seeded := false } })).choose e)) ∧
  (∀ (m : MeasureState) (i : Nat) (rest : List Nat), m.waitList = i :: rest →
    let free (e : EngineId) : Prop := m.engines[e].state = .free ∧ m.engines[e].reservation = none
    let holds (e : EngineId) : Prop := m.engines[e].state = .holding ∧
      m.engines[e].reservation = none ∧ m.engines[e].claimant = none
    (∀ e, free e → (∀ e', e' < e → ¬ free e') →
      m.arbitrateOne = some (MeasureState.grant { m with waitList := rest } e i)) ∧
    ((∀ e, ¬ free e) → ∀ e, holds e →
      (∀ e', holds e' → m.engines[e].holdingSince < m.engines[e'].holdingSince ∨
        (m.engines[e].holdingSince = m.engines[e'].holdingSince ∧ e ≤ e')) →
      m.arbitrateOne = some (MeasureState.modEngine { m with waitList := rest } e
        (fun x => { x with state := .parking, claimant := some i }))) ∧
    ((∀ e, ¬ free e) → (∀ e, ¬ holds e) → m.arbitrateOne = none)) ∧
  (∀ m : MeasureState,
    (∃ engines, m.withdrawUnready = { m with
        engines := engines, refillPending := m.refillPending.filter (fun q => m.ready q.image) }) ∧
    (∀ e : EngineId, m.withdrawUnready.engines[e] =
      if ∃ q ∈ m.refillPending, q.engine = e ∧ m.ready q.image = false then
        { m.engines[e] with state := .holding, holdingSince := m.now } else m.engines[e]) ∧
    (∃ engines, m.dropUnready = { m with engines := engines, waitList := m.waitList.filter m.ready }) ∧
    (∀ e : EngineId,
      (∀ i, m.engines[e].claimant = some i → m.ready i = false →
        m.dropUnready.engines[e] = { m.engines[e] with claimant := none }) ∧
      ((∀ i, m.engines[e].claimant = some i → m.ready i = true) →
        m.dropUnready.engines[e] = m.engines[e])) ∧
    (∀ e : EngineId,
      (∀ i, m.engines[e].state = .holding → m.engines[e].bound = some i → m.ready i = true →
        m.resumeHolding e = m.choose e) ∧
      ((m.engines[e].state = .holding → ∀ i, m.engines[e].bound = some i → m.ready i = false) →
        m.resumeHolding e = m)) ∧
    (∀ e : EngineId,
      (∀ p, m.engines[e].reservation = some p → m.engines[e].state = .free → m.ready p = true →
        m.unbound p → m.grantPinned e = m.grant e p) ∧
      ((∀ p, m.engines[e].reservation = some p → m.engines[e].state = .free → m.ready p = true →
        ¬ m.unbound p) → m.grantPinned e = m)) ∧
    (∃ new : List Nat, m.joinWaiting = { m with waitList := m.waitList ++ new } ∧
      new.Pairwise (· < ·) ∧ ∀ i, i ∈ new ↔ i ∉ m.waitList ∧ m.ready i = true ∧ m.unbound i ∧
        m.unpinned i ∧ ∀ e : EngineId, m.engines[e].claimant ≠ some i)) ∧
  (∀ m : MeasureState,
    let resumed := ((((m.withdrawUnready.dropUnready.resumeHolding 0).resumeHolding 1).resumeHolding 2).resumeHolding 3)
    let granted := ((((resumed.grantPinned 0).grantPinned 1).grantPinned 2).grantPinned 3)
    ∃ run : Nat → MeasureState, run 0 = granted.joinWaiting ∧
      ∃ k, (∀ n, n < k → (run n).arbitrateOne = some (run (n + 1))) ∧ (run k).arbitrateOne = none ∧
        m.settlePool = run k) ∧
  (∀ s : State, s.settle.measure.engines = s.measure.settlePool.engines ∧
    s.settle.measure.waitList = s.measure.settlePool.waitList)

/-- RESTORE_DONE, SEED_STEP_DONE and BEAT_STEP_DONE of an engine at work on an image (R46, R54, R57): the
slot becomes not live and its context the engine's, or a full block is compressed; then the engine chooses
(R55). -/
def Obligations.StepsEndInAChoice : Prop :=
  ∀ (s : State) (e : EngineId) (i : Nat) (g : Image), s.measure.engines[e].manifest = false →
    s.measure.engines[e].discard = false → s.measure.engines[e].bound = some i →
    s.measure.image? i = some g →
    let compressed := s.measure.modEngine e (fun x => { x with context := x.context.map (fun c =>
      if 64 ≤ c.block.length then
        { c with hash := compress c.hash (c.block.take 64), block := c.block.drop 64 } else c) })
    (s.measure.engines[e].state = .restoring →
      exec (.restoreDone e) s = .next (State.settle { s with
        measure := ((s.measure.modImage i (fun g => { g with slot := none })).modEngine e
          (fun x => { x with context := g.slot })).choose e })) ∧
    (s.measure.engines[e].state = .absorbing .seed →
      exec (.seedStepDone e) s = .next (State.settle { s with measure := compressed.choose e })) ∧
    (s.measure.engines[e].state = .absorbing .beat →
      exec (.beatStepDone e) s = .next (State.settle { s with measure := compressed.choose e }))

/-- FINALISATION_DONE (R8, R59, R60): the engine is FREE with its context discarded, and with writes in
flight at 0 the image enters RECORDED, VERIFIED or MISMATCHED with the result as its digest; otherwise the
result waits in FINISHING. The result is the hash over the context closed with one block. A MISMATCHED verdict
breaks every dependent that is still measuring with PREDECESSOR_FAILED, in increasing index order (R128, R129);
no other image changes, at any verdict; a VERIFIED image, and no other, joins the release lines' record (R133);
and the image and those broken join the report queue in that order, those already queued keeping their place
(R10). -/
def Obligations.FinalisationGivesTheVerdict : Prop :=
  ∀ (s : State) (e : EngineId) (i : Nat) (g : Image) (p : Option PendingResult) (c : Context),
    s.measure.engines[e].state = .finalizing → s.measure.engines[e].manifest = false →
    s.measure.engines[e].discard = false → s.measure.engines[e].bound = some i →
    s.measure.engines[e].context = some c → s.measure.image? i = some g → g.state = .finishing p →
    let result := hashDigest (compress c.hash (c.block ++ [0x80] ++
      List.replicate (55 - c.block.length) 0 ++ beBytes 8 (8 * c.total)))
    let join (l : List Nat) (d : Nat) : List Nat := if d ∈ l then l else l ++ [d]
    let mismatch := g.declared.policy.measureOnly = false ∧ result ≠ g.declared.expected
    ∃ m : MeasureState,
      exec (.finalisationDone e) s = .next (State.settle { s with measure := m }) ∧
      m.engines[e].state = .free ∧ m.engines[e].bound = none ∧ m.engines[e].context = none ∧
      ((0 < g.inFlight → m.image? i = some { g with
          state := .finishing (some { digest := result, matched := result == g.declared.expected }) }) ∧
       (g.inFlight = 0 → ∃ g', m.image? i = some g' ∧ g'.state =
          (if g.declared.policy.measureOnly then .recorded result
           else if result = g.declared.expected then .verified result else .mismatched result) ∧
          g'.transitions = min (g.transitions + 1) 255 ∧ g'.cursor = g.cursor ∧ i ∈ m.subjects ∧
          (∀ d, g'.state = .verified d → i ∈ m.verified) ∧
          (∀ e', m.engines[(e' : EngineId)].reservation ≠ some i))) ∧
      (g.inFlight = 0 → s.measure.engines[e].reservation = some i → m.engines[e].reservation = none) ∧
      m.entries = s.measure.entries ∧ m.segments = s.measure.segments ∧ m.nextSeq = s.measure.nextSeq ∧
      (0 < g.inFlight → m.subjects = s.measure.subjects ∧ m.verified = s.measure.verified ∧
        ∀ j, j ≠ i → m.image? j = s.measure.image? j) ∧
      (g.inFlight = 0 →
        (∀ j h, s.measure.image? j = some h → j ≠ i →
          (mismatch → j ∈ s.measure.dependents i → h.state.isMeasuring = true →
            m.image? j = some { h with state := .broken .predecessorFailed, runs := [], handOff := 0,
                                       slot := none, transitions := min (h.transitions + 1) 255 }) ∧
          (¬ (mismatch ∧ j ∈ s.measure.dependents i ∧ h.state.isMeasuring = true) →
            m.image? j = some h)) ∧
        (g.declared.policy.measureOnly = false → result = g.declared.expected →
          m.verified = join s.measure.verified i) ∧
        (g.declared.policy.measureOnly = true ∨ result ≠ g.declared.expected →
          m.verified = s.measure.verified) ∧
        (¬ mismatch → m.subjects = join s.measure.subjects i) ∧
        (mismatch → s.measure.predecessorsLower → m.subjects =
          (i :: (s.measure.dependents i).filter s.measure.isMeasuring).foldl join s.measure.subjects))

/-- PARK_DONE (R52, R61): the slot is live with the context, the engine is unbound and FREE, or, unreserved,
is granted to its claimant. -/
def Obligations.ParkSavesTheContext : Prop :=
  ∀ (s : State) (e : EngineId) (i : Nat) (c : Context),
    s.measure.engines[e].state = .parking → s.measure.engines[e].manifest = false →
    s.measure.engines[e].discard = false → s.measure.engines[e].bound = some i →
    s.measure.engines[e].context = some c →
    let parked := (s.measure.modImage i (fun g => { g with slot := some c })).modEngine e
      (fun x => { x with state := .free, bound := none, discard := false, parkOrder := false,
                         context := none, delivered := [] })
    (s.measure.engines[e].claimant = none ∨ s.measure.engines[e].reservation ≠ none →
      exec (.parkDone e) s = .next (State.settle { s with measure := parked })) ∧
    (∀ y, s.measure.engines[e].claimant = some y → s.measure.engines[e].reservation = none →
      exec (.parkDone e) s = .next (State.settle { s with measure :=
        (parked.modEngine e (fun x => { x with claimant := none })).grant e y }))

/-- The end of a step with the discard mark set (R66): no image changes, and the engine is FREE and clean;
after a park it passes to its claimant, unless it is reserved. -/
def Obligations.DiscardedStepEndsFree : Prop :=
  ∀ (s : State) (e : EngineId), s.measure.engines[e].manifest = false →
    s.measure.engines[e].discard = true →
    let freed := s.measure.modEngine e
      (fun x => { x with state := .free, bound := none, discard := false, parkOrder := false,
                         context := none, delivered := [] })
    let done (m : MeasureState) : Host.Outcome State Fault Refusal :=
      .next (State.settle { s with measure := m })
    (s.measure.engines[e].state = .restoring → exec (.restoreDone e) s = done freed) ∧
    (s.measure.engines[e].state = .absorbing .seed → exec (.seedStepDone e) s = done freed) ∧
    (s.measure.engines[e].state = .absorbing .beat → exec (.beatStepDone e) s = done freed) ∧
    (s.measure.engines[e].state = .finalizing → exec (.finalisationDone e) s = done freed) ∧
    (s.measure.engines[e].state = .parking →
      (s.measure.engines[e].claimant = none ∨ s.measure.engines[e].reservation ≠ none →
        exec (.parkDone e) s = done freed) ∧
      (∀ y, s.measure.engines[e].claimant = some y → s.measure.engines[e].reservation = none →
        exec (.parkDone e) s =
          done ((freed.modEngine e (fun x => { x with claimant := none })).grant e y)))

/-! ### Break, reopen and commands -/

/-- The break action with its cascade (R12, R13, R128, R129). Image i goes to BROKEN with the reason, keeps
its cursor, epoch and writes in flight, and loses its runs, hand-off and parked context; every dependent that
is still measuring is broken with PREDECESSOR_FAILED in the same way, and no other image changes. No engine,
claim, reservation, request, wait-list entry or attached refill of image i remains. The images broken join
the report queue, i first and then its dependents in increasing index order, those already queued keeping
their place (R10). An image that is not measuring is not touched. -/
def Obligations.BreakActionTakesAll : Prop :=
  (∀ (m m' : MeasureState) (i : Nat) (why : BreakReason), m' = m.breakImage i why →
    (m.isMeasuring i = false → m' = m) ∧
    (∀ g, m.image? i = some g → g.state.isMeasuring = true →
      m'.image? i = some { g with state := .broken why, runs := [], handOff := 0, slot := none,
                                  transitions := min (g.transitions + 1) 255 } ∧
      (∀ d h, m.image? d = some h → d ≠ i → d ∈ m.dependents i → h.state.isMeasuring = true →
        m'.image? d = some { h with state := .broken .predecessorFailed, runs := [], handOff := 0,
                                    slot := none, transitions := min (h.transitions + 1) 255 }) ∧
      (∀ d h, m.image? d = some h → d ≠ i → (d ∈ m.dependents i → h.state.isMeasuring = false) →
        m'.image? d = some h) ∧
      i ∉ m'.waitList ∧ (∀ q ∈ m'.refillPending, q.image ≠ i) ∧
      (∀ e : EngineId, m'.engines[e].bound ≠ some i ∧ m'.engines[e].claimant ≠ some i ∧
        m'.engines[e].reservation ≠ some i ∧
        (m.engines[e].bound = some i → m'.engines[e].parkOrder = false ∧
          (m.engines[e].state = .holding ∨ m.engines[e].state = .awaitingRefill →
            m'.engines[e].state = .free) ∧
          (m.engines[e].state ≠ .holding → m.engines[e].state ≠ .awaitingRefill →
            m.engines[e].state ≠ .free →
            m'.engines[e].state = m.engines[e].state ∧ m'.engines[e].discard = true))) ∧
      (∀ (k : Fin 8) eng start n addr, m.refillTags[k] = .busy i eng start n addr →
        m'.refillTags[k] = .busy i none start n addr) ∧
      i ∈ m'.subjects ∧ m'.segments = m.segments ∧ m'.entries = m.entries ∧ m'.verified = m.verified ∧
      m'.nextSeq = m.nextSeq)) ∧
  (∀ (m : MeasureState) (i : Nat) (why : BreakReason), m.isMeasuring i = true → m.predecessorsLower →
    (m.breakImage i why).subjects =
      (i :: (m.dependents i).filter m.isMeasuring).foldl
        (fun l d => if d ∈ l then l else l ++ [d]) m.subjects)

/-- The reopen of a closure (R9, R14, R131): each member goes to DECLARED at its next epoch with cursor 0, no
runs, no hand-off, no parked context and no writes in flight, out of every recorded set; no other image changes,
and the release lines' record stays. The members join the report queue in the order x and then its dependents in
increasing index order, those already queued keeping their place (R10, R131). Each member in that order is
reopened by itself, and its pinned engine is then reserved for it again (R14 step 9, R64): an engine that is
FREE or FINALIZING, whose step is discarded, or that parks for no claimant goes on as it was; a HOLDING engine
parks; a RESTORING or ABSORBING one is ordered to park; one that awaits a refill parks when its request was
pending, which is withdrawn, and is ordered to park when it was issued; and one that parks for a claimant loses
the claim, the claimant going to the head of the wait list when it is ready. That this last row holds for a park
whose step is discarded too, and which of two such claimants stands first, are inferences of the model (log 26). -/
def Obligations.ReopenTakesTheClosure : Prop :=
  (∀ (m m' : MeasureState) (x : Nat), m.predecessorsLower → m' = m.reopenClosure x →
    (∀ d g, m.image? d = some g → d = x ∨ d ∈ m.dependents x →
      m'.image? d = some { g with state := .declared, cursor := 0, handOff := 0, epoch := g.epoch + 1,
                                  inFlight := 0, slot := none, runs := [],
                                  transitions := min (g.transitions + 1) 255 }) ∧
    (∀ d g, m.image? d = some g → d ≠ x → d ∉ m.dependents x → m'.image? d = some g) ∧
    (∀ d, d = x ∨ d ∈ m.dependents x →
      (∀ w ∈ m'.entries, ∀ n, (d, n) ∉ w.recorded) ∧ d ∈ m'.subjects ∧
      (∀ e : EngineId, m'.engines[e].bound ≠ some d)) ∧
    (∀ w ∈ m'.entries, ∃ w' ∈ m.entries, w'.tag = w.tag ∧ w'.seq = w.seq) ∧
    m'.entries.length = m.entries.length ∧
    m'.segments = m.segments ∧ m'.verified = m.verified ∧ m'.nextSeq = m.nextSeq ∧
    m'.subjects = (x :: m.dependents x).foldl (fun l d => if d ∈ l then l else l ++ [d]) m.subjects ∧
    (∀ e : EngineId,
      ((∀ d g, d = x ∨ d ∈ m.dependents x → m.image? d = some g → g.declared.pin ≠ some e) →
        m'.engines[e].reservation = m.engines[e].reservation) ∧
      (∀ d g, d = x ∨ d ∈ m.dependents x → m.image? d = some g → g.declared.pin = some e →
        (∀ d' g', d' = x ∨ d' ∈ m.dependents x → m.image? d' = some g' → g'.declared.pin = some e →
          d' = d) →
        m'.engines[e].reservation = some d))) ∧
  (∀ (m : MeasureState) (x : Nat),
    m.reopenClosure x = (x :: m.dependents x).foldl (fun m d => m.reopenOne d) m ∧
    ∀ g, m.image? x = some g → ∃ m₀ : MeasureState, m.reopenOne x = m₀.retake x ∧
      (∀ j, j ≠ x → m₀.image? j = m.image? j) ∧
      m₀.image? x = some { g with state := .declared, cursor := 0, handOff := 0, epoch := g.epoch + 1,
                                  inFlight := 0, slot := none, runs := [],
                                  transitions := min (g.transitions + 1) 255 } ∧
      m₀.waitList = m.waitList.filter (· != x) ∧
      m₀.refillPending = m.refillPending.filter (·.image != x) ∧
      (∀ e : EngineId, m.engines[e].bound ≠ some x → m.engines[e].claimant ≠ some x →
        m₀.engines[e] = m.engines[e])) ∧
  (∀ (m : MeasureState) (i : Nat) (g : Image), m.image? i = some g →
    (g.declared.pin = none → m.retake i = m) ∧
    ∀ e : EngineId, g.declared.pin = some e →
      let reserved (f : Engine → Engine) : MeasureState :=
        m.modEngine e (fun x => f { x with reservation := some i })
      let x := m.engines[e]
      (x.state = .free ∨ x.state = .finalizing → m.retake i = reserved id) ∧
      (x.state = .holding → m.retake i = reserved (fun x => { x with state := .parking })) ∧
      (x.state = .restoring ∨ (∃ step, x.state = .absorbing step) →
        (x.discard = true → m.retake i = reserved id) ∧
        (x.discard = false → m.retake i = reserved (fun x => { x with parkOrder := true }))) ∧
      (x.state = .awaitingRefill →
        ((∃ q ∈ m.refillPending, q.engine = e) → m.retake i =
          { reserved (fun x => { x with state := .parking }) with
            refillPending := m.refillPending.filter (·.engine != e) }) ∧
        ((∀ q ∈ m.refillPending, q.engine ≠ e) →
          m.retake i = reserved (fun x => { x with parkOrder := true }))) ∧
      (x.state = .parking →
        (x.claimant = none → m.retake i = reserved id) ∧
        (∀ y, x.claimant = some y →
          (m.ready y = true → m.retake i = { reserved (fun x => { x with claimant := none }) with
            waitList := y :: m.waitList.filter (· != y) }) ∧
          (m.ready y = false → m.retake i = reserved (fun x => { x with claimant := none })))))

/-- The dependents of an image, in increasing index order (R125). -/
def Obligations.DependentsAreTheClosure : Prop :=
  ∀ (m : MeasureState) (x : Nat), m.predecessorsLower →
    (∀ d, d ∈ m.dependents x ↔ dependsOn m x d) ∧ (m.dependents x).Pairwise (· < ·) ∧
      ∀ d ∈ m.dependents x, x < d

/-- R154: a taken command is checked in order, the first check that fails gives its result, DONE means that
all pass; a command that fails a check changes nothing but the last command values, and its sequence and
result are held. -/
def Obligations.CommandChecks : Prop :=
  (∀ (s : State) (i : Nat),
    commandResult s none i = .badKind ∧
    (s.measure.image? i = none ↔ i = 0 ∨ s.measure.images.length < i) ∧
    (s.measure.image? i = none →
      commandResult s (some .reopen) i = .badIndex ∧ commandResult s (some .abandon) i = .badIndex) ∧
    (∀ g, s.measure.image? i = some g →
      let allowed := (∃ d, g.state = .mismatched d) ∨ (∃ why, g.state = .broken why) ∨
        (((∃ d, g.state = .verified d) ∨ ∃ d, g.state = .recorded d) ∧
          g.declared.policy.reopenable = true)
      let locked := ∃ d h, d ∈ s.measure.dependents i ∧ s.measure.image? d = some h ∧
        ((∃ x, h.state = .verified x) ∨ ∃ x, h.state = .recorded x) ∧
        h.declared.policy.reopenable = false
      (¬ allowed → commandResult s (some .reopen) i = .badState) ∧
      (allowed → locked → commandResult s (some .reopen) i = .dependentLocked) ∧
      (allowed → ¬ locked → commandResult s (some .reopen) i = .done) ∧
      (g.state.isMeasuring = true → commandResult s (some .abandon) i = .done) ∧
      (g.state.isMeasuring = false → commandResult s (some .abandon) i = .badState)) ∧
    (commandResult s (some .resend) i = if i ≤ s.measure.images.length then .done else .badIndex) ∧
    (commandResult s (some .resume) i = if s.report.channel = .halted then .done else .notHalted)) ∧
  (∀ (s : State) (seq image : BitVec 8), s.report.channel ≠ .dormant → seq ≠ s.report.lastSeq →
    let refused (result : CommandResult) : Host.Outcome State Fault Refusal :=
      .next (State.settle { s with report := { s.report with
        lastSeq := seq, lastResult := result, headerDirty := true } })
    (∀ r, commandResult s (some .reopen) image.toNat = r → r ≠ .done →
      exec (.reopen seq image) s = refused r) ∧
    (∀ r, commandResult s (some .abandon) image.toNat = r → r ≠ .done →
      exec (.abandon seq image) s = refused r) ∧
    (∀ r, commandResult s (some .resend) image.toNat = r → r ≠ .done →
      exec (.resend seq image) s = refused r) ∧
    (∀ r, commandResult s (some .resume) image.toNat = r → r ≠ .done →
      exec (.resume seq image) s = refused r))

/-- What the four commands carry out when their checks pass, in the step in which they are taken (R151, R155,
R156): REOPEN reopens the closure, ABANDON breaks with ABANDONED, RESEND enqueues its subject, RESUME returns
the channel to READY; the sequence and DONE are held and the header is dirty. A command whose sequence equals
the last one taken is not taken, and in DORMANT none is (R140, R153). -/
def Obligations.CommandsCarriedOut : Prop :=
  (∀ (s : State) (seq image : BitVec 8), s.report.channel ≠ .dormant → seq ≠ s.report.lastSeq →
    let taken : ReportState := { s.report with lastSeq := seq, lastResult := .done, headerDirty := true }
    (commandResult s (some .reopen) image.toNat = .done →
      exec (.reopen seq image) s = .next (State.settle { s with
        measure := s.measure.reopenClosure image.toNat, report := taken })) ∧
    (commandResult s (some .abandon) image.toNat = .done →
      exec (.abandon seq image) s = .next (State.settle { s with
        measure := s.measure.breakImage image.toNat .abandoned, report := taken })) ∧
    (image.toNat ≤ s.measure.images.length →
      exec (.resend seq image) s = .next (State.settle { s with
        measure := { s.measure with subjects :=
          if image.toNat ∈ s.measure.subjects then s.measure.subjects
          else s.measure.subjects ++ [image.toNat] }
        report := taken })) ∧
    (s.report.channel = .halted →
      exec (.resume seq image) s = .next (State.settle { s with
        report := { taken with channel := .ready } }))) ∧
  (∀ (s : State) (seq image : BitVec 8) (c : Instr),
    c = .reopen seq image ∨ c = .abandon seq image ∨ c = .resend seq image ∨ c = .resume seq image →
    (s.report.channel = .dormant → exec c s = .next s) ∧
    (s.report.channel ≠ .dormant → seq = s.report.lastSeq → exec c s = .next s.settle))

/-- CONSUMER_UPDATE (R152): a value from the consumer index to the producer index, counting forward modulo
65536, becomes the consumer index, and any other is ignored. -/
def Obligations.ConsumerUpdateTaken : Prop :=
  ∀ (s : State) (v : BitVec 16), s.report.channel ≠ .dormant →
    ((v - s.report.consumer).toNat ≤ (s.report.producer - s.report.consumer).toNat →
      exec (.consumerUpdate v) s =
        .next (State.settle { s with report := { s.report with consumer := v } })) ∧
    ((s.report.producer - s.report.consumer).toNat < (v - s.report.consumer).toNat →
      exec (.consumerUpdate v) s = .next s.settle)

/-! ### The report unit -/

/-- The OK response of a report write (R147, R148): the tag is FREE and the channel READY; a record's leaves
the advance owed, and a header's with the advance owed publishes the record. -/
def Obligations.ReportWriteAcknowledged : Prop :=
  ∀ (s : State) (k : Fin 2),
    let r : ReportState := { s.report with tags := s.report.tags.set k.val .free, channel := .ready }
    (∀ j, s.report.tags[k] = .busy (.slot j) →
      exec (.reportWriteResponse (32 + k.val) .ok) s = .next (State.settle { s with
        report := { r with advanceOwed := true, inFlight := none } })) ∧
    (s.report.tags[k] = .busy .header → s.report.advanceOwed = true →
      exec (.reportWriteResponse (32 + k.val) .ok) s = .next (State.settle { s with
        report := { r with
          advanceOwed := false, producer := s.report.producer + 1,
          area := s.report.area.map (fun a => { a with nextRecord := a.nextRecord + 1 }) } })) ∧
    (s.report.tags[k] = .busy .header → s.report.advanceOwed = false →
      exec (.reportWriteResponse (32 + k.val) .ok) s = .next (State.settle { s with report := r }))

/-- A report write that memory does not carry out, or does not answer within 250 µs (R149, R150): the channel
is HALTED; a record's subject returns to the head of the queue with its count added back, a header is first
again; the tag is FREE after a response and QUARANTINED with its target after the limit, until a response of
any status frees it. That an expiry on a tag that is FREE or QUARANTINED, which carries no limit, leaves the
state as it is, is the model's choice (log 4). -/
def Obligations.FailedReportWriteHalts : Prop :=
  ∀ (s : State) (k : Fin 2),
    (∀ (c : Instr) (tag : ReportTag) (target : ReportTarget), s.report.tags[k] = .busy target →
      (∃ status, status ≠ .ok ∧ c = .reportWriteResponse (32 + k.val) status ∧ tag = .free) ∨
        (c = .reportLimitExpiry (32 + k.val) ∧ tag = .quarantined target) →
      let r : ReportState := { s.report with tags := s.report.tags.set k.val tag, channel := .halted }
      (target = .header →
        exec c s = .next (State.settle { s with report := { r with headerFirst := true } })) ∧
      (∀ j w, target = .slot j → s.report.inFlight = some w →
        exec c s = .next (State.settle { s with
          report := { r with inFlight := none }
          measure := { s.measure.modImage w.subject (fun g =>
              { g with transitions := min (g.transitions + w.captured) 255 }) with
            subjects := w.subject :: s.measure.subjects.filter (· != w.subject) } }))) ∧
    (∀ target status, s.report.tags[k] = .quarantined target →
      exec (.reportWriteResponse (32 + k.val) status) s = .next (State.settle { s with
        report := { s.report with tags := s.report.tags.set k.val .free } })) ∧
    (s.report.tags[k] = .free ∨ (∃ target, s.report.tags[k] = .quarantined target) →
      exec (.reportLimitExpiry (32 + k.val)) s = .next s)

/-- The choice in READY (R144, R147, R148): a header when the advance is owed or a header is first; else the
head subject's record, an image's or the manifest's, when the ring is not full; else a header when it is
dirty; else nothing; each on the lowest-numbered FREE tag, and nothing when no tag is FREE or the target is a
quarantined tag's. In any other channel state nothing is chosen (R143, R144). `State.settle`, the end
of an event, makes this choice once the pool has acted and the refill unit has asked and served, as the model
infers (log 7): the report unit, the subjects and every image are as it leaves them, and its write, if any, joins
the own-request queue among the refill reads issued at the same event (R165), at a place left open (log 10). -/
def Obligations.ReadyChoosesTheNextWrite : Prop :=
  (∀ (man : ManifestState) (m : MeasureState) (r : ReportState) (area : ReportArea),
    r.channel = .ready → r.area = some area →
    let headerDue := r.advanceOwed = true ∨ r.headerFirst = true
    let recordDue := ∃ x xs, m.subjects = x :: xs ∧ r.fill < area.slots
    let blocked (target : ReportTarget) : Prop :=
      (∀ t : Fin 2, r.tags[t] ≠ .free) ∨ ∃ t : Fin 2, r.tags[t] = .quarantined target
    let next := r.producer.toNat % area.slots
    ((headerDue ∨ (¬ recordDue ∧ r.headerDirty = true)) →
      (blocked .header → chooseReport man m r = (r, m, none)) ∧
      (∀ t : Fin 2, ¬ blocked .header → r.tags[t] = .free → (∀ t', t' < t → r.tags[t'] ≠ .free) →
        chooseReport man m r =
          ({ r with tags := r.tags.set t.val (.busy .header), channel := .writingHeader,
                    headerFirst := false, headerDirty := false }, m,
            some (.write (32 + t.val) (BitVec.ofNat 40 area.base)
              ((beatsOfBytes 1 (headerBytes
                (if r.advanceOwed = true then r.producer + 1 else r.producer)
                r.lastSeq r.lastResult)).map fullBeat))))) ∧
    (¬ headerDue → recordDue →
      (blocked (.slot next) → chooseReport man m r = (r, m, none)) ∧
      (∀ (t : Fin 2) (x : Nat) (xs : List Nat) (bytes : List Byte) (captured : Nat),
        ¬ blocked (.slot next) → r.tags[t] = .free → (∀ t', t' < t → r.tags[t'] ≠ .free) →
        m.subjects = x :: xs →
        (∃ g, x ≠ 0 ∧ m.image? x = some g ∧ captured = g.transitions ∧
            bytes = imageRecordBytes area.nextRecord x g) ∨
          (∃ record, x = 0 ∧ man.record = some record ∧ captured = 0 ∧
            bytes = manifestRecordBytes area.nextRecord record (man.revocation.getD .none)) →
        chooseReport man m r =
          ({ r with tags := r.tags.set t.val (.busy (.slot next)), channel := .writingRecord,
                    inFlight := some { subject := x, captured := captured } },
            { m.modImage x (fun g => { g with transitions := 0 }) with subjects := xs },
            some (.write (32 + t.val) (BitVec.ofNat 40 (area.base + 64 + 64 * next))
              ((beatsOfBytes 4 bytes).map fullBeat))))) ∧
    (¬ headerDue → ¬ recordDue → r.headerDirty = false → chooseReport man m r = (r, m, none))) ∧
  (∀ (man : ManifestState) (m : MeasureState) (r : ReportState),
    r.channel ≠ .ready → chooseReport man m r = (r, m, none)) ∧
  (∀ s t : State, t = s.settle →
    let asked := s.measure.settlePool.requestRefills
    let served := asked.serveFrom asked.refillPending
    let chosen := chooseReport s.manifest { served.1 with refillPending := served.2.1 } s.report
    t.report = chosen.1 ∧ t.measure.subjects = chosen.2.1.subjects ∧ t.measure.images = chosen.2.1.images ∧
    ∃ new, t.link.own = s.link.own ++ new ∧ (chosen.2.2 = none → new = served.2.2) ∧
      ∀ w, chosen.2.2 = some w → ∃ k, k ≤ served.2.2.length ∧
        new = served.2.2.take k ++ w :: served.2.2.drop k)

/-- The bytes of an image record (R145, R175, R179), of a manifest record (R146, R179) and of header beat 0
(R148, R178): 64, 64 and 16 of them; read back, the fields are those of the image, of the record values fixed
at ARMED with the revocation outcome, and of the header; and the bytes that carry no field are zero. -/
def Obligations.ImageRecordLayout : Prop :=
  (∀ (number : BitVec 32) (i : Nat) (g : Image), 1 ≤ i → i ≤ 31 → g.transitions ≤ 255 →
    g.cursor < 2 ^ 32 →
    let stateByte : ImageState → Byte
      | .declared => 0x01
      | .filling => 0x02
      | .finishing _ => 0x03
      | .verified _ => 0x04
      | .recorded _ => 0x05
      | .mismatched _ => 0x06
      | .broken _ => 0x07
    let reasonByte : ImageState → Byte
      | .broken .rewrite => 0x01
      | .broken .partialBeat => 0x02
      | .broken .runsExhausted => 0x03
      | .broken .writeFault => 0x04
      | .broken .refillFault => 0x05
      | .broken .refillTimeout => 0x06
      | .broken .predecessorFailed => 0x07
      | .broken .abandoned => 0x08
      | .declared | .filling | .finishing _ | .verified _ | .recorded _ | .mismatched _ => 0x00
    let bytes : List Byte := imageRecordBytes number i g
    bytes.length = 64 ∧ bytes[0]? = some 0x01 ∧ (bytes[1]?).map (·.toNat) = some i ∧
    bytes[2]? = some (stateByte g.state) ∧ bytes[3]? = some (reasonByte g.state) ∧
    littleEndian ((bytes.drop 4).take 4) = number.toNat ∧ bytes[8]? = some g.epoch ∧
    (bytes[9]?).map (·.toNat) = some g.transitions ∧
    (bytes.drop 10).take 6 = List.replicate 6 0 ∧
    littleEndian ((bytes.drop 16).take 4) = g.cursor ∧ (bytes.drop 20).take 12 = List.replicate 12 0 ∧
    (∀ k, k < 32 → bytes[32 + k]? = some (match g.state with
      | .verified d | .recorded d | .mismatched d => d.extractLsb' (8 * k) 8
      | .declared | .filling | .finishing _ | .broken _ => 0))) ∧
  (∀ (number : BitVec 32) (record : ManifestRecord) (outcome : Revocation), record.failedAttempts ≤ 255 →
    record.lengthBytes < 2 ^ 32 →
    let reasonByte : Option RejectReason → Byte
      | none => 0x00
      | some .rewrite => 0x01
      | some .partialBeat => 0x02
      | some .writeFault => 0x04
      | some .badLength => 0x10
      | some .noAnchorMatch => 0x11
      | some .badVersion => 0x12
      | some .tooManyImages => 0x13
      | some .tooManySegments => 0x14
      | some .badSegment => 0x15
      | some .overlap => 0x16
      | some .badReportArea => 0x17
      | some .badPredecessor => 0x18
      | some .badPin => 0x19
      | some .badReleaseSet => 0x1A
    let slotByte : AnchorSlot → Byte
      | .primary => 0x01
      | .alternate => 0x02
    let outcomeByte : Revocation → Byte
      | .none => 0x00
      | .inProgress => 0x01
      | .done => 0x02
      | .failed => 0x03
      | .notApplicable => 0x04
      | .already => 0x05
    let bytes : List Byte := manifestRecordBytes number record outcome
    bytes.length = 64 ∧ bytes[0]? = some 0x02 ∧ bytes[1]? = some 0x00 ∧ bytes[2]? = some 0x10 ∧
    bytes[3]? = some (reasonByte record.lastReason) ∧
    littleEndian ((bytes.drop 4).take 4) = number.toNat ∧ (bytes.drop 8).take 2 = [0, 0] ∧
    bytes[10]? = some (slotByte record.slot) ∧ (bytes[11]?).map (·.toNat) = some record.failedAttempts ∧
    bytes[12]? = some (outcomeByte outcome) ∧ (bytes.drop 13).take 3 = [0, 0, 0] ∧
    littleEndian ((bytes.drop 16).take 4) = record.lengthBytes ∧
    (bytes.drop 20).take 12 = List.replicate 12 0 ∧
    (∀ k, k < 32 → bytes[32 + k]? = some (record.digest.extractLsb' (8 * k) 8))) ∧
  (∀ (producer : BitVec 16) (seq : BitVec 8) (result : CommandResult),
    let resultByte : CommandResult → Byte
      | .none => 0x00
      | .done => 0x01
      | .badIndex => 0x02
      | .badState => 0x03
      | .dependentLocked => 0x04
      | .badKind => 0x05
      | .notHalted => 0x06
    let bytes : List Byte := headerBytes producer seq result
    bytes.length = 16 ∧ littleEndian (bytes.take 2) = producer.toNat ∧ bytes[2]? = some seq ∧
    bytes[3]? = some (resultByte result) ∧ bytes[4]? = some 0x10 ∧ bytes.drop 5 = List.replicate 11 0)

/-! ### The manifest -/

/-- One beat of a window write in MANIFEST_LOADING, under the first case that applies (R107, R108): beyond
the length or empty, ignored; partial, the attempt fails with PARTIAL; already present, with REWRITE; new,
it becomes present, and at offset 0 brings the length, which drops the beats beyond it, or fails the attempt
with BAD_LENGTH when it is 0 or above 64. -/
def Obligations.WindowBeatHandled : Prop :=
  ∀ (s : State) (offset : Nat) (b : WriteBeat), s.manifest.phase = .manifestLoading →
    let beyond := ∃ n, s.manifest.length = some n ∧ 64 * n ≤ offset
    let present := ∃ d, (offset, d) ∈ s.manifest.buffer
    let filled := bufferPut offset b.data s.manifest.buffer
    let n := (b.data.extractLsb' 32 16).toNat
    (beyond ∨ b.strobes = 0 → s.windowBeat offset b = s) ∧
    (¬ beyond → b.strobes ≠ 0 → b.strobes ≠ 0xFFFF →
      s.windowBeat offset b = s.failAttempt .partialBeat) ∧
    (¬ beyond → b.strobes = 0xFFFF → present → s.windowBeat offset b = s.failAttempt .rewrite) ∧
    (¬ beyond → b.strobes = 0xFFFF → ¬ present →
      (offset ≠ 0 → s.windowBeat offset b =
        { s with manifest := { s.manifest with buffer := filled } }) ∧
      (offset = 0 → 1 ≤ n → n ≤ 64 → s.windowBeat offset b =
        { s with manifest := { s.manifest with
          length := some n, buffer := filled.filter (fun x => decide (x.1 < 64 * n)) } }) ∧
      (offset = 0 → n = 0 ∨ 64 < n → ∃ u : ManifestState, s.windowBeat offset b =
        State.failAttempt { s with manifest := { u with buffer := filled } } .badLength ∧
        u = s.manifest))

/-- A failed attempt (R119, R120): the counter rises and the reason is held, the loading state is discarded,
an engine 0 that waits for the manifest is FREE and one with a step in progress finishes it discarded, and
the phase is REJECTED, or LOCKOUT at the third failure; nothing else changes. -/
def Obligations.FailedAttempt : Prop :=
  ∀ (s : State) (why : RejectReason), s.manifest.attempts ≤ 2 →
    ∃ e : Engine, s.failAttempt why = { s with
      manifest := { s.manifest with
        attempts := s.manifest.attempts + 1, lastReason := some why,
        phase := if s.manifest.attempts = 2 then .lockout else .rejected,
        buffer := [], length := none, absorbOffset := 0, windowWrites := [], checked := none }
      measure := { s.measure with engines := s.measure.engines.set 0 e } } ∧
    (s.measure.engines[(0 : EngineId)].manifest = false → e = s.measure.engines[(0 : EngineId)]) ∧
    (s.measure.engines[(0 : EngineId)].manifest = true → e.context = none ∧
      (s.measure.engines[(0 : EngineId)].state = .holding → e.state = .free ∧ e.manifest = false) ∧
      (s.measure.engines[(0 : EngineId)].state ≠ .holding →
        e.state = s.measure.engines[(0 : EngineId)].state ∧ e.discard = true))

/-- A write into the window in MANIFEST_LOADING or REJECTED is forwarded and numbered; in REJECTED it starts
a new attempt from the values of R106; its tag joins the window write set and its beats are handled in
address order (R93, R97, R107), after which the manifest unit goes on (R109, R111). The beats are handled one after
another, each at its own window offset, against the state that the ones before it have left; once the attempt
has failed at one of them, those after it are not handled (R107). That engine 0 takes its next beat only after
the last beat of the write has been handled is the model's choice (log 33). -/
def Obligations.WindowWriteAccepted : Prop :=
  (∀ (s : State) (tag : Nat) (addr : Addr) (beats : List WriteBeat), s.link.occupied < 16 →
    malformed s.link .write tag addr beats.length = false →
    s.manifest.windowBase.toNat ≤ addr.toNat → addr.toNat < s.manifest.windowBase.toNat + 4096 →
    tag ∉ s.manifest.windowWrites →
    ∀ u : ManifestState,
      (s.manifest.phase = .manifestLoading ∧ u = s.manifest ∨ s.manifest.phase = .rejected ∧
        u = { s.manifest with phase := .manifestLoading, buffer := [], length := none,
                              absorbOffset := 0, windowWrites := [] }) →
      exec (.hostWriteAccept tag addr beats) s = .next (State.settle (State.advanceManifest
        (State.windowBeats { s with
          link := { s.link with
            hostWrites := s.link.hostWrites ++ [tag], memWrites := s.link.memWrites ++ [tag],
            forward := s.link.forward ++ [.write tag addr beats] }
          measure := { s.measure with
            entries := s.measure.entries ++
              [{ tag := tag, seq := s.measure.giveNumber, recorded := [] }]
            nextSeq := nextNumber s.measure.giveNumber.number
            nextOrder := s.measure.nextOrder + 1 }
          manifest := { u with windowWrites := u.windowWrites ++ [tag] } }
          (addr.toNat - s.manifest.windowBase.toNat) beats)))) ∧
  (∀ (s : State) (offset : Nat) (b : WriteBeat) (rest : List WriteBeat),
    s.windowBeats offset [] = s ∧
    s.windowBeats offset (b :: rest) = (s.windowBeat offset b).windowBeats (offset + 16) rest ∧
    (s.manifest.phase ≠ .manifestLoading →
      s.windowBeat offset b = s ∧ s.windowBeats offset (b :: rest) = s))

/-- What the manifest unit goes on to in MANIFEST_LOADING with the length known and engine 0 without a step in
progress (R109, R111): the beat at the absorb offset is taken when it is present; when all are taken and no
window write is in flight, the check begins and engine 0 finalises; otherwise it waits. At
MANIFEST_BEAT_STEP_DONE a full block is compressed and engine 0 waits, from this instant on, the model's count
of events (R47; log 9), from where the manifest unit goes on; a step of a failed attempt (R119) leaves engine 0
FREE. -/
def Obligations.ManifestAbsorbedInOrder : Prop :=
  (∀ (s : State) (n : Nat) (c : Context), s.manifest.phase = .manifestLoading →
    s.manifest.length = some n →
    s.measure.engines[(0 : EngineId)].state = .free ∧
        c = { hash := initialHash, block := [], total := 0, seeded := false } ∨
      s.measure.engines[(0 : EngineId)].state = .holding ∧
        s.measure.engines[(0 : EngineId)].manifest = true ∧
        s.measure.engines[(0 : EngineId)].context = some c →
    (s.manifest.absorbOffset < 64 * n → ∀ b, bufferAt s.manifest.buffer s.manifest.absorbOffset = some b →
      s.advanceManifest = { s with
        manifest := { s.manifest with absorbOffset := s.manifest.absorbOffset + 16 }
        measure := s.measure.modEngine 0 (fun x => { x with
          state := .absorbing .beat, manifest := true, context := some (takeBytes c (beatBytes b)) }) }) ∧
    (s.manifest.absorbOffset < 64 * n →
      bufferAt s.manifest.buffer s.manifest.absorbOffset = none → s.advanceManifest = s) ∧
    (64 * n ≤ s.manifest.absorbOffset → s.manifest.windowWrites = [] →
      s.advanceManifest = { s with
        manifest := { s.manifest with phase := .manifestCheck }
        measure := s.measure.modEngine 0 (fun x => { x with state := .finalizing }) }) ∧
    (64 * n ≤ s.manifest.absorbOffset → s.manifest.windowWrites ≠ [] → s.advanceManifest = s)) ∧
  (∀ s : State, s.measure.engines[(0 : EngineId)].manifest = true →
    s.measure.engines[(0 : EngineId)].state = .absorbing .beat →
    (s.measure.engines[(0 : EngineId)].discard = false →
      exec .manifestBeatStepDone s = .next (State.settle (State.advanceManifest { s with
        measure := s.measure.modEngine 0 (fun x => { x with
          state := .holding, holdingSince := s.measure.now, context := x.context.map (fun c =>
            if 64 ≤ c.block.length then
              { c with hash := compress c.hash (c.block.take 64), block := c.block.drop 64 }
            else c) }) }))) ∧
    (s.measure.engines[(0 : EngineId)].discard = true →
      exec .manifestBeatStepDone s = .next (State.settle (State.advanceManifest { s with
        measure := s.measure.modEngine 0 (fun x => { x with
          state := .free, bound := none, discard := false, parkOrder := false, context := none,
          delivered := [], manifest := false }) }))))

/-- R112: the check compares the finalised digest with PRIMARY first and ALTERNATE second; a match is kept
with the slot and leads to PARSING with engine 0 FREE and the buffer kept, and no match fails the attempt.
No event other than a reset reaches the check while it is in progress: neither the manifest unit nor engine
0, which finalises with the manifest's context, is changed. -/
def Obligations.AnchorCheckDecides : Prop :=
  (∀ (s : State) (an : Anchors) (c : Context), s.manifest.phase = .manifestCheck →
    s.manifest.anchors = some an → s.measure.engines[(0 : EngineId)].context = some c →
    let digest := finalResult c
    let released := s.measure.modEngine 0 (fun x =>
      { x with state := .free, context := none, manifest := false, discard := false })
    let accepted (slot : AnchorSlot) : Host.Outcome State Fault Refusal := .next (State.settle { s with
      manifest := { s.manifest with phase := .parsing, checked := some (slot, digest) },
      measure := released })
    (an.primary = .programmed digest → exec .manifestCheckDone s = accepted .primary) ∧
    (an.primary ≠ .programmed digest → an.alternate = some digest →
      exec .manifestCheckDone s = accepted .alternate) ∧
    (an.primary ≠ .programmed digest → an.alternate ≠ some digest →
      exec .manifestCheckDone s =
        .next (State.settle (State.failAttempt { s with measure := released } .noAnchorMatch)))) ∧
  (∀ (c : Instr) (s t : State), s.manifest.phase = .manifestCheck → s.manifest.windowWrites = [] →
    s.manifest.revocation = none → exec c s = .next t →
    c ≠ .manifestCheckDone → c ≠ .coldReset → c ≠ .warmReset →
    (∀ msel1 msel0, c ≠ .resetEnd msel1 msel0) → t.manifest = s.manifest ∧
      (s.tablesOk → s.measure.poolOk → s.measure.engines[(0 : EngineId)].manifest = true →
        s.measure.engines[(0 : EngineId)].state = .finalizing →
        t.measure.engines[(0 : EngineId)] = s.measure.engines[(0 : EngineId)]))

/-- PARSING_DONE (R113, R118, R119): the attempt fails with the reason of the first check that fails; when
every check passes, the phase is ARMED, the tables, reservations, release sets and report unit are set, the
manifest subject is queued and the record values are fixed, all in the one step. -/
def Obligations.ParsingDecides : Prop :=
  ∀ (s : State) (slot : AnchorSlot) (digest : Digest) (an : Anchors) (n : Nat),
    s.manifest.phase = .parsing → s.manifest.checked = some (slot, digest) →
    s.manifest.anchors = some an → s.manifest.length = some n →
    (∀ why, parseManifest s.manifest.buffer (64 * n) s.manifest.windowBase = .error why →
      exec .parsingDone s = .next (State.settle (s.failAttempt why))) ∧
    (∀ c, parseManifest s.manifest.buffer (64 * n) s.manifest.windowBase = .ok c →
      ∃ t : State, exec .parsingDone s = .next t.settle ∧
        t.manifest = { s.manifest with
          phase := .armed, revocation := t.manifest.revocation,
          record := some { slot := slot, failedAttempts := s.manifest.attempts,
                           lastReason := s.manifest.lastReason, digest := digest, lengthBytes := 64 * n } } ∧
        t.lines = { s.lines with sets := some (c.header.set0, c.header.set1) } ∧
        t.report = { s.report with
          channel := .ready, producer := 0, consumer := 0, advanceOwed := false,
          headerFirst := true, headerDirty := false, tags := #v[.free, .free], inFlight := none,
          area := some { base := c.header.reportBase, slots := c.header.recordCount, nextRecord := 1 } } ∧
        t.link = s.link ∧ t.measure.subjects = [0] ∧ t.measure.verified = [] ∧ t.measure.waitList = [] ∧
        t.measure.entries = s.measure.entries ∧ t.measure.nextSeq = s.measure.nextSeq ∧
        t.measure.images.length = c.images.length ∧ t.measure.segments.length = c.segments.length ∧
        (∀ i f, c.images[i]? = some f → ∃ g, t.measure.image? (i + 1) = some g ∧
          g.declared.policy = f.policy ∧ g.declared.expected = f.expected ∧
          g.declared.firstSegment = f.first ∧ g.declared.segmentCount = f.count ∧
          g.declared.predecessor = (if f.predecessor = 0 then none else some f.predecessor) ∧
          (∀ e : EngineId, g.declared.pin = some e ↔ f.pin = e.val) ∧
          g.declared.length = (((c.segments.drop f.first).take f.count).map (·.length)).sum ∧
          g.state = .declared ∧ g.cursor = 0 ∧ g.handOff = 0 ∧ g.epoch = 0 ∧ g.inFlight = 0 ∧
          g.transitions = 0 ∧ g.slot = none ∧ g.runs = []) ∧
        (∀ e x, c.segments[e]? = some x → ∃ y, t.measure.segments[e]? = some y ∧
          y.base = x.base ∧ y.length = x.length ∧
          (∀ i f, c.images[i]? = some f → f.first ≤ e → e < f.first + f.count →
            y.owner = some (i + 1) ∧
            y.imageOffset = (((c.segments.drop f.first).take (e - f.first)).map (·.length)).sum) ∧
          ((∀ f ∈ c.images, e < f.first ∨ f.first + f.count ≤ e) → y.owner = none)) ∧
        ∀ e : EngineId,
          (∀ i f, c.images[i]? = some f → f.pin = e.val → t.measure.engines[e].reservation = some (i + 1)) ∧
          ((∀ f ∈ c.images, f.pin ≠ e.val) → t.measure.engines[e].reservation = none))

/-- The parse checks (R113 to R117): they are taken in order, the first that fails gives its reason, and a
manifest that passes all eleven is accepted with what the buffer holds. The counts and the length are checked
before any record is read; then the image and segment records, read where R176 and R177 place their fields. -/
def Obligations.ParseChecks : Prop :=
  (∀ (buffer : List (Nat × Beat)) (lengthBytes : Nat) (base : Addr),
    let version := (bufferByte buffer 0).toNat
    let images := (bufferByte buffer 1).toNat
    let segments := (bufferByte buffer 2).toNat
    let result := parseManifest buffer lengthBytes base
    let c := readContents buffer
    let area := (c.header.reportBase, c.header.reportBase + 64 + 64 * c.header.recordCount)
    let window := (base.toNat, base.toNat + 4096)
    let apart (x y : Nat × Nat) : Prop := x.2 ≤ y.1 ∨ y.2 ≤ x.1
    let lists := (∀ f ∈ c.images, 1 ≤ f.count ∧ f.count ≤ 8 ∧ f.first + f.count ≤ segments) ∧
      c.images.Pairwise (fun f f' => apart (f.first, f.first + f.count) (f'.first, f'.first + f'.count))
    let records := ∀ x ∈ c.segments, x.base % 16 = 0 ∧ x.length % 16 = 0 ∧ 16 ≤ x.length ∧
      x.length ≤ 0x1000000 ∧ x.base + x.length ≤ 2 ^ 40
    let report := c.header.reportBase % 64 = 0 ∧ c.header.recordCount ∈ [8, 16, 32, 64, 128, 256] ∧
      area.2 ≤ 2 ^ 40
    let disjoint := c.segments.Pairwise (fun x y => apart (x.base, x.base + x.length) (y.base, y.base + y.length)) ∧
      (∀ x ∈ c.segments, apart (x.base, x.base + x.length) window ∧ apart (x.base, x.base + x.length) area) ∧
      apart window area
    let predecessors := ∀ (k : Nat) (f : ImageFields), c.images[k]? = some f → f.predecessor ≤ k
    let pins := (∀ f ∈ c.images, f.pin = 0xFF ∨ f.pin ≤ 3) ∧
      c.images.Pairwise (fun f f' => f.pin = 0xFF ∨ f.pin ≠ f'.pin) ∧
      (c.images.filter (fun f => f.pin != 0xFF)).length ≤ 2
    let sets := ∀ i, i < 32 → c.header.set0.getLsbD i = true ∨ c.header.set1.getLsbD i = true →
      ∃ f, 1 ≤ i ∧ c.images[i - 1]? = some f ∧ f.policy.measureOnly = false
    (version ≠ 1 → result = .error .badVersion) ∧
    (version = 1 → 31 < images → result = .error .tooManyImages) ∧
    (version = 1 → images ≤ 31 → 64 < segments → result = .error .tooManySegments) ∧
    (version = 1 → images ≤ 31 → segments ≤ 64 → lengthBytes < 64 + 64 * images + 16 * segments →
      result = .error .badLength) ∧
    (version = 1 → images ≤ 31 → segments ≤ 64 → 64 + 64 * images + 16 * segments ≤ lengthBytes →
      (¬ lists → result = .error .tooManySegments) ∧
      (lists → ¬ records → result = .error .badSegment) ∧
      (lists → records → ¬ report → result = .error .badReportArea) ∧
      (lists → records → report → ¬ disjoint → result = .error .overlap) ∧
      (lists → records → report → disjoint → ¬ predecessors → result = .error .badPredecessor) ∧
      (lists → records → report → disjoint → predecessors → ¬ pins → result = .error .badPin) ∧
      (lists → records → report → disjoint → predecessors → pins → ¬ sets →
        result = .error .badReleaseSet) ∧
      (lists → records → report → disjoint → predecessors → pins → sets → result = .ok c))) ∧
  (∀ (buffer : List (Nat × Beat)),
    let c := readContents buffer
    let bytes (offset n : Nat) : List Byte := (List.range n).map (fun k => bufferByte buffer (offset + k))
    let number (offset n : Nat) : Nat := littleEndian (bytes offset n)
    let byte (offset : Nat) : Nat := (bufferByte buffer offset).toNat
    c.header.version = byte 0 ∧ c.header.imageCount = byte 1 ∧ c.header.segmentCount = byte 2 ∧
    c.header.revokePrimary = (bufferByte buffer 3).getLsbD 0 ∧ c.header.reportBase = number 8 8 ∧
    c.header.recordCount = number 16 2 ∧ c.header.set0.toNat = number 20 4 ∧
    c.header.set1.toNat = number 24 4 ∧ c.images.length = byte 1 ∧ c.segments.length = byte 2 ∧
    (∀ (k : Nat) (f : ImageFields), c.images[k]? = some f →
      let first := 64 + 64 * k
      f.policy.readWhileLoading = (bufferByte buffer first).getLsbD 0 ∧
      f.policy.readAfterFail = (bufferByte buffer first).getLsbD 1 ∧
      f.policy.reopenable = (bufferByte buffer first).getLsbD 2 ∧
      f.policy.measureOnly = (bufferByte buffer first).getLsbD 3 ∧
      f.predecessor = byte (first + 1) ∧ f.pin = byte (first + 2) ∧ f.first = byte (first + 3) ∧
      f.count = byte (first + 4) ∧
      ∀ j, j < 32 → f.expected.extractLsb' (8 * j) 8 = bufferByte buffer (first + 32 + j)) ∧
    (∀ (e : Nat) (x : SegmentFields), c.segments[e]? = some x →
      let first := 64 + 64 * byte 1 + 16 * e
      x.base = number first 8 ∧ x.length = number (first + 8) 4)) ∧
  (∀ (buffer : List (Nat × Beat)) (lengthBytes : Nat) (base : Addr) (c : Contents),
    parseManifest buffer lengthBytes base = .ok c →
    c.header.version = 1 ∧ c.images.length = c.header.imageCount ∧ c.images.length ≤ 31 ∧
    c.segments.length = c.header.segmentCount ∧ c.segments.length ≤ 64 ∧
    64 + 64 * c.images.length + 16 * c.segments.length ≤ lengthBytes ∧
    (∀ f ∈ c.images, 1 ≤ f.count ∧ f.count ≤ 8 ∧ f.first + f.count ≤ c.segments.length) ∧
    c.images.Pairwise (fun f f' => f.first + f.count ≤ f'.first ∨ f'.first + f'.count ≤ f.first) ∧
    (∀ x ∈ c.segments, x.base % 16 = 0 ∧ x.length % 16 = 0 ∧ 16 ≤ x.length ∧ x.length ≤ 0x1000000 ∧
      x.base + x.length ≤ 2 ^ 40) ∧
    c.header.reportBase % 64 = 0 ∧ c.header.recordCount ∈ [8, 16, 32, 64, 128, 256] ∧
    c.header.reportBase + 64 + 64 * c.header.recordCount ≤ 2 ^ 40 ∧
    c.segments.Pairwise (fun x y => x.base + x.length ≤ y.base ∨ y.base + y.length ≤ x.base) ∧
    (∀ x ∈ c.segments,
      (x.base + x.length ≤ base.toNat ∨ base.toNat + 4096 ≤ x.base) ∧
      (x.base + x.length ≤ c.header.reportBase ∨
        c.header.reportBase + 64 + 64 * c.header.recordCount ≤ x.base)) ∧
    (base.toNat + 4096 ≤ c.header.reportBase ∨
      c.header.reportBase + 64 + 64 * c.header.recordCount ≤ base.toNat) ∧
    (∀ (k : Nat) (f : ImageFields), c.images[k]? = some f → f.predecessor ≤ k) ∧
    (∀ f ∈ c.images, f.pin = 0xFF ∨ f.pin ≤ 3) ∧
    c.images.Pairwise (fun f f' => f.pin = 0xFF ∨ f.pin ≠ f'.pin) ∧
    (c.images.filter (fun f => f.pin != 0xFF)).length ≤ 2 ∧
    (∀ i, i < 32 → c.header.set0.getLsbD i = true ∨ c.header.set1.getLsbD i = true →
      ∃ f, 1 ≤ i ∧ c.images[i - 1]? = some f ∧ f.policy.measureOnly = false))

/-- The revocation decision at ARMED (R121), and the burn's end without the supply at its start (R122). -/
def Obligations.RevocationDecidedAtArmed : Prop :=
  ∀ (s t : State) (slot : AnchorSlot) (digest : Digest) (an : Anchors) (n : Nat) (c : Contents),
    s.manifest.phase = .parsing → s.manifest.checked = some (slot, digest) →
    s.manifest.anchors = some an → s.manifest.length = some n →
    parseManifest s.manifest.buffer (64 * n) s.manifest.windowBase = .ok c →
    exec .parsingDone s = .next t →
    let flag := (bufferByte s.manifest.buffer 3).getLsbD 0
    t.manifest.anchors = some an ∧
    (flag = false → t.manifest.revocation = some .none) ∧
    (flag = true → slot = .primary → t.manifest.revocation = some .notApplicable) ∧
    (flag = true → slot = .alternate → an.primary = .blank →
      t.manifest.revocation = some .notApplicable) ∧
    (flag = true → slot = .alternate → an.primary = .revoked → t.manifest.revocation = some .already) ∧
    (∀ d, flag = true → slot = .alternate → an.primary = .programmed d →
      t.manifest.revocation = some (if s.vprog then .inProgress else .failed))

/-- The burn (R122): the fuse blown ends it with DONE while the supply is present, and makes no progress
without it; the limit ends it with FAILED; either enqueues the manifest subject, and neither changes the
anchor states held. The supply may come and go at any time. A reset during a burn (R123) leaves the fuse
partly burnt or whole, and any other reset leaves the fuses as they are. At the next sensing (R122, R123)
PRIMARY reads as REVOKED after DONE, as PROGRAMMED when no burn has touched it, and either after a burn that
expired or that a reset stopped, as the reading says. That without a burn neither event acts is the model's
choice (log 4), and that fuses otherwise read as they were recorded is its reading of R103 (log 3). -/
def Obligations.BurnEnds : Prop :=
  (∀ (s : State) (present : Bool),
    exec (.vprogSupplyChange present) s = .next { s with vprog := present } ∧
    (s.manifest.revocation = some .inProgress →
      (s.vprog = true → ∃ fuses, exec .fuseBlown s = .next (State.settle { s with
        manifest := { s.manifest with revocation := some .done },
        measure := s.measure.enqueue 0, fuses := fuses }) ∧
        (∀ p a, s.fuses = .read p a → fuses = .read .revoked a) ∧ (s.fuses = .unread → fuses = .unread)) ∧
      (s.vprog = false → exec .fuseBlown s = .next s) ∧
      (∃ fuses, exec .burnLimitExpiry s = .next (State.settle { s with
        manifest := { s.manifest with revocation := some .failed },
        measure := s.measure.enqueue 0, fuses := fuses }) ∧
        (∀ d a, s.fuses = .read (.whole d) a → fuses = .read (.uncertain d) a) ∧
        ((∀ d a, s.fuses ≠ .read (.whole d) a) → fuses = s.fuses))) ∧
    (s.manifest.revocation ≠ some .inProgress →
      exec .fuseBlown s = .next s ∧ exec .burnLimitExpiry s = .next s)) ∧
  (∀ (c : Instr) (s t : State), c = .coldReset ∨ c = .warmReset → exec c s = .next t →
    (s.manifest.revocation = some .inProgress →
      ∀ d a, s.fuses = .read (.whole d) a → t.fuses = .read (.uncertain d) a) ∧
    (s.manifest.revocation ≠ some .inProgress ∨ (∀ d a, s.fuses ≠ .read (.whole d) a) →
      t.fuses = s.fuses)) ∧
  (∀ (s t : State) (primary : SlotReading) (alternate held : Option Digest),
    s.manifest.phase = .sensing → s.resetLine = .inactive →
    exec (.sensingDone primary alternate) s = .next t →
    (s.fuses = .read .revoked held → t.manifest.anchors = some { primary := .revoked, alternate := held }) ∧
    (∀ d, s.fuses = .read (.whole d) held →
      t.manifest.anchors = some { primary := .programmed d, alternate := held }) ∧
    (∀ d, s.fuses = .read (.uncertain d) held →
      t.manifest.anchors = some
        { primary := if primary = .revoked then .revoked else .programmed d, alternate := held }) ∧
    (s.fuses = .read .blank held → t.manifest.anchors = some { primary := .blank, alternate := held }))

/-! ### What holds at every step -/

/-- The phase changes at the events of R101 alone: resets; the end of sensing; in MANIFEST_LOADING a write
into the window that fails the attempt, the end of a manifest beat step or the response to a window write
that lets the check begin, and a failed window write; the end of the check; the end of parsing; and in
REJECTED a write into the window. UNPROVISIONED, ARMED and LOCKOUT are left by a reset alone, and every step
keeps the attempt counter and the phase in agreement (R120). A row that brings a response of memory for a
forwarded write is routed by the tag it carries (R167; log 20), so each such row is named. -/
def Obligations.PhaseChanges : Prop :=
  (∀ (c : Instr) (s t : State), s.manifest.attemptsOk → exec c s = .next t →
    let failed := t.manifest.phase = .rejected ∨ t.manifest.phase = .lockout
    let absorbed := ∃ n, s.manifest.length = some n ∧ 64 * n ≤ s.manifest.absorbOffset
    let writesWindow := ∃ tag addr beats d, c = .hostWriteAccept tag addr beats ∧
      classify s addr.toNat = .window d
    t.manifest.phase = s.manifest.phase ∨
    ((c = .coldReset ∨ c = .warmReset) ∧ t.manifest.phase = .sensing) ∨
    (s.manifest.phase = .sensing ∧ (∃ p a, c = .sensingDone p a) ∧
      (t.manifest.phase = .lockout ∨ t.manifest.phase = .unprovisioned ∨
        t.manifest.phase = .manifestLoading)) ∨
    (s.manifest.phase = .manifestLoading ∧ writesWindow ∧ failed) ∨
    (s.manifest.phase = .manifestLoading ∧ c = .manifestBeatStepDone ∧ absorbed ∧
      s.manifest.windowWrites = [] ∧ t.manifest.phase = .manifestCheck) ∨
    (s.manifest.phase = .manifestLoading ∧
      (∃ (tag : Nat) (status : LinkStatus), (c = .fwdWriteResponse tag status ∨
          c = .reportWriteResponse tag status ∨ ∃ data, c = .unknownTagResponse .write tag status data) ∧
        (t.manifest.phase = .manifestCheck ∧ absorbed ∧
            (∀ w ∈ s.manifest.windowWrites, w = tag ∧ status = .ok) ∨
          failed ∧ tag ∈ s.manifest.windowWrites ∧ status ≠ .ok))) ∨
    (s.manifest.phase = .manifestCheck ∧ c = .manifestCheckDone ∧ (t.manifest.phase = .parsing ∨ failed)) ∨
    (s.manifest.phase = .parsing ∧ c = .parsingDone ∧ (t.manifest.phase = .armed ∨ failed)) ∨
    (s.manifest.phase = .rejected ∧ writesWindow ∧
      (t.manifest.phase = .manifestLoading ∨ t.manifest.phase = .lockout))) ∧
  (∀ s t : State, s.manifest.attemptsOk → step s = .next t → t.manifest.attemptsOk)

/-- R6, R9, R14: while the tables stand, every image moves forwards through its states within its epoch and a
terminal state is not left, but for a reopen, which brings it to DECLARED with cursor 0 and its next epoch; and
what is declared never changes (R1). A reopen is taken from a REOPEN command, its row (by itself: log 6) or a
write of header beat 1 with the kind byte 01H, that is new and passes its checks, and takes the image it names
and that image's dependents alone. -/
def Obligations.ImagesMoveForwardOrReopen : Prop :=
  ∀ (c : Instr) (s t : State), exec c s = .next t → s.manifest.phase = .armed →
    t.manifest.phase = .armed → s.manifest.windowWrites = [] → s.measure.predecessorsLower →
    t.measure.segments = s.measure.segments ∧ t.measure.images.length = s.measure.images.length ∧
    ∀ i g, s.measure.image? i = some g → ∃ g', t.measure.image? i = some g' ∧
      g'.declared = g.declared ∧
      ((g'.epoch = g.epoch ∧ g.state.movesTo g'.state) ∨
        (g'.state = .declared ∧ g'.cursor = 0 ∧ g'.epoch = g.epoch + 1 ∧
          ∃ (seq image : BitVec 8),
            (c = .reopen seq image ∨ ∃ tag addr b, c = .hostWriteAccept tag addr [b] ∧
              classify s addr.toNat = .header 1 ∧ b.data.extractLsb' 24 8 = 1 ∧
              b.data.extractLsb' 16 8 = seq ∧ b.data.extractLsb' 32 8 = image) ∧
            seq ≠ s.report.lastSeq ∧ commandResult s (some .reopen) image.toNat = .done ∧
            (i = image.toNat ∨ i ∈ s.measure.dependents image.toNat)))

/-- Every step keeps the laws of the run table and the staging store (R20, R21, R22, R33); and, with the laws of
the engine pool (R19, R47, R50, R52, R62, R70, R72), the place of every image: the cursor and what is handed
off never pass its length (R18), and its runs lie at or above them and within the length (R21). -/
def Obligations.RunTableKept : Prop :=
  (∀ s t : State, s.measure.runTableOk → step s = .next t → t.measure.runTableOk) ∧
  (∀ s t : State, s.measure.runTableOk → s.measure.placesOk → s.measure.poolOk → s.measure.waitList.Nodup →
    s.tablesOk → step s = .next t → t.measure.placesOk ∧ t.measure.poolOk)

/-- Every step keeps the manifest buffer in its canonical form, within the length (R106, R108). -/
def Obligations.BufferKept : Prop :=
  ∀ s t : State, s.manifest.bufferOk → step s = .next t → t.manifest.bufferOk

/-- Every step keeps the tables, the report area, the release sets and the record to ARMED alone (R1, R118,
R133, R139); keeps the predecessor of every image lower than the image (R3, R117, R125); and keeps the segments
of an image holding every one of its bytes (R2, R3). -/
def Obligations.TablesInArmedAlone : Prop :=
  (∀ s t : State, s.tablesOk → s.manifest.attemptsOk → s.report.channelOk → step s = .next t → t.tablesOk) ∧
  (∀ s t : State, s.measure.predecessorsLower → step s = .next t → t.measure.predecessorsLower) ∧
  (∀ s t : State, s.measure.segmentsCover → step s = .next t → t.measure.segmentsCover)

/-- Every step keeps each host tag outstanding once, where R161 says it is; the write entries follow the
memory port's write tags (R24); and the inbound queue holds at most 16 (R162). -/
def Obligations.HostTagsKept : Prop :=
  ∀ s t : State, s.link.tagsOk → s.entriesOk → s.link.inboundOk → step s = .next t →
    t.link.tagsOk ∧ t.entriesOk ∧ t.link.inboundOk

/-- R134, R135 and R136, at every step: FAULT stands exactly while one of its conditions holds, outside
ARMED the release lines follow the phase, and in ARMED each stands exactly when its members are recorded; a
release line that is asserted stays asserted until a reset. -/
def Obligations.LinesFollowTheState : Prop :=
  (∀ s t : State, s.manifest.attemptsOk → s.faultOk → s.releaseOk → step s = .next t →
    t.faultOk ∧ t.releaseOk) ∧
  (∀ (c : Instr) (s t : State), exec c s = .next t → c ≠ .coldReset → c ≠ .warmReset →
    (s.lines.rls0 = true → t.lines.rls0 = true) ∧ (s.lines.rls1 = true → t.lines.rls1 = true))

/-- Every step keeps the channel to one write BUSY (R143) and the ring to N records, with the room and the
number of the next one (R141, R148). -/
def Obligations.ReportRingKept : Prop :=
  ∀ s t : State, s.report.channelOk → s.report.ringOk → step s = .next t →
    t.report.channelOk ∧ t.report.ringOk

/-- Every step keeps the report queue and the engine wait list without repeats (R50, R142), and the
head-wait count within 4 (R166). Every step leaves the pool settled: the wait list holds the ready images that
have no engine, no pinned engine and no claim, and no other (R50); while one waits, no unreserved engine is FREE
or can be evicted (R51); a claimant is ready (R52); no engine holds for a ready image (R56) or stays FREE with
its pinned image ready and without an engine (R63); an engine that awaits a refill has its request pending or
issued (R72), and while a request is pending no refill tag is FREE (R81). -/
def Obligations.QueuesKept : Prop :=
  (∀ s t : State, s.measure.subjects.Nodup → s.measure.waitList.Nodup → step s = .next t →
    t.measure.subjects.Nodup ∧ t.measure.waitList.Nodup) ∧
  (∀ s t : State, s.link.headWaitOk → step s = .next t → t.link.headWaitOk) ∧
  (∀ s t : State, s.measure.runTableOk → s.measure.placesOk → s.measure.poolOk → s.measure.waitList.Nodup →
    s.tablesOk → s.measure.segmentsCover → s.measure.poolSettled → step s = .next t → t.measure.poolSettled)

/-- All of these hold of the state after reset. -/
def Obligations.ResetMeetsEveryInvariant : Prop :=
  State.reset.clearedByReset ∧ State.reset.measure.runTableOk ∧ State.reset.manifest.attemptsOk ∧
  State.reset.manifest.bufferOk ∧ State.reset.tablesOk ∧ State.reset.link.tagsOk ∧
  State.reset.entriesOk ∧ State.reset.link.inboundOk ∧ State.reset.link.headWaitOk ∧
  State.reset.faultOk ∧ State.reset.releaseOk ∧ State.reset.report.channelOk ∧
  State.reset.report.ringOk ∧ State.reset.measure.subjects.Nodup ∧ State.reset.measure.waitList.Nodup ∧
  State.reset.measure.predecessorsLower ∧ State.reset.measure.placesOk ∧ State.reset.measure.poolOk ∧
  State.reset.measure.segmentsCover ∧ State.reset.measure.poolSettled
end

