-- ==== Sys2Proof/Laws/Lists.lean ====
section
/-! SUPPORT. Lists used as sets and queues, and folds that keep something. -/

namespace Sys2Proof.Laws

open Sys2Proof.Machine

/-- A fold whose every action keeps a projection keeps it. -/
theorem foldl_keeps {α β γ : Type} (proj : β → γ) (f : β → α → β) (h : ∀ b a, proj (f b a) = proj b)
    (l : List α) (b : β) : proj (l.foldl f b) = proj b := by
  induction l generalizing b with
  | nil => rfl
  | cons a l ih => rw [List.foldl_cons, ih, h]

/-- A fold whose every action keeps a property keeps it. -/
theorem foldl_inv {α β : Type} (P : β → Prop) (f : β → α → β) (l : List α)
    (h : ∀ b, ∀ a ∈ l, P b → P (f b a)) (b : β) (hb : P b) : P (l.foldl f b) := by
  induction l generalizing b with
  | nil => exact hb
  | cons a l ih =>
    exact ih (fun b x hx => h b x (List.mem_cons_of_mem _ hx)) _ (h b a List.mem_cons_self hb)

/-- A fold whose every action is a step of a reflexive and transitive relation is such a step. -/
theorem foldl_rel {α β : Type} (R : β → β → Prop) (hrefl : ∀ b, R b b)
    (htrans : ∀ a b c, R a b → R b c → R a c) (f : β → α → β) (h : ∀ b a, R b (f b a))
    (l : List α) (b : β) : R b (l.foldl f b) := by
  induction l generalizing b with
  | nil => exact hrefl b
  | cons a l ih => exact htrans _ _ _ (h b a) (ih _)

@[simp] theorem mem_joinTail (l : List Nat) (x y : Nat) : y ∈ joinTail l x ↔ y ∈ l ∨ y = x := by
  unfold joinTail
  by_cases h : x ∈ l
  · simp only [List.contains_iff_mem, h, if_true]
    exact ⟨Or.inl, fun h' => h'.elim id (fun e => e ▸ h)⟩
  · simp [h]

@[simp] theorem mem_joinHead (l : List Nat) (x y : Nat) : y ∈ joinHead l x ↔ y ∈ l ∨ y = x := by
  unfold joinHead
  by_cases h : y = x <;> simp [h]

@[simp] theorem mem_leave (l : List Nat) (x y : Nat) : y ∈ leave l x ↔ y ∈ l ∧ y ≠ x := by
  simp [leave]

theorem nodup_joinTail {l : List Nat} (h : l.Nodup) (x : Nat) : (joinTail l x).Nodup := by
  unfold joinTail
  by_cases hx : x ∈ l
  · simpa [hx] using h
  · simp only [List.contains_iff_mem, hx, if_false]
    refine List.nodup_append.2 ⟨h, by simp, ?_⟩
    rintro a ha b hb rfl
    simp only [List.mem_singleton] at hb
    exact hx (hb ▸ ha)

theorem nodup_leave {l : List Nat} (h : l.Nodup) (x : Nat) : (leave l x).Nodup := h.filter _

theorem nodup_joinHead {l : List Nat} (h : l.Nodup) (x : Nat) : (joinHead l x).Nodup := by
  unfold joinHead
  exact List.nodup_cons.2 ⟨by simp, h.filter _⟩

end Sys2Proof.Laws
end

