-- ==== Sys2Proof/Laws/State.lean ====
section
/-! SUPPORT. One lemma per field per update, true by rfl: no later proof unfolds a record update. -/

namespace Sys2Proof.Laws

open Sys2Proof.Machine

section updates
variable (m : MeasureState) (i : Nat) (f : Image → Image) (e : EngineId) (g : Engine → Engine)
  (t : Fin 8) (r : RefillTag) (st : ImageState) (why : BreakReason)

/-! ### modImage -/
@[simp] theorem modImage_segments : (m.modImage i f).segments = m.segments := rfl
@[simp] theorem modImage_entries : (m.modImage i f).entries = m.entries := rfl
@[simp] theorem modImage_nextSeq : (m.modImage i f).nextSeq = m.nextSeq := rfl
@[simp] theorem modImage_nextOrder : (m.modImage i f).nextOrder = m.nextOrder := rfl
@[simp] theorem modImage_engines : (m.modImage i f).engines = m.engines := rfl
@[simp] theorem modImage_waitList : (m.modImage i f).waitList = m.waitList := rfl
@[simp] theorem modImage_refillTags : (m.modImage i f).refillTags = m.refillTags := rfl
@[simp] theorem modImage_refillPending : (m.modImage i f).refillPending = m.refillPending := rfl
@[simp] theorem modImage_subjects : (m.modImage i f).subjects = m.subjects := rfl
@[simp] theorem modImage_verified : (m.modImage i f).verified = m.verified := rfl
@[simp] theorem modImage_now : (m.modImage i f).now = m.now := rfl

/-! ### modEngine -/
@[simp] theorem modEngine_segments : (m.modEngine e g).segments = m.segments := rfl
@[simp] theorem modEngine_images : (m.modEngine e g).images = m.images := rfl
@[simp] theorem modEngine_entries : (m.modEngine e g).entries = m.entries := rfl
@[simp] theorem modEngine_nextSeq : (m.modEngine e g).nextSeq = m.nextSeq := rfl
@[simp] theorem modEngine_nextOrder : (m.modEngine e g).nextOrder = m.nextOrder := rfl
@[simp] theorem modEngine_waitList : (m.modEngine e g).waitList = m.waitList := rfl
@[simp] theorem modEngine_refillTags : (m.modEngine e g).refillTags = m.refillTags := rfl
@[simp] theorem modEngine_refillPending : (m.modEngine e g).refillPending = m.refillPending := rfl
@[simp] theorem modEngine_subjects : (m.modEngine e g).subjects = m.subjects := rfl
@[simp] theorem modEngine_verified : (m.modEngine e g).verified = m.verified := rfl
@[simp] theorem modEngine_now : (m.modEngine e g).now = m.now := rfl

/-! ### mapEngines -/
@[simp] theorem mapEngines_segments : (m.mapEngines g).segments = m.segments := rfl
@[simp] theorem mapEngines_images : (m.mapEngines g).images = m.images := rfl
@[simp] theorem mapEngines_entries : (m.mapEngines g).entries = m.entries := rfl
@[simp] theorem mapEngines_nextSeq : (m.mapEngines g).nextSeq = m.nextSeq := rfl
@[simp] theorem mapEngines_nextOrder : (m.mapEngines g).nextOrder = m.nextOrder := rfl
@[simp] theorem mapEngines_waitList : (m.mapEngines g).waitList = m.waitList := rfl
@[simp] theorem mapEngines_refillTags : (m.mapEngines g).refillTags = m.refillTags := rfl
@[simp] theorem mapEngines_refillPending : (m.mapEngines g).refillPending = m.refillPending := rfl
@[simp] theorem mapEngines_subjects : (m.mapEngines g).subjects = m.subjects := rfl
@[simp] theorem mapEngines_verified : (m.mapEngines g).verified = m.verified := rfl
@[simp] theorem mapEngines_now : (m.mapEngines g).now = m.now := rfl

/-! ### setRefillTag and detachRefills -/
@[simp] theorem setRefillTag_segments : (m.setRefillTag t r).segments = m.segments := rfl
@[simp] theorem setRefillTag_images : (m.setRefillTag t r).images = m.images := rfl
@[simp] theorem setRefillTag_entries : (m.setRefillTag t r).entries = m.entries := rfl
@[simp] theorem setRefillTag_nextSeq : (m.setRefillTag t r).nextSeq = m.nextSeq := rfl
@[simp] theorem setRefillTag_nextOrder : (m.setRefillTag t r).nextOrder = m.nextOrder := rfl
@[simp] theorem setRefillTag_engines : (m.setRefillTag t r).engines = m.engines := rfl
@[simp] theorem setRefillTag_waitList : (m.setRefillTag t r).waitList = m.waitList := rfl
@[simp] theorem setRefillTag_refillPending : (m.setRefillTag t r).refillPending = m.refillPending := rfl
@[simp] theorem setRefillTag_subjects : (m.setRefillTag t r).subjects = m.subjects := rfl
@[simp] theorem setRefillTag_verified : (m.setRefillTag t r).verified = m.verified := rfl
@[simp] theorem setRefillTag_now : (m.setRefillTag t r).now = m.now := rfl
@[simp] theorem detachRefills_segments : (m.detachRefills i).segments = m.segments := rfl
@[simp] theorem detachRefills_images : (m.detachRefills i).images = m.images := rfl
@[simp] theorem detachRefills_entries : (m.detachRefills i).entries = m.entries := rfl
@[simp] theorem detachRefills_nextSeq : (m.detachRefills i).nextSeq = m.nextSeq := rfl
@[simp] theorem detachRefills_nextOrder : (m.detachRefills i).nextOrder = m.nextOrder := rfl
@[simp] theorem detachRefills_engines : (m.detachRefills i).engines = m.engines := rfl
@[simp] theorem detachRefills_waitList : (m.detachRefills i).waitList = m.waitList := rfl
@[simp] theorem detachRefills_refillPending : (m.detachRefills i).refillPending = m.refillPending := rfl
@[simp] theorem detachRefills_subjects : (m.detachRefills i).subjects = m.subjects := rfl
@[simp] theorem detachRefills_verified : (m.detachRefills i).verified = m.verified := rfl
@[simp] theorem detachRefills_now : (m.detachRefills i).now = m.now := rfl

/-! ### enqueue, noteChange and enter -/
@[simp] theorem enqueue_segments : (m.enqueue i).segments = m.segments := rfl
@[simp] theorem enqueue_images : (m.enqueue i).images = m.images := rfl
@[simp] theorem enqueue_entries : (m.enqueue i).entries = m.entries := rfl
@[simp] theorem enqueue_nextSeq : (m.enqueue i).nextSeq = m.nextSeq := rfl
@[simp] theorem enqueue_nextOrder : (m.enqueue i).nextOrder = m.nextOrder := rfl
@[simp] theorem enqueue_engines : (m.enqueue i).engines = m.engines := rfl
@[simp] theorem enqueue_waitList : (m.enqueue i).waitList = m.waitList := rfl
@[simp] theorem enqueue_refillTags : (m.enqueue i).refillTags = m.refillTags := rfl
@[simp] theorem enqueue_refillPending : (m.enqueue i).refillPending = m.refillPending := rfl
@[simp] theorem enqueue_subjects : (m.enqueue i).subjects = joinTail m.subjects i := rfl
@[simp] theorem enqueue_verified : (m.enqueue i).verified = m.verified := rfl
@[simp] theorem enqueue_now : (m.enqueue i).now = m.now := rfl
@[simp] theorem enter_segments : (m.enter i st).segments = m.segments := rfl
@[simp] theorem enter_entries : (m.enter i st).entries = m.entries := rfl
@[simp] theorem enter_nextSeq : (m.enter i st).nextSeq = m.nextSeq := rfl
@[simp] theorem enter_nextOrder : (m.enter i st).nextOrder = m.nextOrder := rfl
@[simp] theorem enter_engines : (m.enter i st).engines = m.engines := rfl
@[simp] theorem enter_waitList : (m.enter i st).waitList = m.waitList := rfl
@[simp] theorem enter_refillTags : (m.enter i st).refillTags = m.refillTags := rfl
@[simp] theorem enter_refillPending : (m.enter i st).refillPending = m.refillPending := rfl
@[simp] theorem enter_subjects : (m.enter i st).subjects = joinTail m.subjects i := rfl
@[simp] theorem enter_verified : (m.enter i st).verified = m.verified := rfl
@[simp] theorem enter_now : (m.enter i st).now = m.now := rfl

/-! ### hold -/
@[simp] theorem hold_segments : (m.hold e).segments = m.segments := rfl
@[simp] theorem hold_images : (m.hold e).images = m.images := rfl
@[simp] theorem hold_entries : (m.hold e).entries = m.entries := rfl
@[simp] theorem hold_nextSeq : (m.hold e).nextSeq = m.nextSeq := rfl
@[simp] theorem hold_nextOrder : (m.hold e).nextOrder = m.nextOrder := rfl
@[simp] theorem hold_waitList : (m.hold e).waitList = m.waitList := rfl
@[simp] theorem hold_refillTags : (m.hold e).refillTags = m.refillTags := rfl
@[simp] theorem hold_refillPending : (m.hold e).refillPending = m.refillPending := rfl
@[simp] theorem hold_subjects : (m.hold e).subjects = m.subjects := rfl
@[simp] theorem hold_verified : (m.hold e).verified = m.verified := rfl
@[simp] theorem hold_now : (m.hold e).now = m.now := rfl

/-! ### dropWork -/
@[simp] theorem dropWork_segments : (m.dropWork i).segments = m.segments := rfl
@[simp] theorem dropWork_images : (m.dropWork i).images =
    (m.modImage i (fun g => { g with runs := [], handOff := 0, slot := none })).images := rfl
@[simp] theorem dropWork_entries : (m.dropWork i).entries = m.entries := rfl
@[simp] theorem dropWork_nextSeq : (m.dropWork i).nextSeq = m.nextSeq := rfl
@[simp] theorem dropWork_nextOrder : (m.dropWork i).nextOrder = m.nextOrder := rfl
@[simp] theorem dropWork_engines : (m.dropWork i).engines =
    (m.mapEngines (fun e => (e.tearFrom i).dropClaim i)).engines := rfl
@[simp] theorem dropWork_waitList : (m.dropWork i).waitList = leave m.waitList i := rfl
@[simp] theorem dropWork_refillTags : (m.dropWork i).refillTags = (m.detachRefills i).refillTags := rfl
@[simp] theorem dropWork_refillPending :
    (m.dropWork i).refillPending = m.refillPending.filter (·.image != i) := rfl
@[simp] theorem dropWork_subjects : (m.dropWork i).subjects = m.subjects := rfl
@[simp] theorem dropWork_verified : (m.dropWork i).verified = m.verified := rfl
@[simp] theorem dropWork_now : (m.dropWork i).now = m.now := rfl

end updates

/-! ### settle: what it leaves alone by its form -/
section settle
variable (s : State)
@[simp] theorem settle_manifest : s.settle.manifest = s.manifest := rfl
@[simp] theorem settle_resetLine : s.settle.resetLine = s.resetLine := rfl
@[simp] theorem settle_vprog : s.settle.vprog = s.vprog := rfl
@[simp] theorem settle_fuses : s.settle.fuses = s.fuses := rfl
@[simp] theorem settle_pending : s.settle.pending = s.pending := rfl
@[simp] theorem settle_sets : s.settle.lines.sets = s.lines.sets := rfl
@[simp] theorem settle_hostReads : s.settle.link.hostReads = s.link.hostReads := rfl
@[simp] theorem settle_hostWrites : s.settle.link.hostWrites = s.link.hostWrites := rfl
@[simp] theorem settle_memReads : s.settle.link.memReads = s.link.memReads := rfl
@[simp] theorem settle_memWrites : s.settle.link.memWrites = s.link.memWrites := rfl
@[simp] theorem settle_forward : s.settle.link.forward = s.link.forward := rfl
@[simp] theorem settle_refusals : s.settle.link.refusals = s.link.refusals := rfl
@[simp] theorem settle_memOffer : s.settle.link.memOffer = s.link.memOffer := rfl
@[simp] theorem settle_memOut : s.settle.link.memOut = s.link.memOut := rfl
@[simp] theorem settle_relay : s.settle.link.relay = s.link.relay := rfl
@[simp] theorem settle_lastSource : s.settle.link.lastSource = s.link.lastSource := rfl
@[simp] theorem settle_hostOffer : s.settle.link.hostOffer = s.link.hostOffer := rfl
@[simp] theorem settle_hostOut : s.settle.link.hostOut = s.link.hostOut := rfl
end settle

end Sys2Proof.Laws
end

