-- ==== Sys2Proof/Laws/Images.lean ====
section
/-! SUPPORT. Reading an image record after the updates of one. -/

namespace Sys2Proof.Laws

open Sys2Proof.Machine

theorem image?_pos {m : MeasureState} {i : Nat} {g : Image} (h : m.image? i = some g) : 0 < i := by
  unfold MeasureState.image? at h
  split at h <;> first | cases h | omega

theorem image?_le {m : MeasureState} {i : Nat} {g : Image} (h : m.image? i = some g) :
    i ≤ m.images.length := by
  have h0 := image?_pos h
  unfold MeasureState.image? at h
  rw [if_neg (by omega)] at h
  obtain ⟨h1, -⟩ := List.getElem?_eq_some_iff.1 h
  omega

/-- Every index from 1 to the image count has a record, and no other (R1). -/
theorem image?_isSome (m : MeasureState) (i : Nat) :
    (m.image? i).isSome ↔ 1 ≤ i ∧ i ≤ m.images.length := by
  unfold MeasureState.image?
  split
  · subst i; simp
  · simp; omega

theorem mem_images {m : MeasureState} {i : Nat} {g : Image} (h : m.image? i = some g) : g ∈ m.images := by
  unfold MeasureState.image? at h
  split at h
  · cases h
  · exact List.mem_of_getElem? h

theorem exists_image? {m : MeasureState} {g : Image} (h : g ∈ m.images) : ∃ i, m.image? i = some g := by
  obtain ⟨k, hk⟩ := List.mem_iff_getElem?.1 h
  exact ⟨k + 1, by simpa [MeasureState.image?] using hk⟩

/-- Only the images decide what `image?` reads. -/
theorem image?_congr {m m' : MeasureState} (h : m'.images = m.images) (i : Nat) :
    m'.image? i = m.image? i := by
  unfold MeasureState.image?
  rw [h]

/-- A change of record i is seen at i alone. -/
theorem image?_modImage (m : MeasureState) (i j : Nat) (f : Image → Image) :
    (m.modImage i f).image? j = if i = j then (m.image? j).map f else m.image? j := by
  unfold MeasureState.modImage MeasureState.image?
  by_cases hi : i = 0
  · subst hi
    by_cases hj : j = 0
    · simp [hj]
    · simp [hj, Ne.symm (a := j) (b := 0) hj]
  · by_cases hj : j = 0
    · subst hj; simp [hi]
    · by_cases hij : i = j
      · subst hij; simp [hi]
      · have : ¬ i - 1 = j - 1 := by omega
        simp [hi, hj, hij, this]

@[simp] theorem length_modImage (m : MeasureState) (i : Nat) (f : Image → Image) :
    (m.modImage i f).images.length = m.images.length := by
  unfold MeasureState.modImage
  simp only
  split <;> simp

section same
variable (m : MeasureState) (i j : Nat) (e : EngineId) (f : Engine → Engine) (t : Fin 8) (r : RefillTag)
@[simp] theorem image?_modEngine : (m.modEngine e f).image? j = m.image? j := rfl
@[simp] theorem image?_mapEngines : (m.mapEngines f).image? j = m.image? j := rfl
@[simp] theorem image?_setRefillTag : (m.setRefillTag t r).image? j = m.image? j := rfl
@[simp] theorem image?_detachRefills : (m.detachRefills i).image? j = m.image? j := rfl
@[simp] theorem image?_enqueue : (m.enqueue i).image? j = m.image? j := rfl
@[simp] theorem image?_hold : (m.hold e).image? j = m.image? j := rfl
end same

/-- What entering a state does to the records (R10). -/
theorem image?_enter (m : MeasureState) (i j : Nat) (st : ImageState) :
    (m.enter i st).image? j =
      if i = j then
        (m.image? j).map (fun g => { g with state := st, transitions := saturate (g.transitions + 1) })
      else m.image? j := by
  simp only [MeasureState.enter, MeasureState.noteChange, image?_enqueue, image?_modImage]
  split <;> simp [Function.comp_def]

theorem image?_dropWork (m : MeasureState) (i j : Nat) :
    (m.dropWork i).image? j =
      if i = j then (m.image? j).map (fun g => { g with runs := [], handOff := 0, slot := none })
      else m.image? j := by
  rw [← image?_modImage]
  exact image?_congr rfl j

end Sys2Proof.Laws
end

