-- ==== Sys2Proof/Laws/Engines.lean ====
section
/-! SUPPORT. Reading an engine and a refill tag after the updates of one or of all. -/

namespace Sys2Proof.Laws

open Sys2Proof.Machine

theorem engines_modEngine (m : MeasureState) (e e' : EngineId) (f : Engine → Engine) :
    (m.modEngine e f).engines[e'] = if e = e' then f m.engines[e'] else m.engines[e'] := by
  unfold MeasureState.modEngine
  simp only [Fin.getElem_fin, Vector.getElem_set]
  by_cases h : e = e'
  · subst h; simp
  · have : ¬ e.val = e'.val := fun he => h (Fin.ext he)
    simp [h, this]

@[simp] theorem engines_modEngine_self (m : MeasureState) (e : EngineId) (f : Engine → Engine) :
    (m.modEngine e f).engines[e] = f m.engines[e] := by rw [engines_modEngine, if_pos rfl]

theorem engines_modEngine_ne {m : MeasureState} {e e' : EngineId} (f : Engine → Engine) (h : e' ≠ e) :
    (m.modEngine e f).engines[e'] = m.engines[e'] := by rw [engines_modEngine, if_neg (Ne.symm h)]

@[simp] theorem engines_mapEngines (m : MeasureState) (e : EngineId) (f : Engine → Engine) :
    (m.mapEngines f).engines[e] = f m.engines[e] := by
  match e with
  | 0 => rfl
  | 1 => rfl
  | 2 => rfl
  | 3 => rfl

@[simp] theorem refillTags_detachRefills (m : MeasureState) (i : Nat) (k : Fin 8) :
    (m.detachRefills i).refillTags[k] = m.refillTags[k].detach i := by
  match k with
  | 0 => rfl
  | 1 => rfl
  | 2 => rfl
  | 3 => rfl
  | 4 => rfl
  | 5 => rfl
  | 6 => rfl
  | 7 => rfl

theorem refillTags_setRefillTag (m : MeasureState) (k k' : Fin 8) (r : RefillTag) :
    (m.setRefillTag k r).refillTags[k'] = if k = k' then r else m.refillTags[k'] := by
  unfold MeasureState.setRefillTag
  simp only [Fin.getElem_fin, Vector.getElem_set]
  by_cases h : k = k'
  · subst h; simp
  · have : ¬ k.val = k'.val := fun he => h (Fin.ext he)
    simp [h, this]

theorem engines_congr {m m' : MeasureState} (h : m'.engines = m.engines) (e : EngineId) :
    m'.engines[e] = m.engines[e] := by rw [h]

/-- Every engine number is listed. -/
theorem mem_engineIds (e : EngineId) : e ∈ engineIds := by
  match e with
  | 0 => decide
  | 1 => decide
  | 2 => decide
  | 3 => decide

/-- Every refill tag number is listed. -/
theorem mem_refillTagIds (k : Fin 8) : k ∈ refillTagIds := by
  match k with
  | 0 => decide
  | 1 => decide
  | 2 => decide
  | 3 => decide
  | 4 => decide
  | 5 => decide
  | 6 => decide
  | 7 => decide

end Sys2Proof.Laws
end

