-- ==== Sys2Proof/Laws/Evolves.lean ====
section
/-! SUPPORT. What the shared operations other than the measuring of a write and a reopen can do to the
images and the tables: each image moves forwards alone, loses runs alone, and keeps what is declared. -/

namespace Sys2Proof.Laws

open Sys2Proof.Machine

/-- What can become of one image. -/
structure ImageEvolves (g g' : Image) : Prop where
  declared : g'.declared = g.declared
  epoch : g'.epoch = g.epoch
  inFlight : g'.inFlight ≤ g.inFlight
  state : g.state.movesTo g'.state
  entries : g'.entriesUsed ≤ g.entriesUsed
  slots : g'.slotsUsed ≤ g.slotsUsed
  runs : runsOk g.runs → runsOk g'.runs

theorem ImageEvolves.refl (g : Image) : ImageEvolves g g :=
  ⟨rfl, rfl, Nat.le_refl _, .inl rfl, Nat.le_refl _, Nat.le_refl _, id⟩

theorem movesTo_trans {a b c : ImageState} (h : a.movesTo b) (h' : b.movesTo c) : a.movesTo c := by
  unfold ImageState.movesTo at *
  rcases h with rfl | h
  · exact h'
  · rcases h' with rfl | h'
    · exact .inr h
    · exact .inr ⟨h.1, Nat.le_trans h.2 h'.2⟩

theorem ImageEvolves.trans {a b c : Image} (h : ImageEvolves a b) (h' : ImageEvolves b c) :
    ImageEvolves a c :=
  ⟨h'.declared.trans h.declared, h'.epoch.trans h.epoch, Nat.le_trans h'.inFlight h.inFlight,
    movesTo_trans h.state h'.state, Nat.le_trans h'.entries h.entries, Nat.le_trans h'.slots h.slots,
    fun x => h'.runs (h.runs x)⟩

/-- What can become of the tables, the queues and the verified record. -/
structure Evolves (m m' : MeasureState) : Prop where
  segments : m'.segments = m.segments
  entries : m'.entries = m.entries
  nextSeq : m'.nextSeq = m.nextSeq
  nextOrder : m'.nextOrder = m.nextOrder
  now : m'.now = m.now
  length : m'.images.length = m.images.length
  images : ∀ i g, m.image? i = some g → ∃ g', m'.image? i = some g' ∧ ImageEvolves g g'
  verified : ∀ i ∈ m.verified, i ∈ m'.verified
  newVerified : ∀ i ∈ m'.verified, i ∈ m.verified ∨ ∃ g d, m'.image? i = some g ∧ g.state = .verified d
  subjects : m.subjects.Nodup → m'.subjects.Nodup
  waitList : m.waitList.Nodup → m'.waitList.Nodup

theorem Evolves.refl (m : MeasureState) : Evolves m m :=
  ⟨rfl, rfl, rfl, rfl, rfl, rfl, fun _ g h => ⟨g, h, .refl g⟩, fun _ h => h, fun _ h => .inl h, id, id⟩

theorem Evolves.trans {a b c : MeasureState} (h : Evolves a b) (h' : Evolves b c) : Evolves a c where
  segments := h'.segments.trans h.segments
  entries := h'.entries.trans h.entries
  nextSeq := h'.nextSeq.trans h.nextSeq
  nextOrder := h'.nextOrder.trans h.nextOrder
  now := h'.now.trans h.now
  length := h'.length.trans h.length
  images := fun i g hg => by
    obtain ⟨g', hg', he⟩ := h.images i g hg
    obtain ⟨g'', hg'', he'⟩ := h'.images i g' hg'
    exact ⟨g'', hg'', he.trans he'⟩
  verified := fun i hi => h'.verified i (h.verified i hi)
  newVerified := fun i hi => by
    rcases h'.newVerified i hi with hi | hi
    · rcases h.newVerified i hi with hi | ⟨g, d, hg, hd⟩
      · exact .inl hi
      · obtain ⟨g', hg', he⟩ := h'.images i g hg
        refine .inr ⟨g', d, hg', ?_⟩
        rcases he.state with hs | hs
        · rw [hs, hd]
        · rw [hd] at hs; simp [ImageState.stage] at hs
    · exact .inr hi
  subjects := fun x => h'.subjects (h.subjects x)
  waitList := fun x => h'.waitList (h.waitList x)

/-- A change of engines, lists of waiting and refill tags alone. -/
theorem Evolves.of_same {m m' : MeasureState}
    (h : (m'.segments, m'.images, m'.entries, m'.nextSeq, m'.nextOrder, m'.now, m'.verified, m'.subjects) =
      (m.segments, m.images, m.entries, m.nextSeq, m.nextOrder, m.now, m.verified, m.subjects))
    (hw : m.waitList.Nodup → m'.waitList.Nodup) : Evolves m m' := by
  simp only [Prod.mk.injEq] at h
  obtain ⟨h1, h2, h3, h4, h5, h6, h7, h8⟩ := h
  refine ⟨h1, h3, h4, h5, h6, by rw [h2], fun i g hg => ⟨g, ?_, .refl g⟩, by rw [h7]; exact fun _ h => h,
    by rw [h7]; exact fun _ h => .inl h, by rw [h8]; exact id, hw⟩
  rw [image?_congr h2, hg]

/-- A change of one record. -/
theorem evolves_modImage (m : MeasureState) (i : Nat) (f : Image → Image)
    (hf : ∀ g, m.image? i = some g → ImageEvolves g (f g)) : Evolves m (m.modImage i f) := by
  refine ⟨rfl, rfl, rfl, rfl, rfl, by simp, fun j g hg => ?_, fun _ h => h, fun _ h => .inl h, id, id⟩
  rw [image?_modImage]
  by_cases hij : i = j
  · subst hij
    exact ⟨f g, by simp [hg], hf g hg⟩
  · exact ⟨g, by simp [hij, hg], .refl g⟩

theorem evolves_enqueue (m : MeasureState) (i : Nat) : Evolves m (m.enqueue i) :=
  ⟨rfl, rfl, rfl, rfl, rfl, rfl, fun _ g h => ⟨g, h, .refl g⟩, fun _ h => h, fun _ h => .inl h,
    fun h => nodup_joinTail h i, id⟩

/-- A change of a record that keeps all that an invariant speaks of. -/
theorem ImageEvolves.of_same {g g' : Image} (h : g'.declared = g.declared) (he : g'.epoch = g.epoch)
    (hi : g'.inFlight ≤ g.inFlight) (hs : g.state.movesTo g'.state) (hr : g'.runs = g.runs) :
    ImageEvolves g g' :=
  ⟨h, he, hi, hs, Nat.le_of_eq (by simp only [Image.entriesUsed, hr]),
    Nat.le_of_eq (by simp only [Image.slotsUsed, hr]), by rw [hr]; exact id⟩

theorem runsOk_nil : runsOk [] := ⟨List.Pairwise.nil, by simp⟩

/-- A change of a record that drops its runs. -/
theorem ImageEvolves.of_nil {g g' : Image} (h : g'.declared = g.declared) (he : g'.epoch = g.epoch)
    (hi : g'.inFlight ≤ g.inFlight) (hs : g.state.movesTo g'.state) (hr : g'.runs = []) :
    ImageEvolves g g' :=
  ⟨h, he, hi, hs, by simp [Image.entriesUsed, hr], by simp [Image.slotsUsed, hr], fun _ => hr ▸ runsOk_nil⟩

theorem evolves_enter (m : MeasureState) (i : Nat) (st : ImageState)
    (h : ∀ g, m.image? i = some g → g.state.movesTo st) : Evolves m (m.enter i st) := by
  refine .trans (evolves_modImage m i _ fun g hg => ?_) (.trans (evolves_modImage _ i _ fun g hg => ?_)
    (evolves_enqueue _ i))
  · exact .of_same rfl rfl (Nat.le_refl _) (h g hg) rfl
  · exact .of_same rfl rfl (Nat.le_refl _) (.inl rfl) rfl

theorem evolves_modEngine (m : MeasureState) (e : EngineId) (f : Engine → Engine) :
    Evolves m (m.modEngine e f) := .of_same rfl id

theorem evolves_mapEngines (m : MeasureState) (f : Engine → Engine) : Evolves m (m.mapEngines f) :=
  .of_same rfl id

theorem evolves_setRefillTag (m : MeasureState) (t : Fin 8) (r : RefillTag) :
    Evolves m (m.setRefillTag t r) := .of_same rfl id

theorem evolves_hold (m : MeasureState) (e : EngineId) : Evolves m (m.hold e) := .of_same rfl id

theorem evolves_dropWork (m : MeasureState) (i : Nat) : Evolves m (m.dropWork i) := by
  refine .trans (evolves_modImage m i _ fun g _ => ?_) (.of_same rfl fun h => nodup_leave h i)
  exact .of_nil rfl rfl (Nat.le_refl _) (.inl rfl) rfl

/-! ### Break and verdict -/

theorem movesTo_broken {st : ImageState} (h : st.isMeasuring = true) (why : BreakReason) :
    st.movesTo (.broken why) := by
  cases st <;> simp_all [ImageState.isMeasuring, ImageState.movesTo, ImageState.stage]

theorem evolves_breakOne (m : MeasureState) (i : Nat) (why : BreakReason) : Evolves m (m.breakOne i why) := by
  unfold MeasureState.breakOne
  split
  · rename_i hm
    refine (evolves_dropWork m i).trans (.trans (evolves_mapEngines _ _) (evolves_enter _ i _ fun g hg => ?_))
    rw [image?_mapEngines, image?_dropWork, if_pos rfl] at hg
    obtain ⟨g0, hg0, rfl⟩ := Option.map_eq_some_iff.1 hg
    rw [MeasureState.isMeasuring, hg0] at hm
    exact movesTo_broken (by simpa using hm) why
  · exact .refl m

theorem evolves_foldl {α : Type} (f : MeasureState → α → MeasureState) (h : ∀ m a, Evolves m (f m a))
    (l : List α) (m : MeasureState) : Evolves m (l.foldl f m) :=
  foldl_rel Evolves .refl (fun _ _ _ => .trans) f h l m

theorem evolves_failDependents (m : MeasureState) (x : Nat) : Evolves m (m.failDependents x) :=
  evolves_foldl _ (fun m d => evolves_breakOne m d _) _ m

theorem evolves_breakImage (m : MeasureState) (i : Nat) (why : BreakReason) :
    Evolves m (m.breakImage i why) := by
  unfold MeasureState.breakImage
  split
  · exact (evolves_breakOne m i why).trans (evolves_failDependents _ i)
  · exact .refl m

theorem verdictState_cases (g : Image) (r : PendingResult) :
    verdictState g r = .recorded r.digest ∨ verdictState g r = .verified r.digest ∨
      verdictState g r = .mismatched r.digest := by
  unfold verdictState
  split
  · exact .inl rfl
  · split
    · exact .inr (.inl rfl)
    · exact .inr (.inr rfl)

theorem movesTo_verdict {st : ImageState} (h : st.isFinishing = true) (g : Image) (r : PendingResult) :
    st.movesTo (verdictState g r) := by
  cases st <;> simp [ImageState.isFinishing] at h
  rcases verdictState_cases g r with h | h | h <;> rw [h] <;> simp [ImageState.movesTo, ImageState.stage]

theorem evolves_verdict (m : MeasureState) (i : Nat) (r : PendingResult) : Evolves m (m.verdict i r) := by
  unfold MeasureState.verdict
  split
  · exact .refl m
  · rename_i g hg
    split
    · rename_i hf
      have h1 : Evolves m ((m.mapEngines (·.lapse i)).enter i (verdictState g r)) := by
        refine (evolves_mapEngines m _).trans (evolves_enter _ i _ fun g' hg' => ?_)
        rw [image?_mapEngines, hg] at hg'
        cases hg'
        exact movesTo_verdict hf g r
      have hi : ((m.mapEngines (·.lapse i)).enter i (verdictState g r)).image? i =
          some { g with state := verdictState g r, transitions := saturate (g.transitions + 1) } := by
        rw [image?_enter, if_pos rfl, image?_mapEngines, hg]; rfl
      simp only
      split
      · rename_i d hd
        refine h1.trans ⟨rfl, rfl, rfl, rfl, rfl, rfl, fun _ g h => ⟨g, h, .refl g⟩,
          fun j hj => (mem_joinTail _ _ _).2 (.inl hj), fun j hj => ?_, id, id⟩
        rcases (mem_joinTail _ _ _).1 hj with hj | rfl
        · exact .inl hj
        · exact .inr ⟨_, d, hi, hd⟩
      · exact h1.trans (evolves_failDependents _ i)
      · exact h1
    · exact .refl m

end Sys2Proof.Laws
end

