-- ==== Sys2Proof/Laws/Break.lean ====
section
/-! SUPPORT. What a break and its cascade do to the image records (R12, R128, R129), to the engines and to
the refill tags. -/

namespace Sys2Proof.Laws

open Sys2Proof.Machine

/-- A record after a break (R12). -/
def brokenImage (why : BreakReason) (g : Image) : Image :=
  { g with state := .broken why, runs := [], handOff := 0, slot := none,
           transitions := saturate (g.transitions + 1) }

/-- A record after a break that applies in DECLARED, FILLING and FINISHING alone (R13). -/
def breakIfMeasuring (why : BreakReason) (g : Image) : Image :=
  if g.state.isMeasuring then brokenImage why g else g

theorem breakIfMeasuring_idem (why : BreakReason) (g : Image) :
    breakIfMeasuring why (breakIfMeasuring why g) = breakIfMeasuring why g := by
  by_cases h : g.state.isMeasuring = true
  · have : breakIfMeasuring why g = brokenImage why g := if_pos h
    rw [this]
    exact if_neg (by simp [brokenImage, ImageState.isMeasuring])
  · have : breakIfMeasuring why g = g := if_neg h
    rw [this, this]

theorem breakIfMeasuring_declared (why : BreakReason) (g : Image) :
    (breakIfMeasuring why g).declared = g.declared ∧ (breakIfMeasuring why g).epoch = g.epoch ∧
    (breakIfMeasuring why g).inFlight = g.inFlight ∧ (breakIfMeasuring why g).cursor = g.cursor := by
  unfold breakIfMeasuring
  split <;> exact ⟨rfl, rfl, rfl, rfl⟩

theorem image?_breakOne (m : MeasureState) (i j : Nat) (why : BreakReason) :
    (m.breakOne i why).image? j =
      if i = j then (m.image? j).map (breakIfMeasuring why) else m.image? j := by
  unfold MeasureState.breakOne
  by_cases hij : i = j
  · subst hij
    cases hg : m.image? i with
    | none =>
      have : m.isMeasuring i = false := by simp [MeasureState.isMeasuring, hg]
      simp [this, hg]
    | some g =>
      have : m.isMeasuring i = g.state.isMeasuring := by simp [MeasureState.isMeasuring, hg]
      rw [this, if_pos rfl, Option.map_some]
      unfold breakIfMeasuring
      split
      · rw [image?_enter, if_pos rfl, image?_mapEngines, image?_dropWork, if_pos rfl, hg]
        rfl
      · exact hg
  · rw [if_neg hij]
    split
    · rw [image?_enter, if_neg hij, image?_mapEngines, image?_dropWork, if_neg hij]
    · rfl

/-- A list of breaks for one reason. -/
theorem image?_breakAll (why : BreakReason) (L : List Nat) (m : MeasureState) (j : Nat) :
    (L.foldl (fun m d => m.breakOne d why) m).image? j =
      if j ∈ L then (m.image? j).map (breakIfMeasuring why) else m.image? j := by
  induction L generalizing m with
  | nil => simp
  | cons d L ih =>
    rw [List.foldl_cons, ih, image?_breakOne]
    by_cases hL : j ∈ L
    · rw [if_pos hL, if_pos (List.mem_cons_of_mem _ hL)]
      split
      · rw [Option.map_map]
        congr 1
        funext g
        exact breakIfMeasuring_idem why g
      · rfl
    · rw [if_neg hL]
      by_cases hd : d = j
      · rw [if_pos hd, if_pos (by simp [hd])]
      · rw [if_neg hd, if_neg (by simp [hL, Ne.symm hd])]

/-- The dependents depend on the declared predecessors alone (R125). -/
theorem dependents_congr {m m' : MeasureState} (hl : m'.images.length = m.images.length)
    (h : ∀ d, (m'.image? d).map (·.declared) = (m.image? d).map (·.declared)) (x : Nat) :
    m'.dependents x = m.dependents x := by
  have hs : dependentStep m' x = dependentStep m x := by
    funext found d
    unfold dependentStep
    have := h d
    cases hd' : m'.image? d <;> cases hd : m.image? d <;> simp [hd', hd] at this ⊢
    rw [this]
  unfold MeasureState.dependents MeasureState.indices
  rw [hl, hs]

theorem length_breakOne (m : MeasureState) (i : Nat) (why : BreakReason) :
    (m.breakOne i why).images.length = m.images.length := (evolves_breakOne m i why).length

theorem dependents_breakOne (m : MeasureState) (i x : Nat) (why : BreakReason) :
    (m.breakOne i why).dependents x = m.dependents x := by
  refine dependents_congr (length_breakOne m i why) (fun d => ?_) x
  rw [image?_breakOne]
  split
  · rw [Option.map_map]
    congr 1
    funext g
    exact (breakIfMeasuring_declared why g).1
  · rfl

/-- The failure cascade (R128, R129). -/
theorem image?_failDependents (m : MeasureState) (x j : Nat) :
    (m.failDependents x).image? j =
      if j ∈ m.dependents x then (m.image? j).map (breakIfMeasuring .predecessorFailed) else m.image? j :=
  image?_breakAll _ _ _ _

/-- The break action with its cascade (R12). -/
theorem image?_breakImage {m : MeasureState} {i : Nat} (h : m.isMeasuring i = true) (j : Nat)
    (why : BreakReason) :
    (m.breakImage i why).image? j =
      if j = i then (m.image? j).map (brokenImage why)
      else if j ∈ m.dependents i then (m.image? j).map (breakIfMeasuring .predecessorFailed)
      else m.image? j := by
  unfold MeasureState.breakImage
  rw [if_pos h, image?_failDependents, dependents_breakOne, image?_breakOne]
  by_cases hj : j = i
  · subst hj
    have hb : (m.image? j).map (breakIfMeasuring why) = (m.image? j).map (brokenImage why) := by
      unfold MeasureState.isMeasuring at h
      cases hg : m.image? j with
      | none => rfl
      | some g =>
        rw [hg] at h
        simp only [Option.any_some] at h
        simp [breakIfMeasuring, h]
    rw [if_pos rfl, if_pos rfl, hb]
    split
    · rw [Option.map_map]
      congr 1
    · rfl
  · rw [if_neg hj, if_neg (Ne.symm hj)]

/-- An image that is not measuring is not broken (R13). -/
theorem breakImage_of_not_measuring {m : MeasureState} {i : Nat} (h : m.isMeasuring i = false)
    (why : BreakReason) : m.breakImage i why = m := by
  unfold MeasureState.breakImage
  rw [if_neg (by simp [h])]

/-! ### Engines, tags and lists -/

/-- An engine after a break (R52, R64, R65). -/
def freedFrom (i : Nat) (e : Engine) : Engine := ((e.tearFrom i).dropClaim i).lapse i

theorem engines_breakOne (m : MeasureState) (i : Nat) (why : BreakReason) (e : EngineId) :
    (m.breakOne i why).engines[e] =
      if m.isMeasuring i then freedFrom i m.engines[e] else m.engines[e] := by
  unfold MeasureState.breakOne
  split
  · refine (engines_congr (enter_engines _ i _) e).trans ?_
    refine (engines_mapEngines _ e _).trans ?_
    unfold freedFrom
    congr 1
    refine (engines_congr (dropWork_engines m i) e).trans ?_
    exact engines_mapEngines m e _
  · rfl

theorem refillTags_breakOne (m : MeasureState) (i : Nat) (why : BreakReason) (k : Fin 8) :
    (m.breakOne i why).refillTags[k] =
      if m.isMeasuring i then m.refillTags[k].detach i else m.refillTags[k] := by
  unfold MeasureState.breakOne
  split
  · exact refillTags_detachRefills m i k
  · rfl

theorem waitList_breakOne (m : MeasureState) (i : Nat) (why : BreakReason) :
    (m.breakOne i why).waitList = if m.isMeasuring i then leave m.waitList i else m.waitList := by
  unfold MeasureState.breakOne
  split <;> rfl

theorem refillPending_breakOne (m : MeasureState) (i : Nat) (why : BreakReason) :
    (m.breakOne i why).refillPending =
      if m.isMeasuring i then m.refillPending.filter (·.image != i) else m.refillPending := by
  unfold MeasureState.breakOne
  split <;> rfl

theorem subjects_breakOne (m : MeasureState) (i : Nat) (why : BreakReason) :
    (m.breakOne i why).subjects = if m.isMeasuring i then joinTail m.subjects i else m.subjects := by
  unfold MeasureState.breakOne
  split <;> rfl

theorem verified_breakOne (m : MeasureState) (i : Nat) (why : BreakReason) :
    (m.breakOne i why).verified = m.verified := by
  unfold MeasureState.breakOne
  split <;> rfl

theorem verified_breakImage (m : MeasureState) (i : Nat) (why : BreakReason) :
    (m.breakImage i why).verified = m.verified := by
  unfold MeasureState.breakImage MeasureState.failDependents
  split
  · rw [foldl_keeps (·.verified) _ (fun m d => verified_breakOne m d _), verified_breakOne]
  · rfl

end Sys2Proof.Laws
end

