-- ==== Sys2Proof/Laws/PoolEvolves.lean ====
section
/-! SUPPORT. The pool, the refill unit and the report unit at work keep what `Evolves` says. -/

namespace Sys2Proof.Laws

open Sys2Proof.Machine

/-! ### Runs drained -/

theorem runsOk_tail {r : Run} {runs : List Run} (h : runsOk (r :: runs)) : runsOk runs :=
  ⟨(List.pairwise_cons.1 h.1).2, fun x hx => h.2 x (List.mem_cons_of_mem _ hx)⟩

/-- A head run that keeps its end, its kind and a size keeps the laws of the list. -/
theorem runsOk_head {r r' : Run} {runs : List Run} (h : runsOk (r :: runs)) (hs : r'.stop = r.stop)
    (hd : r'.body.isDeferred = r.body.isDeferred) (hz : r'.body.sizeOk) : runsOk (r' :: runs) := by
  obtain ⟨hp, ha⟩ := h
  rw [List.pairwise_cons] at hp
  refine ⟨List.pairwise_cons.2 ⟨fun x hx => ?_, hp.2⟩, fun x hx => ?_⟩
  · have := hp.1 x hx
    unfold runBefore at *
    rw [hs, hd]
    exact this
  · rcases List.mem_cons.1 hx with rfl | hx
    · exact hz
    · exact ha x (List.mem_cons_of_mem _ hx)

theorem dropStagedBeat_ok {runs : List Run} (h : runsOk runs) : runsOk (dropStagedBeat runs) := by
  unfold dropStagedBeat
  split
  · rename_i start a b rest runs
    refine runsOk_head h ?_ rfl ?_
    · simp only [Run.stop, RunBody.beatCount, List.length_cons]; omega
    · have := h.2 _ List.mem_cons_self
      simp only [RunBody.sizeOk, List.length_cons] at this ⊢
      omega
  · exact runsOk_tail h
  · exact h

theorem dropStagedBeat_length (runs : List Run) : (dropStagedBeat runs).length ≤ runs.length := by
  unfold dropStagedBeat
  split <;> simp

theorem dropStagedBeat_slots (runs : List Run) :
    ((dropStagedBeat runs).map (·.body.slots)).sum ≤ (runs.map (·.body.slots)).sum := by
  unfold dropStagedBeat
  split <;> simp [RunBody.slots]

theorem dropChunk_ok {runs : List Run} (n : Nat) (h : runsOk runs) : runsOk (dropChunk n runs) := by
  unfold dropChunk
  split
  · rename_i start k newest settled runs
    split
    · exact runsOk_tail h
    · refine runsOk_head h ?_ rfl ?_
      · simp only [Run.stop, RunBody.beatCount]; omega
      · simp only [RunBody.sizeOk]; omega
  · exact h

theorem dropChunk_length (n : Nat) (runs : List Run) : (dropChunk n runs).length ≤ runs.length := by
  unfold dropChunk
  split
  · split <;> simp
  · exact Nat.le_refl _

theorem dropChunk_slots (n : Nat) (runs : List Run) :
    ((dropChunk n runs).map (·.body.slots)).sum ≤ (runs.map (·.body.slots)).sum := by
  unfold dropChunk
  split
  · split <;> simp [RunBody.slots]
  · exact Nat.le_refl _

/-! ### Takes and the choice -/

theorem evolves_finishIfWhole (m : MeasureState) (i : Nat) : Evolves m (m.finishIfWhole i) := by
  unfold MeasureState.finishIfWhole
  split
  · rename_i h
    refine evolves_enter m i _ fun g hg => ?_
    rw [hg] at h
    simp only [Option.any_some, Bool.and_eq_true, beq_iff_eq] at h
    rw [h.1]
    exact .inr ⟨by decide, by decide⟩
  · exact .refl m

theorem evolves_takeStaged (m : MeasureState) (e : EngineId) (i : Nat) : Evolves m (m.takeStaged e i) := by
  unfold MeasureState.takeStaged
  split
  · exact .refl m
  · refine (evolves_modEngine m e _).trans (.trans (evolves_modImage _ i _ fun g _ => ?_)
      (evolves_finishIfWhole _ i))
    exact ⟨rfl, rfl, Nat.le_refl _, .inl rfl, dropStagedBeat_length _, dropStagedBeat_slots _, dropStagedBeat_ok⟩

theorem evolves_takeDelivered (m : MeasureState) (e : EngineId) (i : Nat) :
    Evolves m (m.takeDelivered e i) := by
  unfold MeasureState.takeDelivered
  split
  · exact .refl m
  · refine (evolves_modEngine m e _).trans (.trans (evolves_modImage _ i _ fun g _ => ?_)
      (evolves_finishIfWhole _ i))
    exact .of_same rfl rfl (Nat.le_refl _) (.inl rfl) rfl

theorem evolves_choose (m : MeasureState) (e : EngineId) : Evolves m (m.choose e) := by
  unfold MeasureState.choose
  split
  · exact .refl m
  · split
    · exact .refl m
    · split
      · exact evolves_modEngine m e _
      · split
        · exact evolves_takeDelivered m e _
        · split
          · exact evolves_modEngine m e _
          · split
            · split
              · exact evolves_takeStaged m e _
              · exact evolves_modEngine m e _
            · exact evolves_hold m e

theorem evolves_leaveWait (m : MeasureState) (i : Nat) : Evolves m { m with waitList := leave m.waitList i } :=
  .of_same rfl fun h => nodup_leave h i

theorem evolves_grant (m : MeasureState) (e : EngineId) (i : Nat) : Evolves m (m.grant e i) := by
  unfold MeasureState.grant
  split
  · exact .refl m
  · refine (evolves_leaveWait m i).trans ?_
    split
    · exact evolves_modEngine _ e _
    · simp only
      split
      · exact evolves_modEngine _ e _
      · exact (evolves_modEngine _ e _).trans (evolves_choose _ e)

theorem evolves_arbitrateOne {m m' : MeasureState} (h : m.arbitrateOne = some m') : Evolves m m' := by
  unfold MeasureState.arbitrateOne at h
  split at h
  · cases h
  · rename_i i rest hw
    have h0 : Evolves m { m with waitList := rest } := .of_same rfl fun hn => by
      rw [hw] at hn; exact (List.nodup_cons.1 hn).2
    split at h
    · cases h; exact h0.trans (evolves_grant _ _ _)
    · split at h
      · cases h; exact h0.trans (evolves_modEngine _ _ _)
      · cases h

theorem evolves_arbitrate (n : Nat) (m : MeasureState) : Evolves m (m.arbitrate n) := by
  induction n generalizing m with
  | zero => exact .refl m
  | succ n ih =>
    unfold MeasureState.arbitrate
    split
    · rename_i m' h
      exact (evolves_arbitrateOne h).trans (ih m')
    · exact .refl m

theorem evolves_setPending (m : MeasureState) (l : List RefillRequest) :
    Evolves m { m with refillPending := l } := .of_same rfl id

theorem evolves_withdrawUnready (m : MeasureState) : Evolves m m.withdrawUnready := by
  unfold MeasureState.withdrawUnready
  exact (evolves_setPending m _).trans (evolves_foldl _ (fun m (r : RefillRequest) => evolves_hold m r.engine) _ _)

theorem evolves_dropUnready (m : MeasureState) : Evolves m m.dropUnready :=
  .of_same rfl fun h => h.filter _

theorem nodup_foldl_joinTail {l : List Nat} (h : l.Nodup) (l' : List Nat) : (l'.foldl joinTail l).Nodup :=
  foldl_inv List.Nodup joinTail l' (fun _ a _ hb => nodup_joinTail hb a) l h

theorem evolves_resumeHolding (m : MeasureState) (e : EngineId) : Evolves m (m.resumeHolding e) := by
  unfold MeasureState.resumeHolding
  split
  · exact evolves_choose m e
  · exact .refl m

theorem evolves_grantPinned (m : MeasureState) (e : EngineId) : Evolves m (m.grantPinned e) := by
  unfold MeasureState.grantPinned
  split
  · split
    · exact evolves_grant m e _
    · exact .refl m
  · exact .refl m

theorem evolves_joinWaiting (m : MeasureState) : Evolves m m.joinWaiting := by
  unfold MeasureState.joinWaiting
  exact .of_same rfl fun h => nodup_foldl_joinTail h _

/-- What the pool does at the end of an event. -/
theorem evolves_settlePool (m : MeasureState) : Evolves m m.settlePool := by
  exact ((((evolves_withdrawUnready m).trans (evolves_dropUnready _)).trans
    (evolves_foldl _ evolves_resumeHolding engineIds _)).trans
    (evolves_foldl _ evolves_grantPinned engineIds _)).trans
    ((evolves_joinWaiting _).trans (evolves_arbitrate _ _))

theorem evolves_issueRefill {m : MeasureState} {r : RefillRequest} {x : MeasureState × LinkRequest}
    (h : m.issueRefill r = some x) : Evolves m x.1 := by
  unfold MeasureState.issueRefill at h
  split at h
  · cases h; exact evolves_setRefillTag m _ _
  · cases h

theorem evolves_serveFrom (l : List RefillRequest) (m : MeasureState) : Evolves m (m.serveFrom l).1 := by
  induction l generalizing m with
  | nil => exact .refl m
  | cons r rest ih =>
    unfold MeasureState.serveFrom
    split
    · exact ih m
    · rename_i x h
      exact (evolves_issueRefill h).trans (ih x.1)

theorem evolves_requestRefills (m : MeasureState) : Evolves m m.requestRefills :=
  evolves_setPending m _

/-- What the refill unit does at the end of an event. -/
theorem evolves_serveRefills (m : MeasureState) : Evolves m m.serveRefills.1 := by
  unfold MeasureState.serveRefills
  exact (evolves_requestRefills m).trans ((evolves_serveFrom _ _).trans (evolves_setPending _ _))

/-- What the report unit's choice does to the images and the report queue. -/
theorem evolves_chooseReport (man : ManifestState) (m : MeasureState) (r : ReportState) :
    Evolves m (chooseReport man m r).2.1 := by
  unfold chooseReport
  split
  · simp only
    split
    · split <;> exact .refl m
    · split
      · rename_i subject rest hs hf
        split
        · refine (evolves_modImage m subject (fun g => { g with transitions := 0 }) fun g _ =>
            .of_same rfl rfl (Nat.le_refl _) (.inl rfl) rfl).trans
            ⟨rfl, rfl, rfl, rfl, rfl, rfl, fun _ g h => ⟨g, h, .refl g⟩, fun _ h => h, fun _ h => .inl h,
              fun h => ?_, id⟩
          simp only [modImage_subjects] at h
          exact h.tail
        · exact .refl m
      · split
        · split <;> exact .refl m
        · exact .refl m
  · exact .refl m

/-- The end of an event, but for the count of events (R42, R144): what the measuring blocks become. -/
theorem evolves_settle (s : State) :
    Evolves s.measure { s.settle.measure with now := s.measure.now } := by
  have h := (evolves_settlePool s.measure).trans ((evolves_serveRefills _).trans
    (evolves_chooseReport s.manifest _ s.report))
  exact ⟨h.segments, h.entries, h.nextSeq, h.nextOrder, rfl, h.length, h.images, h.verified, h.newVerified,
    h.subjects, h.waitList⟩

theorem settle_now (s : State) : s.settle.measure.now = s.measure.now + 1 := by
  have h := (evolves_settlePool s.measure).trans ((evolves_serveRefills _).trans
    (evolves_chooseReport s.manifest _ s.report))
  show _ + 1 = _ + 1
  rw [h.now]

/-! ### Responses and steps -/

theorem evolves_answered (m : MeasureState) (i : Nat) : Evolves m (m.answered i) :=
  evolves_modImage m i _ fun _ _ => .of_same rfl rfl (Nat.sub_le _ _) (.inl rfl) rfl

theorem evolves_pendingVerdict (m : MeasureState) (i : Nat) : Evolves m (m.pendingVerdict i) := by
  unfold MeasureState.pendingVerdict
  split
  · split
    · split
      · exact evolves_verdict m i _
      · exact .refl m
    · exact .refl m
  · exact .refl m

theorem evolves_endDiscarded (m : MeasureState) (e : EngineId) : Evolves m (m.endDiscarded e) :=
  evolves_modEngine m e _

theorem evolves_passOn (m : MeasureState) (e : EngineId) : Evolves m (m.passOn e) := by
  unfold MeasureState.passOn
  split
  · exact (evolves_modEngine m e _).trans (evolves_grant _ e _)
  · exact .refl m

theorem evolves_restoreDone (m : MeasureState) (e : EngineId) : Evolves m (restoreDone m e) := by
  unfold restoreDone
  split
  · exact evolves_endDiscarded m e
  · split
    · exact .refl m
    · refine Evolves.trans (evolves_modImage m _ _ fun g _ => ?_)
        ((evolves_modEngine _ e _).trans (evolves_choose _ e))
      exact .of_same rfl rfl (Nat.le_refl _) (.inl rfl) rfl

theorem evolves_absorbDone (m : MeasureState) (e : EngineId) : Evolves m (absorbDone m e) := by
  unfold absorbDone
  split
  · exact evolves_endDiscarded m e
  · exact Evolves.trans (evolves_modEngine m e _) (evolves_choose _ e)

theorem evolves_finalisationDone (m : MeasureState) (e : EngineId) : Evolves m (finalisationDone m e) := by
  unfold finalisationDone
  split
  · exact evolves_endDiscarded m e
  · split
    · refine (evolves_modEngine m e Engine.release).trans ?_
      split
      · exact .refl _
      · rename_i g hg
        simp only
        split
        · exact evolves_verdict _ _ _
        · split
          · rename_i hf
            refine evolves_modImage _ _ _ fun g' hg' => .of_same rfl rfl (Nat.le_refl _) (.inr ?_) rfl
            rw [image?_modEngine, hg] at hg'
            cases hg'
            generalize g.state = st at hf ⊢
            cases st <;> simp [ImageState.isFinishing, ImageState.stage] at hf ⊢
          · exact .refl _
    · exact .refl m

theorem evolves_parkDone (m : MeasureState) (e : EngineId) : Evolves m (parkDone m e) := by
  unfold parkDone
  split
  · exact (evolves_endDiscarded m e).trans (evolves_passOn _ e)
  · split
    · exact .refl m
    · refine Evolves.trans (evolves_modImage m _ _ fun g _ => ?_)
        ((evolves_modEngine _ e _).trans (evolves_passOn _ e))
      exact .of_same rfl rfl (Nat.le_refl _) (.inl rfl) rfl

theorem evolves_deliverChunk (m : MeasureState) (e : EngineId) (i n : Nat) (beats : List Beat) :
    Evolves m (m.deliverChunk e i n beats) := by
  refine Evolves.trans (evolves_modImage m i _ fun g _ => ?_)
    ((evolves_modEngine _ e _).trans (evolves_choose _ e))
  exact ⟨rfl, rfl, Nat.le_refl _, .inl rfl, dropChunk_length _ _, dropChunk_slots _ _, dropChunk_ok n⟩

theorem evolves_reportFailed (m : MeasureState) (r : ReportState) (target : ReportTarget) :
    Evolves m (m.reportFailed r target) := by
  unfold MeasureState.reportFailed
  split
  · rename_i w _
    refine (evolves_modImage m w.subject
      (fun g => { g with transitions := saturate (g.transitions + w.captured) })
      fun g _ => .of_same rfl rfl (Nat.le_refl _) (.inl rfl) rfl).trans
      ⟨rfl, rfl, rfl, rfl, rfl, rfl, fun _ g h => ⟨g, h, .refl g⟩, fun _ h => h, fun _ h => .inl h,
        fun h => nodup_joinHead h _, id⟩
  · exact .refl m

end Sys2Proof.Laws
end

