-- ==== Sys2Proof/Laws/Runs.lean ====
section
/-! SUPPORT. Placing a group keeps the laws of the run table and the staging store (R21, R22, R29, R30). -/

namespace Sys2Proof.Laws

open Sys2Proof.Machine

theorem mem_insertRun (r x : Run) (l : List Run) : x ∈ insertRun r l ↔ x = r ∨ x ∈ l := by
  induction l with
  | nil => simp [insertRun]
  | cons y l ih =>
    unfold insertRun
    split
    · simp
    · simp only [List.mem_cons, ih]
      exact ⟨fun h => h.elim (fun h => .inr (.inl h)) (fun h => h.elim .inl (fun h => .inr (.inr h))),
        fun h => h.elim (fun h => .inr (.inl h)) (fun h => h.elim .inl (fun h => .inr (.inr h)))⟩

/-- A sum does not depend on the order. -/
theorem sum_perm {l l' : List Nat} (h : l.Perm l') : l.sum = l'.sum := by
  induction h with
  | nil => rfl
  | cons x _ ih => simp only [List.sum_cons, ih]
  | swap x y l => simp only [List.sum_cons]; omega
  | trans _ _ ih ih' => exact ih.trans ih'

/-- Fewer terms, a smaller sum. -/
theorem sum_sublist {l l' : List Nat} (h : l.Sublist l') : l.sum ≤ l'.sum := by
  induction h with
  | slnil => exact Nat.le_refl _
  | cons x _ ih => simp only [List.sum_cons]; omega
  | cons_cons x _ ih => simp only [List.sum_cons]; omega

theorem perm_insertRun (r : Run) (l : List Run) : (insertRun r l).Perm (r :: l) := by
  induction l with
  | nil => exact .refl _
  | cons y l ih =>
    unfold insertRun
    split
    · exact .refl _
    · exact (ih.cons y).trans (.swap ..)

/-- The end of a run lies above its start. -/
theorem start_lt_stop {r : Run} (h : r.body.sizeOk) : r.start < r.stop := by
  unfold Run.stop
  unfold RunBody.sizeOk at h
  cases hb : r.body <;> simp only [hb] at h <;> simp only [RunBody.beatCount] <;> omega

/-- A run apart from every run of a list can be inserted. -/
theorem runsOk_insert {r : Run} {l : List Run} (hl : runsOk l) (hr : r.body.sizeOk)
    (h : ∀ x ∈ l, runBefore r x ∨ runBefore x r) : runsOk (insertRun r l) := by
  refine ⟨?_, fun x hx => ?_⟩
  · obtain ⟨hp, hz⟩ := hl
    induction l with
    | nil => exact List.pairwise_singleton _ _
    | cons y l ih =>
      rw [List.pairwise_cons] at hp
      have hy := h y List.mem_cons_self
      have hys := start_lt_stop (hz y List.mem_cons_self)
      have hrs := start_lt_stop hr
      unfold insertRun
      split
      · rename_i hlt
        have hry : runBefore r y := by
          rcases hy with hy | hy
          · exact hy
          · exact absurd hy.1 (by omega)
        refine List.pairwise_cons.2 ⟨fun x hx => ?_, List.pairwise_cons.2 hp⟩
        rcases List.mem_cons.1 hx with rfl | hx
        · exact hry
        · rcases h x (List.mem_cons_of_mem _ hx) with h' | h'
          · exact h'
          · have := (hp.1 x hx).1
            have := hry.1
            have := start_lt_stop (hz x (List.mem_cons_of_mem _ hx))
            exact absurd h'.1 (by omega)
      · rename_i hlt
        refine List.pairwise_cons.2 ⟨fun x hx => ?_, ih (fun x hx => h x (List.mem_cons_of_mem _ hx))
          hp.2 (fun x hx => hz x (List.mem_cons_of_mem _ hx))⟩
        rcases (mem_insertRun r x l).1 hx with rfl | hx
        · rcases hy with hy | hy
          · exact absurd hy.1 (by omega)
          · exact hy
        · exact hp.1 x hx
  · rcases (mem_insertRun r x l).1 hx with rfl | hx
    · exact hr
    · exact hl.2 x hx

/-- The beats a group may have. -/
def groupOk (x : Group) : Prop := 1 ≤ x.data.length ∧ x.data.length ≤ 16

/-- A group that is no rewrite lies apart from every run of the image. -/
theorem apart_of_not_rewrite {g : Image} {x : Group} (h : isRewrite g x = false) :
    ∀ r ∈ g.runs, r.stop ≤ x.start ∨ x.stop ≤ r.start := by
  intro r hr
  unfold isRewrite at h
  simp only [Bool.or_eq_false_iff] at h
  have := List.any_eq_false.1 h.2 r hr
  unfold Group.overlaps at this
  simp only [Bool.and_eq_true, decide_eq_true_eq, not_and, Nat.not_lt] at this
  by_cases hlt : x.start < r.stop
  · exact .inr (this hlt)
  · exact .inl (by omega)

theorem stageRun_ok {g : Image} {x : Group} (hx : groupOk x) (hg : runsOk g.runs)
    (h : isRewrite g x = false) : runsOk (stageRun x g.runs) := by
  refine runsOk_insert hg hx fun r hr => ?_
  have hstop : ({ start := x.start, body := .staged x.data } : Run).stop = x.stop := rfl
  rcases apart_of_not_rewrite h r hr with h' | h'
  · exact .inr ⟨h', by simp [RunBody.isDeferred]⟩
  · exact .inl ⟨hstop ▸ h', by simp [RunBody.isDeferred]⟩

theorem stageRun_length (x : Group) (runs : List Run) : (stageRun x runs).length = runs.length + 1 :=
  (perm_insertRun _ _).length_eq

theorem stageRun_slots (x : Group) (runs : List Run) :
    ((stageRun x runs).map (·.body.slots)).sum = (runs.map (·.body.slots)).sum + x.data.length := by
  rw [stageRun, sum_perm ((perm_insertRun _ _).map _)]
  simp [RunBody.slots, Nat.add_comm]

/-! ### Deferral -/

theorem pairwise_ne {l : List Run} (h : l.Pairwise runBefore) {a b : Run} (ha : a ∈ l) (hb : b ∈ l)
    (hne : a ≠ b) : runBefore a b ∨ runBefore b a := by
  induction l with
  | nil => cases ha
  | cons y l ih =>
    rw [List.pairwise_cons] at h
    rcases List.mem_cons.1 ha with ha | ha <;> rcases List.mem_cons.1 hb with hb | hb
    · exact absurd (ha.trans hb.symm) hne
    · exact .inl (ha ▸ h.1 b hb)
    · exact .inr (hb ▸ h.1 a ha)
    · exact ih h.2 ha hb

theorem deferRun_ok {g : Image} {x : Group} (q : SeqNo) (hx : groupOk x) (hg : runsOk g.runs)
    (h : isRewrite g x = false) : runsOk (deferRun x q g.runs) := by
  have hap := apart_of_not_rewrite h
  unfold deferRun
  simp only
  have hfilter : runsOk (g.runs.filter (fun r => !x.follows r && !x.precedes r)) :=
    ⟨hg.1.filter _, fun r hr => hg.2 r ((List.mem_filter.1 hr).1)⟩
  refine runsOk_insert hfilter ?_ ?_
  · simp only [RunBody.sizeOk]
    have := hx.1
    omega
  · intro r hr
    obtain ⟨hr, hnot⟩ := List.mem_filter.1 hr
    simp only [Bool.and_eq_true, Bool.not_eq_true'] at hnot
    obtain ⟨hnf, hnp⟩ := hnot
    have hrs := start_lt_stop (hg.2 r hr)
    have hxs : x.start < x.stop := by unfold Group.stop; have := hx.1; omega
    -- the run before and the run after, where there is one
    have hb : ∀ b, g.runs.find? x.follows = some b →
        b ∈ g.runs ∧ b.body.isDeferred = true ∧ b.stop = x.start ∧ b ≠ r := by
      intro b hb
      have hp := List.find?_some hb
      refine ⟨List.mem_of_find?_eq_some hb, ?_, ?_, ?_⟩
      · simp only [Group.follows, Bool.and_eq_true] at hp; exact hp.1
      · simp only [Group.follows, Bool.and_eq_true, beq_iff_eq] at hp; exact hp.2
      · rintro rfl; rw [hp] at hnf; cases hnf
    have ha : ∀ a, g.runs.find? x.precedes = some a →
        a ∈ g.runs ∧ a.body.isDeferred = true ∧ a.start = x.stop ∧ a ≠ r := by
      intro a ha
      have hp := List.find?_some ha
      refine ⟨List.mem_of_find?_eq_some ha, ?_, ?_, ?_⟩
      · simp only [Group.precedes, Bool.and_eq_true] at hp; exact hp.1
      · simp only [Group.precedes, Bool.and_eq_true, beq_iff_eq] at hp; exact hp.2
      · rintro rfl; rw [hp] at hnp; cases hnp
    -- the new run's bounds
    generalize hB : g.runs.find? x.follows = B at hb ⊢
    generalize hA : g.runs.find? x.precedes = A at ha ⊢
    have hstart : ∀ n q s, ({ start := (B.map (·.start)).getD x.start, body := .deferred n q s } : Run).start =
        (B.map (·.start)).getD x.start := fun _ _ _ => rfl
    -- the ends of the new run
    have key : r.stop ≤ (B.map (·.start)).getD x.start ∧
          ¬ (r.body.isDeferred = true ∧ r.stop = (B.map (·.start)).getD x.start) ∨
        (B.map (·.start)).getD x.start + 16 * ((B.map (·.body.beatCount)).getD 0 + x.data.length +
          (A.map (·.body.beatCount)).getD 0) ≤ r.start ∧
          ¬ (r.body.isDeferred = true ∧ (B.map (·.start)).getD x.start +
            16 * ((B.map (·.body.beatCount)).getD 0 + x.data.length +
          (A.map (·.body.beatCount)).getD 0) = r.start) := by
      rcases hap r hr with hlow | hhigh
      · -- below the group
        left
        cases B with
        | none =>
          refine ⟨hlow, ?_⟩
          rintro ⟨hd, he⟩
          simp only [Group.follows, hd, Bool.true_and, beq_eq_false_iff_ne, ne_eq] at hnf
          exact hnf he
        | some b =>
          obtain ⟨hbm, hbd, hbs, hbr⟩ := hb b rfl
          have hbs' := start_lt_stop (hg.2 b hbm)
          rcases pairwise_ne hg.1 hr hbm (Ne.symm hbr) with hp | hp
          · exact ⟨hp.1, fun hh => hp.2 ⟨hh.1, hbd, hh.2⟩⟩
          · exact absurd hp.1 (by omega)
      · right
        have hBend : (B.map (·.start)).getD x.start + 16 * ((B.map (·.body.beatCount)).getD 0) = x.start := by
          cases B with
          | none => simp
          | some b => exact (hb b rfl).2.2.1
        have hxe : x.stop = x.start + 16 * x.data.length := rfl
        cases A with
        | none =>
          simp only [Option.map_none, Option.getD_none]
          refine ⟨by omega, ?_⟩
          rintro ⟨hd, he⟩
          simp only [Group.precedes, hd, Bool.true_and, beq_eq_false_iff_ne, ne_eq] at hnp
          omega
        | some a =>
          obtain ⟨ham, had, has, har⟩ := ha a rfl
          have has' := start_lt_stop (hg.2 a ham)
          have hae : a.stop = a.start + 16 * a.body.beatCount := rfl
          simp only [Option.map_some, Option.getD_some]
          rcases pairwise_ne hg.1 ham hr har with hp | hp
          · have := hp.1
            refine ⟨by omega, fun hh => hp.2 ⟨had, hh.1, by omega⟩⟩
          · exact absurd hp.1 (by omega)
    rcases key with hk | hk
    · exact .inr ⟨hk.1, fun hh => hk.2 ⟨hh.1, hh.2.2⟩⟩
    · exact .inl ⟨hk.1, fun hh => hk.2 ⟨hh.2.1, hh.2.2⟩⟩

theorem deferRun_slots (x : Group) (q : SeqNo) (runs : List Run) :
    ((deferRun x q runs).map (·.body.slots)).sum ≤ (runs.map (·.body.slots)).sum := by
  rw [deferRun, sum_perm ((perm_insertRun _ _).map _)]
  simp only [List.map_cons, List.sum_cons, RunBody.slots, Nat.zero_add]
  exact sum_sublist (List.filter_sublist.map _)

theorem deferRun_length (x : Group) (q : SeqNo) (runs : List Run) :
    (deferRun x q runs).length ≤ runs.length + 1 := by
  rw [deferRun, (perm_insertRun _ _).length_eq, List.length_cons]
  exact Nat.succ_le_succ (List.length_filter_le _ _)

/-- A deferral that merges needs no run entry (R30). -/
theorem deferRun_length_merged {x : Group} (q : SeqNo) {runs : List Run}
    (h : mergesDeferred x runs = true) : (deferRun x q runs).length ≤ runs.length := by
  rw [deferRun, (perm_insertRun _ _).length_eq, List.length_cons]
  obtain ⟨r, hr, hp⟩ := List.any_eq_true.1 h
  refine Nat.succ_le_of_lt (List.length_filter_lt_length_iff_exists.2 ⟨r, hr, ?_⟩)
  cases hf : x.follows r <;> cases hq : x.precedes r <;> simp_all

end Sys2Proof.Laws
end

