-- ==== Sys2Proof/Laws/Tracker.lean ====
section
/-! SUPPORT. What the measuring of a write, a write response and a reopen can do to the images, the write
entries and the run table. -/

namespace Sys2Proof.Laws

open Sys2Proof.Machine

/-! ### Moving forwards, with new runs and new writes allowed -/

/-- What can become of the images while no reopen is taken: `Evolves` without what it says of the write
entries, the writes in flight and the runs. -/
structure Moves (m m' : MeasureState) : Prop where
  segments : m'.segments = m.segments
  now : m'.now = m.now
  length : m'.images.length = m.images.length
  images : ∀ i g, m.image? i = some g → ∃ g', m'.image? i = some g' ∧
    g'.declared = g.declared ∧ g'.epoch = g.epoch ∧ g.state.movesTo g'.state
  verified : ∀ i ∈ m.verified, i ∈ m'.verified
  newVerified : ∀ i ∈ m'.verified, i ∈ m.verified ∨ ∃ g d, m'.image? i = some g ∧ g.state = .verified d
  subjects : m.subjects.Nodup → m'.subjects.Nodup
  waitList : m.waitList.Nodup → m'.waitList.Nodup

theorem Evolves.moves {m m' : MeasureState} (h : Evolves m m') : Moves m m' :=
  ⟨h.segments, h.now, h.length, fun i g hg => by
    obtain ⟨g', hg', he⟩ := h.images i g hg
    exact ⟨g', hg', he.declared, he.epoch, he.state⟩, h.verified, h.newVerified, h.subjects, h.waitList⟩

theorem Moves.refl (m : MeasureState) : Moves m m := (Evolves.refl m).moves

theorem Moves.trans {a b c : MeasureState} (h : Moves a b) (h' : Moves b c) : Moves a c where
  segments := h'.segments.trans h.segments
  now := h'.now.trans h.now
  length := h'.length.trans h.length
  images := fun i g hg => by
    obtain ⟨g', hg', h1, h2, h3⟩ := h.images i g hg
    obtain ⟨g'', hg'', h1', h2', h3'⟩ := h'.images i g' hg'
    exact ⟨g'', hg'', h1'.trans h1, h2'.trans h2, movesTo_trans h3 h3'⟩
  verified := fun i hi => h'.verified i (h.verified i hi)
  newVerified := fun i hi => by
    rcases h'.newVerified i hi with hi | hi
    · rcases h.newVerified i hi with hi | ⟨g, d, hg, hd⟩
      · exact .inl hi
      · obtain ⟨g', hg', -, -, he⟩ := h'.images i g hg
        refine .inr ⟨g', d, hg', ?_⟩
        rcases he with hs | hs
        · rw [hs, hd]
        · rw [hd] at hs; simp [ImageState.stage] at hs
    · exact .inr hi
  subjects := fun x => h'.subjects (h.subjects x)
  waitList := fun x => h'.waitList (h.waitList x)

theorem moves_foldl {α : Type} (f : MeasureState → α → MeasureState) (h : ∀ m a, Moves m (f m a))
    (l : List α) (m : MeasureState) : Moves m (l.foldl f m) :=
  foldl_rel Moves .refl (fun _ _ _ => .trans) f h l m

theorem moves_modImage (m : MeasureState) (i : Nat) (f : Image → Image)
    (hf : ∀ g, (f g).declared = g.declared ∧ (f g).epoch = g.epoch ∧ g.state.movesTo (f g).state) :
    Moves m (m.modImage i f) := by
  refine ⟨rfl, rfl, by simp, fun j g hg => ?_, fun _ h => h, fun _ h => .inl h, id, id⟩
  rw [image?_modImage]
  by_cases hij : i = j
  · exact ⟨f g, by simp [hij, hg], hf g⟩
  · exact ⟨g, by simp [hij, hg], rfl, rfl, .inl rfl⟩

/-- A change of the write entries and their numbers alone. -/
theorem moves_entries (m : MeasureState) (entries : List WriteEntry) (n : BitVec 32) (k : Nat) :
    Moves m { m with entries := entries, nextSeq := n, nextOrder := k } :=
  ⟨rfl, rfl, rfl, fun _ g h => ⟨g, h, rfl, rfl, .inl rfl⟩, fun _ h => h, fun _ h => .inl h, id, id⟩

/-! ### The measuring of a write -/

theorem moves_place (m : MeasureState) (i : Nat) (f : List Run → List Run) : Moves m (m.place i f) := by
  have h1 : Moves m (m.modImage i (fun g => { g with runs := f g.runs })) :=
    moves_modImage m i _ fun g => ⟨rfl, rfl, .inl rfl⟩
  unfold MeasureState.place
  simp only
  split
  · rename_i hd
    refine h1.trans (evolves_enter _ i .filling fun g' hg' => ?_).moves
    rw [image?_modImage, if_pos rfl] at hg'
    obtain ⟨g, hg, rfl⟩ := Option.map_eq_some_iff.1 hg'
    rw [hg] at hd
    have hd : g.state = .declared := by simpa using hd
    show g.state.movesTo _
    rw [hd]
    exact .inr ⟨by decide, by decide⟩
  · exact h1

theorem moves_handleGroup (q : SeqNo) (m : MeasureState) (x : Group) : Moves m (m.handleGroup q x) := by
  unfold MeasureState.handleGroup
  split
  · exact .refl m
  · split
    · exact .refl m
    · split
      · exact (evolves_breakImage m _ _).moves
      · split
        · exact moves_place m _ _
        · split
          · exact moves_place m _ _
          · exact (evolves_breakImage m _ _).moves

theorem moves_checkPartial (m : MeasureState) (b : Option ImageBeat) : Moves m (m.checkPartial b) := by
  unfold MeasureState.checkPartial
  split
  · split
    · exact (evolves_breakImage m _ _).moves
    · exact .refl m
  · exact .refl m

theorem moves_recordIn (m : MeasureState) (i : Nat) : Moves m (m.recordIn i) := by
  unfold MeasureState.recordIn
  split
  · exact .refl m
  · exact (moves_modImage m i (fun g => { g with inFlight := g.inFlight + 1 })
      fun _ => ⟨rfl, rfl, .inl rfl⟩).trans (moves_entries _ _ _ _)

theorem moves_addEntry (m : MeasureState) (tag : Nat) : Moves m (m.addEntry tag) := moves_entries _ _ _ _

/-- What the measuring of a write can do (R25). -/
theorem moves_measureWrite (m : MeasureState) (tag : Nat) (beats : List (Option ImageBeat)) :
    Moves m (m.measureWrite tag beats) := by
  unfold MeasureState.measureWrite
  exact (((moves_addEntry m tag).trans (moves_foldl _ moves_recordIn _ _)).trans
    (moves_foldl _ moves_checkPartial _ _)).trans (moves_foldl _ (moves_handleGroup _) _ _)

/-! ### The write entries -/

/-- The tags and the numbers of the write entries. -/
def entryKeys (entries : List WriteEntry) : List (Nat × SeqNo) := entries.map (fun w => (w.tag, w.seq))

theorem keys_modify (entries : List WriteEntry) (k i : Nat) (e : BitVec 8) :
    entryKeys (entries.modify k (·.record i e)) = entryKeys entries := by
  unfold entryKeys
  apply List.ext_getElem?
  intro n
  simp only [List.getElem?_map, List.getElem?_modify]
  split <;> cases entries[n]? <;> rfl

theorem keys_recordIn (m : MeasureState) (i : Nat) : entryKeys (m.recordIn i).entries = entryKeys m.entries := by
  unfold MeasureState.recordIn
  split
  · rfl
  · exact keys_modify _ _ _ _

theorem numbers_recordIn (m : MeasureState) (i : Nat) :
    ((m.recordIn i).nextSeq, (m.recordIn i).nextOrder) = (m.nextSeq, m.nextOrder) := by
  unfold MeasureState.recordIn
  split <;> rfl

theorem place_entries (m : MeasureState) (i : Nat) (f : List Run → List Run) :
    ((m.place i f).entries, (m.place i f).nextSeq, (m.place i f).nextOrder) =
      (m.entries, m.nextSeq, m.nextOrder) := by
  unfold MeasureState.place
  simp only
  split <;> rfl

theorem evolves_numbers {m m' : MeasureState} (h : Evolves m m') :
    (m'.entries, m'.nextSeq, m'.nextOrder) = (m.entries, m.nextSeq, m.nextOrder) := by
  rw [h.entries, h.nextSeq, h.nextOrder]

theorem handleGroup_entries (q : SeqNo) (m : MeasureState) (x : Group) :
    ((m.handleGroup q x).entries, (m.handleGroup q x).nextSeq, (m.handleGroup q x).nextOrder) =
      (m.entries, m.nextSeq, m.nextOrder) := by
  unfold MeasureState.handleGroup
  split
  · rfl
  · split
    · rfl
    · split
      · exact evolves_numbers (evolves_breakImage m _ _)
      · split
        · exact place_entries m _ _
        · split
          · exact place_entries m _ _
          · exact evolves_numbers (evolves_breakImage m _ _)

theorem checkPartial_entries (m : MeasureState) (b : Option ImageBeat) :
    ((m.checkPartial b).entries, (m.checkPartial b).nextSeq, (m.checkPartial b).nextOrder) =
      (m.entries, m.nextSeq, m.nextOrder) := by
  unfold MeasureState.checkPartial
  split
  · split
    · exact evolves_numbers (evolves_breakImage m _ _)
    · rfl
  · rfl

/-- A forwarded write in ARMED enters one write entry, under its tag and the next number (R23 to R25). -/
theorem measureWrite_keys (m : MeasureState) (tag : Nat) (beats : List (Option ImageBeat)) :
    entryKeys (m.measureWrite tag beats).entries = entryKeys m.entries ++ [(tag, m.giveNumber)] ∧
    (m.measureWrite tag beats).nextSeq = nextNumber m.giveNumber.number ∧
    (m.measureWrite tag beats).nextOrder = m.nextOrder + 1 := by
  let proj (m : MeasureState) := (entryKeys m.entries, m.nextSeq, m.nextOrder)
  have h1 : ∀ m i, proj (m.recordIn i) = proj m := fun m i => by
    have := numbers_recordIn m i
    simp only [Prod.mk.injEq] at this
    simp only [proj, keys_recordIn, this.1, this.2]
  have h2 : ∀ m b, proj (m.checkPartial b) = proj m := fun m b => by
    have := checkPartial_entries m b
    simp only [Prod.mk.injEq] at this
    simp only [proj, this.1, this.2.1, this.2.2]
  have h3 : ∀ q m x, proj (m.handleGroup q x) = proj m := fun q m x => by
    have := handleGroup_entries q m x
    simp only [Prod.mk.injEq] at this
    simp only [proj, this.1, this.2.1, this.2.2]
  have h : proj (m.measureWrite tag beats) = proj (m.addEntry tag) := by
    unfold MeasureState.measureWrite
    simp only
    rw [foldl_keeps proj _ (h3 m.giveNumber), foldl_keeps proj _ h2, foldl_keeps proj _ h1]
  simp only [proj, Prod.mk.injEq] at h
  refine ⟨h.1.trans ?_, h.2.1, h.2.2⟩
  simp [entryKeys, MeasureState.addEntry]

/-! ### The run table -/

theorem sum_modify {l : List Image} {k : Nat} {g : Image} (h : l[k]? = some g) (f : Image → Image)
    (w : Image → Nat) : ((l.modify k f).map w).sum + w g = (l.map w).sum + w (f g) := by
  induction l generalizing k with
  | nil => simp at h
  | cons a l ih =>
    cases k with
    | zero =>
      simp only [List.getElem?_cons_zero, Option.some.injEq] at h
      subst h
      simp only [List.modify_zero_cons, List.map_cons, List.sum_cons]
      omega
    | succ k =>
      simp only [List.getElem?_cons_succ] at h
      have := ih h
      simp only [List.modify_succ_cons, List.map_cons, List.sum_cons]
      omega

theorem sum_modImage {m : MeasureState} {i : Nat} {g : Image} (h : m.image? i = some g) (f : Image → Image)
    (w : Image → Nat) : ((m.modImage i f).images.map w).sum + w g = (m.images.map w).sum + w (f g) := by
  have h0 := image?_pos h
  unfold MeasureState.image? at h
  rw [if_neg (by omega)] at h
  unfold MeasureState.modImage
  simp only
  rw [if_neg (by omega)]
  exact sum_modify h f w

theorem sum_le_of_images {l l' : List Image} (w : Image → Nat) (hl : l'.length = l.length)
    (h : ∀ (k : Nat) g, l[k]? = some g → ∃ g', l'[k]? = some g' ∧ w g' ≤ w g) : (l'.map w).sum ≤ (l.map w).sum := by
  induction l generalizing l' with
  | nil => cases l' with
    | nil => exact Nat.le_refl _
    | cons _ _ => simp at hl
  | cons a l ih =>
    cases l' with
    | nil => simp at hl
    | cons a' l' =>
      obtain ⟨g', hg', hw⟩ := h 0 a rfl
      simp only [List.getElem?_cons_zero, Option.some.injEq] at hg'
      subst hg'
      have := ih (by simpa using hl) fun k g hk => h (k + 1) g hk
      simp only [List.map_cons, List.sum_cons]
      omega

theorem getElem?_of_image? (m : MeasureState) (k : Nat) : m.images[k]? = m.image? (k + 1) := by
  simp [MeasureState.image?]

theorem Evolves.runTableOk {m m' : MeasureState} (h : Evolves m m') (hm : m.runTableOk) : m'.runTableOk := by
  have himg : ∀ (k : Nat) g, m.images[k]? = some g → ∃ g', m'.images[k]? = some g' ∧ ImageEvolves g g' := by
    intro k g hk
    rw [getElem?_of_image?] at hk
    rw [getElem?_of_image?]
    exact h.images _ _ hk
  refine ⟨fun g' hg' => ?_, ?_, ?_⟩
  · obtain ⟨i, hi⟩ := exists_image? hg'
    have hlen := image?_le hi
    have hpos := image?_pos hi
    rw [h.length] at hlen
    obtain ⟨g, hg⟩ := Option.isSome_iff_exists.1 ((image?_isSome m i).2 ⟨hpos, hlen⟩)
    obtain ⟨g'', hg'', he⟩ := h.images i g hg
    rw [hi] at hg''
    cases hg''
    exact he.runs (hm.1 g (mem_images hg))
  · refine Nat.le_trans (sum_le_of_images _ h.length fun k g hk => ?_) hm.2.1
    obtain ⟨g', hg', he⟩ := himg k g hk
    exact ⟨g', hg', he.entries⟩
  · refine Nat.le_trans (sum_le_of_images _ h.length fun k g hk => ?_) hm.2.2
    obtain ⟨g', hg', he⟩ := himg k g hk
    exact ⟨g', hg', he.slots⟩

theorem runTableOk_congr {m m' : MeasureState} (h : m'.images = m.images) (hm : m.runTableOk) :
    m'.runTableOk := by
  unfold MeasureState.runTableOk MeasureState.entriesUsed MeasureState.slotsUsed at *
  rw [h]
  exact hm

/-- A placement whose run list is in order, and for which entries and slots are free. -/
theorem place_runTableOk {m : MeasureState} {i : Nat} {g : Image} {f : List Run → List Run}
    (hm : m.runTableOk) (hg : m.image? i = some g) (hf : runsOk (f g.runs))
    (he : m.entriesUsed + (f g.runs).length ≤ g.runs.length + Config.runEntries)
    (hs : m.slotsUsed + ((f g.runs).map (·.body.slots)).sum ≤
      (g.runs.map (·.body.slots)).sum + Config.stagingSlots) : (m.place i f).runTableOk := by
  have h1 : (m.modImage i (fun g => { g with runs := f g.runs })).runTableOk := by
    refine ⟨fun x hx => ?_, ?_, ?_⟩
    · obtain ⟨j, hj⟩ := exists_image? hx
      rw [image?_modImage] at hj
      split at hj
      · rename_i hij
        rw [← hij, hg] at hj
        cases hj
        exact hf
      · exact hm.1 x (mem_images hj)
    · have := sum_modImage hg (fun g => { g with runs := f g.runs }) Image.entriesUsed
      simp only [Image.entriesUsed] at this
      unfold MeasureState.entriesUsed at *
      omega
    · have := sum_modImage hg (fun g => { g with runs := f g.runs }) Image.slotsUsed
      simp only [Image.slotsUsed] at this
      unfold MeasureState.slotsUsed at *
      omega
  unfold MeasureState.place
  simp only
  split
  · refine Evolves.runTableOk (m := m.modImage i (fun g => { g with runs := f g.runs }))
      (evolves_enter _ i .filling fun g' hg' => ?_) h1
    rename_i hd
    rw [image?_modImage, if_pos rfl] at hg'
    obtain ⟨g0, hg0, rfl⟩ := Option.map_eq_some_iff.1 hg'
    rw [hg0] at hd
    have hd : g0.state = .declared := by simpa using hd
    show g0.state.movesTo _
    rw [hd]
    exact .inr ⟨by decide, by decide⟩
  · exact h1

theorem handleGroup_runTableOk (q : SeqNo) {m : MeasureState} {x : Group} (hx : groupOk x)
    (hm : m.runTableOk) : (m.handleGroup q x).runTableOk := by
  unfold MeasureState.handleGroup
  split
  · exact hm
  · rename_i g hg
    split
    · exact hm
    · split
      · exact (evolves_breakImage m _ _).runTableOk hm
      · rename_i hr
        have hr : isRewrite g x = false := by simpa using hr
        have hok := hm.1 g (mem_images hg)
        split
        · rename_i hfree
          refine place_runTableOk hm hg (stageRun_ok hx hok hr) ?_ ?_
          · rw [stageRun_length]
            have := hfree.2
            unfold MeasureState.freeEntries at this
            omega
          · rw [stageRun_slots]
            have := hfree.1
            have := hm.2.2
            unfold MeasureState.freeSlots at *
            omega
        · split
          · rename_i hfree
            refine place_runTableOk hm hg (deferRun_ok q hx hok hr) ?_ ?_
            · have hm2 := hm.2.1
              rcases hfree with h | h
              · have := deferRun_length_merged q h
                omega
              · have := deferRun_length x q g.runs
                unfold MeasureState.freeEntries at h
                omega
            · have := deferRun_slots x q g.runs
              have := hm.2.2
              omega
          · exact (evolves_breakImage m _ _).runTableOk hm

/-! ### Groups -/

/-- Every group, closed or open, holds beats of the request. -/
def groupingOk (n : Nat) (g : Grouping) : Prop :=
  (∀ x ∈ g.done, 1 ≤ x.data.length ∧ x.data.length ≤ n) ∧
    ∀ c, g.current = some c → 1 ≤ c.data.length ∧ c.data.length ≤ n

theorem groupingOk_close {n : Nat} {g : Grouping} (h : groupingOk n g) : groupingOk n g.close := by
  unfold Grouping.close
  split
  · rename_i c hc
    refine ⟨fun x hx => ?_, by simp⟩
    rcases List.mem_append.1 hx with hx | hx
    · exact h.1 x hx
    · rw [List.mem_singleton.1 hx]; exact h.2 c hc
  · exact h

theorem groupingOk_mono {n k : Nat} (hk : n ≤ k) {g : Grouping} (h : groupingOk n g) : groupingOk k g :=
  ⟨fun x hx => ⟨(h.1 x hx).1, Nat.le_trans (h.1 x hx).2 hk⟩,
    fun c hc => ⟨(h.2 c hc).1, Nat.le_trans (h.2 c hc).2 hk⟩⟩

theorem groupingOk_groupBeat (m : MeasureState) {n : Nat} {g : Grouping} (h : groupingOk n g)
    (b : Option ImageBeat) : groupingOk (n + 1) (m.groupBeat g b) := by
  have hc := groupingOk_mono (Nat.le_succ n) (groupingOk_close h)
  have hg := groupingOk_mono (Nat.le_succ n) h
  unfold MeasureState.groupBeat
  split
  · split
    · split
      · rename_i c hcur
        split
        · refine ⟨hg.1, fun c' hc' => ?_⟩
          simp only [Option.some.injEq] at hc'
          subst hc'
          have := h.2 c hcur
          simp only [List.length_append, List.length_singleton]
          omega
        · refine ⟨hc.1, fun c' hc' => ?_⟩
          simp only [Option.some.injEq] at hc'
          subst hc'
          simp
      · refine ⟨hg.1, fun c' hc' => ?_⟩
        simp only [Option.some.injEq] at hc'
        subst hc'
        simp
    · exact hc
  · exact hc

theorem groupingOk_foldl (m : MeasureState) (beats : List (Option ImageBeat)) (n : Nat) (g : Grouping)
    (h : groupingOk n g) : groupingOk (n + beats.length) (beats.foldl m.groupBeat g) := by
  induction beats generalizing n g with
  | nil => exact h
  | cons b beats ih =>
    have := ih (n + 1) _ (groupingOk_groupBeat m h b)
    rw [List.foldl_cons, List.length_cons]
    rwa [Nat.add_right_comm, Nat.add_assoc] at this

/-- The groups of a request of at most 16 beats have 1 to 16 beats (R27). -/
theorem groups_ok (m : MeasureState) {beats : List (Option ImageBeat)} (h : beats.length ≤ 16) :
    ∀ x ∈ m.groups beats, groupOk x := by
  have h0 : groupingOk 0 { done := [], current := none } := ⟨by simp, by simp⟩
  have := groupingOk_close (groupingOk_foldl m beats 0 _ h0)
  intro x hx
  have := this.1 x hx
  unfold groupOk
  omega

theorem recordIn_runTableOk (m : MeasureState) (i : Nat) (hm : m.runTableOk) : (m.recordIn i).runTableOk := by
  unfold MeasureState.recordIn
  split
  · exact hm
  · rename_i g hg
    refine runTableOk_congr (m := m.modImage i (fun g => { g with inFlight := g.inFlight + 1 })) rfl ?_
    refine ⟨fun x hx => ?_, ?_, ?_⟩
    · obtain ⟨j, hj⟩ := exists_image? hx
      rw [image?_modImage] at hj
      split at hj
      · obtain ⟨g0, hg0, rfl⟩ := Option.map_eq_some_iff.1 hj
        exact hm.1 g0 (mem_images hg0)
      · exact hm.1 x (mem_images hj)
    · have := sum_modImage hg (fun g => { g with inFlight := g.inFlight + 1 }) Image.entriesUsed
      have h2 := hm.2.1
      unfold MeasureState.entriesUsed at *
      simp only [Image.entriesUsed] at *
      omega
    · have := sum_modImage hg (fun g => { g with inFlight := g.inFlight + 1 }) Image.slotsUsed
      have h2 := hm.2.2
      unfold MeasureState.slotsUsed at *
      simp only [Image.slotsUsed] at *
      omega

/-- The measuring of a write of at most 16 beats keeps the laws of the run table (R33). -/
theorem measureWrite_runTableOk {m : MeasureState} (tag : Nat) {beats : List (Option ImageBeat)}
    (hb : beats.length ≤ 16) (hm : m.runTableOk) : (m.measureWrite tag beats).runTableOk := by
  have h0 : (m.addEntry tag).runTableOk := runTableOk_congr rfl hm
  unfold MeasureState.measureWrite
  simp only
  refine foldl_inv MeasureState.runTableOk _ _
    (fun b x hx hb' => handleGroup_runTableOk _ (groups_ok _ hb x hx) hb') _ ?_
  refine foldl_inv MeasureState.runTableOk _ _ (fun b x _ hb' => ?_) _
    (foldl_inv MeasureState.runTableOk _ _ (fun b x _ hb' => recordIn_runTableOk b x hb') _ h0)
  unfold MeasureState.checkPartial
  split
  · split
    · exact (evolves_breakImage b _ _).runTableOk hb'
    · exact hb'
  · exact hb'

end Sys2Proof.Laws
end

