-- ==== Sys2Proof/Laws/Responses.lean ====
section
/-! SUPPORT. What a write response (R34 to R37) and a reopen (R14, R131) can do. -/

namespace Sys2Proof.Laws

open Sys2Proof.Machine

/-! ### Settlement -/

theorem settleRun_same (entries : List WriteEntry) (r : Run) :
    (settleRun entries r).start = r.start ∧ (settleRun entries r).stop = r.stop ∧
    (settleRun entries r).body.isDeferred = r.body.isDeferred ∧
    (settleRun entries r).body.slots = r.body.slots ∧
    (r.body.sizeOk → (settleRun entries r).body.sizeOk) := by
  unfold settleRun
  cases hb : r.body <;> simp [Run.stop, hb, RunBody.beatCount, RunBody.isDeferred, RunBody.slots, RunBody.sizeOk]

theorem evolves_settleRuns (m : MeasureState) : Evolves m m.settleRuns := by
  refine ⟨rfl, rfl, rfl, rfl, rfl, by simp [MeasureState.settleRuns], fun i g hg => ?_, fun _ h => h,
    fun _ h => .inl h, id, id⟩
  refine ⟨{ g with runs := g.runs.map (settleRun m.entries) }, ?_, rfl, rfl, Nat.le_refl _, .inl rfl, ?_, ?_, ?_⟩
  · have hp := image?_pos hg
    unfold MeasureState.image? MeasureState.settleRuns at *
    rw [if_neg (by omega)] at hg ⊢
    simp [hg]
  · simp [Image.entriesUsed]
  · simp only [Image.slotsUsed, List.map_map]
    refine Nat.le_of_eq (congrArg List.sum (List.map_congr_left fun r _ => ?_))
    exact (settleRun_same _ r).2.2.2.1
  · intro h
    refine ⟨List.pairwise_map.2 (h.1.imp ?_), fun x hx => ?_⟩
    · intro a b hab
      unfold runBefore at *
      rw [(settleRun_same _ a).2.1, (settleRun_same _ a).2.2.1, (settleRun_same _ b).1, (settleRun_same _ b).2.2.1]
      exact hab
    · obtain ⟨r, hr, rfl⟩ := List.mem_map.1 hx
      exact (settleRun_same _ r).2.2.2.2 (h.2 r hr)

/-! ### A write response -/

/-- A write response takes away the entry of its tag, and moves the images forwards (R34 to R37). -/
theorem writeAnswered_evolves (m : MeasureState) (tag : Nat) (status : LinkStatus) :
    Evolves { m with entries := m.entries.filter (·.tag != tag) } (m.writeAnswered tag status) := by
  unfold MeasureState.writeAnswered
  split
  · rename_i h
    rw [List.find?_eq_none] at h
    rw [List.filter_eq_self.2 fun w hw => by simpa using h w hw]
    exact .refl m
  · have h1 := evolves_foldl MeasureState.answered evolves_answered
    have h2 := evolves_foldl MeasureState.pendingVerdict evolves_pendingVerdict
    have h3 := evolves_foldl (fun m i => m.breakImage i .writeFault) (fun m i => evolves_breakImage m i _)
    simp only
    split
    · exact ((h1 _ _).trans (h2 _ _)).trans (evolves_settleRuns _)
    · exact ((h1 _ _).trans (h3 _ _)).trans (evolves_settleRuns _)

theorem moves_writeAnswered (m : MeasureState) (tag : Nat) (status : LinkStatus) :
    Moves m (m.writeAnswered tag status) := by
  exact (moves_entries m _ m.nextSeq m.nextOrder).trans (writeAnswered_evolves m tag status).moves

theorem writeAnswered_runTableOk {m : MeasureState} (tag : Nat) (status : LinkStatus) (hm : m.runTableOk) :
    (m.writeAnswered tag status).runTableOk := by
  exact (writeAnswered_evolves m tag status).runTableOk (runTableOk_congr rfl hm)

/-! ### A reopen -/

/-- What a displacement does: the engine, the wait list and the pending requests alone. -/
theorem displace_same (m : MeasureState) (e : EngineId) :
    ((m.displace e).segments, (m.displace e).images, (m.displace e).entries, (m.displace e).nextSeq,
      (m.displace e).nextOrder, (m.displace e).now, (m.displace e).verified, (m.displace e).subjects) =
    (m.segments, m.images, m.entries, m.nextSeq, m.nextOrder, m.now, m.verified, m.subjects) ∧
    (m.waitList.Nodup → (m.displace e).waitList.Nodup) := by
  unfold MeasureState.displace
  simp only
  split
  · exact ⟨rfl, id⟩
  · split <;> exact ⟨rfl, id⟩
  · split <;> exact ⟨rfl, id⟩
  · split <;> exact ⟨rfl, id⟩
  · split
    · exact ⟨rfl, id⟩
    · split
      · exact ⟨rfl, fun h => nodup_joinHead h _⟩
      · exact ⟨rfl, id⟩
  · exact ⟨rfl, id⟩
  · exact ⟨rfl, id⟩

/-- What taking a reservation again does: the engine, the wait list and the pending requests alone. -/
theorem retake_same (m : MeasureState) (i : Nat) :
    ((m.retake i).segments, (m.retake i).images, (m.retake i).entries, (m.retake i).nextSeq,
      (m.retake i).nextOrder, (m.retake i).now, (m.retake i).verified, (m.retake i).subjects) =
    (m.segments, m.images, m.entries, m.nextSeq, m.nextOrder, m.now, m.verified, m.subjects) ∧
    (m.waitList.Nodup → (m.retake i).waitList.Nodup) := by
  unfold MeasureState.retake
  split
  · exact ⟨rfl, id⟩
  · rename_i e _
    exact displace_same (m.modEngine e (fun g => { g with reservation := some i })) e

theorem evolves_retake (m : MeasureState) (i : Nat) : Evolves m (m.retake i) :=
  .of_same (retake_same m i).1 (retake_same m i).2

/-- A record after a reopen (R14). -/
def reopened (g : Image) : Image :=
  { g with state := .declared, cursor := 0, handOff := 0, epoch := g.epoch + 1, inFlight := 0,
           transitions := saturate (g.transitions + 1), slot := none, runs := [] }

theorem image?_reopenOne (m : MeasureState) (i j : Nat) :
    (m.reopenOne i).image? j = if i = j then (m.image? j).map reopened else m.image? j := by
  have hr : ∀ m : MeasureState, (m.retake i).image? j = m.image? j := by
    intro m
    have h := (retake_same m i).1
    simp only [Prod.mk.injEq] at h
    exact image?_congr h.2.1 j
  have hd := image?_dropWork m i j
  unfold MeasureState.reopenOne
  simp only [hr, image?_enter, image?_modImage]
  have he : ∀ entries, ({ m.dropWork i with entries := entries } : MeasureState).image? j =
      (m.dropWork i).image? j := fun _ => rfl
  rw [he, hd]
  split
  · cases m.image? j <;> rfl
  · rfl

/-- What a reopen leaves alone, and what it does to the write entries (R9). -/
theorem reopenOne_same (m : MeasureState) (i : Nat) :
    (m.reopenOne i).segments = m.segments ∧ (m.reopenOne i).now = m.now ∧
    (m.reopenOne i).verified = m.verified ∧ (m.reopenOne i).nextSeq = m.nextSeq ∧
    (m.reopenOne i).nextOrder = m.nextOrder ∧ (m.reopenOne i).entries = forgetWrites i m.entries ∧
    (m.reopenOne i).subjects = joinTail m.subjects i ∧
    (m.reopenOne i).images.length = m.images.length ∧
    (m.waitList.Nodup → (m.reopenOne i).waitList.Nodup) := by
  unfold MeasureState.reopenOne
  simp only
  have h := evolves_retake ((({ m.dropWork i with entries := forgetWrites i (m.dropWork i).entries } :
    MeasureState).modImage i (fun g => { g with cursor := 0, epoch := g.epoch + 1, inFlight := 0 })).enter i .declared) i
  have hsub : ∀ m : MeasureState, (m.retake i).subjects = m.subjects ∧ (m.retake i).verified = m.verified := by
    intro m
    have h := (retake_same m i).1
    simp only [Prod.mk.injEq] at h
    exact ⟨h.2.2.2.2.2.2.2, h.2.2.2.2.2.2.1⟩
  refine ⟨h.segments, h.now, (hsub _).2, h.nextSeq, h.nextOrder, h.entries, (hsub _).1, ?_, fun hw => ?_⟩
  · refine h.length.trans ?_
    simp [MeasureState.enter, MeasureState.noteChange]
  · exact h.waitList (nodup_leave hw i)

/-- What reopening a list of images does. -/
structure Reopens (L : List Nat) (m m' : MeasureState) : Prop where
  segments : m'.segments = m.segments
  now : m'.now = m.now
  verified : m'.verified = m.verified
  nextSeq : m'.nextSeq = m.nextSeq
  nextOrder : m'.nextOrder = m.nextOrder
  keys : entryKeys m'.entries = entryKeys m.entries
  length : m'.images.length = m.images.length
  others : ∀ i, i ∉ L → m'.image? i = m.image? i
  members : ∀ i ∈ L, ∀ g, m.image? i = some g → ∃ g', m'.image? i = some g' ∧ g'.declared = g.declared ∧
    g'.state = .declared ∧ g'.cursor = 0 ∧ g'.handOff = 0 ∧ g'.inFlight = 0 ∧ g'.slot = none ∧ g'.runs = []
  subjects : m.subjects.Nodup → m'.subjects.Nodup
  waitList : m.waitList.Nodup → m'.waitList.Nodup

theorem keys_forgetWrites (i : Nat) (entries : List WriteEntry) :
    entryKeys (forgetWrites i entries) = entryKeys entries := by
  simp [entryKeys, forgetWrites, Function.comp_def]

theorem reopens_foldl (L : List Nat) (m : MeasureState) :
    Reopens L m (L.foldl (fun m d => m.reopenOne d) m) := by
  induction L generalizing m with
  | nil => exact ⟨rfl, rfl, rfl, rfl, rfl, rfl, rfl, fun _ _ => rfl, by simp, id, id⟩
  | cons d L ih =>
    have h := ih (m.reopenOne d)
    obtain ⟨h1, h2, h3, h4, h5, h6, h7, h8, h9⟩ := reopenOne_same m d
    refine ⟨h.segments.trans h1, h.now.trans h2, h.verified.trans h3, h.nextSeq.trans h4, h.nextOrder.trans h5,
      h.keys.trans (by rw [h6, keys_forgetWrites]), h.length.trans h8, fun i hi => ?_, fun i hi g hg => ?_,
      fun hs => h.subjects (by rw [h7]; exact nodup_joinTail hs d), fun hw => h.waitList (h9 hw)⟩
    · rw [List.mem_cons, not_or] at hi
      exact (h.others i hi.2).trans (by rw [image?_reopenOne, if_neg (Ne.symm hi.1)])
    · have hd := image?_reopenOne m d i
      by_cases hiL : i ∈ L
      · by_cases hdi : d = i
        · rw [if_pos hdi, hg] at hd
          obtain ⟨g', hg', r⟩ := h.members i hiL _ hd
          exact ⟨g', hg', r⟩
        · rw [if_neg hdi, hg] at hd
          obtain ⟨g', hg', r⟩ := h.members i hiL _ hd
          exact ⟨g', hg', r⟩
      · have hdi : d = i := by
          rcases List.mem_cons.1 hi with h' | h'
          · exact h'.symm
          · exact absurd h' hiL
        rw [if_pos hdi, hg] at hd
        exact ⟨reopened g, (h.others i hiL).trans hd, rfl, rfl, rfl, rfl, rfl, rfl, rfl⟩

/-- What the reopen of a closure does (R131). -/
theorem reopens_closure (m : MeasureState) (x : Nat) :
    Reopens (x :: m.dependents x) m (m.reopenClosure x) := reopens_foldl _ m

theorem Reopens.runTableOk {L : List Nat} {m m' : MeasureState} (h : Reopens L m m') (hm : m.runTableOk) :
    m'.runTableOk := by
  have himg : ∀ (i : Nat) g', m'.image? i = some g' → ∃ g, m.image? i = some g ∧ (g' = g ∨ g'.runs = []) := by
    intro i g' hg'
    have hs := (image?_isSome m' i).1 (by rw [hg']; rfl)
    rw [h.length] at hs
    obtain ⟨g, hg⟩ := Option.isSome_iff_exists.1 ((image?_isSome m i).2 hs)
    refine ⟨g, hg, ?_⟩
    by_cases hL : i ∈ L
    · obtain ⟨g'', hg'', _, _, _, _, _, _, hr⟩ := h.members i hL g hg
      rw [hg'] at hg''
      cases hg''
      exact .inr hr
    · rw [h.others i hL, hg] at hg'
      cases hg'
      exact .inl rfl
  have hle : ∀ w : Image → Nat, (∀ g : Image, g.runs = [] → w g = 0) →
      (m'.images.map w).sum ≤ (m.images.map w).sum := by
    intro w hw
    refine sum_le_of_images w h.length fun k g hk => ?_
    rw [getElem?_of_image?] at hk
    rw [getElem?_of_image?]
    obtain ⟨g', hg'⟩ := Option.isSome_iff_exists.1 ((image?_isSome m' (k + 1)).2
      (by rw [h.length]; exact (image?_isSome m (k + 1)).1 (by rw [hk]; rfl)))
    obtain ⟨g0, hg0, hr⟩ := himg _ _ hg'
    rw [hk] at hg0
    cases hg0
    refine ⟨g', hg', ?_⟩
    rcases hr with rfl | hr
    · exact Nat.le_refl _
    · rw [hw g' hr]; exact Nat.zero_le _
  refine ⟨fun g' hg' => ?_, Nat.le_trans (hle _ fun g hg => by simp [Image.entriesUsed, hg]) hm.2.1,
    Nat.le_trans (hle _ fun g hg => by simp [Image.slotsUsed, hg]) hm.2.2⟩
  obtain ⟨i, hi⟩ := exists_image? hg'
  obtain ⟨g, hg, hr⟩ := himg i g' hi
  rcases hr with rfl | hr
  · exact hm.1 _ (mem_images hg)
  · rw [hr]; exact runsOk_nil

end Sys2Proof.Laws
end

