-- ==== Sys2Proof/Laws/Exec.lean ====
section
/-! SUPPORT. Once for all commands: what the execution of one can be. -/

namespace Sys2Proof.Laws

open Sys2Proof.Machine

/-- The link after a forwarded request is entered (R88, R164). -/
def enteredWrite (s : State) (tag : Nat) (addr : Addr) (beats : List WriteBeat) : State :=
  { s with link := (s.link.enterHost .write tag).forwardRequest (.write tag addr beats) }

/-- The rows that bring a response of memory. -/
def isResponse : Instr → Bool
  | .fwdWriteResponse _ _ | .fwdReadResponse _ _ _ | .refillResponse _ _ _ | .reportWriteResponse _ _
  | .unknownTagResponse _ _ _ _ => true
  | _ => false

/-- The command brings a write response of memory with this tag and status. -/
def writeResponse (c : Instr) (tag : Nat) (status : LinkStatus) : Prop :=
  c = .fwdWriteResponse tag status ∨ c = .reportWriteResponse tag status ∨
    ∃ data, c = .unknownTagResponse .write tag status data

/-- The rows that end a step of an engine at work on an image. -/
def isEngineStep : Instr → Bool
  | .restoreDone _ | .seedStepDone _ | .beatStepDone _ | .finalisationDone _ | .parkDone _ => true
  | _ => false

/-- The end of a step of an engine at work on an image (R54, R57, R60, R61). -/
inductive StepEnd (m : MeasureState) : MeasureState → Prop where
  | restored (e : EngineId) (h : m.engines[e].worksIn .restoring = true) : StepEnd m (restoreDone m e)
  | absorbed (e : EngineId) (step : AbsorbStep) (h : m.engines[e].worksIn (.absorbing step) = true) :
      StepEnd m (absorbDone m e)
  | finalised (e : EngineId) (h : m.engines[e].worksIn .finalizing = true) : StepEnd m (finalisationDone m e)
  | parked (e : EngineId) (h : m.engines[e].worksIn .parking = true) : StepEnd m (parkDone m e)

theorem StepEnd.evolves {m m' : MeasureState} (h : StepEnd m m') : Evolves m m' := by
  cases h with
  | restored e => exact evolves_restoreDone m e
  | absorbed e => exact evolves_absorbDone m e
  | finalised e => exact evolves_finalisationDone m e
  | parked e => exact evolves_parkDone m e

/-- The effects of the commands, by what they do: a command of the first argument's row takes a state to
the second. -/
inductive Effect (s : State) : Instr → State → Prop where
  | nothing (c : Instr) : Effect s c s
  | cold : Effect s .coldReset (resetTo s .cold 0 none)
  | warm : Effect s .warmReset (resetTo s (if s.resetLine = .cold then .cold else .warm)
      s.manifest.attempts s.manifest.lastReason)
  | straps (msel1 msel0 : Bool) (h : s.resetLine ≠ .inactive) : Effect s (.resetEnd msel1 msel0)
      { s with manifest := { s.manifest with windowBase := windowBaseOf msel1 msel0 }, resetLine := .inactive }
  | sensed (p : SlotReading) (a : Option Digest) (hp : s.manifest.phase = .sensing)
      (hr : s.resetLine = .inactive) (fuses : Fuses) (anchors : Anchors) : Effect s (.sensingDone p a)
      (State.settle { s with
        fuses := fuses,
        manifest := { s.manifest.clearLoading with
          anchors := some anchors, phase := phaseAfterSensing s.manifest.attempts anchors } })
  | malformed (c : Instr) (kind : LinkKind) (tag : Nat) (hc : (∃ a n, c = .hostReadAccept tag a n) ∨
      ∃ a bs, c = .hostWriteAccept tag a bs) (ht : s.takesRequests = true) :
      Effect s c { s with link := s.link.refuse kind tag .malformed }
  | refused (c : Instr) (kind : LinkKind) (tag : Nat) (hc : (∃ a n, c = .hostReadAccept tag a n) ∨
      ∃ a bs, c = .hostWriteAccept tag a bs) (ht : s.takesRequests = true) (hn : tag ∉ hostTable s.link kind)
      (hl : tag < 32) : Effect s c { s with link := (s.link.enterHost kind tag).refuse kind tag .refused }
  | readForwarded (tag : Nat) (addr : Addr) (n : Nat) (ht : s.takesRequests = true)
      (hn : tag ∉ s.link.hostReads) (hl : tag < 32) : Effect s (.hostReadAccept tag addr n)
      { s with link := (s.link.enterHost .read tag).forwardRequest (.read tag addr n) }
  | wrote (tag : Nat) (addr : Addr) (beats : List WriteBeat) (ht : s.takesRequests = true)
      (hm : malformed s.link .write tag addr beats.length = false)
      (hf : requestForwards s .write addr beats.length = true) : Effect s (.hostWriteAccept tag addr beats)
      (handOff (enteredWrite s tag addr beats) tag addr beats).settle
  | hostOffered : Effect s (.hostResponseDelivery .ready)
      { s with link := { s.link with hostOffer := s.link.hostOffer.or s.link.hostChoice } }
  | delivered (source : ResponseSource) (h : s.link.hostOffer.or s.link.hostChoice = some source) :
      Effect s (.hostResponseDelivery .taken) { s with link := s.link.deliver source }
  | memOffered : Effect s (.memoryTakesRequest .ready)
      { s with link := { s.link with memOffer := s.link.memOffer.or s.link.memChoice } }
  | sent (source : RequestSource) (h : s.link.memOffer.or s.link.memChoice = some source) :
      Effect s (.memoryTakesRequest .taken) { s with link := s.link.send source }
  | readAnswered (c : Instr) (tag : Nat) (status : LinkStatus) (data : List Beat) (h : tag ∈ s.link.memReads)
      (hl : tag < 32) (hc : isResponse c = true) : Effect s c (answerRead s tag status data)
  | writeAnswered (c : Instr) (tag : Nat) (status : LinkStatus) (h : tag ∈ s.link.memWrites) (hl : tag < 32)
      (hc : isResponse c = true) (hw : writeResponse c tag status) : Effect s c (answerWrite s tag status)
  | refill (c : Instr) (t : Fin 8) (status : LinkStatus) (data : List Beat) (hc : isResponse c = true) :
      Effect s c (answerRefill s t status data)
  | report (c : Instr) (t : Fin 2) (status : LinkStatus) (hc : isResponse c = true) :
      Effect s c (answerReport s t status)
  | refillExpired (tag : Nat) (t : Fin 8) (m : MeasureState) (he : Evolves s.measure m)
      (hm : m = s.measure.setRefillTag t .quarantined ∨
        ∃ i, m = (s.measure.setRefillTag t .quarantined).breakImage i .refillTimeout) :
      Effect s (.refillLimitExpiry tag) (State.settle { s with measure := m })
  | reportExpired (tag : Nat) (t : Fin 2) (target : ReportTarget) (h : s.report.tags[t] = .busy target) :
      Effect s (.reportLimitExpiry tag) (State.settle { s with
        measure := s.measure.reportFailed s.report target,
        report := s.report.failed t target (.quarantined target) })
  | consumer (v : BitVec 16) (h : s.report.channel ≠ .dormant) : Effect s (.consumerUpdate v)
      (State.settle { s with report := s.report.takeConsumer v })
  | command (c : Instr) (seq image : BitVec 8) (kind : CommandKind) (h : s.report.channel ≠ .dormant)
      (hc : c = .reopen seq image ∧ kind = .reopen ∨ c = .abandon seq image ∧ kind = .abandon ∨
        c = .resend seq image ∧ kind = .resend ∨ c = .resume seq image ∧ kind = .resume) :
      Effect s c (takeCommand s seq (some kind) image.toNat).settle
  | engine (c : Instr) (m : MeasureState) (he : StepEnd s.measure m) (hc : isEngineStep c = true) :
      Effect s c (State.settle { s with measure := m })
  | manifestBeat (h : s.measure.engines[(0 : EngineId)].manifest = true ∧
      s.measure.engines[(0 : EngineId)].state = .absorbing .beat) : Effect s .manifestBeatStepDone
      (State.settle (State.advanceManifest { s with
        measure := s.measure.modEngine 0 (Engine.manifestBeatDone s.measure.now) }))
  | checked (slot : AnchorSlot) (digest : Digest) (hp : s.manifest.phase = .manifestCheck) :
      Effect s .manifestCheckDone (State.settle { s with
        measure := s.measure.modEngine 0 Engine.endCheck,
        manifest := { s.manifest with phase := .parsing, checked := some (slot, digest) } })
  | unmatched (hp : s.manifest.phase = .manifestCheck) : Effect s .manifestCheckDone
      (State.settle (State.failAttempt { s with measure := s.measure.modEngine 0 Engine.endCheck }
        .noAnchorMatch))
  | rejected (why : RejectReason) (hp : s.manifest.phase = .parsing) : Effect s .parsingDone
      (State.settle (s.failAttempt why))
  | accepted (c : Contents) (slot : AnchorSlot) (digest : Digest) (p : SlotReading) (n : Nat)
      (hp : s.manifest.phase = .parsing)
      (hc : parseManifest s.manifest.buffer n s.manifest.windowBase = .ok c) : Effect s .parsingDone
      (State.settle (s.arm c slot digest p n))
  | burnt (c : Instr) (outcome : Revocation) (fuses : Fuses) (h : s.manifest.revocation = some .inProgress)
      (hc : c = .fuseBlown ∧ outcome = .done ∨ c = .burnLimitExpiry ∧ outcome = .failed) :
      Effect s c (s.endBurn outcome fuses).settle
  | supply (present : Bool) : Effect s (.vprogSupplyChange present) { s with vprog := present }

theorem not_malformed {l : LinkState} {kind : LinkKind} {tag : Nat} {addr : Addr} {n : Nat}
    (h : malformed l kind tag addr n = false) : tag ∉ hostTable l kind ∧ tag < 32 ∧ 1 ≤ n ∧ n ≤ 16 := by
  unfold malformed at h
  simp only [Bool.or_eq_false_iff, decide_eq_false_iff_not, beq_eq_false_iff_ne] at h
  obtain ⟨⟨⟨⟨⟨-, h1⟩, h2⟩, -⟩, h3⟩, h4⟩ := h
  refine ⟨fun hc => ?_, by omega, by omega, by omega⟩
  rw [List.contains_iff_mem.2 hc] at h4
  cases h4

theorem routeResponse_effect (s : State) (c : Instr) (kind : LinkKind) (tag : Nat) (status : LinkStatus)
    (data : List Beat) (hc : isResponse c = true) (hw : kind = .write → writeResponse c tag status) :
    Effect s c (routeResponse s kind tag status data) := by
  unfold routeResponse
  split
  · split
    · split
      · rename_i hl h
        exact .readAnswered c tag status data (List.contains_iff_mem.1 h) hl hc
      · exact .nothing c
    · split
      · exact .refill c _ status data hc
      · exact .nothing c
  · split
    · split
      · rename_i hl h
        exact .writeAnswered c tag status (List.contains_iff_mem.1 h) hl hc (hw rfl)
      · exact .nothing c
    · split
      · exact .report c _ status hc
      · exact .nothing c

/-- What the execution of a command can be. -/
theorem exec_effect {c : Instr} {s t : State} (h : exec c s = .next t) : Effect s c t := by
  cases c with
  | coldReset => cases h; exact .cold
  | warmReset => cases h; exact .warm
  | resetEnd a b =>
    simp only [exec, execResetEnd] at h
    split at h
    · cases h; exact .nothing _
    · rename_i hr; cases h; exact .straps a b hr
  | sensingDone p a =>
    simp only [exec, execSensingDone] at h
    split at h
    · rename_i hh; cases h; exact .sensed p a hh.1 hh.2 _ _
    · cases h; exact .nothing _
  | hostReadAccept tag addr n =>
    simp only [exec, execHostReadAccept] at h
    split at h
    · cases h; exact .nothing _
    · rename_i ht
      have ht : s.takesRequests = true := by simpa using ht
      split at h
      · cases h; exact .malformed _ .read tag (.inl ⟨_, _, rfl⟩) ht
      · rename_i hm
        have hm := not_malformed (by simpa using hm)
        split at h
        · cases h; exact .readForwarded tag addr n ht hm.1 hm.2.1
        · cases h; exact .refused _ .read tag (.inl ⟨_, _, rfl⟩) ht hm.1 hm.2.1
  | hostWriteAccept tag addr beats =>
    simp only [exec, execHostWriteAccept] at h
    split at h
    · cases h; exact .nothing _
    · rename_i ht
      have ht : s.takesRequests = true := by simpa using ht
      split at h
      · cases h; exact .malformed _ .write tag (.inr ⟨_, _, rfl⟩) ht
      · rename_i hm
        have hm : malformed s.link .write tag addr beats.length = false := by simpa using hm
        split at h
        · rename_i hf
          cases h; exact .wrote tag addr beats ht hm hf
        · cases h
          exact .refused _ .write tag (.inr ⟨_, _, rfl⟩) ht (not_malformed hm).1 (not_malformed hm).2.1
  | consumerUpdate v =>
    simp only [exec, execConsumerUpdate] at h
    split at h
    · cases h; exact .nothing _
    · rename_i hd; cases h; exact .consumer v hd
  | reopen q i =>
    simp only [exec, execReopen] at h
    split at h
    · cases h; exact .nothing _
    · rename_i hd; cases h; exact .command _ q i .reopen hd (.inl ⟨rfl, rfl⟩)
  | abandon q i =>
    simp only [exec, execAbandon] at h
    split at h
    · cases h; exact .nothing _
    · rename_i hd; cases h; exact .command _ q i .abandon hd (.inr (.inl ⟨rfl, rfl⟩))
  | resend q i =>
    simp only [exec, execResend] at h
    split at h
    · cases h; exact .nothing _
    · rename_i hd; cases h; exact .command _ q i .resend hd (.inr (.inr (.inl ⟨rfl, rfl⟩)))
  | resume q i =>
    simp only [exec, execResume] at h
    split at h
    · cases h; exact .nothing _
    · rename_i hd; cases h; exact .command _ q i .resume hd (.inr (.inr (.inr ⟨rfl, rfl⟩)))
  | memoryTakesRequest moment =>
    cases moment with
    | ready => cases h; exact .memOffered
    | taken =>
      simp only [exec, execMemoryTakesRequest] at h
      split at h
      · cases h; exact .nothing _
      · rename_i hh; cases h; exact .sent _ hh
  | fwdWriteResponse tag status => cases h; exact routeResponse_effect s _ _ _ _ _ rfl (fun _ => .inl rfl)
  | fwdReadResponse tag status data => cases h; exact routeResponse_effect s _ _ _ _ _ rfl (fun h => by cases h)
  | refillResponse tag status data => cases h; exact routeResponse_effect s _ _ _ _ _ rfl (fun h => by cases h)
  | reportWriteResponse tag status => cases h; exact routeResponse_effect s _ _ _ _ _ rfl (fun _ => .inr (.inl rfl))
  | unknownTagResponse kind tag status data => cases h; exact routeResponse_effect s _ _ _ _ _ rfl (fun h => .inr (.inr ⟨data, by rw [h]⟩))
  | hostResponseDelivery moment =>
    cases moment with
    | ready => cases h; exact .hostOffered
    | taken =>
      simp only [exec, execHostResponseDelivery] at h
      split at h
      · cases h; exact .nothing _
      · rename_i hh; cases h; exact .delivered _ hh
  | refillLimitExpiry tag =>
    simp only [exec, execRefillLimitExpiry] at h
    split at h
    · cases h; exact .nothing _
    · rename_i k _
      have hs := evolves_setRefillTag s.measure k .quarantined
      split at h
      · cases h; exact .refillExpired tag k _ (hs.trans (evolves_breakImage _ _ _)) (.inr ⟨_, rfl⟩)
      · cases h; exact .refillExpired tag k _ hs (.inl rfl)
      · cases h; exact .nothing _
      · cases h; exact .nothing _
  | reportLimitExpiry tag =>
    simp only [exec, execReportLimitExpiry] at h
    split at h
    · cases h; exact .nothing _
    · rename_i k _
      split at h
      · rename_i target hb; cases h; exact .reportExpired tag k target hb
      · cases h; exact .nothing _
      · cases h; exact .nothing _
  | restoreDone e =>
    simp only [exec, execRestoreDone] at h
    split at h
    · rename_i hw; cases h; exact .engine _ _ (.restored e hw) rfl
    · cases h; exact .nothing _
  | seedStepDone e =>
    simp only [exec, execSeedStepDone] at h
    split at h
    · rename_i hw; cases h; exact .engine _ _ (.absorbed e .seed hw) rfl
    · cases h; exact .nothing _
  | beatStepDone e =>
    simp only [exec, execBeatStepDone] at h
    split at h
    · rename_i hw; cases h; exact .engine _ _ (.absorbed e .beat hw) rfl
    · cases h; exact .nothing _
  | finalisationDone e =>
    simp only [exec, execFinalisationDone] at h
    split at h
    · rename_i hw; cases h; exact .engine _ _ (.finalised e hw) rfl
    · cases h; exact .nothing _
  | parkDone e =>
    simp only [exec, execParkDone] at h
    split at h
    · rename_i hw; cases h; exact .engine _ _ (.parked e hw) rfl
    · cases h; exact .nothing _
  | manifestBeatStepDone =>
    simp only [exec, execManifestBeatStepDone] at h
    split at h
    · rename_i hb
      simp only [Bool.and_eq_true, beq_iff_eq] at hb
      cases h; exact .manifestBeat hb
    · cases h; exact .nothing _
  | manifestCheckDone =>
    simp only [exec, execManifestCheckDone] at h
    split at h
    · rename_i hp _ _
      split at h
      · cases h; exact .checked _ _ hp
      · cases h; exact .unmatched hp
    · cases h; exact .nothing _
  | parsingDone =>
    simp only [exec, execParsingDone] at h
    split at h
    · rename_i hp _ _ _
      split at h
      · cases h; exact .rejected _ hp
      · rename_i hc; cases h; exact .accepted _ _ _ _ _ hp hc
    · cases h; exact .nothing _
  | fuseBlown =>
    simp only [exec, execFuseBlown] at h
    split at h
    · rename_i hb
      simp only [Bool.and_eq_true, State.burning, beq_iff_eq] at hb
      cases h; exact .burnt _ .done _ hb.1 (.inl ⟨rfl, rfl⟩)
    · cases h; exact .nothing _
  | burnLimitExpiry =>
    simp only [exec, execBurnLimitExpiry] at h
    split at h
    · rename_i hb
      simp only [State.burning, beq_iff_eq] at hb
      cases h; exact .burnt _ .failed _ hb (.inr ⟨rfl, rfl⟩)
    · cases h; exact .nothing _
  | vprogSupplyChange p => cases h; exact .supply p

end Sys2Proof.Laws
end

