-- ==== Sys2Proof/Laws/Takes.lean ====
section
/-! SUPPORT. What the taking of a beat does to the image and the engine, and that the next-step choice
touches no other image and no other engine (R55, R57, R58). -/

namespace Sys2Proof.Laws

open Sys2Proof.Machine

/-- The state of an image after a take: FINISHING once the cursor has reached its length (R18). -/
def wholeOrNot (g : Image) : Image :=
  if g.state = .filling ∧ g.cursor = g.declared.length then
    { g with state := .finishing none, transitions := saturate (g.transitions + 1) }
  else g

theorem image?_finishIfWhole (m : MeasureState) (i j : Nat) :
    (m.finishIfWhole i).image? j = if i = j then (m.image? j).map wholeOrNot else m.image? j := by
  unfold MeasureState.finishIfWhole
  by_cases hij : i = j
  · subst hij
    cases hg : m.image? i with
    | none => simp [hg]
    | some g =>
      simp only [Option.any_some, Bool.and_eq_true, beq_iff_eq, if_true, Option.map_some]
      unfold wholeOrNot
      split
      · rename_i h
        rw [image?_enter, if_pos rfl, hg]
        simp [h.2]
      · exact hg
  · rw [if_neg hij]
    split
    · rw [image?_enter, if_neg hij]
    · rfl

@[simp] theorem engines_finishIfWhole (m : MeasureState) (i : Nat) :
    (m.finishIfWhole i).engines = m.engines := by
  unfold MeasureState.finishIfWhole
  split <;> rfl

theorem engines_takeDelivered (m : MeasureState) (e e' : EngineId) (i : Nat) (h : e' ≠ e) :
    (m.takeDelivered e i).engines[e'] = m.engines[e'] := by
  unfold MeasureState.takeDelivered
  split
  · rfl
  · exact (engines_congr (engines_finishIfWhole _ i) e').trans
      ((engines_congr (modImage_engines _ i _) e').trans (engines_modEngine_ne _ h))

theorem engines_takeStaged (m : MeasureState) (e e' : EngineId) (i : Nat) (h : e' ≠ e) :
    (m.takeStaged e i).engines[e'] = m.engines[e'] := by
  unfold MeasureState.takeStaged
  split
  · rfl
  · exact (engines_congr (engines_finishIfWhole _ i) e').trans
      ((engines_congr (modImage_engines _ i _) e').trans (engines_modEngine_ne _ h))

theorem image?_takeDelivered_ne (m : MeasureState) (e : EngineId) (i j : Nat) (h : j ≠ i) :
    (m.takeDelivered e i).image? j = m.image? j := by
  unfold MeasureState.takeDelivered
  split
  · rfl
  · simp only
    rw [image?_finishIfWhole, if_neg (Ne.symm h), image?_modImage, if_neg (Ne.symm h)]
    rfl

theorem image?_takeStaged_ne (m : MeasureState) (e : EngineId) (i j : Nat) (h : j ≠ i) :
    (m.takeStaged e i).image? j = m.image? j := by
  unfold MeasureState.takeStaged
  split
  · rfl
  · simp only
    rw [image?_finishIfWhole, if_neg (Ne.symm h), image?_modImage, if_neg (Ne.symm h)]
    rfl

/-- A delivered beat taken (R58). -/
theorem takeDelivered_cons {m : MeasureState} {e : EngineId} {i : Nat} {g : Image} {b : Beat} {rest : List Beat}
    (hd : m.engines[e].delivered = b :: rest) (hg : m.image? i = some g) :
    (m.takeDelivered e i).engines[e] = { m.engines[e].absorb b with delivered := rest } ∧
    (m.takeDelivered e i).image? i = some (wholeOrNot { g.advance with handOff := g.handOff - 1 }) := by
  unfold MeasureState.takeDelivered
  rw [hd]
  refine ⟨(engines_congr (engines_finishIfWhole _ i) e).trans
    ((engines_congr (modImage_engines _ i _) e).trans (engines_modEngine_self m e _)), ?_⟩
  simp only
  rw [image?_finishIfWhole, if_pos rfl, image?_modImage, if_pos rfl, image?_modEngine, hg]
  rfl

/-- A staged beat taken (R39, R57). -/
theorem takeStaged_cons {m : MeasureState} {e : EngineId} {i : Nat} {g : Image} {b : Beat}
    (hg : m.image? i = some g) (hb : headStagedBeat g.runs = some b) :
    (m.takeStaged e i).engines[e] = m.engines[e].absorb b ∧
    (m.takeStaged e i).image? i = some (wholeOrNot { g.advance with runs := dropStagedBeat g.runs }) := by
  unfold MeasureState.takeStaged
  simp only [hg, Option.bind_some, hb]
  refine ⟨(engines_congr (engines_finishIfWhole _ i) e).trans
    ((engines_congr (modImage_engines _ i _) e).trans (engines_modEngine_self m e _)), ?_⟩
  rw [image?_finishIfWhole, if_pos rfl, image?_modImage, if_pos rfl, image?_modEngine, hg]
  rfl

/-- The choice touches no other engine (R55). -/
theorem engines_choose_ne (m : MeasureState) (e e' : EngineId) (h : e' ≠ e) :
    (m.choose e).engines[e'] = m.engines[e'] := by
  unfold MeasureState.choose
  split
  · rfl
  · split
    · rfl
    · split
      · exact engines_modEngine_ne _ h
      · split
        · exact engines_takeDelivered m e e' _ h
        · split
          · exact engines_modEngine_ne _ h
          · split
            · split
              · exact engines_takeStaged m e e' _ h
              · exact engines_modEngine_ne _ h
            · exact engines_modEngine_ne _ h

/-- The choice touches no image but the bound one (R55). -/
theorem image?_choose_ne (m : MeasureState) (e : EngineId) (j : Nat) (h : m.engines[e].bound ≠ some j) :
    (m.choose e).image? j = m.image? j := by
  unfold MeasureState.choose
  split
  · rfl
  · rename_i i hb
    have hj : j ≠ i := fun hji => h (hji ▸ hb)
    split
    · rfl
    · split
      · rfl
      · split
        · exact image?_takeDelivered_ne m e i j hj
        · split
          · rfl
          · split
            · split
              · exact image?_takeStaged_ne m e i j hj
              · rfl
            · rfl

end Sys2Proof.Laws
end

