-- ==== Sys2Proof/Laws/PoolKept.lean ====
section
/-! SUPPORT. What the laws of the engine pool read of a state, the changes that cannot break them, and
the teardown, break and verdict operations, which keep them. -/

namespace Sys2Proof.Laws
open Sys2Proof.Machine

/-- What the pool's laws read of an image. -/
def imageView (g : Image) : Declared × Nat × Nat × List Run := (g.declared, g.cursor, g.handOff, g.runs)

/-- What the pool's laws read of an engine and never loses while its work goes on. -/
def engineView (x : Engine) : EngineState × Option Nat × Bool × Bool × List Beat :=
  (x.state, x.bound, x.discard, x.manifest, x.delivered)

/-- Nothing that the pool's laws speak of changes, but that claims, reservations, waiting images, requests and
attached refills may go. -/
structure Weaker (m m' : MeasureState) : Prop where
  engines : ∀ e : EngineId, engineView m'.engines[e] = engineView m.engines[e]
  claims : ∀ e : EngineId, m'.engines[e].claimant = m.engines[e].claimant ∨ m'.engines[e].claimant = none
  pins : ∀ e : EngineId, m'.engines[e].reservation = m.engines[e].reservation ∨
    m'.engines[e].reservation = none
  images : ∀ i, (m'.image? i).map imageView = (m.image? i).map imageView
  waiting : ∀ i ∈ m'.waitList, i ∈ m.waitList
  requests : m'.refillPending.Sublist m.refillPending
  attached : ∀ (k : Fin 8) i e n, m'.refillTags[k].attachedTo i e n → m.refillTags[k].attachedTo i e n
  segments : m'.segments = m.segments

theorem Weaker.refl (m : MeasureState) : Weaker m m :=
  ⟨fun _ => rfl, fun _ => .inl rfl, fun _ => .inl rfl, fun _ => rfl, fun _ h => h, .refl _,
    fun _ _ _ _ h => h, rfl⟩

theorem Weaker.trans {a b c : MeasureState} (h : Weaker a b) (h' : Weaker b c) : Weaker a c where
  engines e := (h'.engines e).trans (h.engines e)
  claims e := by
    rcases h'.claims e with hc | hc
    · rw [hc]; exact h.claims e
    · exact .inr hc
  pins e := by
    rcases h'.pins e with hc | hc
    · rw [hc]; exact h.pins e
    · exact .inr hc
  images i := (h'.images i).trans (h.images i)
  waiting i hi := h.waiting i (h'.waiting i hi)
  requests := h'.requests.trans h.requests
  attached k i e n hk := h.attached k i e n (h'.attached k i e n hk)
  segments := h'.segments.trans h.segments

theorem weaker_foldl {α : Type} (f : MeasureState → α → MeasureState) (h : ∀ m a, Weaker m (f m a))
    (l : List α) (m : MeasureState) : Weaker m (l.foldl f m) :=
  foldl_rel Weaker .refl (fun _ _ _ => .trans) f h l m

theorem Weaker.image {m m' : MeasureState} (h : Weaker m m') {i : Nat} {g : Image} (hg : m.image? i = some g) :
    ∃ g', m'.image? i = some g' ∧ imageView g' = imageView g := by
  have := h.images i
  rw [hg] at this
  exact Option.map_eq_some_iff.1 this

theorem Weaker.image' {m m' : MeasureState} (h : Weaker m m') {i : Nat} {g' : Image}
    (hg : m'.image? i = some g') : ∃ g, m.image? i = some g ∧ imageView g' = imageView g := by
  have := h.images i
  rw [hg] at this
  obtain ⟨g, h1, h2⟩ := Option.map_eq_some_iff.1 this.symm
  exact ⟨g, h1, h2.symm⟩

theorem Weaker.view {m m' : MeasureState} (h : Weaker m m') (e : EngineId) :
    m'.engines[e].state = m.engines[e].state ∧ m'.engines[e].bound = m.engines[e].bound ∧
    m'.engines[e].discard = m.engines[e].discard ∧ m'.engines[e].manifest = m.engines[e].manifest ∧
    m'.engines[e].delivered = m.engines[e].delivered := by
  have := h.engines e
  simpa [engineView] using this

theorem view_eq {g g' : Image} (h : imageView g' = imageView g) :
    g'.declared = g.declared ∧ g'.cursor = g.cursor ∧ g'.handOff = g.handOff ∧ g'.runs = g.runs := by
  simpa [imageView] using h

theorem awaits_congr {g g' : Image} (h : imageView g' = imageView g) (ha : g.awaits) : g'.awaits := by
  obtain ⟨-, h2, h3, h4⟩ := view_eq h
  unfold Image.awaits at *
  rw [h2, h3, h4]; exact ha

theorem placed_congr {g g' : Image} (h : imageView g' = imageView g) (ha : g.placed) : g'.placed := by
  obtain ⟨h1, h2, h3, h4⟩ := view_eq h
  unfold Image.placed at *
  rw [h1, h2, h3, h4]; exact ha

theorem Engine.workOk_congr {x x' : Engine} (h : engineView x' = engineView x) (ho : x.workOk) : x'.workOk := by
  simp only [engineView, Prod.mk.injEq] at h
  obtain ⟨h1, h2, h3, h4, h5⟩ := h
  exact ⟨by rw [h1, h2, h3, h4]; exact ho.free, by rw [h1, h3]; exact ho.holding,
    by rw [h2, h3, h4]; exact ho.elsewhere, by rw [h2, h5]; exact ho.nothing, by rw [h1, h5]; exact ho.delivered⟩

theorem Weaker.poolOk {m m' : MeasureState} (h : Weaker m m') (hm : m.poolOk) : m'.poolOk := by
  have hub : ∀ i, m'.unbound i ↔ m.unbound i := fun i => by
    unfold MeasureState.unbound
    constructor <;> intro hu e <;> have := hu e <;> rw [(h.view e).2.1] at * <;> exact this
  have hup : ∀ i, m.unpinned i → m'.unpinned i := by
    rintro i ⟨g, hg, hp⟩
    obtain ⟨g', hg', hv⟩ := h.image hg
    exact ⟨g', hg', by rw [(view_eq hv).1]; exact hp⟩
  have hcl : ∀ (e : EngineId) i, m'.engines[e].claimant = some i → m.engines[e].claimant = some i := by
    intro e i hc
    rcases h.claims e with h' | h' <;> rw [h'] at hc
    · exact hc
    · cases hc
  refine ⟨fun e => Engine.workOk_congr (h.engines e) (hm.engines e), ?_, ?_, ?_, ?_, ?_, ?_, ?_, ?_, ?_⟩
  · intro e e' i he he'
    rw [(h.view e).2.1] at he
    rw [(h.view e').2.1] at he'
    exact hm.single e e' i he he'
  · intro e i he
    obtain ⟨hv1, hv2, -, -, hv5⟩ := h.view e
    rw [hv2] at he
    obtain ⟨g, hg, hh, ha⟩ := hm.bound e i he
    obtain ⟨g', hg', hv⟩ := h.image hg
    exact ⟨g', hg', by rw [(view_eq hv).2.2.1, hh, hv5], fun hs => awaits_congr hv (ha (by rw [← hv1]; exact hs))⟩
  · intro i g' hg' hu
    obtain ⟨g, hg, hv⟩ := h.image' hg'
    rw [(view_eq hv).2.2.1]
    exact hm.handOff i g hg ((hub i).1 hu)
  · intro e p hp
    rcases h.pins e with h' | h' <;> rw [h'] at hp
    · obtain ⟨g, hg, hq⟩ := hm.pins e p hp
      obtain ⟨g', hg', hv⟩ := h.image hg
      exact ⟨g', hg', by rw [(view_eq hv).1]; exact hq⟩
    · cases hp
  · intro i hi
    obtain ⟨h1, h2, h3⟩ := hm.waiting i (h.waiting i hi)
    exact ⟨hup i h1, (hub i).2 h2, fun e hc => h3 e (hcl e i hc)⟩
  · intro e i hc
    obtain ⟨h1, h2, h3, h4, h5⟩ := hm.claims e i (hcl e i hc)
    refine ⟨hup i h1, (hub i).2 h2, by rw [(h.view e).1]; exact h3, ?_, fun e' hc' => h5 e' (hcl e' i hc')⟩
    rcases h.pins e with h' | h'
    · rw [h']; exact h4
    · exact h'
  · intro q hq
    obtain ⟨h1, h2, h3⟩ := hm.requests q (h.requests.subset hq)
    obtain ⟨hv1, hv2, -⟩ := h.view q.engine
    exact ⟨by rw [hv1]; exact h1, by rw [hv2]; exact h2, fun k i n hk => h3 k i n (h.attached k i _ n hk)⟩
  · exact hm.once.sublist h.requests
  · intro k i e n hk
    obtain ⟨h1, h2, h3, h4⟩ := hm.attached k i e n (h.attached k i e n hk)
    obtain ⟨hv1, hv2, -⟩ := h.view e
    refine ⟨by rw [hv1]; exact h1, by rw [hv2]; exact h2, fun g' hg' => ?_,
      fun k' i' n' hk' => h4 k' i' n' (h.attached k' i' e n' hk')⟩
    obtain ⟨g, hg, hv⟩ := h.image' hg'
    rw [(view_eq hv).2.2.2]
    exact h3 g hg

theorem placesOk_iff (m : MeasureState) :
    m.placesOk ↔ m.segmentsOk ∧ ∀ i g, m.image? i = some g → g.placed := by
  unfold MeasureState.placesOk
  refine and_congr_right fun _ => ⟨fun h i g hg => h g (mem_images hg), fun h g hg => ?_⟩
  obtain ⟨i, hi⟩ := exists_image? hg
  exact h i g hi

/-- The declared fields of all images are kept, and the segments. -/
theorem segmentsOk_congr {m m' : MeasureState} (hs : m'.segments = m.segments)
    (hi : ∀ i g, m.image? i = some g → ∃ g', m'.image? i = some g' ∧ g'.declared = g.declared)
    (h : m.segmentsOk) : m'.segmentsOk := by
  intro x hx i hxi
  obtain ⟨g, hg, hr⟩ := h x (by rw [← hs]; exact hx) i hxi
  obtain ⟨g', hg', hd⟩ := hi i g hg
  exact ⟨g', hg', by rw [hd]; exact hr⟩

theorem Weaker.placesOk {m m' : MeasureState} (h : Weaker m m') (hm : m.placesOk) : m'.placesOk := by
  rw [placesOk_iff] at *
  refine ⟨segmentsOk_congr h.segments (fun i g hg => ?_) hm.1, fun i g' hg' => ?_⟩
  · obtain ⟨g', hg', hv⟩ := h.image hg
    exact ⟨g', hg', (view_eq hv).1⟩
  · obtain ⟨g, hg, hv⟩ := h.image' hg'
    exact placed_congr hv (hm.2 i g hg)

/-! ### Operations that only let go -/

theorem weaker_modImage (m : MeasureState) (i : Nat) (f : Image → Image)
    (hf : ∀ g, imageView (f g) = imageView g) : Weaker m (m.modImage i f) := by
  refine ⟨fun _ => rfl, fun _ => .inl rfl, fun _ => .inl rfl, fun j => ?_, fun _ h => h, .refl _,
    fun _ _ _ _ h => h, rfl⟩
  rw [image?_modImage]
  split
  · cases m.image? j with
    | none => rfl
    | some g => exact congrArg some (hf g)
  · rfl

/-- A change of parts that the pool's laws do not read. -/
theorem Weaker.of_same {m m' : MeasureState}
    (h : (m'.segments, m'.images, m'.engines, m'.waitList, m'.refillTags, m'.refillPending) =
      (m.segments, m.images, m.engines, m.waitList, m.refillTags, m.refillPending)) : Weaker m m' := by
  simp only [Prod.mk.injEq] at h
  obtain ⟨h1, h2, h3, h4, h5, h6⟩ := h
  exact ⟨fun e => by rw [h3], fun e => .inl (by rw [h3]), fun e => .inl (by rw [h3]),
    fun i => by rw [image?_congr h2], fun i hi => h4 ▸ hi, h6 ▸ .refl _, fun k i e n hk => h5 ▸ hk, h1⟩

theorem weaker_enqueue (m : MeasureState) (i : Nat) : Weaker m (m.enqueue i) := .of_same rfl

theorem weaker_enter (m : MeasureState) (i : Nat) (st : ImageState) : Weaker m (m.enter i st) :=
  (weaker_modImage m i (fun g => { g with state := st }) fun _ => rfl).trans
    ((weaker_modImage _ i (fun g => { g with transitions := saturate (g.transitions + 1) }) fun _ => rfl).trans
      (weaker_enqueue _ i))

theorem weaker_mapEngines (m : MeasureState) (f : Engine → Engine)
    (hv : ∀ x, engineView (f x) = engineView x)
    (hc : ∀ x, (f x).claimant = x.claimant ∨ (f x).claimant = none)
    (hr : ∀ x, (f x).reservation = x.reservation ∨ (f x).reservation = none) : Weaker m (m.mapEngines f) :=
  ⟨fun e => by rw [engines_mapEngines]; exact hv _, fun e => by rw [engines_mapEngines]; exact hc _,
    fun e => by rw [engines_mapEngines]; exact hr _, fun _ => rfl, fun _ h => h, .refl _,
    fun _ _ _ _ h => h, rfl⟩

theorem weaker_modEngine (m : MeasureState) (e : EngineId) (f : Engine → Engine)
    (hv : engineView (f m.engines[e]) = engineView m.engines[e])
    (hc : (f m.engines[e]).claimant = m.engines[e].claimant ∨ (f m.engines[e]).claimant = none)
    (hr : (f m.engines[e]).reservation = m.engines[e].reservation ∨ (f m.engines[e]).reservation = none) :
    Weaker m (m.modEngine e f) := by
  refine ⟨fun e' => ?_, fun e' => ?_, fun e' => ?_, fun _ => rfl, fun _ h => h, .refl _, fun _ _ _ _ h => h, rfl⟩
  all_goals
    rw [engines_modEngine]
    split
    · rename_i he; subst he; assumption
    · first | rfl | exact .inl rfl

theorem weaker_lapse (m : MeasureState) (i : Nat) : Weaker m (m.mapEngines (·.lapse i)) := by
  refine weaker_mapEngines m _ (fun x => ?_) (fun x => ?_) fun x => ?_
  all_goals
    unfold Engine.lapse
    split <;> simp [engineView]

theorem weaker_setRefillTag (m : MeasureState) (k : Fin 8) (r : RefillTag)
    (hr : ∀ i e n, ¬ r.attachedTo i e n) : Weaker m (m.setRefillTag k r) := by
  refine ⟨fun _ => rfl, fun _ => .inl rfl, fun _ => .inl rfl, fun _ => rfl, fun _ h => h, .refl _,
    fun k' i e n hk => ?_, rfl⟩
  rw [refillTags_setRefillTag] at hk
  split at hk
  · exact absurd hk (hr i e n)
  · exact hk

theorem weaker_answered (m : MeasureState) (i : Nat) : Weaker m (m.answered i) :=
  weaker_modImage m i _ fun _ => rfl

theorem weaker_addEntry (m : MeasureState) (tag : Nat) : Weaker m (m.addEntry tag) := .of_same rfl

theorem weaker_recordIn (m : MeasureState) (i : Nat) : Weaker m (m.recordIn i) := by
  unfold MeasureState.recordIn
  split
  · exact .refl m
  · exact (weaker_modImage m i (fun g => { g with inFlight := g.inFlight + 1 }) fun _ => rfl).trans (.of_same rfl)

theorem weaker_dropUnready (m : MeasureState) : Weaker m m.dropUnready := by
  have h := weaker_mapEngines m
    (fun e => if e.claimant.any (fun i => !m.ready i) then { e with claimant := none } else e)
    (fun x => by split <;> rfl) (fun x => by split <;> simp) (fun x => by split <;> simp)
  refine h.trans ⟨fun _ => rfl, fun _ => .inl rfl, fun _ => .inl rfl, fun _ => rfl,
    fun i hi => (List.mem_filter.1 hi).1, .refl _, fun _ _ _ _ h => h, rfl⟩

theorem weaker_chooseReport (man : ManifestState) (m : MeasureState) (r : ReportState) :
    Weaker m (chooseReport man m r).2.1 := by
  unfold chooseReport
  split
  · simp only
    split
    · split <;> exact .refl m
    · split
      · split
        · rename_i subject rest hs hf _ _ _ _ _ _ _
          exact (weaker_modImage m subject (fun g => { g with transitions := 0 }) fun _ => rfl).trans (.of_same rfl)
        · exact .refl m
      · split
        · split <;> exact .refl m
        · exact .refl m
  · exact .refl m

theorem weaker_reportFailed (m : MeasureState) (r : ReportState) (target : ReportTarget) :
    Weaker m (m.reportFailed r target) := by
  unfold MeasureState.reportFailed
  split
  · rename_i w _
    exact (weaker_modImage m w.subject
      (fun g => { g with transitions := saturate (g.transitions + w.captured) }) fun _ => rfl).trans (.of_same rfl)
  · exact .refl m

/-! ### Images that change under the pool -/

/-- What a change of image records must keep of each. -/
structure ImageKept (g g' : Image) : Prop where
  declared : g'.declared = g.declared
  handOff : g'.handOff = g.handOff
  awaits : g.awaits → g'.awaits ∧ ∀ r' ∈ g'.runs.head?, ∃ r ∈ g.runs.head?, r.body.beatCount ≤ r'.body.beatCount

theorem poolOk_images {m m' : MeasureState}
    (hs : (m'.engines, m'.waitList, m'.refillTags, m'.refillPending) =
      (m.engines, m.waitList, m.refillTags, m.refillPending))
    (hl : m'.images.length = m.images.length)
    (hi : ∀ i g, m.image? i = some g → ∃ g', m'.image? i = some g' ∧ ImageKept g g') (hm : m.poolOk) :
    m'.poolOk := by
  simp only [Prod.mk.injEq] at hs
  obtain ⟨h1, h2, h3, h4⟩ := hs
  have hback : ∀ i g', m'.image? i = some g' → ∃ g, m.image? i = some g ∧ ImageKept g g' := by
    intro i g' hg'
    have := (image?_isSome m' i).1 (by rw [hg']; rfl)
    rw [hl] at this
    obtain ⟨g, hg⟩ := Option.isSome_iff_exists.1 ((image?_isSome m i).2 this)
    obtain ⟨g'', hg'', hk⟩ := hi i g hg
    rw [hg'] at hg''
    cases hg''
    exact ⟨g, hg, hk⟩
  have hup : ∀ i, m.unpinned i → m'.unpinned i := by
    rintro i ⟨g, hg, hp⟩
    obtain ⟨g', hg', hk⟩ := hi i g hg
    exact ⟨g', hg', by rw [hk.declared]; exact hp⟩
  refine ⟨by rw [h1]; exact hm.engines, by rw [h1]; exact hm.single, ?_, ?_, ?_, ?_, ?_, ?_,
    by rw [h4]; exact hm.once, ?_⟩
  · intro e i he
    rw [h1] at he ⊢
    obtain ⟨g, hg, hh, ha⟩ := hm.bound e i he
    obtain ⟨g', hg', hk⟩ := hi i g hg
    exact ⟨g', hg', hk.handOff.trans hh, fun hs => (hk.awaits (ha hs)).1⟩
  · intro i g' hg' hu
    obtain ⟨g, hg, hk⟩ := hback i g' hg'
    rw [hk.handOff]
    unfold MeasureState.unbound at hu
    rw [h1] at hu
    exact hm.handOff i g hg hu
  · intro e p hp
    rw [h1] at hp
    obtain ⟨g, hg, hq⟩ := hm.pins e p hp
    obtain ⟨g', hg', hk⟩ := hi p g hg
    exact ⟨g', hg', by rw [hk.declared]; exact hq⟩
  · intro i hi'
    rw [h2] at hi'
    obtain ⟨a, b, c⟩ := hm.waiting i hi'
    refine ⟨hup i a, ?_, ?_⟩
    · unfold MeasureState.unbound; rw [h1]; exact b
    · rw [h1]; exact c
  · intro e i hc
    rw [h1] at hc
    obtain ⟨a, b, c⟩ := hm.claims e i hc
    refine ⟨hup i a, ?_, ?_⟩
    · unfold MeasureState.unbound; rw [h1]; exact b
    · rw [h1]; exact c
  · rw [h1, h3, h4]; exact hm.requests
  · intro k i e n hk
    rw [h3] at hk
    rw [h1]
    obtain ⟨a, b, c, d⟩ := hm.attached k i e n hk
    refine ⟨a, b, fun g' hg' r' hr' => ?_, by rw [h3]; exact d⟩
    obtain ⟨g0, hg0, -, ha⟩ := hm.bound e i b
    obtain ⟨g, hg, hk'⟩ := hback i g' hg'
    rw [hg0] at hg
    cases hg
    obtain ⟨r, hr, hle⟩ := (hk'.awaits (ha a)).2 r' hr'
    exact Nat.le_trans (c g0 hg0 r hr) hle

theorem poolOk_modImage {m : MeasureState} (i : Nat) (f : Image → Image)
    (hf : ∀ g, m.image? i = some g → ImageKept g (f g)) (hm : m.poolOk) : (m.modImage i f).poolOk := by
  refine poolOk_images (m := m) rfl (by simp) (fun j g hg => ?_) hm
  rw [image?_modImage]
  split
  · rename_i hij
    subst hij
    exact ⟨f g, by rw [hg]; rfl, hf g hg⟩
  · exact ⟨g, hg, rfl, rfl, fun h => ⟨h, fun r hr => ⟨r, hr, Nat.le_refl _⟩⟩⟩

theorem placesOk_modImage {m : MeasureState} (i : Nat) (f : Image → Image)
    (hd : ∀ g, (f g).declared = g.declared) (hf : ∀ g, m.image? i = some g → g.placed → (f g).placed)
    (hm : m.placesOk) : (m.modImage i f).placesOk := by
  rw [placesOk_iff] at *
  refine ⟨segmentsOk_congr (m := m) rfl (fun j g hg => ?_) hm.1, fun j g' hg' => ?_⟩
  · rw [image?_modImage]
    split
    · exact ⟨f g, by rw [hg]; rfl, hd g⟩
    · exact ⟨g, hg, rfl⟩
  · rw [image?_modImage] at hg'
    split at hg'
    · rename_i hij
      subst hij
      obtain ⟨g, hg, rfl⟩ := Option.map_eq_some_iff.1 hg'
      exact hf g hg (hm.2 i g hg)
    · exact hm.2 j g' hg'

/-! ### Break and reopen -/

/-- An engine after the work on image i is dropped. -/
theorem drop_cases (i : Nat) (x : Engine) :
    (x.bound = some i ∧ ((x.tearFrom i).dropClaim i).bound = none ∧ ((x.tearFrom i).dropClaim i).delivered = [] ∧
      (x.workOk → ((x.tearFrom i).dropClaim i).workOk) ∧
      ((x.tearFrom i).dropClaim i).reservation = x.reservation ∧
      (x.state = .parking → ((x.tearFrom i).dropClaim i).state = .parking) ∧
      ((x.tearFrom i).dropClaim i).claimant = (if x.claimant = some i then none else x.claimant)) ∨
    (x.bound ≠ some i ∧ engineView ((x.tearFrom i).dropClaim i) = engineView x ∧
      ((x.tearFrom i).dropClaim i).reservation = x.reservation ∧
      ((x.tearFrom i).dropClaim i).claimant = (if x.claimant = some i then none else x.claimant)) := by
  have hc : ∀ y : Engine, engineView (y.dropClaim i) = engineView y ∧
      (y.dropClaim i).reservation = y.reservation ∧
      (y.dropClaim i).claimant = (if y.claimant = some i then none else y.claimant) := by
    intro y
    unfold Engine.dropClaim
    split <;> simp [engineView]
  obtain ⟨hc1, hc2, hc3⟩ := hc (x.tearFrom i)
  by_cases hb : x.bound = some i
  · refine .inl ⟨hb, ?_⟩
    have ht : x.tearFrom i = x.teardown := if_pos hb
    rw [ht] at hc1 hc2 hc3 ⊢
    have hv : ∀ z : Engine, engineView z = engineView x.teardown →
        z.bound = none ∧ z.delivered = [] ∧ (x.workOk → z.workOk) ∧ (x.state = .parking → z.state = .parking) := by
      intro z hz
      simp only [engineView, Prod.mk.injEq] at hz
      obtain ⟨h1, h2, h3, h4, h5⟩ := hz
      have hk : x.workOk → x.teardown.workOk := by
        intro ho
        have hd : x.discard = false ∧ x.manifest = false := by
          constructor
          · cases hd : x.discard with
            | false => rfl
            | true => rw [ho.elsewhere (.inl hd)] at hb; cases hb
          · cases hd : x.manifest with
            | false => rfl
            | true => rw [ho.elsewhere (.inr hd)] at hb; cases hb
        cases hst : x.state <;> simp only [Engine.teardown, hst]
        all_goals
          refine ⟨?_, ?_, ?_, ?_, ?_⟩ <;> simp [hd]
      have hb' : x.teardown.bound = none ∧ x.teardown.delivered = [] ∧
          (x.state = .parking → x.teardown.state = .parking) := by
        cases hst : x.state <;> simp [Engine.teardown, hst]
      exact ⟨h2.trans hb'.1, h5.trans hb'.2.1,
        fun ho => Engine.workOk_congr (by simp [engineView, h1, h2, h3, h4, h5]) (hk ho),
        fun hp => h1.trans (hb'.2.2 hp)⟩
    have htr : x.teardown.reservation = x.reservation ∧ x.teardown.claimant = x.claimant := by
      cases hst : x.state <;> simp [Engine.teardown, hst]
    rw [htr.1] at hc2
    rw [htr.2] at hc3
    obtain ⟨a, b, c, d⟩ := hv _ hc1
    exact ⟨a, b, c, hc2, d, hc3⟩
  · refine .inr ⟨hb, ?_⟩
    have ht : x.tearFrom i = x := if_neg hb
    rw [ht] at hc1 hc2 hc3 ⊢
    exact ⟨hc1, hc2, hc3⟩

theorem engines_dropWork (m : MeasureState) (i : Nat) (e : EngineId) :
    (m.dropWork i).engines[e] = ((m.engines[e].tearFrom i).dropClaim i) :=
  (engines_congr (dropWork_engines m i) e).trans (engines_mapEngines m e _)

theorem attached_dropWork {m : MeasureState} {i : Nat} {k : Fin 8} {j : Nat} {e : EngineId} {n : Nat}
    (h : (m.dropWork i).refillTags[k].attachedTo j e n) : m.refillTags[k].attachedTo j e n ∧ j ≠ i := by
  have ht : (m.dropWork i).refillTags[k] = m.refillTags[k].detach i := refillTags_detachRefills m i k
  rw [ht] at h
  obtain ⟨start, a, h⟩ := h
  unfold RefillTag.detach at h
  split at h
  · rename_i img eng st c ad heq
    simp only [RefillTag.busy.injEq] at h
    obtain ⟨rfl, h2, rfl, rfl, rfl⟩ := h
    split at h2
    · cases h2
    · rename_i hne
      subst h2
      exact ⟨⟨_, _, heq⟩, hne⟩
  · rename_i hne
    exact absurd h (hne _ _ _ _ _)

theorem poolOk_dropWork {m : MeasureState} (i : Nat) (hm : m.poolOk) : (m.dropWork i).poolOk := by
  have hb : ∀ (e : EngineId) j, (m.dropWork i).engines[e].bound = some j →
      j ≠ i ∧ m.engines[e].bound = some j ∧
        engineView (m.dropWork i).engines[e] = engineView m.engines[e] := by
    intro e j he
    rw [engines_dropWork] at he ⊢
    rcases drop_cases i m.engines[e] with h | h
    · rw [h.2.1] at he; cases he
    · have hv := h.2.1
      simp only [engineView, Prod.mk.injEq] at hv
      have : m.engines[e].bound = some j := by rw [← hv.2.1]; exact he
      exact ⟨fun hji => h.1 (by rw [this, hji]), this, h.2.1⟩
  have hb' : ∀ (e : EngineId) j, j ≠ i → m.engines[e].bound = some j →
      (m.dropWork i).engines[e].bound = some j := by
    intro e j hji he
    rw [engines_dropWork]
    rcases drop_cases i m.engines[e] with h | h
    · rw [h.1] at he; cases he; exact absurd rfl hji
    · have hv := h.2.1
      simp only [engineView, Prod.mk.injEq] at hv
      exact hv.2.1.trans he
  have hcl : ∀ (e : EngineId) j, (m.dropWork i).engines[e].claimant = some j →
      j ≠ i ∧ m.engines[e].claimant = some j := by
    intro e j hc
    rw [engines_dropWork] at hc
    have : ((m.engines[e].tearFrom i).dropClaim i).claimant =
        (if m.engines[e].claimant = some i then none else m.engines[e].claimant) := by
      rcases drop_cases i m.engines[e] with h | h
      · exact h.2.2.2.2.2.2
      · exact h.2.2.2
    rw [this] at hc
    split at hc
    · cases hc
    · rename_i hne
      exact ⟨fun hji => hne (by rw [hc, hji]), hc⟩
  have hres : ∀ e : EngineId, (m.dropWork i).engines[e].reservation = m.engines[e].reservation := by
    intro e
    rw [engines_dropWork]
    rcases drop_cases i m.engines[e] with h | h
    · exact h.2.2.2.2.1
    · exact h.2.2.1
  have hpark : ∀ e : EngineId, m.engines[e].state = .parking → (m.dropWork i).engines[e].state = .parking := by
    intro e hp
    rw [engines_dropWork]
    rcases drop_cases i m.engines[e] with h | h
    · exact h.2.2.2.2.2.1 hp
    · have hv := h.2.1
      simp only [engineView, Prod.mk.injEq] at hv
      rw [hv.1]; exact hp
  have himg : ∀ j, j ≠ i → (m.dropWork i).image? j = m.image? j := fun j hj => by
    rw [image?_dropWork, if_neg (Ne.symm hj)]
  have hub : ∀ j, m.unbound j → (m.dropWork i).unbound j := fun j hu e he => hu e (hb e j he).2.1
  have hup : ∀ j, m.unpinned j → (m.dropWork i).unpinned j := by
    rintro j ⟨g, hg, hp⟩
    rw [MeasureState.unpinned, image?_dropWork]
    split
    · exact ⟨{ g with runs := [], handOff := 0, slot := none }, by rw [hg]; rfl, hp⟩
    · exact ⟨g, hg, hp⟩
  refine ⟨?_, ?_, ?_, ?_, ?_, ?_, ?_, ?_, ?_, ?_⟩
  · intro e
    rw [engines_dropWork]
    rcases drop_cases i m.engines[e] with h | h
    · exact h.2.2.2.1 (hm.engines e)
    · exact Engine.workOk_congr h.2.1 (hm.engines e)
  · intro e e' j he he'
    exact hm.single e e' j (hb e j he).2.1 (hb e' j he').2.1
  · intro e j he
    obtain ⟨hji, he1, hv⟩ := hb e j he
    obtain ⟨g, hg, hh, ha⟩ := hm.bound e j he1
    simp only [engineView, Prod.mk.injEq] at hv
    exact ⟨g, by rw [himg j hji]; exact hg, by rw [hh, hv.2.2.2.2], fun hs => ha (by rw [← hv.1]; exact hs)⟩
  · intro j g hg hu
    rw [image?_dropWork] at hg
    split at hg
    · obtain ⟨g0, -, rfl⟩ := Option.map_eq_some_iff.1 hg
      rfl
    · rename_i hij
      exact hm.handOff j g hg fun e he => hu e (hb' e j (Ne.symm hij) he)
  · intro e p hp
    rw [hres] at hp
    obtain ⟨g, hg, hq⟩ := hm.pins e p hp
    rw [image?_dropWork]
    split
    · exact ⟨{ g with runs := [], handOff := 0, slot := none }, by rw [hg]; rfl, hq⟩
    · exact ⟨g, hg, hq⟩
  · intro j hj
    have hj' := (mem_leave _ _ _).1 (show j ∈ leave m.waitList i from hj)
    obtain ⟨a, b, c⟩ := hm.waiting j hj'.1
    exact ⟨hup j a, hub j b, fun e hc => c e (hcl e j hc).2⟩
  · intro e j hc
    obtain ⟨a, b, c, d, f⟩ := hm.claims e j (hcl e j hc).2
    exact ⟨hup j a, hub j b, hpark e c, by rw [hres]; exact d, fun e' hc' => f e' (hcl e' j hc').2⟩
  · intro q hq
    have hq' := List.mem_filter.1 (show q ∈ m.refillPending.filter (·.image != i) from hq)
    obtain ⟨a, b, c⟩ := hm.requests q hq'.1
    have hne : q.image ≠ i := by simpa using hq'.2
    have he := hb' q.engine q.image hne b
    have hv := (hb q.engine q.image he).2.2
    simp only [engineView, Prod.mk.injEq] at hv
    exact ⟨by rw [hv.1]; exact a, he, fun k j n hk => c k j n (attached_dropWork hk).1⟩
  · exact hm.once.sublist List.filter_sublist
  · intro k j e n hk
    obtain ⟨hk1, hji⟩ := attached_dropWork hk
    obtain ⟨a, b, c, d⟩ := hm.attached k j e n hk1
    have he := hb' e j hji b
    have hv := (hb e j he).2.2
    simp only [engineView, Prod.mk.injEq] at hv
    refine ⟨by rw [hv.1]; exact a, he, fun g hg => c g (by rw [himg j hji] at hg; exact hg),
      fun k' i' n' hk' => d k' i' n' (attached_dropWork hk').1⟩

theorem placed_dropped {g : Image} (h : g.placed) :
    ({ g with runs := [], handOff := 0, slot := none } : Image).placed := by
  refine ⟨?_, by simp⟩
  have := h.1
  simp only
  omega

theorem placesOk_congr {m m' : MeasureState} (hs : m'.segments = m.segments) (hi : m'.images = m.images)
    (h : m.placesOk) : m'.placesOk := by
  rw [placesOk_iff] at *
  exact ⟨segmentsOk_congr hs (fun i g hg => ⟨g, by rw [image?_congr hi]; exact hg, rfl⟩) h.1,
    fun i g hg => h.2 i g (by rw [image?_congr hi] at hg; exact hg)⟩

theorem placesOk_dropWork {m : MeasureState} (i : Nat) (hm : m.placesOk) : (m.dropWork i).placesOk :=
  placesOk_congr (m := m.modImage i (fun g => { g with runs := [], handOff := 0, slot := none })) rfl rfl
    (placesOk_modImage i (fun g => { g with runs := [], handOff := 0, slot := none }) (fun _ => rfl)
      (fun _ _ h => placed_dropped h) hm)

/-- The laws of the pool and of the places. -/
def poolKept (m : MeasureState) : Prop := m.poolOk ∧ m.placesOk

theorem Weaker.kept {m m' : MeasureState} (h : Weaker m m') (hm : poolKept m) : poolKept m' :=
  ⟨h.poolOk hm.1, h.placesOk hm.2⟩

theorem kept_dropWork {m : MeasureState} (i : Nat) (hm : poolKept m) : poolKept (m.dropWork i) :=
  ⟨poolOk_dropWork i hm.1, placesOk_dropWork i hm.2⟩

theorem kept_breakOne {m : MeasureState} (i : Nat) (why : BreakReason) (hm : poolKept m) :
    poolKept (m.breakOne i why) := by
  unfold MeasureState.breakOne
  split
  · exact (weaker_enter _ i _).kept ((weaker_lapse _ i).kept (kept_dropWork i hm))
  · exact hm

theorem kept_failDependents {m : MeasureState} (x : Nat) (hm : poolKept m) : poolKept (m.failDependents x) :=
  foldl_inv poolKept _ _ (fun _ d _ h => kept_breakOne d _ h) _ hm

theorem kept_breakImage {m : MeasureState} (i : Nat) (why : BreakReason) (hm : poolKept m) :
    poolKept (m.breakImage i why) := by
  unfold MeasureState.breakImage
  split
  · exact kept_failDependents i (kept_breakOne i why hm)
  · exact hm

theorem kept_verdict {m : MeasureState} (i : Nat) (r : PendingResult) (hm : poolKept m) :
    poolKept (m.verdict i r) := by
  unfold MeasureState.verdict
  split
  · exact hm
  · rename_i g _
    split
    · have h1 := (weaker_enter _ i (verdictState g r)).kept ((weaker_lapse m i).kept hm)
      simp only
      split
      · exact Weaker.kept (m := (m.mapEngines (·.lapse i)).enter i (verdictState g r)) (.of_same rfl) h1
      · exact kept_failDependents i h1
      · exact h1
    · exact hm

end Sys2Proof.Laws
end

