-- ==== Sys2Proof/Laws/PoolWork.lean ====
section
/-! SUPPORT. The next-step choice of an engine, and every change of one engine's work, keeps the laws of
the pool. -/

namespace Sys2Proof.Laws
open Sys2Proof.Machine

/-- No request and no issued refill stands for engine e. -/
def noRefill (m : MeasureState) (e : EngineId) : Prop :=
  (∀ q ∈ m.refillPending, q.engine ≠ e) ∧ ∀ (k : Fin 8) i n, ¬ m.refillTags[k].attachedTo i e n

/-- A request or an issued refill stands for an engine in AWAITING_REFILL alone. -/
theorem noRefill_of_state {m : MeasureState} (hm : m.poolOk) {e : EngineId}
    (h : m.engines[e].state ≠ .awaitingRefill) : noRefill m e := by
  refine ⟨fun q hq hqe => h ?_, fun k i n hk => h (hm.attached k i e n hk).1⟩
  subst hqe
  exact (hm.requests q hq).1

/-- An engine that is not PARKING is promised to no image. -/
theorem claimant_none {m : MeasureState} (hm : m.poolOk) {e : EngineId} (h : m.engines[e].state ≠ .parking) :
    m.engines[e].claimant = none := by
  cases hc : m.engines[e].claimant with
  | none => rfl
  | some i => exact absurd (hm.claims e i hc).2.2.1 h

/-! ### One engine changes and its image stays -/

theorem poolOk_modEngine {m : MeasureState} (e : EngineId) (f : Engine → Engine) (hm : m.poolOk)
    (hw : (f m.engines[e]).workOk) (hb : (f m.engines[e]).bound = m.engines[e].bound)
    (hd : (f m.engines[e]).delivered = m.engines[e].delivered)
    (hc : ∀ i, (f m.engines[e]).claimant = some i → m.unpinned i ∧ m.unbound i ∧ i ∉ m.waitList ∧
      (f m.engines[e]).state = .parking ∧ (f m.engines[e]).reservation = none ∧
      ∀ e' : EngineId, e' ≠ e → m.engines[e'].claimant ≠ some i)
    (hr : ∀ p, (f m.engines[e]).reservation = some p → ∃ g, m.image? p = some g ∧ g.declared.pin = some e)
    (ha : (f m.engines[e]).state = .awaitingRefill → ∀ i g, m.engines[e].bound = some i →
      m.image? i = some g → g.awaits)
    (hs : (f m.engines[e]).state = .awaitingRefill ∨ noRefill m e) : (m.modEngine e f).poolOk := by
  have hcase : ∀ e' : EngineId, (m.modEngine e f).engines[e'] = if e = e' then f m.engines[e'] else m.engines[e'] :=
    fun e' => engines_modEngine m e e' f
  have hbound : ∀ e' : EngineId, (m.modEngine e f).engines[e'].bound = m.engines[e'].bound := fun e' => by
    rw [hcase]; split
    · rename_i h; subst h; exact hb
    · rfl
  have hub : ∀ i, m.unbound i → (m.modEngine e f).unbound i := fun i hu e' => by rw [hbound]; exact hu e'
  refine ⟨fun e' => ?_, fun e' e'' i h h' => ?_, fun e' i h => ?_, fun i g hg hu => ?_, fun e' p hp => ?_,
    fun i hi => ?_, fun e' i h => ?_, fun q hq => ?_, hm.once, fun k i e' n hk => ?_⟩
  · rw [hcase]; split
    · rename_i h; subst h; exact hw
    · exact hm.engines e'
  · rw [hbound] at h h'; exact hm.single e' e'' i h h'
  · rw [hbound] at h
    obtain ⟨g, hg, hh, haw⟩ := hm.bound e' i h
    refine ⟨g, hg, ?_, ?_⟩
    · rw [hcase]; split
      · rename_i he; subst he; rw [hd]; exact hh
      · exact hh
    · rw [hcase]; split
      · rename_i he; subst he; exact fun hst => ha hst i g h hg
      · exact haw
  · exact hm.handOff i g hg fun e' => by rw [← hbound]; exact hu e'
  · rw [hcase] at hp
    split at hp
    · rename_i he; subst he; exact hr p hp
    · exact hm.pins e' p hp
  · obtain ⟨a, b, c⟩ := hm.waiting i hi
    refine ⟨a, hub i b, fun e' hc' => ?_⟩
    rw [hcase] at hc'
    split at hc'
    · rename_i he; subst he; exact (hc i hc').2.2.1 hi
    · exact c e' hc'
  · rw [hcase] at h
    by_cases he : e = e'
    · subst he
      rw [if_pos rfl] at h
      obtain ⟨a, b, -, c, d, g⟩ := hc i h
      refine ⟨a, hub i b, ?_, ?_, fun e'' hc'' => ?_⟩
      · rw [hcase, if_pos rfl]; exact c
      · rw [hcase, if_pos rfl]; exact d
      · rw [hcase] at hc''
        split at hc''
        · rename_i h'; exact h'.symm
        · rename_i h'; exact absurd hc'' (g e'' (Ne.symm h'))
    · rw [if_neg he] at h
      obtain ⟨a, b, c, d, g⟩ := hm.claims e' i h
      refine ⟨a, hub i b, ?_, ?_, fun e'' hc'' => ?_⟩
      · rw [hcase, if_neg he]; exact c
      · rw [hcase, if_neg he]; exact d
      · rw [hcase] at hc''
        split at hc''
        · rename_i h'
          subst h'
          exact absurd h ((hc i hc'').2.2.2.2.2 e' (Ne.symm he))
        · exact g e'' hc''
  · obtain ⟨a, b, c⟩ := hm.requests q hq
    refine ⟨?_, by rw [hbound]; exact b, c⟩
    rw [hcase]; split
    · rename_i he
      rcases hs with hs | hs
      · rw [← he]; exact hs
      · exact absurd he.symm (hs.1 q hq)
    · exact a
  · obtain ⟨a, b, c, d⟩ := hm.attached k i e' n hk
    refine ⟨?_, by rw [hbound]; exact b, c, d⟩
    rw [hcase]; split
    · rename_i he
      rcases hs with hs | hs
      · rw [← he]; exact hs
      · subst he; exact absurd hk (hs.2 k i n)
    · exact a

/-! ### One engine works on one image -/

theorem poolOk_work {m m' : MeasureState} {e : EngineId} {i : Nat} {g g' : Image} {x' : Engine}
    (hm : m.poolOk) (hg : m.image? i = some g)
    (he : ∀ e' : EngineId, m'.engines[e'] = if e = e' then x' else m.engines[e'])
    (hi : ∀ j, m'.image? j = if i = j then some g' else m.image? j)
    (hw : ∀ j ∈ m'.waitList, j ∈ m.waitList ∧ j ≠ i)
    (hq : m'.refillPending = m.refillPending) (ht : m'.refillTags = m.refillTags)
    (hfree : noRefill m e) (hb : m.engines[e].bound = none ∨ m.engines[e].bound = some i)
    (hb' : ∀ e' : EngineId, e' ≠ e → m.engines[e'].bound ≠ some i)
    (hc : ∀ e' : EngineId, e' ≠ e → m.engines[e'].claimant ≠ some i)
    (xok : x'.workOk) (xb : x'.bound = some i) (xc : x'.claimant = none)
    (xr : x'.reservation = m.engines[e].reservation) (gd : g'.declared = g.declared)
    (gh : g'.handOff = x'.delivered.length) (ga : x'.state = .awaitingRefill → g'.awaits) : m'.poolOk := by
  have hub : ∀ j, j ≠ i → (m'.unbound j ↔ m.unbound j) := fun j hj => by
    unfold MeasureState.unbound
    refine forall_congr' fun e' => ?_
    rw [he]
    split
    · rename_i h; subst h
      rw [xb]
      rcases hb with hb | hb <;> rw [hb] <;> simp [Ne.symm hj]
    · rfl
  have hup : ∀ j, m.unpinned j → m'.unpinned j := by
    rintro j ⟨g0, hg0, hp⟩
    rw [MeasureState.unpinned, hi]
    split
    · rename_i h; subst h
      rw [hg] at hg0; cases hg0
      exact ⟨g', rfl, by rw [gd]; exact hp⟩
    · exact ⟨g0, hg0, hp⟩
  refine ⟨fun e' => ?_, fun e1 e2 j h1 h2 => ?_, fun e' j h => ?_, fun j gj hgj hu => ?_, fun e' p hp => ?_,
    fun j hj => ?_, fun e' j h => ?_, fun q hq' => ?_, by rw [hq]; exact hm.once, fun k j e' n hk => ?_⟩
  · rw [he]; split
    · exact xok
    · exact hm.engines e'
  · rw [he] at h1 h2
    split at h1 <;> split at h2
    · rename_i h h'; exact h.symm.trans h'
    · rename_i h h'
      rw [xb] at h1; cases h1
      exact absurd h2 (hb' e2 (Ne.symm h'))
    · rename_i h h'
      rw [xb] at h2; cases h2
      exact absurd h1 (hb' e1 (Ne.symm h))
    · exact hm.single e1 e2 j h1 h2
  · rw [he] at h ⊢
    rw [hi]
    split at h
    · rename_i h'
      rw [xb] at h; cases h
      rw [if_pos rfl, if_pos h']
      exact ⟨g', rfl, gh, ga⟩
    · rename_i h'
      have hji : i ≠ j := fun hji => hb' e' (Ne.symm h') (hji ▸ h)
      rw [if_neg hji, if_neg h']
      exact hm.bound e' j h
  · rw [hi] at hgj
    split at hgj
    · rename_i h; subst h
      exact absurd xb (by have := hu e; rwa [he, if_pos rfl] at this)
    · rename_i h
      exact hm.handOff j gj hgj ((hub j (Ne.symm h)).1 hu)
  · have hp' : m.engines[e'].reservation = some p := by
      rw [he] at hp
      split at hp
      · rename_i h; subst h; rw [← xr]; exact hp
      · exact hp
    obtain ⟨g0, hg0, hpin⟩ := hm.pins e' p hp'
    rw [hi]
    split
    · rename_i h; subst h
      rw [hg] at hg0; cases hg0
      exact ⟨g', rfl, by rw [gd]; exact hpin⟩
    · exact ⟨g0, hg0, hpin⟩
  · obtain ⟨hj1, hj2⟩ := hw j hj
    obtain ⟨a, b, c⟩ := hm.waiting j hj1
    refine ⟨hup j a, (hub j hj2).2 b, fun e' hc' => ?_⟩
    rw [he] at hc'
    split at hc'
    · rw [xc] at hc'; cases hc'
    · exact c e' hc'
  · rw [he] at h
    split at h
    · rw [xc] at h; cases h
    · rename_i hne
      obtain ⟨a, b, c, d, f⟩ := hm.claims e' j h
      have hji : j ≠ i := fun hji => hc e' (Ne.symm hne) (hji ▸ h)
      refine ⟨hup j a, (hub j hji).2 b, ?_, ?_, fun e'' hc'' => ?_⟩
      · rw [he, if_neg hne]; exact c
      · rw [he, if_neg hne]; exact d
      · rw [he] at hc''
        split at hc''
        · rw [xc] at hc''; cases hc''
        · exact f e'' hc''
  · rw [hq] at hq'
    obtain ⟨a, b, c⟩ := hm.requests q hq'
    have hne : e ≠ q.engine := Ne.symm (hfree.1 q hq')
    rw [he, if_neg hne, ht]
    exact ⟨a, b, c⟩
  · rw [ht] at hk
    obtain ⟨a, b, c, d⟩ := hm.attached k j e' n hk
    have hne : e ≠ e' := fun h => hfree.2 k j n (by rw [h]; exact hk)
    rw [he, if_neg hne]
    refine ⟨a, b, fun g0 hg0 => c g0 ?_, by rw [ht]; exact d⟩
    rw [hi] at hg0
    split at hg0
    · rename_i h; subst h; exact absurd b (hb' e' (Ne.symm hne))
    · exact hg0

/-! ### The next-step choice -/

/-- What the choice of an engine with a bound image leads to (R55). -/
structure Chosen (m m' : MeasureState) (e : EngineId) (i : Nat) (g' : Image) (x' : Engine) : Prop where
  engines : ∀ e' : EngineId, m'.engines[e'] = if e = e' then x' else m.engines[e']
  images : ∀ j, m'.image? j = if i = j then some g' else m.image? j
  waitList : m'.waitList = m.waitList
  pending : m'.refillPending = m.refillPending
  tags : m'.refillTags = m.refillTags
  segments : m'.segments = m.segments

theorem wholeOrNot_view (g : Image) : imageView (wholeOrNot g) = imageView g := by
  unfold wholeOrNot
  split <;> rfl

theorem finishIfWhole_same (m : MeasureState) (i : Nat) :
    ((m.finishIfWhole i).waitList, (m.finishIfWhole i).refillPending, (m.finishIfWhole i).refillTags,
      (m.finishIfWhole i).segments, (m.finishIfWhole i).engines) =
      (m.waitList, m.refillPending, m.refillTags, m.segments, m.engines) := by
  unfold MeasureState.finishIfWhole
  split <;> rfl

theorem chosen_modEngine {m : MeasureState} {e : EngineId} {i : Nat} {g : Image} (hg : m.image? i = some g)
    (f : Engine → Engine) : Chosen m (m.modEngine e f) e i g (f m.engines[e]) := by
  refine ⟨fun e' => ?_, fun j => ?_, rfl, rfl, rfl, rfl⟩
  · rw [engines_modEngine]
    split
    · rename_i h; subst h; rfl
    · rfl
  · split
    · rename_i h; subst h; exact hg
    · rfl

theorem chosen_take {m : MeasureState} {e : EngineId} {i : Nat} {g : Image} (hg : m.image? i = some g)
    (f : Engine → Engine) (h : Image → Image) :
    Chosen m (((m.modEngine e f).modImage i h).finishIfWhole i) e i (wholeOrNot (h g)) (f m.engines[e]) := by
  have hs := finishIfWhole_same ((m.modEngine e f).modImage i h) i
  simp only [Prod.mk.injEq] at hs
  obtain ⟨h1, h2, h3, h4, h5⟩ := hs
  refine ⟨fun e' => ?_, fun j => ?_, h1, h2, h3, h4⟩
  · rw [h5]
    exact (chosen_modEngine hg f).engines e'
  · rw [image?_finishIfWhole, image?_modImage]
    split
    · rename_i hij; subst hij
      rw [image?_modEngine, hg]; rfl
    · rfl

theorem Engine.workOk_bound {x : Engine} {i : Nat} (hb : x.bound = some i) (hd : x.discard = false)
    (hf : x.manifest = false) (hs : x.state ≠ .free)
    (hl : x.delivered = [] ∨ ∃ step, x.state = .absorbing step) : x.workOk := by
  refine ⟨fun h => absurd h hs, fun _ => hd, ?_, fun h => (by rw [hb] at h; cases h), fun h => ?_⟩
  · rw [hd, hf]; simp
  · rcases hl with hl | hl
    · exact absurd hl h
    · exact .inr hl

/-- What the choice keeps and leads to: the engine works on, in a state that is not FREE, and the image is
placed as it was. -/
theorem choose_work {m : MeasureState} {e : EngineId} {i : Nat} {g : Image}
    (hb : m.engines[e].bound = some i) (hg : m.image? i = some g)
    (hh : g.handOff = m.engines[e].delivered.length) (hd : m.engines[e].discard = false)
    (hf : m.engines[e].manifest = false) (hp : g.placed) (hr : runsOk g.runs) :
    ∃ g' x', Chosen m (m.choose e) e i g' x' ∧ x'.workOk ∧ x'.bound = some i ∧
      x'.claimant = m.engines[e].claimant ∧ x'.reservation = m.engines[e].reservation ∧
      g'.declared = g.declared ∧ g'.handOff = x'.delivered.length ∧
      (x'.state = .awaitingRefill → g'.awaits) ∧ g'.placed := by
  have hdel : g.handOff = 0 → m.engines[e].delivered = [] := fun h0 => by
    rw [h0] at hh; exact List.eq_nil_of_length_eq_zero hh.symm
  unfold MeasureState.choose
  rw [hb]
  simp only [hg]
  split
  · rename_i hcur
    have h0 : g.handOff = 0 := by have := hp.1; omega
    refine ⟨_, _, chosen_modEngine hg _, Engine.workOk_bound hb hd hf (by simp) (.inl (hdel h0)),
      hb, rfl, rfl, rfl, hh, by simp, hp⟩
  · rename_i hcur
    split
    · rename_i hpos
      unfold MeasureState.takeDelivered
      split
      · rename_i hnil
        rw [hnil] at hh
        simp at hh; omega
      · rename_i data rest hcons
        refine ⟨_, _, chosen_take hg (fun x => { x.absorb data with delivered := rest })
          (fun g => { g.advance with handOff := g.handOff - 1 }), ?_⟩
        obtain ⟨v1, v2, v3, v4⟩ := view_eq
          (wholeOrNot_view { g.advance with handOff := g.handOff - 1 })
        refine ⟨Engine.workOk_bound hb hd hf (by simp [Engine.absorb]) (.inr ⟨_, rfl⟩), hb, rfl, rfl, v1, ?_, ?_, ?_⟩
        · rw [v3]
          simp only
          rw [hh, hcons]; simp
        · simp [Engine.absorb]
        · refine placed_congr (wholeOrNot_view _) ?_
          obtain ⟨p1, p2⟩ := hp
          refine ⟨?_, fun r hr' => ?_⟩
          · simp only [Image.advance]; omega
          · have := p2 r hr'
            simp only [Image.advance]; omega
    · rename_i hpos
      have h0 : g.handOff = 0 := by omega
      split
      · refine ⟨_, _, chosen_modEngine hg _, Engine.workOk_bound hb hd hf (by simp) (.inl (hdel h0)),
      hb, rfl, rfl, rfl, hh, by simp, hp⟩
      · split
        · rename_i hready
          simp only [MeasureState.readyImage, Bool.and_eq_true] at hready
          obtain ⟨⟨-, hhead⟩, -⟩ := hready
          split
          · rename_i start beats runs hruns
            cases beats with
            | nil =>
              have := hr.2 _ (by rw [hruns]; exact List.mem_cons_self)
              simp [RunBody.sizeOk] at this
            | cons b rest =>
            unfold MeasureState.takeStaged
            simp only [hg, Option.bind_some, hruns, headStagedBeat]
            refine ⟨_, _, chosen_take hg (·.absorb b)
              (fun g => { g.advance with runs := dropStagedBeat g.runs }), ?_⟩
            obtain ⟨v1, v2, v3, v4⟩ := view_eq
              (wholeOrNot_view { g.advance with runs := dropStagedBeat g.runs })
            have hstart : start = g.cursor := by
              simp only [headReady, hruns, Bool.and_eq_true, beq_iff_eq] at hhead
              exact hhead.1.1
            refine ⟨Engine.workOk_bound hb hd hf (by simp [Engine.absorb]) (.inr ⟨_, rfl⟩), hb, rfl, rfl, v1, ?_, ?_, ?_⟩
            · exact v3.trans hh
            · simp [Engine.absorb]
            · refine placed_congr (wholeOrNot_view _) ?_
              obtain ⟨p1, p2⟩ := hp
              rw [hruns] at p2 hr
              have hhd := p2 _ List.mem_cons_self
              have hst : (⟨start, .staged (b :: rest)⟩ : Run).stop = start + 16 * (rest.length + 1) := rfl
              rw [hst] at hhd
              have hpw := (List.pairwise_cons.1 hr.1).1
              refine ⟨?_, fun r hr' => ?_⟩
              · simp only [Image.advance]; omega
              · simp only [Image.advance, hruns] at hr' ⊢
                have htail : ∀ r ∈ runs, g.cursor + 16 + 16 * g.handOff ≤ r.start ∧ r.stop ≤ g.declared.length := by
                  intro r hr''
                  have h1 := p2 r (List.mem_cons_of_mem _ hr'')
                  have h2 := (hpw r hr'').1
                  rw [hst] at h2
                  omega
                cases rest with
                | nil => exact htail r hr'
                | cons c rest =>
                  rcases List.mem_cons.1 hr' with rfl | hr'
                  · simp only [List.length_cons] at hhd
                    simp only [Run.stop, RunBody.beatCount, List.length_cons]
                    omega
                  · exact htail r hr'
          · rename_i hns
            have haw : g.awaits := by
              refine ⟨h0, ?_⟩
              unfold headReady at hhead
              cases hruns : g.runs with
              | nil => rw [hruns] at hhead; simp at hhead
              | cons r runs =>
                rw [hruns] at hhead
                simp only [Bool.and_eq_true, beq_iff_eq] at hhead
                refine ⟨r, runs, rfl, ?_, hhead.1.1⟩
                obtain ⟨start, body⟩ := r
                cases body with
                | staged b => exact absurd hruns (hns start b runs)
                | deferred _ _ _ => rfl
            refine ⟨_, _, chosen_modEngine hg _, Engine.workOk_bound hb hd hf (by simp) (.inl (hdel h0)),
              hb, rfl, rfl, rfl, hh, fun _ => haw, hp⟩
        · refine ⟨_, _, chosen_modEngine hg _, Engine.workOk_bound hb hd hf (by simp) (.inl (hdel h0)),
      hb, rfl, rfl, rfl, hh, by simp, hp⟩

end Sys2Proof.Laws
end

