-- ==== Sys2Proof/Laws/Quiet.lean ====
section
/-! SUPPORT. What the pool, the refill unit and the report unit do to the images at the end of an event: an
image that is not in FILLING is left alone, but for a transitions count that a record's capture clears. -/

namespace Sys2Proof.Laws

open Sys2Proof.Machine

/-- What beats taken at the end of an event can do to one image. -/
def quietStep (g g' : Image) : Prop :=
  g' = g ∨ (g.state = .filling ∧ g'.declared = g.declared ∧ g'.epoch = g.epoch ∧ g'.inFlight = g.inFlight ∧
    g.cursor ≤ g'.cursor ∧
    (g'.state = .filling ∨ (g'.state = .finishing none ∧ g'.cursor = g'.declared.length)))

theorem quietStep_trans {a b c : Image} (h : quietStep a b) (h' : quietStep b c) : quietStep a c := by
  rcases h with rfl | h
  · exact h'
  · rcases h' with rfl | h'
    · exact .inr h
    · obtain ⟨h1, h2, h3, h4, h5, -⟩ := h
      obtain ⟨-, h2', h3', h4', h5', h6'⟩ := h'
      exact .inr ⟨h1, h2'.trans h2, h3'.trans h3, h4'.trans h4, Nat.le_trans h5 h5', h6'⟩

/-- The images take quiet steps, and the verified record stays. -/
def Quiet (m m' : MeasureState) : Prop :=
  m'.verified = m.verified ∧
    ∀ i g, m.image? i = some g → ∃ g', m'.image? i = some g' ∧ quietStep g g'

theorem Quiet.refl (m : MeasureState) : Quiet m m := ⟨rfl, fun _ g h => ⟨g, h, .inl rfl⟩⟩

theorem Quiet.trans {a b c : MeasureState} (h : Quiet a b) (h' : Quiet b c) : Quiet a c := by
  refine ⟨h'.1.trans h.1, fun i g hg => ?_⟩
  obtain ⟨g1, hg1, hs1⟩ := h.2 i g hg
  obtain ⟨g2, hg2, hs2⟩ := h'.2 i g1 hg1
  exact ⟨g2, hg2, quietStep_trans hs1 hs2⟩

/-- A change of engines, lists of waiting and refill tags alone. -/
theorem Quiet.of_same {m m' : MeasureState} (h : (m'.images, m'.verified) = (m.images, m.verified)) :
    Quiet m m' := by
  simp only [Prod.mk.injEq] at h
  exact ⟨h.2, fun i g hg => ⟨g, by rw [image?_congr h.1, hg], .inl rfl⟩⟩

/-- An image on which an engine may choose its next step without touching one that is not in FILLING. -/
def restful (g : Image) : Prop := g.state = .filling ∨ g.cursor = g.declared.length

theorem restful_step {g g' : Image} (h : restful g) (hs : quietStep g g') : restful g' := by
  rcases hs with rfl | ⟨-, -, -, -, -, h | h⟩
  · exact h
  · exact .inl h
  · exact .inr h.2

/-- A set of indices all of whose images are restful. -/
def allRestful (m : MeasureState) (l : List Nat) : Prop :=
  ∀ i ∈ l, ∀ g, m.image? i = some g → restful g

theorem allRestful_quiet {m m' : MeasureState} {l : List Nat} (h : allRestful m l) (hq : Quiet m m')
    (hl : m'.images.length = m.images.length) : allRestful m' l := by
  intro i hi g' hg'
  have hs := (image?_isSome m' i).1 (by rw [hg']; rfl)
  rw [hl] at hs
  obtain ⟨g, hg⟩ := Option.isSome_iff_exists.1 ((image?_isSome m i).2 hs)
  obtain ⟨g'', hg'', hst⟩ := hq.2 i g hg
  rw [hg'] at hg''
  cases hg''
  exact restful_step (h i hi g hg) hst

theorem restful_of_ready {m : MeasureState} {i : Nat} (h : m.ready i = true) {g : Image}
    (hg : m.image? i = some g) : restful g := by
  unfold MeasureState.ready at h
  rw [hg, Option.any_some] at h
  unfold MeasureState.readyImage at h
  simp only [Bool.and_eq_true, beq_iff_eq] at h
  exact .inl h.1.1

/-! ### Takes and the choice -/

theorem wholeOrNot_quiet {g g' : Image} (h : g.state = .filling) (hs : g'.state = g.state)
    (hd : g'.declared = g.declared) (he : g'.epoch = g.epoch) (hi : g'.inFlight = g.inFlight)
    (hc : g.cursor ≤ g'.cursor) : quietStep g (wholeOrNot g') := by
  unfold wholeOrNot
  split
  · rename_i hw
    exact .inr ⟨h, hd, he, hi, hc, .inr ⟨rfl, hw.2⟩⟩
  · exact .inr ⟨h, hd, he, hi, hc, .inl (hs.trans h)⟩

theorem quiet_take {m m' : MeasureState} {i : Nat} {g g' : Image} (hv : m'.verified = m.verified)
    (hg : m.image? i = some g) (hg' : m'.image? i = some (wholeOrNot g'))
    (ho : ∀ j, j ≠ i → m'.image? j = m.image? j) (hq : quietStep g (wholeOrNot g')) : Quiet m m' := by
  refine ⟨hv, fun j x hx => ?_⟩
  by_cases hj : j = i
  · subst hj
    rw [hg] at hx
    cases hx
    exact ⟨_, hg', hq⟩
  · exact ⟨x, (ho j hj).trans hx, .inl rfl⟩

theorem verified_finishIfWhole (m : MeasureState) (i : Nat) : (m.finishIfWhole i).verified = m.verified := by
  unfold MeasureState.finishIfWhole
  split <;> rfl

theorem quiet_takeDelivered {m : MeasureState} {e : EngineId} {i : Nat} {g : Image}
    (hg : m.image? i = some g) (hs : g.state = .filling) : Quiet m (m.takeDelivered e i) := by
  cases hd : m.engines[e].delivered with
  | nil =>
    have : m.takeDelivered e i = m := by unfold MeasureState.takeDelivered; rw [hd]
    rw [this]
    exact .refl m
  | cons b rest =>
    refine quiet_take ?_ hg (takeDelivered_cons hd hg).2 (fun j hj => image?_takeDelivered_ne m e i j hj)
      (wholeOrNot_quiet hs rfl rfl rfl rfl (Nat.le_add_right _ _))
    unfold MeasureState.takeDelivered
    rw [hd]
    exact verified_finishIfWhole _ i

theorem quiet_takeStaged {m : MeasureState} {e : EngineId} {i : Nat} {g : Image}
    (hg : m.image? i = some g) (hs : g.state = .filling) : Quiet m (m.takeStaged e i) := by
  cases hb : headStagedBeat g.runs with
  | none =>
    have : m.takeStaged e i = m := by
      unfold MeasureState.takeStaged
      rw [hg, Option.bind_some, hb]
    rw [this]
    exact .refl m
  | some b =>
    refine quiet_take ?_ hg (takeStaged_cons (e := e) hg hb).2 (fun j hj => image?_takeStaged_ne m e i j hj)
      (wholeOrNot_quiet hs rfl rfl rfl rfl (Nat.le_add_right _ _))
    unfold MeasureState.takeStaged
    rw [hg, Option.bind_some, hb]
    exact verified_finishIfWhole _ i

theorem quiet_choose {m : MeasureState} {e : EngineId}
    (h : ∀ i g, m.engines[e].bound = some i → m.image? i = some g → restful g) : Quiet m (m.choose e) := by
  unfold MeasureState.choose
  split
  · exact .refl m
  · rename_i i hb
    split
    · exact .refl m
    · rename_i g hg
      split
      · exact .of_same rfl
      · rename_i hc
        have hs : g.state = .filling := (h i g hb hg).resolve_right hc
        split
        · exact quiet_takeDelivered hg hs
        · split
          · exact .of_same rfl
          · split
            · split
              · exact quiet_takeStaged hg hs
              · exact .of_same rfl
            · exact .of_same rfl

theorem quiet_grant {m : MeasureState} {e : EngineId} {i : Nat}
    (h : ∀ g, m.image? i = some g → restful g) : Quiet m (m.grant e i) := by
  unfold MeasureState.grant
  split
  · exact .refl m
  · split
    · exact .of_same rfl
    · simp only
      split
      · exact .of_same rfl
      · refine Quiet.trans (b := MeasureState.modEngine { m with waitList := leave m.waitList i } e
          (fun x => { x with bound := some i, claimant := none, context := some freshContext }))
          (.of_same rfl) (quiet_choose fun j g hj hg => ?_)
        rw [engines_modEngine_self] at hj
        cases hj
        exact h g hg

/-! ### The end of an event -/

theorem waitList_finishIfWhole (m : MeasureState) (i : Nat) : (m.finishIfWhole i).waitList = m.waitList := by
  unfold MeasureState.finishIfWhole
  split <;> rfl

theorem waitList_choose (m : MeasureState) (e : EngineId) : (m.choose e).waitList = m.waitList := by
  unfold MeasureState.choose
  split
  · rfl
  · split
    · rfl
    · split
      · rfl
      · split
        · unfold MeasureState.takeDelivered
          split
          · rfl
          · exact waitList_finishIfWhole _ _
        · split
          · rfl
          · split
            · split
              · unfold MeasureState.takeStaged
                split
                · rfl
                · exact waitList_finishIfWhole _ _
              · rfl
            · rfl

theorem waitList_grant_subset (m : MeasureState) (e : EngineId) (i : Nat) :
    ∀ x ∈ (m.grant e i).waitList, x ∈ m.waitList := by
  have hl : ∀ x ∈ leave m.waitList i, x ∈ m.waitList := fun x hx => ((mem_leave _ _ _).1 hx).1
  unfold MeasureState.grant
  split
  · exact fun _ h => h
  · split
    · exact hl
    · simp only
      split
      · exact hl
      · rw [waitList_choose]
        exact hl

theorem quiet_withdrawUnready (m : MeasureState) : Quiet m m.withdrawUnready := by
  unfold MeasureState.withdrawUnready
  exact foldl_rel Quiet .refl (fun _ _ _ => .trans) (fun (m : MeasureState) (r : RefillRequest) => m.hold r.engine)
    (fun _ _ => .of_same rfl) _ { m with refillPending := m.refillPending.filter (fun r => m.ready r.image) }

theorem quiet_resumeHolding (m : MeasureState) (e : EngineId) : Quiet m (m.resumeHolding e) := by
  unfold MeasureState.resumeHolding
  split
  · rename_i h
    refine quiet_choose fun i g hb hg => ?_
    simp only [Bool.and_eq_true] at h
    rw [hb, Option.any_some] at h
    exact restful_of_ready h.2 hg
  · exact .refl m

theorem quiet_grantPinned (m : MeasureState) (e : EngineId) : Quiet m (m.grantPinned e) := by
  unfold MeasureState.grantPinned
  split
  · split
    · rename_i h
      simp only [Bool.and_eq_true] at h
      exact quiet_grant fun g hg => restful_of_ready h.1.2 hg
    · exact .refl m
  · exact .refl m

theorem waitList_resumeHolding (m : MeasureState) (e : EngineId) : (m.resumeHolding e).waitList = m.waitList := by
  unfold MeasureState.resumeHolding
  split
  · exact waitList_choose m e
  · rfl

theorem waitList_grantPinned_subset (m : MeasureState) (e : EngineId) :
    ∀ x ∈ (m.grantPinned e).waitList, x ∈ m.waitList := by
  unfold MeasureState.grantPinned
  split
  · split
    · exact waitList_grant_subset m e _
    · exact fun _ h => h
  · exact fun _ h => h

/-- Two folds of the pool in one: images quiet, the waiting images restful, the count of images kept. -/
theorem quiet_fold (f : MeasureState → EngineId → MeasureState) (hq : ∀ m e, Quiet m (f m e))
    (hl : ∀ m e, (f m e).images.length = m.images.length)
    (hw : ∀ m e, ∀ x ∈ (f m e).waitList, x ∈ m.waitList) (l : List EngineId) (m : MeasureState)
    (h : allRestful m m.waitList) :
    Quiet m (l.foldl f m) ∧ allRestful (l.foldl f m) (l.foldl f m).waitList := by
  induction l generalizing m with
  | nil => exact ⟨.refl m, h⟩
  | cons e l ih =>
    have h' : allRestful (f m e) (f m e).waitList :=
      allRestful_quiet (fun i hi => h i (hw m e i hi)) (hq m e) (hl m e)
    have := ih (f m e) h'
    exact ⟨(hq m e).trans this.1, this.2⟩

theorem quiet_arbitrate (n : Nat) (m : MeasureState) (h : allRestful m m.waitList) : Quiet m (m.arbitrate n) := by
  induction n generalizing m with
  | zero => exact .refl m
  | succ n ih =>
    unfold MeasureState.arbitrate
    split
    · rename_i m' hm
      unfold MeasureState.arbitrateOne at hm
      split at hm
      · cases hm
      · rename_i i rest hw
        have hi : ∀ g, m.image? i = some g → restful g := fun g hg => h i (by rw [hw]; simp) g hg
        have hrest : allRestful { m with waitList := rest } rest :=
          fun j hj g hg => h j (by rw [hw]; simp [hj]) g hg
        split at hm
        · rename_i e _
          cases hm
          have hq : Quiet m (MeasureState.grant { m with waitList := rest } e i) :=
            Quiet.trans (b := { m with waitList := rest }) (.of_same rfl) (quiet_grant hi)
          refine hq.trans (ih _ ?_)
          intro j hj
          have hj' := waitList_grant_subset { m with waitList := rest } e i j hj
          refine allRestful_quiet (m := { m with waitList := rest }) (l := rest) hrest (quiet_grant hi)
            (evolves_grant _ e i).length j hj'
        · split at hm
          · rename_i e _
            cases hm
            refine Quiet.trans (b := MeasureState.modEngine { m with waitList := rest } e
              (fun x => { x with state := .parking, claimant := some i })) (.of_same rfl) (ih _ ?_)
            exact fun j hj g hg => hrest j hj g hg
          · cases hm
    · exact .refl m

theorem quiet_settlePool (m : MeasureState) : Quiet m m.settlePool := by
  unfold MeasureState.settlePool
  simp only
  have h1 : Quiet m m.withdrawUnready.dropUnready :=
    (quiet_withdrawUnready m).trans (.of_same rfl)
  have hr : allRestful m.withdrawUnready.dropUnready m.withdrawUnready.dropUnready.waitList := by
    intro i hi g hg
    have := (List.mem_filter.1 hi).2
    exact restful_of_ready this hg
  obtain ⟨h2, hr2⟩ := quiet_fold MeasureState.resumeHolding quiet_resumeHolding
    (fun m e => (evolves_resumeHolding m e).length)
    (fun m e x hx => by rw [waitList_resumeHolding] at hx; exact hx) engineIds _ hr
  obtain ⟨h3, hr3⟩ := quiet_fold MeasureState.grantPinned quiet_grantPinned
    (fun m e => (evolves_grantPinned m e).length) waitList_grantPinned_subset engineIds _ hr2
  refine (h1.trans (h2.trans h3)).trans ?_
  generalize engineIds.foldl MeasureState.grantPinned
    (engineIds.foldl MeasureState.resumeHolding m.withdrawUnready.dropUnready) = n at hr3 ⊢
  refine Quiet.trans (b := n.joinWaiting) (.of_same rfl) (quiet_arbitrate _ _ ?_)
  have hj : ∀ (l w : List Nat) (x : Nat), x ∈ l.foldl joinTail w → x ∈ w ∨ x ∈ l := by
    intro l
    induction l with
    | nil => exact fun w x h => .inl h
    | cons a l ih =>
      intro w x h
      rcases ih _ _ h with h | h
      · rcases (mem_joinTail _ _ _).1 h with h | h
        · exact .inl h
        · exact .inr (by simp [h])
      · exact .inr (by simp [h])
  intro i hi g hg
  rcases hj _ _ _ hi with hi | hi
  · exact hr3 i hi g hg
  · have := (List.mem_filter.1 hi).2
    unfold MeasureState.mayWait at this
    simp only [Bool.and_eq_true] at this
    exact restful_of_ready this.1.1.1 hg

theorem quiet_serveFrom (l : List RefillRequest) (m : MeasureState) : Quiet m (m.serveFrom l).1 := by
  induction l generalizing m with
  | nil => exact .refl m
  | cons r rest ih =>
    unfold MeasureState.serveFrom
    split
    · exact ih m
    · rename_i x h
      refine Quiet.trans ?_ (ih x.1)
      unfold MeasureState.issueRefill at h
      split at h
      · cases h; exact .of_same rfl
      · cases h

theorem quiet_serveRefills (m : MeasureState) : Quiet m m.serveRefills.1 := by
  unfold MeasureState.serveRefills
  exact Quiet.trans (b := m.requestRefills) (.of_same rfl) ((quiet_serveFrom _ _).trans (.of_same rfl))

/-- What the report unit's choice does to the images: a captured record's count becomes 0 (R10). -/
theorem chooseReport_images (man : ManifestState) (m : MeasureState) (r : ReportState) :
    (chooseReport man m r).2.1.verified = m.verified ∧
    ∀ i g, m.image? i = some g → ∃ g', (chooseReport man m r).2.1.image? i = some g' ∧
      g' = { g with transitions := g'.transitions } ∧ (g'.transitions = g.transitions ∨ g'.transitions = 0) := by
  have hsame : m.verified = m.verified ∧ ∀ i g, m.image? i = some g → ∃ g', m.image? i = some g' ∧
      g' = { g with transitions := g'.transitions } ∧
      (g'.transitions = g.transitions ∨ g'.transitions = 0) :=
    ⟨rfl, fun i g hg => ⟨g, hg, rfl, .inl rfl⟩⟩
  unfold chooseReport
  split
  · simp only
    split
    · split <;> exact hsame
    · split
      · rename_i subject rest hs hf
        split
        · refine ⟨rfl, fun i g hg => ?_⟩
          have hi : (m.modImage subject (fun g => { g with transitions := 0 })).image? i =
              if subject = i then some { g with transitions := 0 } else some g := by
            rw [image?_modImage, hg]
            rfl
          by_cases hsi : subject = i
          · rw [if_pos hsi] at hi
            exact ⟨_, hi, rfl, .inr rfl⟩
          · rw [if_neg hsi] at hi
            exact ⟨g, hi, rfl, .inl rfl⟩
        · exact hsame
      · split
        · split <;> exact hsame
        · exact hsame
  · exact hsame

/-- The end of an event: what becomes of one image. -/
theorem settle_image {s : State} {i : Nat} {g : Image} (hg : s.measure.image? i = some g) :
    ∃ g', s.settle.measure.image? i = some g' ∧
      (g.state ≠ .filling → g' = { g with transitions := g'.transitions } ∧
        (g'.transitions = g.transitions ∨ g'.transitions = 0)) ∧
      (g.state = .filling → (g'.state = .filling ∨ g'.state = .finishing none) ∧ g.cursor ≤ g'.cursor ∧
        g'.declared = g.declared ∧ g'.epoch = g.epoch ∧ g'.inFlight = g.inFlight) := by
  have hq := (quiet_settlePool s.measure).trans (quiet_serveRefills _)
  obtain ⟨g1, hg1, hs1⟩ := hq.2 i g hg
  obtain ⟨g2, hg2, hs2, ht2⟩ := (chooseReport_images s.manifest _ s.report).2 i g1 hg1
  refine ⟨g2, hg2, fun hn => ?_, fun hf => ?_⟩
  · have : g1 = g := by
      rcases hs1 with h | h
      · exact h
      · exact absurd h.1 hn
    subst this
    exact ⟨hs2, ht2⟩
  · rcases hs1 with h | ⟨-, h2, h3, h4, h5, h6⟩
    · subst h
      rw [hs2]
      exact ⟨.inl hf, Nat.le_refl _, rfl, rfl, rfl⟩
    · rw [hs2]
      refine ⟨?_, h5, h2, h3, h4⟩
      rcases h6 with h | h
      · exact .inl h
      · exact .inr h.1

theorem settle_verified (s : State) : s.settle.measure.verified = s.measure.verified :=
  (chooseReport_images s.manifest _ s.report).1.trans
    ((quiet_settlePool s.measure).trans (quiet_serveRefills _)).1

end Sys2Proof.Laws
end

