-- ==== Sys2Proof/Laws/PoolSettle.lean ====
section
/-! SUPPORT. Grants, the arbiter, readiness acted on and the refill unit keep the laws of the pool, and
so does `State.settle`. -/

namespace Sys2Proof.Laws
open Sys2Proof.Machine

theorem Chosen.places {m m' : MeasureState} {e : EngineId} {i : Nat} {g g' : Image} {x' : Engine}
    (h : Chosen m m' e i g' x') (hg : m.image? i = some g) (gd : g'.declared = g.declared) (gp : g'.placed)
    (hm : m.placesOk) : m'.placesOk := by
  rw [placesOk_iff] at *
  refine ⟨segmentsOk_congr h.segments (fun j gj hj => ?_) hm.1, fun j gj hj => ?_⟩
  · rw [h.images]
    split
    · rename_i hij; subst hij
      rw [hg] at hj; cases hj
      exact ⟨g', rfl, gd⟩
    · exact ⟨gj, hj, rfl⟩
  · rw [h.images] at hj
    split at hj
    · cases hj; exact gp
    · exact hm.2 j gj hj

theorem bound_flags {x : Engine} {i : Nat} (h : x.workOk) (hb : x.bound = some i) :
    x.discard = false ∧ x.manifest = false ∧ x.state ≠ .free := by
  refine ⟨?_, ?_, fun hs => by rw [(h.free hs).1] at hb; cases hb⟩
  · cases hd : x.discard with
    | false => rfl
    | true => rw [h.elsewhere (.inl hd)] at hb; cases hb
  · cases hd : x.manifest with
    | false => rfl
    | true => rw [h.elsewhere (.inr hd)] at hb; cases hb

/-- The choice of an engine that works on an image and awaits no refill (R55). -/
theorem kept_choose {m : MeasureState} {e : EngineId} {i : Nat} (hr : m.runTableOk) (hm : poolKept m)
    (hb : m.engines[e].bound = some i) (hf : noRefill m e) (hc : m.engines[e].claimant = none) :
    poolKept (m.choose e) := by
  obtain ⟨hp, hq⟩ := hm
  obtain ⟨g, hg, hh, -⟩ := hp.bound e i hb
  obtain ⟨hd, hman, -⟩ := bound_flags (hp.engines e) hb
  obtain ⟨g', x', ch, c1, c2, c3, c4, c5, c6, c7, c8⟩ := choose_work hb hg hh hd hman
    (((placesOk_iff m).1 hq).2 i g hg) (hr.1 g (mem_images hg))
  refine ⟨poolOk_work hp hg ch.engines ch.images (fun j hj => ?_) ch.pending ch.tags hf (.inr hb)
    (fun e' he' hb' => he' (hp.single e' e i hb' hb)) (fun e' _ hc' => (hp.claims e' i hc').2.1 e hb)
    c1 c2 (c3.trans hc) c4 c5 c6 c7, ch.places hg c5 c8 hq⟩
  rw [ch.waitList] at hj
  exact ⟨hj, fun hji => (hp.waiting j hj).2.1 e (hji ▸ hb)⟩

/-- A grant of a FREE engine to an image that no engine is bound or promised to (R53). -/
theorem kept_grant {m : MeasureState} {e : EngineId} {i : Nat} (hr : m.runTableOk) (hm : poolKept m)
    (hs : m.engines[e].state = .free) (hu : m.unbound i)
    (hcl : ∀ e' : EngineId, e' ≠ e → m.engines[e'].claimant ≠ some i) : poolKept (m.grant e i) := by
  obtain ⟨hp, hq⟩ := hm
  unfold MeasureState.grant
  split
  · exact ⟨hp, hq⟩
  · rename_i g hg
    have hh := hp.handOff i g hg hu
    obtain ⟨hb, hd, hman⟩ := (hp.engines e).free hs
    have hdel := (hp.engines e).nothing hb
    have hf : noRefill m e := noRefill_of_state hp (by rw [hs]; simp)
    have hplaced := ((placesOk_iff m).1 hq).2 i g hg
    have key : ∀ (f : Engine → Engine) (m' : MeasureState) (g' : Image) (x' : Engine),
        Chosen ({ m with waitList := leave m.waitList i }) m' e i g' x' → x'.workOk → x'.bound = some i →
        x'.claimant = none → x'.reservation = m.engines[e].reservation → g'.declared = g.declared →
        g'.handOff = x'.delivered.length → (x'.state = .awaitingRefill → g'.awaits) → g'.placed →
        poolKept m' := by
      intro _ m' g' x' ch c1 c2 c3 c4 c5 c6 c7 c8
      refine ⟨poolOk_work hp hg ch.engines ch.images (fun j hj => ?_) ch.pending ch.tags hf (.inl hb)
        (fun e' _ => hu e') hcl c1 c2 c3 c4 c5 c6 c7, ?_⟩
      · rw [ch.waitList] at hj
        exact (mem_leave _ _ _).1 hj
      · exact Chosen.places (m := { m with waitList := leave m.waitList i }) ch hg c5 c8
          (placesOk_congr (m := m) rfl rfl hq)
    simp only
    split
    · exact key id _ _ _ (chosen_modEngine (m := { m with waitList := leave m.waitList i }) hg _)
        (Engine.workOk_bound rfl hd hman (by simp) (.inl hdel)) rfl rfl rfl rfl (hh.trans (congrArg List.length hdel).symm)
        (by simp) hplaced
    · split
      · exact key id _ _ _ (chosen_modEngine (m := { m with waitList := leave m.waitList i }) hg _)
          (Engine.workOk_bound rfl hd hman (by simp) (.inr ⟨_, rfl⟩)) rfl rfl rfl rfl
          (hh.trans (congrArg List.length hdel).symm) (by simp) hplaced
      · let f : Engine → Engine := fun x => { x with bound := some i, claimant := none, context := some freshContext }
        let m1 : MeasureState := ({ m with waitList := leave m.waitList i } : MeasureState).modEngine e f
        have hx : m1.engines[e] = f m.engines[e] := engines_modEngine_self _ e f
        obtain ⟨g', x', ch, c1, c2, c3, c4, c5, c6, c7, c8⟩ := choose_work (m := m1) (e := e) (i := i) (g := g)
          (by rw [hx]) hg (by rw [hx, hh]; simp only [f]; rw [hdel]; rfl) (by rw [hx]; exact hd)
          (by rw [hx]; exact hman) hplaced (hr.1 g (mem_images hg))
        refine key id (m1.choose e) g' x' ⟨fun e' => ?_, ch.images, ch.waitList, ch.pending, ch.tags, ch.segments⟩
          c1 c2 (c3.trans (by rw [hx])) (c4.trans (by rw [hx])) c5 c6 c7 c8
        rw [ch.engines]
        split
        · rfl
        · rename_i hne
          exact engines_modEngine_ne f (Ne.symm hne)

/-! ### The pool at the end of an event -/

theorem engine_delivered {x : Engine} (h : x.workOk) (h1 : x.state ≠ .restoring)
    (h2 : ∀ step, x.state ≠ .absorbing step) : x.delivered = [] := by
  cases hd : x.delivered with
  | nil => rfl
  | cons b l =>
    rcases h.delivered (by rw [hd]; simp) with h' | ⟨step, h'⟩
    · exact absurd h' h1
    · exact absurd h' (h2 step)

theorem poolOk_hold {m : MeasureState} {e : EngineId} (hm : m.poolOk)
    (hs : m.engines[e].state = .awaitingRefill ∨ m.engines[e].state = .holding) {i : Nat}
    (hb : m.engines[e].bound = some i) (hf : noRefill m e) : (m.hold e).poolOk := by
  obtain ⟨hd, hman, -⟩ := bound_flags (hm.engines e) hb
  have hc : m.engines[e].claimant = none := claimant_none hm (by rcases hs with h | h <;> rw [h] <;> simp)
  have hdel : m.engines[e].delivered = [] := engine_delivered (hm.engines e)
    (by rcases hs with h | h <;> rw [h] <;> simp) (by rcases hs with h | h <;> rw [h] <;> simp)
  refine poolOk_modEngine e (fun g => { g with state := .holding, holdingSince := m.now }) hm
    (Engine.workOk_bound hb hd hman (by simp) (.inl hdel)) rfl rfl
    (fun i hi => by
      have : m.engines[e].claimant = some i := hi
      rw [hc] at this; cases this) (fun p hp => hm.pins e p hp) (by simp) (.inr hf)

theorem kept_of_same {m m' : MeasureState} (hs : m'.segments = m.segments) (hi : m'.images = m.images)
    (h : m.placesOk) (hp : m'.poolOk) : poolKept m' := ⟨hp, placesOk_congr hs hi h⟩

theorem kept_withdrawUnready {m : MeasureState} (hm : poolKept m) : poolKept m.withdrawUnready := by
  let stale := m.refillPending.filter (fun r => !m.ready r.image)
  let m' : MeasureState := { m with refillPending := m.refillPending.filter (fun r => m.ready r.image) }
  have hw : Weaker m m' := ⟨fun _ => rfl, fun _ => .inl rfl, fun _ => .inl rfl, fun _ => rfl, fun _ h => h,
    List.filter_sublist, fun _ _ _ _ h => h, rfl⟩
  have h0 := hw.kept hm
  have hsep : ∀ q ∈ stale, ∀ q' ∈ m'.refillPending, q'.engine ≠ q.engine := by
    intro q hq q' hq' he
    have hq1 := List.mem_filter.1 hq
    have hq2 := List.mem_filter.1 hq'
    have hqq : q ≠ q' := by
      rintro rfl
      have h1 := hq1.2
      rw [hq2.2] at h1
      simp at h1
    have : ∀ (l : List RefillRequest), l.Pairwise (fun q q' => q.engine ≠ q'.engine) → q ∈ l → q' ∈ l → False := by
      intro l hl
      induction l with
      | nil => intro h; cases h
      | cons a l ih =>
        obtain ⟨hl1, hl2⟩ := List.pairwise_cons.1 hl
        clear hl
        intro h h'
        rcases List.mem_cons.1 h with h | h <;> rcases List.mem_cons.1 h' with h' | h'
        · exact hqq (h.trans h'.symm)
        · exact hl1 q' h' (h ▸ he.symm)
        · exact hl1 q h (h' ▸ he)
        · exact ih hl2 h h'
    exact this _ hm.1.once hq1.1 hq2.1
  let P (n : MeasureState) : Prop := poolKept n ∧ ∀ q ∈ stale, noRefill n q.engine ∧
    n.engines[q.engine].bound = some q.image ∧
    (n.engines[q.engine].state = .awaitingRefill ∨ n.engines[q.engine].state = .holding)
  have hP : P m' := by
    refine ⟨h0, fun q hq => ?_⟩
    obtain ⟨a, b, c⟩ := hm.1.requests q (List.mem_filter.1 hq).1
    exact ⟨⟨fun q' hq' => hsep q hq q' hq', c⟩, b, .inl a⟩
  show poolKept (stale.foldl (fun m r => m.hold r.engine) m')
  refine (foldl_inv P _ stale (fun n q hq hn => ?_) m' hP).1
  obtain ⟨hk, hall⟩ := hn
  obtain ⟨a, b, c⟩ := hall q hq
  refine ⟨kept_of_same (m := n) rfl rfl hk.2 (poolOk_hold hk.1 c b a), fun q' hq' => ?_⟩
  obtain ⟨a', b', c'⟩ := hall q' hq'
  refine ⟨a', ?_, ?_⟩
  · unfold MeasureState.hold
    rw [engines_modEngine]
    split
    · rename_i he
      refine Eq.trans ?_ b'
      simp only
    · exact b'
  · unfold MeasureState.hold
    rw [engines_modEngine]
    split
    · exact .inr rfl
    · exact c'

theorem kept_resumeHolding {m : MeasureState} (e : EngineId) (hr : m.runTableOk) (hm : poolKept m) :
    poolKept (m.resumeHolding e) := by
  unfold MeasureState.resumeHolding
  split
  · rename_i h
    simp only [Bool.and_eq_true, beq_iff_eq] at h
    obtain ⟨hs, hb⟩ := h
    obtain ⟨i, hi, -⟩ := (Option.any_eq_true _ _).1 hb
    exact kept_choose hr hm hi (noRefill_of_state hm.1 (by rw [hs]; simp)) (claimant_none hm.1 (by rw [hs]; simp))
  · exact hm

theorem unbound_of_bindingOf {m : MeasureState} {i : Nat} (h : (m.bindingOf i).isNone = true) : m.unbound i := by
  unfold MeasureState.bindingOf at h
  rw [Option.isNone_iff_eq_none, List.find?_eq_none] at h
  intro e he
  exact absurd (beq_iff_eq.2 he) (h e (mem_engineIds e))

theorem kept_grantPinned {m : MeasureState} (e : EngineId) (hr : m.runTableOk) (hm : poolKept m) :
    poolKept (m.grantPinned e) := by
  unfold MeasureState.grantPinned
  split
  · rename_i p hp
    split
    · rename_i h
      simp only [Bool.and_eq_true, beq_iff_eq] at h
      refine kept_grant hr hm h.1.1 (unbound_of_bindingOf h.2) fun e' _ hc => ?_
      obtain ⟨g, hg, hpin⟩ := hm.1.pins e p hp
      obtain ⟨⟨g', hg', hnone⟩, -⟩ := hm.1.claims e' p hc
      rw [hg] at hg'; cases hg'
      rw [hpin] at hnone; cases hnone
    · exact hm
  · exact hm

theorem poolOk_waitList {m : MeasureState} {l : List Nat} (hm : m.poolOk)
    (hl : ∀ i ∈ l, m.unpinned i ∧ m.unbound i ∧ ∀ e : EngineId, m.engines[e].claimant ≠ some i) :
    ({ m with waitList := l } : MeasureState).poolOk :=
  ⟨hm.engines, hm.single, hm.bound, hm.handOff, hm.pins, hl, hm.claims, hm.requests, hm.once, hm.attached⟩

theorem mem_foldl_joinTail (l l' : List Nat) (i : Nat) : i ∈ l'.foldl joinTail l ↔ i ∈ l ∨ i ∈ l' := by
  induction l' generalizing l with
  | nil => simp
  | cons a l' ih => rw [List.foldl_cons, ih, mem_joinTail, List.mem_cons, or_assoc]

/-- What it means that an image belongs in the wait list (R50). -/
theorem mayWait_iff (m : MeasureState) (i : Nat) : m.mayWait i = true ↔
    m.ready i = true ∧ m.unbound i ∧ (∀ e : EngineId, m.engines[e].claimant ≠ some i) ∧ m.unpinned i := by
  unfold MeasureState.mayWait
  simp only [Bool.and_eq_true, Bool.not_eq_true', and_assoc]
  refine and_congr_right fun hr => ?_
  obtain ⟨g, hg, -⟩ := (Option.any_eq_true _ _).1 hr
  refine and_congr ⟨unbound_of_bindingOf, fun h => ?_⟩ (and_congr ?_ ?_)
  · unfold MeasureState.bindingOf
    rw [Option.isNone_iff_eq_none, List.find?_eq_none]
    intro e _ he
    exact h e (beq_iff_eq.1 he)
  · unfold MeasureState.isClaimant
    rw [List.any_eq_false]
    exact ⟨fun h e he => h e (mem_engineIds e) (beq_iff_eq.2 he), fun h e _ he => h e (beq_iff_eq.1 he)⟩
  · unfold MeasureState.unpinned
    rw [hg]
    simp

theorem kept_joinWaiting {m : MeasureState} (hm : poolKept m) : poolKept m.joinWaiting := by
  refine kept_of_same (m := m) rfl rfl hm.2 (poolOk_waitList hm.1 fun i hi => ?_)
  rcases (mem_foldl_joinTail _ _ _).1 hi with hi | hi
  · exact hm.1.waiting i hi
  · obtain ⟨-, a, b, c⟩ := (mayWait_iff m i).1 (List.mem_filter.1 hi).2
    exact ⟨c, a, b⟩

theorem freeEngine_spec {m : MeasureState} {e : EngineId} (h : m.freeEngine = some e) :
    m.engines[e].state = .free ∧ m.engines[e].reservation = none := by
  have := List.find?_some h
  simpa [Option.isNone_iff_eq_none] using this

theorem evictionChoice_spec {m : MeasureState} {e : EngineId} (h : m.evictionChoice = some e) :
    m.engines[e].evictable = true := by
  unfold MeasureState.evictionChoice at h
  have : ∀ (l : List EngineId) (b : Option EngineId), (∀ x, b = some x → m.engines[x].evictable = true) →
      ∀ x, l.foldl (fun best e => if m.engines[e].evictable then
        match best with
        | none => some e
        | some b => if m.engines[e].holdingSince < m.engines[b].holdingSince then some e else best
        else best) b = some x → m.engines[x].evictable = true := by
    intro l
    induction l with
    | nil => intro b hb x hx; exact hb x hx
    | cons a l ih =>
      intro b hb x hx
      rw [List.foldl_cons] at hx
      refine ih _ (fun y hy => ?_) x hx
      split at hy
      · rename_i hev
        split at hy
        · cases hy; exact hev
        · split at hy
          · cases hy; exact hev
          · exact hb y hy
      · exact hb y hy
  exact this engineIds none (by simp) e h

theorem kept_arbitrateOne {m m' : MeasureState} (hr : m.runTableOk) (hm : poolKept m) (hn : m.waitList.Nodup)
    (h : m.arbitrateOne = some m') : poolKept m' := by
  unfold MeasureState.arbitrateOne at h
  split at h
  · cases h
  · rename_i i rest hw
    have hin : i ∈ m.waitList := by rw [hw]; exact List.mem_cons_self
    obtain ⟨w1, w2, w3⟩ := hm.1.waiting i hin
    have h0 : Weaker m { m with waitList := rest } := ⟨fun _ => rfl, fun _ => .inl rfl, fun _ => .inl rfl,
      fun _ => rfl, fun j hj => by rw [hw]; exact List.mem_cons_of_mem _ hj, .refl _, fun _ _ _ _ h => h, rfl⟩
    split at h
    · rename_i e he
      cases h
      exact kept_grant (runTableOk_congr (m := m) rfl hr) (h0.kept hm) (freeEngine_spec he).1 w2 (fun e' _ => w3 e')
    · split at h
      · rename_i e he
        cases h
        have hev := evictionChoice_spec he
        simp only [Engine.evictable, Bool.and_eq_true, beq_iff_eq, Option.isNone_iff_eq_none] at hev
        obtain ⟨⟨hs, hres⟩, hcl⟩ := hev
        have hk := h0.kept hm
        have hirest : i ∉ rest := by rw [hw] at hn; exact (List.nodup_cons.1 hn).1
        refine kept_of_same (m := { m with waitList := rest }) rfl rfl hk.2 ?_
        have hok := hm.1.engines e
        refine poolOk_modEngine e (fun x => { x with state := .parking, claimant := some i }) hk.1
          ⟨by simp, by simp, hok.elsewhere, hok.nothing, ?_⟩ rfl rfl (fun j hj => ?_)
          (fun p hp => hk.1.pins e p hp) (by simp)
          (.inr (noRefill_of_state hk.1 (by rw [show ({ m with waitList := rest } : MeasureState).engines[e] = m.engines[e] from rfl, hs]; simp)))
        · intro hne
          exact absurd (engine_delivered hok (by rw [hs]; simp) (by rw [hs]; simp)) hne
        · cases hj
          exact ⟨w1, w2, hirest, rfl, hres, fun e' _ => w3 e'⟩
      · cases h

theorem waitList_arbitrateOne {m m' : MeasureState} (h : m.arbitrateOne = some m') (hn : m.waitList.Nodup) :
    m'.waitList.Nodup := (evolves_arbitrateOne h).waitList hn

theorem kept_arbitrate (n : Nat) {m : MeasureState} (hr : m.runTableOk) (hm : poolKept m) (hn : m.waitList.Nodup) :
    poolKept (m.arbitrate n) := by
  induction n generalizing m with
  | zero => exact hm
  | succ n ih =>
    unfold MeasureState.arbitrate
    split
    · rename_i m' h
      exact ih ((evolves_arbitrateOne h).runTableOk hr) (kept_arbitrateOne hr hm hn h) (waitList_arbitrateOne h hn)
    · exact hm

/-- Run table, pool, places and the wait list. -/
def workKept (m : MeasureState) : Prop := m.runTableOk ∧ poolKept m ∧ m.waitList.Nodup

theorem Evolves.work {m m' : MeasureState} (h : Evolves m m') (hm : workKept m) (hp : poolKept m') : workKept m' :=
  ⟨h.runTableOk hm.1, hp, h.waitList hm.2.2⟩

theorem work_settlePool {m : MeasureState} (hm : workKept m) : workKept m.settlePool := by
  have h1 : workKept m.withdrawUnready.dropUnready :=
    ((evolves_withdrawUnready m).trans (evolves_dropUnready _)).work hm
      ((weaker_dropUnready _).kept (kept_withdrawUnready hm.2.1))
  have h2 := foldl_inv workKept MeasureState.resumeHolding engineIds
    (fun m e _ h => (evolves_resumeHolding m e).work h (kept_resumeHolding e h.1 h.2.1)) _ h1
  have h3 := foldl_inv workKept MeasureState.grantPinned engineIds
    (fun m e _ h => (evolves_grantPinned m e).work h (kept_grantPinned e h.1 h.2.1)) _ h2
  have h4 := (evolves_joinWaiting _).work h3 (kept_joinWaiting h3.2.1)
  exact (evolves_arbitrate _ _).work h4 (kept_arbitrate _ h4.1 h4.2.1 h4.2.2)

/-! ### Refill requests and their issue -/

theorem hasIssued_iff (m : MeasureState) (e : EngineId) :
    m.hasIssued e = true ↔ ∃ (k : Fin 8) (i n : Nat), m.refillTags[k].attachedTo i e n := by
  unfold MeasureState.hasIssued
  rw [List.any_eq_true]
  constructor
  · rintro ⟨k, -, hk⟩
    split at hk
    · rename_i i eng st c a heq
      have : eng = some e := by simpa using hk
      subst this
      exact ⟨k, i, c, st, a, heq⟩
    · cases hk
  · rintro ⟨k, i, n, st, a, heq⟩
    refine ⟨k, mem_refillTagIds k, ?_⟩
    rw [heq]
    simp

theorem newRequest_spec {m : MeasureState} {e : EngineId} {q : RefillRequest} (h : m.newRequest e = some q) :
    q.engine = e ∧ m.engines[e].state = .awaitingRefill ∧ m.engines[e].bound = some q.image ∧
    (∀ q' ∈ m.refillPending, q'.engine ≠ e) ∧ ∀ (k : Fin 8) i n, ¬ m.refillTags[k].attachedTo i e n := by
  unfold MeasureState.newRequest at h
  split at h
  · rename_i hc
    simp only [Bool.and_eq_true, beq_iff_eq, Bool.not_eq_true'] at hc
    obtain ⟨⟨h1, h2⟩, h3⟩ := hc
    obtain ⟨i, hi, rfl⟩ := Option.map_eq_some_iff.1 h
    refine ⟨rfl, h1, hi, fun q' hq' he => ?_, fun k j n hk => ?_⟩
    · rw [List.any_eq_false] at h2
      exact h2 q' hq' (beq_iff_eq.2 he)
    · rw [(hasIssued_iff m e).2 ⟨k, j, n, hk⟩] at h3
      cases h3
  · cases h

theorem nodup_engineIds : engineIds.Nodup := by decide

theorem kept_requestRefills {m : MeasureState} (hm : poolKept m) : poolKept m.requestRefills := by
  refine kept_of_same (m := m) rfl rfl hm.2 ?_
  have hp := hm.1
  refine ⟨hp.engines, hp.single, hp.bound, hp.handOff, hp.pins, hp.waiting, hp.claims, fun q hq => ?_, ?_, hp.attached⟩
  · rcases List.mem_append.1 (show q ∈ m.refillPending ++ engineIds.filterMap m.newRequest from hq) with hq | hq
    · exact hp.requests q hq
    · obtain ⟨e, -, he⟩ := List.mem_filterMap.1 hq
      obtain ⟨rfl, a, b, c, d⟩ := newRequest_spec he
      exact ⟨a, b, d⟩
  · show (m.refillPending ++ engineIds.filterMap m.newRequest).Pairwise _
    rw [List.pairwise_append]
    refine ⟨hp.once, ?_, fun q hq q' hq' => ?_⟩
    · rw [List.pairwise_filterMap]
      refine nodup_engineIds.imp ?_
      intro e e' hne q hq q' hq'
      rw [(newRequest_spec hq).1, (newRequest_spec hq').1]
      exact hne
    · obtain ⟨e, -, he⟩ := List.mem_filterMap.1 hq'
      obtain ⟨rfl, -, -, c, -⟩ := newRequest_spec he
      exact c q hq

theorem chunk_le {segments : List Segment} {i : Nat} {r : Run} {a s n : Nat}
    (h : chunkOf segments i r = some (a, s, n)) : n ≤ r.body.beatCount := by
  unfold chunkOf at h
  obtain ⟨g, -, h⟩ := Option.map_eq_some_iff.1 h
  simp only [Prod.mk.injEq] at h
  omega

theorem poolOk_issue {m : MeasureState} {keep rest : List RefillRequest} {r : RefillRequest}
    {x : MeasureState × LinkRequest} (hm : ({ m with refillPending := keep ++ r :: rest } : MeasureState).poolOk)
    (h : m.issueRefill r = some x) : ({ x.1 with refillPending := keep ++ rest } : MeasureState).poolOk := by
  unfold MeasureState.issueRefill at h
  split at h
  · rename_i t a s n ht hch
    cases h
    have hfree : m.refillTags[t] = .free := by simpa using List.find?_some ht
    have hreq := hm.requests r (by simp)
    have htag : ∀ (k : Fin 8) i e c, (m.setRefillTag t (.busy r.image (some r.engine) s n a)).refillTags[k].attachedTo i e c →
        (k = t ∧ i = r.image ∧ e = r.engine ∧ c = n) ∨ (k ≠ t ∧ m.refillTags[k].attachedTo i e c) := by
      intro k i e c hk
      rw [refillTags_setRefillTag] at hk
      split at hk
      · rename_i hkt
        obtain ⟨s', a', hk⟩ := hk
        simp only [RefillTag.busy.injEq, Option.some.injEq] at hk
        exact .inl ⟨hkt.symm, hk.1.symm, hk.2.1.symm, hk.2.2.2.1.symm⟩
      · rename_i hkt
        exact .inr ⟨Ne.symm hkt, hk⟩
    have hsub : (keep ++ rest).Sublist (keep ++ r :: rest) :=
      List.Sublist.append (.refl _) (List.sublist_cons_self _ _)
    have hother : ∀ q ∈ keep ++ rest, q.engine ≠ r.engine := by
      intro q hq
      have hon : (keep ++ r :: rest).Pairwise (fun q q' => q.engine ≠ q'.engine) := hm.once
      rw [List.pairwise_append, List.pairwise_cons] at hon
      obtain ⟨-, ⟨h1, -⟩, h2⟩ := hon
      rcases List.mem_append.1 hq with hq | hq
      · exact h2 q hq r List.mem_cons_self
      · exact Ne.symm (h1 q hq)
    refine ⟨hm.engines, hm.single, hm.bound, hm.handOff, hm.pins, hm.waiting, hm.claims, fun q hq => ?_,
      hm.once.sublist hsub, fun k i e c hk => ?_⟩
    · obtain ⟨b1, b2, b3⟩ := hm.requests q (hsub.subset hq)
      refine ⟨b1, b2, fun k i c hk => ?_⟩
      rcases htag k i _ c hk with ⟨-, -, h3, -⟩ | ⟨-, hk'⟩
      · exact hother q hq h3
      · exact b3 k i c hk'
    · rcases htag k i e c hk with ⟨rfl, rfl, rfl, rfl⟩ | ⟨hkt, hk'⟩
      · refine ⟨hreq.1, hreq.2.1, fun g hg r' hr' => ?_, fun k' i' c' hk'' => ?_⟩
        · have hg' : m.image? r.image = some g := hg
          rw [hg', Option.bind_some, Option.mem_def.1 hr', Option.bind_some] at hch
          exact chunk_le hch
        · rcases htag k' i' _ c' hk'' with ⟨h1, -⟩ | ⟨-, h2⟩
          · exact h1
          · exact absurd h2 (hreq.2.2 k' i' c')
      · obtain ⟨b1, b2, b3, b4⟩ := hm.attached k i e c hk'
        refine ⟨b1, b2, b3, fun k' i' c' hk'' => ?_⟩
        rcases htag k' i' e c' hk'' with ⟨-, -, h3, -⟩ | ⟨-, h2⟩
        · exact absurd hk' (by rw [h3]; exact hreq.2.2 k i c)
        · exact b4 k' i' c' h2
  · cases h

theorem poolOk_serveFrom (l keep : List RefillRequest) {m : MeasureState}
    (hm : ({ m with refillPending := keep ++ l } : MeasureState).poolOk) :
    ({ (m.serveFrom l).1 with refillPending := keep ++ (m.serveFrom l).2.1 } : MeasureState).poolOk := by
  induction l generalizing m keep with
  | nil => exact hm
  | cons r rest ih =>
    unfold MeasureState.serveFrom
    split
    · have := ih (keep ++ [r]) (m := m) (by rw [List.append_assoc]; exact hm)
      rw [List.append_assoc] at this
      exact this
    · rename_i x hx
      exact ih keep (poolOk_issue hm hx)

theorem kept_serveRefills {m : MeasureState} (hm : poolKept m) : poolKept m.serveRefills.1 := by
  have h1 := kept_requestRefills hm
  have hev := evolves_serveFrom m.requestRefills.refillPending m.requestRefills
  have hi : (m.requestRefills.serveFrom m.requestRefills.refillPending).1.images = m.images := by
    have : ∀ (l : List RefillRequest) (m : MeasureState), (m.serveFrom l).1.images = m.images := by
      intro l
      induction l with
      | nil => intro m; rfl
      | cons r rest ih =>
        intro m
        unfold MeasureState.serveFrom
        split
        · exact ih m
        · rename_i x hx
          refine (ih x.1).trans ?_
          unfold MeasureState.issueRefill at hx
          split at hx
          · cases hx; rfl
          · cases hx
    exact this _ _
  exact kept_of_same (m := m) hev.segments hi hm.2 (poolOk_serveFrom _ [] h1.1)

/-- The end of an event keeps the laws of the pool and the places. -/
theorem work_settle {s : State} (hm : workKept s.measure) : workKept s.settle.measure := by
  have h1 := work_settlePool hm
  have h2 := (evolves_serveRefills _).work h1 (kept_serveRefills h1.2.1)
  have h3 := (evolves_chooseReport s.manifest _ s.report).work h2 ((weaker_chooseReport _ _ _).kept h2.2.1)
  exact ⟨runTableOk_congr rfl h3.1, 
    Weaker.kept (m := (chooseReport s.manifest s.measure.settlePool.serveRefills.1 s.report).2.1) (.of_same rfl) h3.2.1, h3.2.2⟩

end Sys2Proof.Laws
end

