-- ==== Sys2Proof/Laws/Groups.lean ====
section
/-! SUPPORT. What the groups of a forwarded write are (R27): maximal stretches of kept beats that go on
in one image. -/

namespace Sys2Proof.Laws
open Sys2Proof.Machine

/-! ### The groups of a request (R27) -/

/-- A group with the number of its first beat: its beats are kept beats of the request, one after the other
in the request and in the image. -/
def spanOk (m : MeasureState) (beats : List (Option ImageBeat)) (p : Nat × Group) : Prop :=
  1 ≤ p.2.data.length ∧ ∀ j, j < p.2.data.length → ∃ b, beats[p.1 + j]? = some (some b) ∧
    m.keeps b = true ∧ b.image = p.2.image ∧ b.offset = p.2.start + 16 * j ∧ p.2.data[j]? = some b.beat.data

/-- Two groups, the first before the second: apart in the request, or not one going on with the other. -/
def spanBefore (p q : Nat × Group) : Prop :=
  p.1 + p.2.data.length ≤ q.1 ∧
    ¬ (p.1 + p.2.data.length = q.1 ∧ p.2.image = q.2.image ∧ p.2.stop = q.2.start)

/-- Beat k lies in a group of the list. -/
def spanCovers (L : List (Nat × Group)) (k : Nat) : Prop := ∃ p ∈ L, p.1 ≤ k ∧ k < p.1 + p.2.data.length

/-- The groups of the first n beats. -/
def groupsSoFar (m : MeasureState) (beats : List (Option ImageBeat)) (n : Nat) (gr : Grouping) : Prop :=
  ∃ L : List (Nat × Group), gr.done = L.map (·.2) ∧ (∀ p ∈ L, spanOk m beats p) ∧ L.Pairwise spanBefore ∧
    match gr.current with
    | none => (∀ p ∈ L, p.1 + p.2.data.length < n) ∧
        ∀ k b, k < n → beats[k]? = some (some b) → m.keeps b = true → spanCovers L k
    | some c => ∃ k₀, k₀ + c.data.length = n ∧ spanOk m beats (k₀, c) ∧ (∀ p ∈ L, spanBefore p (k₀, c)) ∧
        ∀ k b, k < n → beats[k]? = some (some b) → m.keeps b = true → spanCovers (L ++ [(k₀, c)]) k

theorem groupsSoFar_close {m : MeasureState} {beats : List (Option ImageBeat)} {n : Nat} {gr : Grouping}
    (h : groupsSoFar m beats n gr) : ∃ L : List (Nat × Group), gr.close.done = L.map (·.2) ∧
      (∀ p ∈ L, spanOk m beats p) ∧ L.Pairwise spanBefore ∧ (∀ p ∈ L, p.1 + p.2.data.length ≤ n) ∧
      gr.close.current = none ∧
      (∀ k b, k < n → beats[k]? = some (some b) → m.keeps b = true → spanCovers L k) := by
  obtain ⟨L, h1, h2, h3, h4⟩ := h
  unfold Grouping.close
  cases hc : gr.current with
  | none =>
    rw [hc] at h4
    exact ⟨L, h1, h2, h3, fun p hp => Nat.le_of_lt (h4.1 p hp), hc, h4.2⟩
  | some c =>
    rw [hc] at h4
    obtain ⟨k₀, h5, h6, h7, h8⟩ := h4
    refine ⟨L ++ [(k₀, c)], by simp [h1], ?_, ?_, ?_, rfl, h8⟩
    · intro p hp
      rcases List.mem_append.1 hp with hp | hp
      · exact h2 p hp
      · rw [List.mem_singleton.1 hp]; exact h6
    · rw [List.pairwise_append]
      refine ⟨h3, List.pairwise_singleton _ _, fun p hp q hq => ?_⟩
      rw [List.mem_singleton.1 hq]; exact h7 p hp
    · intro p hp
      rcases List.mem_append.1 hp with hp | hp
      · exact Nat.le_trans (h7 p hp).1 (by simp only; omega)
      · rw [List.mem_singleton.1 hp]; exact Nat.le_of_eq h5

theorem spanOk_one {m : MeasureState} {beats : List (Option ImageBeat)} {n : Nat} {x : ImageBeat}
    (hx : beats[n]? = some (some x)) (hk : m.keeps x = true) :
    spanOk m beats (n, { image := x.image, start := x.offset, data := [x.beat.data] }) := by
  refine ⟨by simp, fun j hj => ⟨x, ?_, hk, rfl, ?_, ?_⟩⟩
  all_goals
    have : j = 0 := by simpa using hj
    subst this
    simp [hx]

theorem groupsSoFar_beat {m : MeasureState} {beats : List (Option ImageBeat)} {n : Nat} {gr : Grouping}
    {b : Option ImageBeat} (hb : beats[n]? = some b) (h : groupsSoFar m beats n gr) :
    groupsSoFar m beats (n + 1) (m.groupBeat gr b) := by
  have hclosed : (∀ x, b = some x → m.keeps x = false) → groupsSoFar m beats (n + 1) gr.close := by
    intro hnk
    obtain ⟨L, h1, h2, h3, h4, h5, h6⟩ := groupsSoFar_close h
    refine ⟨L, h1, h2, h3, ?_⟩
    rw [h5]
    refine ⟨fun p hp => Nat.lt_succ_of_le (h4 p hp), fun k x hk hx hkeep => ?_⟩
    by_cases hkn : k = n
    · subst hkn
      rw [hb] at hx
      rw [hnk x (by simpa using hx)] at hkeep
      cases hkeep
    · exact h6 k x (by omega) hx hkeep
  unfold MeasureState.groupBeat
  cases b with
  | none => exact hclosed (by simp)
  | some x =>
    simp only
    by_cases hk : m.keeps x = true
    · rw [if_pos hk]
      have hone := spanOk_one hb hk
      cases hcur : gr.current with
      | none =>
        obtain ⟨L, h1, h2, h3, h4⟩ := h
        rw [hcur] at h4
        refine ⟨L, h1, h2, h3, n, rfl, hone, fun p hp => ⟨Nat.le_of_lt (h4.1 p hp), ?_⟩, fun k y hkn hy hkeep => ?_⟩
        · rintro ⟨he, -⟩
          have := h4.1 p hp
          simp only at he
          omega
        · by_cases hkn' : k = n
          · exact ⟨_, List.mem_append_right _ (List.mem_singleton.2 rfl), by simp [hkn']⟩
          · obtain ⟨p, hp, hp'⟩ := h4.2 k y (by omega) hy hkeep
            exact ⟨p, List.mem_append_left _ hp, hp'⟩
      | some c =>
        simp only
        split
        · rename_i hcont
          obtain ⟨L, h1, h2, h3, h4⟩ := h
          rw [hcur] at h4
          obtain ⟨k₀, h5, h6, h7, h8⟩ := h4
          refine ⟨L, h1, h2, h3, k₀, by simp; omega, ⟨by simp, fun j hj => ?_⟩, fun p hp => h7 p hp,
            fun k y hkn hy hkeep => ?_⟩
          · simp only [List.length_append, List.length_singleton] at hj
            by_cases hj' : j < c.data.length
            · obtain ⟨y, y1, y2, y3, y4, y5⟩ := h6.2 j hj'
              exact ⟨y, y1, y2, y3, y4, by rw [List.getElem?_append_left hj']; exact y5⟩
            · have hjn : j = c.data.length := by omega
              subst hjn
              refine ⟨x, by rw [h5]; exact hb, hk, hcont.1.symm, ?_, by simp⟩
              have := hcont.2
              unfold Group.stop at this
              exact this.symm
          · by_cases hkn' : k = n
            · exact ⟨_, List.mem_append_right _ (List.mem_singleton.2 rfl), by simp; omega⟩
            · obtain ⟨p, hp, hp'⟩ := h8 k y (by omega) hy hkeep
              rcases List.mem_append.1 hp with hp | hp
              · exact ⟨p, List.mem_append_left _ hp, hp'⟩
              · rw [List.mem_singleton.1 hp] at hp'
                exact ⟨_, List.mem_append_right _ (List.mem_singleton.2 rfl), by simp at hp' ⊢; omega⟩
        · rename_i hcont
          obtain ⟨L, h1, h2, h3, h4⟩ := h
          rw [hcur] at h4
          obtain ⟨k₀, h5, h6, h7, h8⟩ := h4
          have hcl : gr.close = { done := gr.done ++ [c], current := none } := by
            unfold Grouping.close; rw [hcur]
          rw [hcl]
          refine ⟨L ++ [(k₀, c)], by simp [h1], ?_, ?_, n, rfl, hone, ?_, fun k y hkn hy hkeep => ?_⟩
          · intro p hp
            rcases List.mem_append.1 hp with hp | hp
            · exact h2 p hp
            · rw [List.mem_singleton.1 hp]; exact h6
          · rw [List.pairwise_append]
            refine ⟨h3, List.pairwise_singleton _ _, fun p hp q hq => ?_⟩
            rw [List.mem_singleton.1 hq]; exact h7 p hp
          · intro p hp
            rcases List.mem_append.1 hp with hp | hp
            · have hlt : p.1 + p.2.data.length ≤ k₀ := (h7 p hp).1
              have hc1 : 1 ≤ c.data.length := h6.1
              refine ⟨by simp only; omega, fun he => ?_⟩
              have := he.1
              simp only at this
              omega
            · rw [List.mem_singleton.1 hp]
              exact ⟨Nat.le_of_eq h5, fun he => hcont ⟨he.2.1, he.2.2⟩⟩
          · by_cases hkn' : k = n
            · exact ⟨_, List.mem_append_right _ (List.mem_singleton.2 rfl), by simp [hkn']⟩
            · obtain ⟨p, hp, hp'⟩ := h8 k y (by omega) hy hkeep
              exact ⟨p, List.mem_append_left _ hp, hp'⟩
    · have hk : m.keeps x = false := by simpa using hk
      rw [if_neg (by simp [hk])]
      exact hclosed fun y hy => by cases hy; exact hk

theorem groupsSoFar_foldl (m : MeasureState) (beats : List (Option ImageBeat)) (n : Nat) :
    n ≤ beats.length → groupsSoFar m beats n ((beats.take n).foldl m.groupBeat { done := [], current := none }) := by
  induction n with
  | zero => exact fun _ => ⟨[], rfl, by simp, .nil, by simp⟩
  | succ n ih =>
    intro hn
    have hlt : n < beats.length := by omega
    rw [List.take_add_one, List.getElem?_eq_getElem hlt, Option.toList_some, List.foldl_append]
    exact groupsSoFar_beat (List.getElem?_eq_getElem hlt) (ih (by omega))

/-- The groups of a request: a longest group starts wherever a kept beat does not go on with the one before,
and every kept beat is in one (R27). -/
theorem groups_spec (m : MeasureState) (beats : List (Option ImageBeat)) :
    ∃ L : List (Nat × Group), m.groups beats = L.map (·.2) ∧ (∀ p ∈ L, spanOk m beats p) ∧
      L.Pairwise spanBefore ∧
      ∀ k b, beats[k]? = some (some b) → m.keeps b = true → spanCovers L k := by
  have h := groupsSoFar_foldl m beats beats.length (Nat.le_refl _)
  rw [List.take_length] at h
  obtain ⟨L, h1, h2, h3, -, -, h6⟩ := groupsSoFar_close h
  exact ⟨L, h1, h2, h3, fun k b hb => h6 k b (List.getElem?_eq_some_iff.1 hb).1 hb⟩

end Sys2Proof.Laws
end

