-- ==== Sys2Proof/Laws/Manifest.lean ====
section
/-! SUPPORT. The manifest buffer keeps its canonical form and reads what was written (R106); what the
manifest unit's operations leave alone, and the laws of the attempt counter and the buffer that they keep. -/

namespace Sys2Proof.Laws

open Sys2Proof.Machine

/-! ### The buffer -/

theorem bufferWf_iff (b : List (Nat × Beat)) : bufferWf b = true ↔ b.Pairwise (fun x y => x.1 < y.1) := by
  unfold bufferWf
  rw [decide_eq_true_iff, List.pairwise_map]

theorem mem_bufferPut (o : Nat) (d : Beat) (b : List (Nat × Beat)) :
    ∀ x ∈ bufferPut o d b, x = (o, d) ∨ x ∈ b := by
  induction b with
  | nil => simp [bufferPut]
  | cons y b ih =>
    intro x hx
    unfold bufferPut at hx
    split at hx
    · rcases List.mem_cons.1 hx with h | h
      · exact .inl h
      · exact .inr h
    · split at hx
      · rcases List.mem_cons.1 hx with h | h
        · exact .inl h
        · exact .inr (List.mem_cons_of_mem _ h)
      · rcases List.mem_cons.1 hx with h | h
        · exact .inr (by simp [h])
        · rcases ih x h with h | h
          · exact .inl h
          · exact .inr (List.mem_cons_of_mem _ h)

/-- A beat that becomes present keeps the canonical form. -/
theorem bufferWf_put {b : List (Nat × Beat)} (h : bufferWf b = true) (o : Nat) (d : Beat) :
    bufferWf (bufferPut o d b) = true := by
  rw [bufferWf_iff] at *
  induction b with
  | nil => simp [bufferPut]
  | cons y b ih =>
    have hp := List.pairwise_cons.1 h
    unfold bufferPut
    split
    · rename_i hlt
      refine List.pairwise_cons.2 ⟨fun x hx => ?_, h⟩
      rcases List.mem_cons.1 hx with rfl | hx
      · exact hlt
      · exact Nat.lt_trans hlt (hp.1 x hx)
    · split
      · rename_i heq
        exact List.pairwise_cons.2 ⟨fun x hx => heq ▸ hp.1 x hx, hp.2⟩
      · refine List.pairwise_cons.2 ⟨fun x hx => ?_, ih hp.2⟩
        rcases mem_bufferPut o d b x hx with rfl | hx
        · show y.1 < o
          omega
        · exact hp.1 x hx

/-- Dropping the beats beyond the length keeps the canonical form. -/
theorem bufferWf_drop {b : List (Nat × Beat)} (h : bufferWf b = true) (limit : Nat) :
    bufferWf (bufferDrop limit b) = true := by
  rw [bufferWf_iff] at *
  exact h.filter _

/-- The buffer after reset has the canonical form. -/
theorem bufferWf_reset : bufferWf State.reset.manifest.buffer = true := rfl

/-- What was written reads back (R106). -/
theorem bufferAt_put_self (o : Nat) (d : Beat) (b : List (Nat × Beat)) :
    bufferAt (bufferPut o d b) o = some d := by
  induction b with
  | nil => simp [bufferPut, bufferAt]
  | cons y b ih =>
    unfold bufferPut
    split
    · simp [bufferAt]
    · split
      · simp [bufferAt]
      · rename_i h
        have hne : (y.1 == o) = false := beq_false_of_ne (Ne.symm h)
        unfold bufferAt at *
        rw [List.find?_cons, hne]
        exact ih

/-- Every other offset reads as before (R106). -/
theorem bufferAt_put_ne {o o' : Nat} (h : o' ≠ o) (d : Beat) (b : List (Nat × Beat)) :
    bufferAt (bufferPut o d b) o' = bufferAt b o' := by
  have ho : (o == o') = false := beq_false_of_ne (Ne.symm h)
  induction b with
  | nil => simp [bufferPut, bufferAt, ho]
  | cons y b ih =>
    unfold bufferPut
    split
    · unfold bufferAt
      rw [List.find?_cons, ho]
    · split
      · rename_i heq
        have hy : (y.1 == o') = false := heq ▸ ho
        unfold bufferAt
        rw [List.find?_cons, List.find?_cons, ho, hy]
      · unfold bufferAt at *
        rw [List.find?_cons, List.find?_cons]
        split
        · rfl
        · exact ih

/-- A dropped offset reads as absent, every other as before (R108). -/
theorem bufferAt_drop (limit o : Nat) (b : List (Nat × Beat)) :
    bufferAt (bufferDrop limit b) o = if o < limit then bufferAt b o else none := by
  induction b with
  | nil => simp [bufferDrop, bufferAt]
  | cons y b ih =>
    unfold bufferDrop bufferAt at *
    by_cases hy : y.1 = o
    · by_cases ho : o < limit
      · simp [hy, ho]
      · rw [List.filter_cons, if_neg (by simp; omega), ih, if_neg ho, if_neg ho]
    · rw [List.find?_cons, beq_false_of_ne hy]
      rw [← ih]
      rw [List.filter_cons]
      split
      · rw [List.find?_cons, beq_false_of_ne hy]
      · rfl

/-! ### What the manifest unit leaves alone -/

/-- An operation of the manifest unit changes that unit and engine 0, and nothing else; the window base,
the anchors, the record and the revocation outcome stay. -/
structure ManifestWork (s t : State) : Prop where
  others : (t.link, t.report, t.lines, t.resetLine, t.vprog, t.fuses, t.freeCount, t.pending) =
    (s.link, s.report, s.lines, s.resetLine, s.vprog, s.fuses, s.freeCount, s.pending)
  measure : t.measure = { s.measure with engines := t.measure.engines }
  fixed : (t.manifest.windowBase, t.manifest.anchors, t.manifest.record, t.manifest.revocation) =
    (s.manifest.windowBase, s.manifest.anchors, s.manifest.record, s.manifest.revocation)

theorem ManifestWork.refl (s : State) : ManifestWork s s := ⟨rfl, rfl, rfl⟩

theorem ManifestWork.trans {a b c : State} (h : ManifestWork a b) (h' : ManifestWork b c) :
    ManifestWork a c :=
  ⟨h'.others.trans h.others, by rw [h'.measure, h.measure], h'.fixed.trans h.fixed⟩

theorem ManifestWork.evolves {s t : State} (h : ManifestWork s t) : Evolves s.measure t.measure := by
  rw [h.measure]
  exact .of_same rfl id

theorem work_failAttempt (s : State) (why : RejectReason) : ManifestWork s (s.failAttempt why) :=
  ⟨rfl, rfl, rfl⟩

theorem work_presentBeat (s : State) (o : Nat) (d : Beat) : ManifestWork s (s.presentBeat o d) := by
  unfold State.presentBeat
  simp only
  split
  · split <;> exact ⟨rfl, rfl, rfl⟩
  · exact ⟨rfl, rfl, rfl⟩

theorem work_windowBeat (s : State) (o : Nat) (b : WriteBeat) : ManifestWork s (s.windowBeat o b) := by
  unfold State.windowBeat
  repeat' split
  all_goals first | exact .refl s | exact work_failAttempt s _ | exact work_presentBeat s _ _

theorem work_windowBeats (beats : List WriteBeat) (s : State) (o : Nat) :
    ManifestWork s (s.windowBeats o beats) := by
  induction beats generalizing s o with
  | nil => exact .refl s
  | cons b rest ih => exact (work_windowBeat s o b).trans (ih _ _)

theorem work_windowWrite (s : State) (tag : Nat) (addr : Addr) (beats : List WriteBeat) :
    ManifestWork s (s.windowWrite tag addr beats) := by
  unfold State.windowWrite
  exact ManifestWork.trans (b := { s with manifest := { s.manifest with
    windowWrites := joinTail s.manifest.windowWrites tag } }) ⟨rfl, rfl, rfl⟩ (work_windowBeats _ _ _)

theorem work_startAttempt (s : State) : ManifestWork s s.startAttempt := by
  unfold State.startAttempt
  split
  · exact ⟨rfl, rfl, rfl⟩
  · exact .refl s

theorem work_advanceManifest (s : State) : ManifestWork s s.advanceManifest := by
  unfold State.advanceManifest
  repeat' split
  all_goals first | exact .refl s | exact ⟨rfl, rfl, rfl⟩

theorem work_windowAnswered (s : State) (tag : Nat) (status : LinkStatus) :
    ManifestWork s (s.windowAnswered tag status) := by
  unfold State.windowAnswered
  split
  · simp only
    split
    · exact ⟨rfl, rfl, rfl⟩
    · exact ManifestWork.trans (b := { s with manifest := { s.manifest with
        windowWrites := leave s.manifest.windowWrites tag } }) ⟨rfl, rfl, rfl⟩ (work_failAttempt _ _)
  · exact .refl s

/-! ### The buffer's and the counter's laws kept -/

theorem bufferOk_clear (u : ManifestState) : u.clearLoading.bufferOk :=
  ⟨rfl, fun n h => by cases h⟩

theorem bufferOk_congr {u v : ManifestState} (hb : v.buffer = u.buffer) (hl : v.length = u.length)
    (h : u.bufferOk) : v.bufferOk := by
  unfold ManifestState.bufferOk at *
  rw [hb, hl]
  exact h

theorem bufferOk_failAttempt (s : State) (why : RejectReason) : (s.failAttempt why).manifest.bufferOk :=
  bufferOk_congr rfl rfl (bufferOk_clear s.manifest)

theorem bufferOk_windowBeat {s : State} (h : s.manifest.bufferOk) (o : Nat) (b : WriteBeat) :
    (s.windowBeat o b).manifest.bufferOk := by
  unfold State.windowBeat
  split
  · exact h
  · split
    · exact h
    · rename_i hbeyond
      split
      · exact h
      · split
        · exact bufferOk_failAttempt s _
        · split
          · exact bufferOk_failAttempt s _
          · unfold State.presentBeat
            simp only
            split
            · split
              · exact bufferOk_failAttempt _ _
              · rename_i hn
                refine ⟨bufferWf_drop (bufferWf_put h.1 _ _) _, fun n hn' => ?_⟩
                cases hn'
                refine ⟨by omega, by omega, fun x hx => ?_⟩
                simpa using (List.mem_filter.1 hx).2
            · refine ⟨bufferWf_put h.1 _ _, fun n hn => ?_⟩
              obtain ⟨h1, h2, h3⟩ := h.2 n hn
              refine ⟨h1, h2, fun x hx => ?_⟩
              rcases mem_bufferPut _ _ _ x hx with rfl | hx
              · have : s.manifest.lengthBytes = some (64 * n) := by
                  unfold ManifestState.lengthBytes
                  rw [hn]
                  rfl
                rw [this] at hbeyond
                simpa using hbeyond
              · exact h3 x hx

theorem bufferOk_windowBeats (beats : List WriteBeat) {s : State} (h : s.manifest.bufferOk) (o : Nat) :
    (s.windowBeats o beats).manifest.bufferOk := by
  induction beats generalizing s o with
  | nil => exact h
  | cons b rest ih => exact ih (bufferOk_windowBeat h o b) _

theorem bufferOk_advanceManifest {s : State} (h : s.manifest.bufferOk) :
    s.advanceManifest.manifest.bufferOk := by
  unfold State.advanceManifest
  repeat' split
  all_goals exact h

/-! ### The phase -/

/-- Where the phase goes while a write into the window is handled in MANIFEST_LOADING (R107, R119). -/
theorem phase_windowBeat (s : State) (o : Nat) (b : WriteBeat) :
    s.manifest.phase = .manifestLoading →
    ((s.windowBeat o b).manifest.phase = .manifestLoading ∧
      (s.windowBeat o b).manifest.attempts = s.manifest.attempts ∧
      (s.windowBeat o b).manifest.windowWrites = s.manifest.windowWrites) ∨
    ∃ u why, s.windowBeat o b = State.failAttempt u why ∧ u.manifest.attempts = s.manifest.attempts ∧
      u.manifest.phase = .manifestLoading := by
  intro hp
  unfold State.windowBeat
  repeat' split
  · exact .inl ⟨hp, rfl, rfl⟩
  · exact .inl ⟨hp, rfl, rfl⟩
  · exact .inl ⟨hp, rfl, rfl⟩
  · exact .inr ⟨s, _, rfl, rfl, hp⟩
  · exact .inr ⟨s, _, rfl, rfl, hp⟩
  · unfold State.presentBeat
    simp only
    split
    · split
      · exact .inr ⟨_, _, rfl, rfl, hp⟩
      · exact .inl ⟨hp, rfl, rfl⟩
    · exact .inl ⟨hp, rfl, rfl⟩

theorem windowBeats_other {s : State} (h : s.manifest.phase ≠ .manifestLoading) (beats : List WriteBeat)
    (o : Nat) : s.windowBeats o beats = s := by
  induction beats generalizing o with
  | nil => rfl
  | cons b rest ih =>
    unfold State.windowBeats
    have : s.windowBeat o b = s := by
      unfold State.windowBeat
      rw [if_pos h]
    rw [this]
    exact ih _

theorem phase_failAttempt (s : State) (why : RejectReason) :
    (s.failAttempt why).manifest.phase = (if 3 ≤ s.manifest.attempts + 1 then .lockout else .rejected) ∧
    (s.failAttempt why).manifest.attempts = s.manifest.attempts + 1 ∧
    (s.failAttempt why).manifest.windowWrites = [] := ⟨rfl, rfl, rfl⟩

/-- What the beats of a window write can lead to (R107, R119). -/
theorem phase_windowBeats (beats : List WriteBeat) {s : State} (hp : s.manifest.phase = .manifestLoading)
    (o : Nat) :
    ((s.windowBeats o beats).manifest.phase = .manifestLoading ∧
      (s.windowBeats o beats).manifest.attempts = s.manifest.attempts ∧
      (s.windowBeats o beats).manifest.windowWrites = s.manifest.windowWrites) ∨
    ((s.windowBeats o beats).manifest.phase =
        (if 3 ≤ s.manifest.attempts + 1 then .lockout else .rejected) ∧
      (s.windowBeats o beats).manifest.attempts = s.manifest.attempts + 1 ∧
      (s.windowBeats o beats).manifest.windowWrites = []) := by
  induction beats generalizing s o with
  | nil => exact .inl ⟨hp, rfl, rfl⟩
  | cons b rest ih =>
    unfold State.windowBeats
    rcases phase_windowBeat s o b hp with ⟨h1, h2, h3⟩ | ⟨u, why, hu, hu2, -⟩
    · have := ih h1 (o + 16)
      rw [h2, h3] at this
      exact this
    · have hf := phase_failAttempt u why
      rw [← hu, hu2] at hf
      have hne : (s.windowBeat o b).manifest.phase ≠ .manifestLoading := by
        rw [hf.1]
        split <;> simp
      rw [windowBeats_other hne]
      exact .inr hf

/-- What the manifest unit goes on to (R109, R111). -/
theorem phase_advanceManifest (s : State) :
    s.advanceManifest.manifest.attempts = s.manifest.attempts ∧
    s.advanceManifest.manifest.windowWrites = s.manifest.windowWrites ∧
    (s.advanceManifest.manifest.phase = s.manifest.phase ∨
      (s.manifest.phase = .manifestLoading ∧ s.advanceManifest.manifest.phase = .manifestCheck ∧
        s.manifest.windowWrites = [])) := by
  unfold State.advanceManifest
  split
  · rename_i hp _
    split
    · exact ⟨rfl, rfl, .inl rfl⟩
    · split
      · split <;> exact ⟨rfl, rfl, .inl rfl⟩
      · split
        · rename_i hw
          exact ⟨rfl, rfl, .inr ⟨hp, rfl, List.isEmpty_iff.1 hw⟩⟩
        · exact ⟨rfl, rfl, .inl rfl⟩
  · exact ⟨rfl, rfl, .inl rfl⟩

end Sys2Proof.Laws
end

