-- ==== Sys2Proof/Laws/PoolWrites.lean ====
section
/-! SUPPORT. Forwarded writes, write responses and reopens keep the laws of the pool and the place of
every run. -/

namespace Sys2Proof.Laws
open Sys2Proof.Machine

/-! ### A group is placed -/

/-- The group lies within its image. -/
def groupWithin (m : MeasureState) (x : Group) : Prop :=
  ∀ g, m.image? x.image = some g → x.stop ≤ g.declared.length

theorem not_rewrite_low {g : Image} {x : Group} (h : isRewrite g x = false) :
    g.cursor + 16 * g.handOff ≤ x.start := by
  unfold isRewrite at h
  simp only [Bool.or_eq_false_iff, decide_eq_false_iff_not] at h
  omega

theorem placed_stage {g : Image} {x : Group} (hp : g.placed) (hr : isRewrite g x = false)
    (hw : x.stop ≤ g.declared.length) : ({ g with runs := stageRun x g.runs } : Image).placed := by
  refine ⟨hp.1, fun r hr' => ?_⟩
  rcases (mem_insertRun _ _ _).1 hr' with rfl | hr'
  · exact ⟨not_rewrite_low (g := g) hr, hw⟩
  · exact hp.2 r hr'

/-- The DEFERRED run before a group and the one after it (R30). -/
theorem find_follows {x : Group} {runs : List Run} {b : Run} (h : runs.find? x.follows = some b) :
    b ∈ runs ∧ b.body.isDeferred = true ∧ b.stop = x.start := by
  have hp := List.find?_some h
  simp only [Group.follows, Bool.and_eq_true, beq_iff_eq] at hp
  exact ⟨List.mem_of_find?_eq_some h, hp.1, hp.2⟩

theorem find_precedes {x : Group} {runs : List Run} {a : Run} (h : runs.find? x.precedes = some a) :
    a ∈ runs ∧ a.body.isDeferred = true ∧ a.start = x.stop := by
  have hp := List.find?_some h
  simp only [Group.precedes, Bool.and_eq_true, beq_iff_eq] at hp
  exact ⟨List.mem_of_find?_eq_some h, hp.1, hp.2⟩

theorem placed_defer {g : Image} {x : Group} (q : SeqNo) (hp : g.placed) (hr : isRewrite g x = false)
    (hw : x.stop ≤ g.declared.length) : ({ g with runs := deferRun x q g.runs } : Image).placed := by
  refine ⟨hp.1, fun r hr' => ?_⟩
  unfold deferRun at hr'
  rcases (mem_insertRun _ _ _).1 hr' with rfl | hr'
  · have hx : x.stop = x.start + 16 * x.data.length := rfl
    have hlow := not_rewrite_low hr
    have hB : g.cursor + 16 * g.handOff ≤ ((g.runs.find? x.follows).map (·.start)).getD x.start ∧
        ((g.runs.find? x.follows).map (·.start)).getD x.start +
          16 * ((g.runs.find? x.follows).map (·.body.beatCount)).getD 0 = x.start := by
      cases hb : g.runs.find? x.follows with
      | none => exact ⟨hlow, by simp⟩
      | some b => exact ⟨(hp.2 b (find_follows hb).1).1, (find_follows hb).2.2⟩
    have hA : x.stop + 16 * ((g.runs.find? x.precedes).map (·.body.beatCount)).getD 0 ≤ g.declared.length := by
      cases ha : g.runs.find? x.precedes with
      | none => simpa using hw
      | some a =>
        have h1 := (hp.2 a (find_precedes ha).1).2
        have h2 := (find_precedes ha).2.2
        have h3 : a.stop = a.start + 16 * a.body.beatCount := rfl
        simp only [Option.map_some, Option.getD_some]
        omega
    refine ⟨hB.1, ?_⟩
    show _ + 16 * (_ + _ + _) ≤ _
    simp only
    omega
  · exact hp.2 r (List.mem_filter.1 hr').1

theorem insertRun_cons {r x : Run} {l : List Run} (h : x.start ≤ r.start) :
    insertRun r (x :: l) = x :: insertRun r l := by
  rw [insertRun, if_neg (by omega)]

/-- An image that awaits a refill goes on to do so when a group is placed: nothing can be put before its head
run, which a merge only makes longer. -/
theorem kept_stage {g : Image} {x : Group}
    (hr : isRewrite g x = false) : ImageKept g { g with runs := stageRun x g.runs } := by
  refine ⟨rfl, rfl, fun ha => ?_⟩
  obtain ⟨h0, r, runs, hruns, hd, hs⟩ := ha
  have hlow := not_rewrite_low hr
  have hstage : stageRun x g.runs = r :: insertRun { start := x.start, body := .staged x.data } runs := by
    unfold stageRun
    rw [hruns, insertRun_cons (by simp only; omega)]
  refine ⟨⟨h0, r, _, hstage, hd, hs⟩, fun r' hr' => ⟨r, by rw [hruns]; rfl, ?_⟩⟩
  simp only [hstage, List.head?_cons, Option.mem_def, Option.some.injEq] at hr'
  exact Nat.le_of_eq (by rw [hr'])

theorem insertRun_first {r : Run} {l : List Run} (h : ∀ y ∈ l, r.start < y.start) : insertRun r l = r :: l := by
  cases l with
  | nil => rfl
  | cons y l =>
    unfold insertRun
    rw [if_pos (h y List.mem_cons_self)]

theorem kept_defer {g : Image} {x : Group} (q : SeqNo) (hx : groupOk x) (hok : runsOk g.runs)
    (hr : isRewrite g x = false) : ImageKept g { g with runs := deferRun x q g.runs } := by
  refine ⟨rfl, rfl, fun ha => ?_⟩
  obtain ⟨h0, r, runs, hruns, hd, hs⟩ := ha
  have hlow := not_rewrite_low hr
  have hap := apart_of_not_rewrite hr r (by rw [hruns]; exact List.mem_cons_self)
  have hxs : x.start < x.stop := by unfold Group.stop; have := hx.1; omega
  have hrx : r.stop ≤ x.start := by
    rcases hap with h | h
    · exact h
    · omega
  rw [hruns] at hok
  have hrs := start_lt_stop (hok.2 r List.mem_cons_self)
  have hpw := (List.pairwise_cons.1 hok.1).1
  have hpre : x.precedes r = false := by
    simp only [Group.precedes, hd, Bool.true_and, beq_eq_false_iff_ne]; omega
  have hhead : ∃ r' runs', deferRun x q g.runs = r' :: runs' ∧ r'.body.isDeferred = true ∧ r'.start = r.start ∧
      r.body.beatCount ≤ r'.body.beatCount := by
    unfold deferRun
    simp only [hruns]
    by_cases hf : x.follows r = true
    · rw [List.find?_cons_of_pos hf, List.filter_cons_of_neg (by simp [hf])]
      rw [insertRun_first]
      · exact ⟨_, _, rfl, rfl, rfl, by simp only [RunBody.beatCount, Option.map_some, Option.getD_some]; omega⟩
      · intro y hy
        have := (hpw y (List.mem_filter.1 hy).1).1
        simp only [Option.map_some, Option.getD_some]
        omega
    · have hf : x.follows r = false := by simpa using hf
      rw [List.find?_cons_of_neg (by simp [hf]), List.filter_cons_of_pos (by simp [hf, hpre]), insertRun_cons]
      · exact ⟨r, _, rfl, hd, rfl, Nat.le_refl _⟩
      · simp only
        cases hb : runs.find? x.follows with
        | none => simp; omega
        | some b =>
          have := (hpw b (find_follows hb).1).1
          simp only [Option.map_some, Option.getD_some]
          omega
  obtain ⟨r', runs', he, h1, h2, h3⟩ := hhead
  refine ⟨⟨h0, r', runs', he, h1, h2.trans hs⟩, fun r'' hr'' => ⟨r, by rw [hruns]; rfl, ?_⟩⟩
  simp only [he, List.head?_cons, Option.mem_def, Option.some.injEq] at hr''
  rw [← hr'']
  exact h3

theorem kept_place {m : MeasureState} {i : Nat} {f : List Run → List Run} (hm : poolKept m)
    (hf : ∀ g, m.image? i = some g → ImageKept g { g with runs := f g.runs } ∧
      ({ g with runs := f g.runs } : Image).placed) : poolKept (m.place i f) := by
  have h1 : poolKept (m.modImage i (fun g => { g with runs := f g.runs })) :=
    ⟨poolOk_modImage i _ (fun g hg => (hf g hg).1) hm.1,
      placesOk_modImage i (fun g => { g with runs := f g.runs }) (fun _ => rfl) (fun g hg _ => (hf g hg).2) hm.2⟩
  unfold MeasureState.place
  simp only
  split
  · exact (weaker_enter _ i _).kept h1
  · exact h1

theorem kept_handleGroup (q : SeqNo) {m : MeasureState} {x : Group} (hx : groupOk x) (hw : groupWithin m x)
    (hr : m.runTableOk) (hm : poolKept m) : poolKept (m.handleGroup q x) := by
  unfold MeasureState.handleGroup
  split
  · exact hm
  · rename_i g hg
    have hok := hr.1 g (mem_images hg)
    have hpl := ((placesOk_iff m).1 hm.2).2 _ g hg
    split
    · exact hm
    · split
      · exact kept_breakImage _ _ hm
      · rename_i hrw
        have hrw : isRewrite g x = false := by simpa using hrw
        split
        · refine kept_place hm fun g' hg' => ?_
          rw [hg] at hg'; cases hg'
          exact ⟨kept_stage hrw, placed_stage hpl hrw (hw g hg)⟩
        · split
          · refine kept_place hm fun g' hg' => ?_
            rw [hg] at hg'; cases hg'
            exact ⟨kept_defer q hx hok hrw, placed_defer q hpl hrw (hw g hg)⟩
          · exact kept_breakImage _ _ hm

/-- The beat of a request lies on a beat of its image, within the length. -/
def beatWithin (m : MeasureState) (x : ImageBeat) : Prop :=
  ∀ g, m.image? x.image = some g → x.offset + 16 ≤ g.declared.length

theorem groups_within {m : MeasureState} {beats : List (Option ImageBeat)}
    (h : ∀ x, some x ∈ beats → beatWithin m x) : ∀ x ∈ m.groups beats, groupWithin m x := by
  obtain ⟨L, h1, h2, -, -⟩ := groups_spec m beats
  intro x hx g hg
  rw [h1] at hx
  obtain ⟨p, hp, rfl⟩ := List.mem_map.1 hx
  obtain ⟨hlen, hbeats⟩ := h2 p hp
  obtain ⟨b, b1, -, b3, b4, -⟩ := hbeats (p.2.data.length - 1) (by omega)
  have := h b (List.mem_of_getElem? b1) g (by rw [b3]; exact hg)
  unfold Group.stop
  omega

theorem within_moves {m m' : MeasureState} (h : Moves m m') {x : Group} (hw : groupWithin m x) :
    groupWithin m' x := by
  intro g' hg'
  have := (image?_isSome m' x.image).1 (by rw [hg']; rfl)
  rw [h.length] at this
  obtain ⟨g, hg⟩ := Option.isSome_iff_exists.1 ((image?_isSome m x.image).2 this)
  obtain ⟨g'', hg'', hd, -⟩ := h.images _ g hg
  rw [hg'] at hg''; cases hg''
  rw [hd]
  exact hw g hg

theorem beat_moves {m m' : MeasureState} (h : Moves m m') {x : ImageBeat} (hw : beatWithin m x) :
    beatWithin m' x := by
  intro g' hg'
  have := (image?_isSome m' x.image).1 (by rw [hg']; rfl)
  rw [h.length] at this
  obtain ⟨g, hg⟩ := Option.isSome_iff_exists.1 ((image?_isSome m x.image).2 this)
  obtain ⟨g'', hg'', hd, -⟩ := h.images _ g hg
  rw [hg'] at hg''; cases hg''
  rw [hd]
  exact hw g hg

/-- The measuring of a write keeps the laws of the pool and the places (R25 to R33). -/
theorem kept_measureWrite {m : MeasureState} (tag : Nat) {beats : List (Option ImageBeat)}
    (hb : beats.length ≤ 16) (hw : ∀ x, some x ∈ beats → beatWithin m x) (hr : m.runTableOk)
    (hm : poolKept m) : poolKept (m.measureWrite tag beats) := by
  unfold MeasureState.measureWrite
  simp only
  have s1 : Moves m (m.addEntry tag) := moves_addEntry m tag
  have r1 : (m.addEntry tag).runTableOk := runTableOk_congr rfl hr
  have k1 : poolKept (m.addEntry tag) := (weaker_addEntry m tag).kept hm
  have r2 := foldl_inv MeasureState.runTableOk MeasureState.recordIn ((m.addEntry tag).touched beats)
    (fun b x _ hb' => recordIn_runTableOk b x hb') _ r1
  have k2 := (weaker_foldl MeasureState.recordIn weaker_recordIn ((m.addEntry tag).touched beats)
    (m.addEntry tag)).kept k1
  have s2 := s1.trans (moves_foldl MeasureState.recordIn moves_recordIn ((m.addEntry tag).touched beats) (m.addEntry tag))
  generalize ((m.addEntry tag).touched beats).foldl MeasureState.recordIn (m.addEntry tag) = m2 at r2 k2 s2 ⊢
  have s3 := s2.trans (moves_foldl MeasureState.checkPartial moves_checkPartial beats m2)
  have r3 : (beats.foldl MeasureState.checkPartial m2).runTableOk := by
    refine foldl_inv MeasureState.runTableOk _ _ (fun b x _ hb' => ?_) _ r2
    unfold MeasureState.checkPartial
    split
    · split
      · exact (evolves_breakImage b _ _).runTableOk hb'
      · exact hb'
    · exact hb'
  have k3 : poolKept (beats.foldl MeasureState.checkPartial m2) := by
    refine foldl_inv poolKept _ _ (fun b x _ hb' => ?_) _ k2
    unfold MeasureState.checkPartial
    split
    · split
      · exact kept_breakImage _ _ hb'
      · exact hb'
    · exact hb'
  generalize beats.foldl MeasureState.checkPartial m2 = m3 at r3 k3 s3 ⊢
  have hg := groups_ok m3 hb
  have hgw := groups_within (m := m3) (beats := beats) fun x hx => beat_moves s3 (hw x hx)
  refine (foldl_inv (fun n => n.runTableOk ∧ poolKept n ∧ Moves m3 n) _ (m3.groups beats)
    (fun n x hx hn => ?_) m3 ⟨r3, k3, .refl _⟩).2.1
  exact ⟨handleGroup_runTableOk _ (hg x hx) hn.1,
    kept_handleGroup _ (hg x hx) (within_moves hn.2.2 (hgw x hx)) hn.1 hn.2.1,
    hn.2.2.trans (moves_handleGroup _ _ _)⟩

/-! ### A write response -/

theorem kept_settleRuns {m : MeasureState} (hm : poolKept m) : poolKept m.settleRuns := by
  have himg : ∀ i, m.settleRuns.image? i =
      (m.image? i).map (fun g => { g with runs := g.runs.map (settleRun m.entries) }) := by
    intro i
    unfold MeasureState.settleRuns MeasureState.image?
    split
    · rfl
    · simp
  have hstop : ∀ r, (settleRun m.entries r).stop = r.stop := fun r => (settleRun_same _ r).2.1
  have hcount : ∀ r, (settleRun m.entries r).body.beatCount = r.body.beatCount := by
    intro r
    unfold settleRun
    cases hb : r.body <;> simp [hb, RunBody.beatCount]
  refine ⟨poolOk_images (m := m) rfl (by simp [MeasureState.settleRuns]) (fun i g hg => ?_) hm.1, ?_⟩
  · refine ⟨{ g with runs := g.runs.map (settleRun m.entries) }, by rw [himg, hg]; rfl, rfl, rfl, ?_⟩
    rintro ⟨h0, r, runs, hruns, hd, hs⟩
    refine ⟨⟨h0, settleRun m.entries r, runs.map (settleRun m.entries), by simp [hruns], ?_, ?_⟩, ?_⟩
    · rw [(settleRun_same _ r).2.2.1]; exact hd
    · rw [(settleRun_same _ r).1]; exact hs
    · intro r' hr'
      simp only [hruns, List.map_cons, List.head?_cons, Option.mem_def, Option.some.injEq] at hr'
      exact ⟨r, by rw [hruns]; rfl, Nat.le_of_eq (by rw [← hr', hcount])⟩
  · rw [placesOk_iff]
    obtain ⟨h1, h2⟩ := (placesOk_iff m).1 hm.2
    refine ⟨segmentsOk_congr (m := m) rfl (fun i g hg =>
      ⟨{ g with runs := g.runs.map (settleRun m.entries) }, by rw [himg, hg]; rfl, rfl⟩) h1, fun i g' hg' => ?_⟩
    rw [himg] at hg'
    obtain ⟨g, hg, rfl⟩ := Option.map_eq_some_iff.1 hg'
    have hp := h2 i g hg
    refine ⟨hp.1, fun r' hr' => ?_⟩
    obtain ⟨r, hr, rfl⟩ := List.mem_map.1 hr'
    rw [hstop, (settleRun_same _ r).1]
    exact hp.2 r hr

theorem kept_pendingVerdict {m : MeasureState} (i : Nat) (hm : poolKept m) : poolKept (m.pendingVerdict i) := by
  unfold MeasureState.pendingVerdict
  split
  · split
    · split
      · exact kept_verdict i _ hm
      · exact hm
    · exact hm
  · exact hm

theorem kept_writeAnswered {m : MeasureState} (tag : Nat) (status : LinkStatus) (hm : poolKept m) :
    poolKept (m.writeAnswered tag status) := by
  unfold MeasureState.writeAnswered
  split
  · exact hm
  · rename_i w _
    simp only
    refine kept_settleRuns ?_
    have h0 : poolKept { m with entries := m.entries.filter (·.tag != tag) } :=
      Weaker.kept (m := m) (.of_same rfl) hm
    generalize ({ m with entries := m.entries.filter (·.tag != tag) } : MeasureState) = m1 at h0 ⊢
    have h1 := (weaker_foldl MeasureState.answered weaker_answered (m1.current w.recorded) m1).kept h0
    split
    · exact foldl_inv poolKept _ _ (fun _ i _ h => kept_pendingVerdict i h) _ h1
    · exact foldl_inv poolKept _ _ (fun _ i _ h => kept_breakImage i _ h) _ h1

/-! ### A reopen -/

theorem modEngine_modEngine (m : MeasureState) (e : EngineId) (f f' : Engine → Engine) :
    (m.modEngine e f).modEngine e f' = m.modEngine e (fun x => f' (f x)) := by
  unfold MeasureState.modEngine
  simp

theorem kept_retake {m : MeasureState} (i : Nat) (hm : poolKept m) : poolKept (m.retake i) := by
  have hplaces : ∀ m' : MeasureState, m' = m.retake i → m'.poolOk → poolKept m' := by
    rintro m' rfl hp
    have h := (retake_same m i).1
    simp only [Prod.mk.injEq] at h
    exact ⟨hp, placesOk_congr h.1 h.2.1 hm.2⟩
  refine hplaces _ rfl ?_
  obtain ⟨hp, -⟩ := hm
  unfold MeasureState.retake
  split
  · exact hp
  · rename_i e he
    obtain ⟨g, hg, hpin⟩ := Option.bind_eq_some_iff.1 he
    have hres : ∀ p, some i = some p → ∃ g, m.image? p = some g ∧ g.declared.pin = some e := by
      intro p hp; cases hp; exact ⟨g, hg, hpin⟩
    have hok := hp.engines e
    -- a change of engine e that is promised to nobody and keeps or ends its waiting
    have key : ∀ f : Engine → Engine, (f m.engines[e]).workOk → (f m.engines[e]).bound = m.engines[e].bound →
        (f m.engines[e]).delivered = m.engines[e].delivered → (f m.engines[e]).claimant = none →
        (f m.engines[e]).reservation = some i →
        ((f m.engines[e]).state = .awaitingRefill → m.engines[e].state = .awaitingRefill) →
        ((f m.engines[e]).state = .awaitingRefill ∨ noRefill m e) → (m.modEngine e f).poolOk := by
      intro f h1 h2 h3 h4 h5 h6 h7
      refine poolOk_modEngine e f hp h1 h2 h3 (fun j hj => by rw [h4] at hj; cases hj)
        (fun p hp' => hres p (by rw [← h5]; exact hp')) (fun hs j gj hj hgj => ?_) h7
      obtain ⟨g0, hg0, -, ha⟩ := hp.bound e j hj
      rw [hgj] at hg0; cases hg0
      exact ha (h6 hs)
    unfold MeasureState.displace
    simp only [engines_modEngine_self, modEngine_modEngine]
    have hsame : ∀ x : Engine, engineView { x with reservation := some i } = engineView x := fun _ => rfl
    split
    · rename_i hs
      replace hs : m.engines[e].state = .holding := hs
      have hdel := engine_delivered hok (by rw [hs]; simp) (by rw [hs]; simp)
      exact key _ ⟨by simp, by simp, hok.elsewhere, hok.nothing, fun h => absurd hdel h⟩ rfl rfl
        (claimant_none hp (by rw [hs]; simp)) rfl (by simp) (.inr (noRefill_of_state hp (by rw [hs]; simp)))
    · rename_i hs
      replace hs : m.engines[e].state = .restoring := hs
      have hcl := claimant_none hp (e := e) (by rw [hs]; simp)
      have hnr := noRefill_of_state hp (e := e) (by rw [hs]; simp)
      split
      · exact key _ (Engine.workOk_congr (hsame _) hok) rfl rfl hcl rfl id (.inr hnr)
      · exact key _ (Engine.workOk_congr (x := m.engines[e]) rfl hok) rfl rfl hcl rfl id (.inr hnr)
    · rename_i step hs
      replace hs : m.engines[e].state = .absorbing step := hs
      have hcl := claimant_none hp (e := e) (by rw [hs]; simp)
      have hnr := noRefill_of_state hp (e := e) (by rw [hs]; simp)
      split
      · exact key _ (Engine.workOk_congr (hsame _) hok) rfl rfl hcl rfl id (.inr hnr)
      · exact key _ (Engine.workOk_congr (x := m.engines[e]) rfl hok) rfl rfl hcl rfl id (.inr hnr)
    · rename_i hs
      replace hs : m.engines[e].state = .awaitingRefill := hs
      have hcl := claimant_none hp (e := e) (by rw [hs]; simp)
      have hdel := engine_delivered hok (by rw [hs]; simp) (by rw [hs]; simp)
      split
      · rename_i hany
        obtain ⟨q, hq, hqe⟩ := List.any_eq_true.1 hany
        replace hqe : q.engine = e := beq_iff_eq.1 hqe
        have hq : q ∈ m.refillPending := hq
        have hw : Weaker m { m with refillPending := m.refillPending.filter (fun x => x.engine != e) } :=
          ⟨fun _ => rfl, fun _ => .inl rfl, fun _ => .inl rfl, fun _ => rfl, fun _ h => h,
            List.filter_sublist, fun _ _ _ _ h => h, rfl⟩
        have hp' := hw.poolOk hp
        have hnr : noRefill { m with refillPending := m.refillPending.filter (fun x => x.engine != e) } e := by
          refine ⟨fun q' hq' => by simpa using (List.mem_filter.1 hq').2, fun k j n hk => ?_⟩
          exact (hp.requests q hq).2.2 k j n (by rw [hqe]; exact hk)
        have := poolOk_modEngine (m := { m with refillPending := m.refillPending.filter (fun x => x.engine != e) }) e
          (fun x => { x with reservation := some i, state := .parking }) hp'
          ⟨by simp, by simp, hok.elsewhere, hok.nothing, fun h => absurd hdel h⟩ rfl rfl
          (fun j hj => by
            have hj : m.engines[e].claimant = some j := hj
            rw [hcl] at hj; cases hj)
          (fun p hp' => hres p hp') (by simp) (.inr hnr)
        have heq : ({ (m.modEngine e fun g => { g with reservation := some i }) with
            refillPending := (m.modEngine e fun g => { g with reservation := some i }).refillPending.filter
              (fun x => x.engine != e) } : MeasureState).modEngine e (fun g => { g with state := .parking }) =
          ({ m with refillPending := m.refillPending.filter (fun x => x.engine != e) } : MeasureState).modEngine e
            (fun x => { x with reservation := some i, state := .parking }) := by
          unfold MeasureState.modEngine
          simp
        rw [heq]
        exact this
      · exact key _ (Engine.workOk_congr (x := m.engines[e]) rfl hok) rfl rfl hcl rfl id (.inl hs)
    · rename_i hs
      replace hs : m.engines[e].state = .parking := hs
      have hnr := noRefill_of_state hp (e := e) (by rw [hs]; simp)
      split
      · rename_i hcl
        exact key _ (Engine.workOk_congr (hsame _) hok) rfl rfl hcl rfl id (.inr hnr)
      · rename_i y hcl
        replace hcl : m.engines[e].claimant = some y := hcl
        have h1 := key (fun x => { x with reservation := some i, claimant := none })
          (Engine.workOk_congr (x := m.engines[e]) rfl hok) rfl rfl rfl rfl id (.inr hnr)
        split
        · obtain ⟨c1, c2, -, -, c5⟩ := hp.claims e y hcl
          refine poolOk_waitList h1 fun j hj => ?_
          rcases (mem_joinHead _ _ _).1 hj with hj | rfl
          · exact h1.waiting j hj
          · refine ⟨c1, fun e' => ?_, fun e' hc' => ?_⟩
            · rw [engines_modEngine]
              split
              · rename_i h; subst h; exact c2 e
              · exact c2 e'
            · rw [engines_modEngine] at hc'
              split at hc'
              · cases hc'
              · rename_i h; exact h (c5 e' hc').symm
        · exact h1
    · rename_i hs
      replace hs : m.engines[e].state = .free := hs
      exact key _ (Engine.workOk_congr (hsame _) hok) rfl rfl (claimant_none hp (by rw [hs]; simp)) rfl id
        (.inr (noRefill_of_state hp (by rw [hs]; simp)))
    · rename_i hs
      replace hs : m.engines[e].state = .finalizing := hs
      exact key _ (Engine.workOk_congr (hsame _) hok) rfl rfl (claimant_none hp (by rw [hs]; simp)) rfl id
        (.inr (noRefill_of_state hp (by rw [hs]; simp)))

theorem kept_reopenOne {m : MeasureState} (i : Nat) (hm : poolKept m) : poolKept (m.reopenOne i) := by
  unfold MeasureState.reopenOne
  simp only
  have h1 := kept_dropWork i hm
  have h2 : poolKept { m.dropWork i with entries := forgetWrites i (m.dropWork i).entries } :=
    Weaker.kept (m := m.dropWork i) (.of_same rfl) h1
  have hg : ∀ g, ({ m.dropWork i with entries := forgetWrites i (m.dropWork i).entries } : MeasureState).image? i =
      some g → g.runs = [] ∧ g.handOff = 0 := by
    intro g hg
    have hg : (m.dropWork i).image? i = some g := hg
    rw [image?_dropWork, if_pos rfl] at hg
    obtain ⟨g0, -, rfl⟩ := Option.map_eq_some_iff.1 hg
    exact ⟨rfl, rfl⟩
  refine kept_retake i ((weaker_enter _ i _).kept ⟨poolOk_modImage i _ (fun g hg' => ⟨rfl, rfl, fun ha => ?_⟩) h2.1,
    placesOk_modImage i (fun g => { g with cursor := 0, epoch := g.epoch + 1, inFlight := 0 }) (fun _ => rfl)
      (fun g hg' _ => ?_) h2.2⟩)
  · obtain ⟨-, r, runs, hr, -⟩ := ha
    rw [(hg g hg').1] at hr; cases hr
  · obtain ⟨hr, hh⟩ := hg g hg'
    refine ⟨by simp [hh], fun r hr' => ?_⟩
    simp only [hr] at hr'
    cases hr'

theorem kept_reopenClosure {m : MeasureState} (x : Nat) (hm : poolKept m) : poolKept (m.reopenClosure x) :=
  foldl_inv poolKept _ _ (fun _ d _ h => kept_reopenOne d h) _ hm

end Sys2Proof.Laws
end

