-- ==== Sys2Proof/Laws/PoolSteps.lean ====
section
/-! SUPPORT. The ends of the engines' steps and the delivery of a chunk keep the laws of the pool. -/

namespace Sys2Proof.Laws
open Sys2Proof.Machine

/-! ### The ends of the engines' steps -/

/-- An engine becomes FREE, its work over and promised to nobody. -/
theorem poolOk_release {m : MeasureState} {e : EngineId} (f : Engine → Engine) (hm : m.poolOk)
    (hb : (f m.engines[e]).bound = none)
    (hd : (f m.engines[e]).discard = false) (hman : (f m.engines[e]).manifest = false)
    (hdel : (f m.engines[e]).delivered = []) (hc : (f m.engines[e]).claimant = none)
    (hr : (f m.engines[e]).reservation = m.engines[e].reservation) (hempty : m.engines[e].delivered = [])
    (hf : noRefill m e) : (m.modEngine e f).poolOk := by
  have hcase : ∀ e' : EngineId, (m.modEngine e f).engines[e'] = if e = e' then f m.engines[e'] else m.engines[e'] :=
    fun e' => engines_modEngine m e e' f
  have hbound : ∀ (e' : EngineId) i, (m.modEngine e f).engines[e'].bound = some i →
      e ≠ e' ∧ m.engines[e'].bound = some i := by
    intro e' i h
    rw [hcase] at h
    split at h
    · rename_i he; subst he; rw [hb] at h; cases h
    · rename_i he; exact ⟨he, h⟩
  have hub : ∀ i, m.unbound i → (m.modEngine e f).unbound i := fun i hu e' he => hu e' (hbound e' i he).2
  refine ⟨fun e' => ?_, fun e1 e2 i h1 h2 => hm.single e1 e2 i (hbound e1 i h1).2 (hbound e2 i h2).2,
    fun e' i h => ?_, fun i g hg hu => ?_, fun e' p hp => ?_, fun i hi => ?_, fun e' i h => ?_, fun q hq => ?_,
    hm.once, fun k i e' n hk => ?_⟩
  · rw [hcase]; split
    · rename_i he; subst he
      exact ⟨fun _ => ⟨hb, hd, hman⟩, fun _ => hd, fun _ => hb, fun _ => hdel, fun h => absurd hdel h⟩
    · exact hm.engines e'
  · obtain ⟨he, h'⟩ := hbound e' i h
    obtain ⟨g, hg, hh, ha⟩ := hm.bound e' i h'
    refine ⟨g, hg, ?_⟩
    rw [hcase, if_neg he]
    exact ⟨hh, ha⟩
  · by_cases hbi : m.engines[e].bound = some i
    · obtain ⟨g0, hg0, hh, -⟩ := hm.bound e i hbi
      have hg : m.image? i = some g := hg
      rw [hg] at hg0; cases hg0
      rw [hh, hempty]; rfl
    · refine hm.handOff i g hg fun e' he' => ?_
      by_cases hee : e = e'
      · subst hee; exact hbi he'
      · have := hu e'
        rw [hcase, if_neg hee] at this
        exact this he'
  · rw [hcase] at hp
    split at hp
    · rename_i he; subst he; rw [hr] at hp; exact hm.pins e p hp
    · exact hm.pins e' p hp
  · obtain ⟨a, b, c⟩ := hm.waiting i hi
    refine ⟨a, hub i b, fun e' hc' => ?_⟩
    rw [hcase] at hc'
    split at hc'
    · rename_i he; subst he; rw [hc] at hc'; cases hc'
    · exact c e' hc'
  · rw [hcase] at h
    split at h
    · rename_i he; subst he; rw [hc] at h; cases h
    · rename_i he
      obtain ⟨a, b, c, d, g⟩ := hm.claims e' i h
      refine ⟨a, hub i b, ?_, ?_, fun e'' hc'' => ?_⟩
      · rw [hcase, if_neg he]; exact c
      · rw [hcase, if_neg he]; exact d
      · rw [hcase] at hc''
        split at hc''
        · rename_i he'; subst he'; rw [hc] at hc''; cases hc''
        · exact g e'' hc''
  · obtain ⟨a, b, c⟩ := hm.requests q hq
    have hne : e ≠ q.engine := Ne.symm (hf.1 q hq)
    rw [hcase, if_neg hne]
    exact ⟨a, b, c⟩
  · obtain ⟨a, b, c, d⟩ := hm.attached k i e' n hk
    have hne : e ≠ e' := fun h => hf.2 k i n (by rw [h]; exact hk)
    rw [hcase, if_neg hne]
    exact ⟨a, b, c, d⟩

/-- The end of a discarded step, and of a finalisation (R60, R66). -/
theorem kept_release {m : MeasureState} {e : EngineId} (hm : poolKept m) (hman : m.engines[e].manifest = false)
    (hs : m.engines[e].state ≠ .parking) (hw : m.engines[e].state ≠ .awaitingRefill)
    (hdel : m.engines[e].delivered = []) : poolKept (m.modEngine e Engine.release) :=
  kept_of_same (m := m) rfl rfl hm.2 (poolOk_release Engine.release hm.1 rfl rfl hman rfl
    (claimant_none hm.1 hs) rfl hdel (noRefill_of_state hm.1 hw))

theorem worksIn_iff (x : Engine) (st : EngineState) : x.worksIn st = true ↔ x.state = st ∧ x.manifest = false := by
  unfold Engine.worksIn
  simp

theorem discarded_empty {x : Engine} (h : x.workOk) (hd : x.discard = true) : x.delivered = [] :=
  h.nothing (h.elsewhere (.inl hd))

theorem kept_passOn {m : MeasureState} {e : EngineId} (hr : m.runTableOk) (hm : poolKept m)
    (hs : m.engines[e].state = .parking) (hman : m.engines[e].manifest = false)
    (hdel : m.engines[e].delivered = []) : poolKept ((m.modEngine e Engine.release).passOn e) := by
  have hnr := noRefill_of_state hm.1 (e := e) (by rw [hs]; simp)
  unfold MeasureState.passOn
  simp only [engines_modEngine_self]
  have hcl : (m.engines[e].release).claimant = m.engines[e].claimant := rfl
  have hres : (m.engines[e].release).reservation = m.engines[e].reservation := rfl
  rw [hcl, hres]
  split
  · rename_i y hy _
    obtain ⟨c1, c2, -, -, c5⟩ := hm.1.claims e y hy
    rw [modEngine_modEngine]
    have h1 : poolKept (m.modEngine e (fun x => { x.release with claimant := none })) :=
      kept_of_same (m := m) rfl rfl hm.2 (poolOk_release _ hm.1 rfl rfl hman rfl rfl rfl hdel hnr)
    refine kept_grant (runTableOk_congr (m := m) rfl hr) h1 (by rw [engines_modEngine_self]; rfl) (fun e' => ?_)
      (fun e' he' hc => ?_)
    · rw [engines_modEngine]
      split
      · simp [Engine.release]
      · exact c2 e'
    · rw [engines_modEngine, if_neg (Ne.symm he')] at hc
      exact he' (c5 e' hc)
  · rename_i hno
    refine kept_of_same (m := m) rfl rfl hm.2 (poolOk_release Engine.release hm.1 rfl rfl hman rfl ?_ rfl hdel hnr)
    cases hy : m.engines[e].claimant with
    | none => exact hy
    | some y => exact absurd (hm.1.claims e y hy).2.2.2.1 (hno y hy)

theorem kept_stepEnd {m m' : MeasureState} (hr : m.runTableOk) (hm : poolKept m) (h : StepEnd m m') :
    poolKept m' := by
  cases h with
  | restored e h =>
    obtain ⟨hs, hman⟩ := (worksIn_iff _ _).1 h
    unfold restoreDone
    split
    · rename_i hd
      exact kept_release hm hman (by rw [hs]; simp) (by rw [hs]; simp) (discarded_empty (hm.1.engines e) hd)
    · split
      · exact hm
      · rename_i i hb
        simp only
        have w1 : Weaker m (m.modImage i (fun g => { g with slot := none })) := weaker_modImage m i _ fun _ => rfl
        have w2 := w1.trans (weaker_modEngine _ e
          (fun x => { x with context := (m.image? i).bind (·.slot) }) rfl (.inl rfl) (.inl rfl))
        have hk := w2.kept hm
        have hv := w2.view e
        have hcl := w2.claims e
        have hst : (((m.modImage i (fun g => { g with slot := none })).modEngine e
          (fun x => { x with context := (m.image? i).bind (·.slot) })).engines[e]).state = .restoring := by
            rw [hv.1]; exact hs
        refine kept_choose (i := i) (Evolves.runTableOk (m := m) ?_ hr) hk (by rw [hv.2.1]; exact hb)
          (noRefill_of_state hk.1 (by rw [hst]; simp)) (claimant_none hk.1 (by rw [hst]; simp))
        exact (evolves_modImage m i (fun g => { g with slot := none })
          (fun _ _ => .of_same rfl rfl (Nat.le_refl _) (.inl rfl) rfl)).trans (evolves_modEngine _ e _)
  | absorbed e step h =>
    obtain ⟨hs, hman⟩ := (worksIn_iff _ _).1 h
    unfold absorbDone
    split
    · rename_i hd
      exact kept_release hm hman (by rw [hs]; simp) (by rw [hs]; simp) (discarded_empty (hm.1.engines e) hd)
    · have w := weaker_modEngine m e (fun x => { x with context := x.context.map compressFull }) rfl (.inl rfl) (.inl rfl)
      have hk := w.kept hm
      have hv := w.view e
      have hr' : (m.modEngine e (fun x => { x with context := x.context.map compressFull })).runTableOk :=
        runTableOk_congr (m := m) rfl hr
      cases hb : m.engines[e].bound with
      | none =>
        have : (m.modEngine e (fun x => { x with context := x.context.map compressFull })).choose e =
            m.modEngine e (fun x => { x with context := x.context.map compressFull }) := by
          unfold MeasureState.choose
          rw [hv.2.1, hb]
        rw [this]
        exact hk
      | some i =>
        have hst := hv.1.trans hs
        exact kept_choose (i := i) hr' hk (by rw [hv.2.1]; exact hb)
          (noRefill_of_state hk.1 (by rw [hst]; simp)) (claimant_none hk.1 (by rw [hst]; simp))
  | finalised e h =>
    obtain ⟨hs, hman⟩ := (worksIn_iff _ _).1 h
    have hdel := engine_delivered (hm.1.engines e) (by rw [hs]; simp) (by rw [hs]; simp)
    have hrel := kept_release hm hman (by rw [hs]; simp) (by rw [hs]; simp) hdel
    unfold finalisationDone
    split
    · exact hrel
    · split
      · simp only
        split
        · exact hrel
        · split
          · exact kept_verdict _ _ hrel
          · split
            · exact (weaker_modImage _ _ (fun g => { g with state := .finishing (some _) }) fun _ => rfl).kept hrel
            · exact hrel
      · exact hm
  | parked e h =>
    obtain ⟨hs, hman⟩ := (worksIn_iff _ _).1 h
    have hdel := engine_delivered (hm.1.engines e) (by rw [hs]; simp) (by rw [hs]; simp)
    unfold parkDone
    split
    · exact kept_passOn hr hm hs hman hdel
    · split
      · exact hm
      · rename_i i hb
        have w := weaker_modImage m i (fun g => { g with slot := m.engines[e].context }) fun _ => rfl
        have hr' : (m.modImage i (fun g => { g with slot := m.engines[e].context })).runTableOk :=
          (evolves_modImage m i (fun g => { g with slot := m.engines[e].context })
            (fun _ _ => .of_same rfl rfl (Nat.le_refl _) (.inl rfl) rfl)).runTableOk hr
        exact kept_passOn hr' (w.kept hm) hs hman hdel

/-! ### A refill response -/

theorem dropChunk_placed {g : Image} {n : Nat} (hp : g.placed) (hr : runsOk g.runs) (ha : g.awaits)
    (hn : ∀ r ∈ g.runs.head?, n ≤ r.body.beatCount) :
    ({ g with runs := dropChunk n g.runs, handOff := g.handOff + n } : Image).placed := by
  obtain ⟨h0, ⟨start, body⟩, runs, hruns, hd, hs⟩ := ha
  cases body with
  | staged _ => cases hd
  | deferred k q settled =>
    have hn' : n ≤ k := hn ⟨start, .deferred k q settled⟩ (by rw [hruns]; rfl)
    have hs : start = g.cursor := hs
    have h1 := hp.2 ⟨start, .deferred k q settled⟩ (by rw [hruns]; exact List.mem_cons_self)
    have hst : (⟨start, .deferred k q settled⟩ : Run).stop = start + 16 * k := rfl
    rw [hst] at h1
    simp only at h1
    rw [hruns] at hr
    have hpw := (List.pairwise_cons.1 hr.1).1
    refine ⟨by simp only; omega, fun r hr' => ?_⟩
    have htail : ∀ r ∈ runs, g.cursor + 16 * (g.handOff + n) ≤ r.start ∧ r.stop ≤ g.declared.length := by
      intro r hr''
      have h2 := (hpw r hr'').1
      rw [hst] at h2
      have h3 := hp.2 r (by rw [hruns]; exact List.mem_cons_of_mem _ hr'')
      exact ⟨by omega, h3.2⟩
    simp only [dropChunk, hruns] at hr'
    split at hr'
    · exact htail r hr'
    · rcases List.mem_cons.1 hr' with rfl | hr'
      · simp only [Run.stop, RunBody.beatCount]
        omega
      · exact htail r hr'

theorem kept_deliver {m : MeasureState} {k : Fin 8} {i : Nat} {e : EngineId} {n : Nat} {beats : List Beat}
    (hr : m.runTableOk) (hm : poolKept m) (hk : m.refillTags[k].attachedTo i e n) (hl : beats.length = n) :
    poolKept ((m.setRefillTag k .free).deliverChunk e i n beats) := by
  have w := weaker_setRefillTag m k .free (by rintro i e n ⟨_, _, h⟩; cases h)
  obtain ⟨a1, a2, a3, a4⟩ := hm.1.attached k i e n hk
  have hnr : noRefill (m.setRefillTag k .free) e := by
    refine ⟨fun q hq hqe => ?_, fun k' i' n' hk' => ?_⟩
    · have := (hm.1.requests q hq).2.2 k i n
      rw [hqe] at this
      exact this hk
    · have hk0 := w.attached k' i' e n' hk'
      have := a4 k' i' n' hk0
      subst this
      rw [refillTags_setRefillTag, if_pos rfl] at hk'
      obtain ⟨_, _, h⟩ := hk'
      cases h
  have hk1 := w.kept hm
  have hr1 : (m.setRefillTag k .free).runTableOk := runTableOk_congr (m := m) rfl hr
  have b1 : (m.setRefillTag k .free).engines[e].bound = some i := a2
  have b2 : (m.setRefillTag k .free).engines[e].state = .awaitingRefill := a1
  have b3 : ∀ g, (m.setRefillTag k .free).image? i = some g → ∀ r ∈ g.runs.head?, n ≤ r.body.beatCount := a3
  generalize m.setRefillTag k .free = m1 at *
  obtain ⟨hp, hq⟩ := hk1
  obtain ⟨g, hg, hh, ha⟩ := hp.bound e i b1
  have ha := ha b2
  obtain ⟨hd, hman, -⟩ := bound_flags (hp.engines e) b1
  have hpl := dropChunk_placed (((placesOk_iff m1).1 hq).2 i g hg) (hr1.1 g (mem_images hg)) ha (b3 g hg)
  unfold MeasureState.deliverChunk
  simp only
  let h : Image → Image := fun g => { g with runs := dropChunk n g.runs, handOff := g.handOff + n }
  let f : Engine → Engine := fun x => { x with delivered := x.delivered ++ beats }
  let m2 : MeasureState := (m1.modImage i h).modEngine e f
  show poolKept (m2.choose e)
  have hx : m2.engines[e] = f m1.engines[e] := engines_modEngine_self _ e f
  have hi : m2.image? i = some (h g) := by
    show (m1.modImage i h).image? i = _
    rw [image?_modImage, if_pos rfl, hg]; rfl
  obtain ⟨g', x', ch, c1, c2, c3, c4, c5, c6, c7, c8⟩ := choose_work (m := m2) (e := e) (i := i) (g := h g)
    (by rw [hx]; exact b1) hi (by rw [hx]; simp [f, h, hh, hl]) (by rw [hx]; exact hd) (by rw [hx]; exact hman) hpl
    (dropChunk_ok n (hr1.1 g (mem_images hg)))
  have hcn : m1.engines[e].claimant = none := claimant_none hp (by rw [b2]; simp)
  have hch : Chosen m1 (m2.choose e) e i g' x' := by
    refine ⟨fun e' => ?_, fun j => ?_, ch.waitList, ch.pending, ch.tags, ch.segments⟩
    · rw [ch.engines]
      split
      · rfl
      · rename_i hne
        exact engines_modEngine_ne f (Ne.symm hne)
    · rw [ch.images]
      split
      · rfl
      · rename_i hne
        show (m1.modImage i h).image? j = _
        rw [image?_modImage, if_neg hne]
  refine ⟨poolOk_work hp hg hch.engines hch.images (fun j hj => ?_) hch.pending hch.tags hnr (.inr b1)
    (fun e' he' hb' => he' (hp.single e' e i hb' b1)) (fun e' _ hc' => (hp.claims e' i hc').2.1 e b1)
    c1 c2 (c3.trans (by rw [hx]; exact hcn)) (c4.trans (by rw [hx])) c5 c6 c7, hch.places hg c5 c8 hq⟩
  rw [hch.waitList] at hj
  exact ⟨hj, fun hji => (hp.waiting j hj).2.1 e (hji ▸ b1)⟩

theorem returnedBeats_length (free n : Nat) (data : List Beat) : (returnedBeats free n data).length = n := by
  simp [returnedBeats]

/-! ### The manifest unit on engine 0 -/

/-- A change of an engine that works on no image. -/
theorem poolOk_idleEngine {m : MeasureState} {e : EngineId} (f : Engine → Engine) (hm : m.poolOk)
    (hb : m.engines[e].bound = none) (hw : (f m.engines[e]).workOk) (hb' : (f m.engines[e]).bound = none)
    (hc : (f m.engines[e]).claimant = none ∨
      ((f m.engines[e]).claimant = m.engines[e].claimant ∧ (f m.engines[e]).state = m.engines[e].state))
    (hr : (f m.engines[e]).reservation = m.engines[e].reservation) : (m.modEngine e f).poolOk := by
  refine poolOk_modEngine e f hm hw (hb'.trans hb.symm) ?_ (fun i hi => ?_)
    (fun p hp => hm.pins e p (by rw [← hr]; exact hp)) (fun _ i g hi => by rw [hb] at hi; cases hi) (.inr ?_)
  · rw [hw.nothing hb', (hm.engines e).nothing hb]
  · rcases hc with hc | ⟨hc, hs⟩
    · rw [hc] at hi; cases hi
    · rw [hc] at hi
      obtain ⟨a, b, c, d, g⟩ := hm.claims e i hi
      exact ⟨a, b, fun hw => (hm.waiting i hw).2.2 e hi, hs.trans c, hr.trans d, fun e' he' h' => he' (g e' h')⟩
  · refine ⟨fun q hq hqe => ?_, fun k i n hk => ?_⟩
    · subst hqe
      rw [(hm.requests q hq).2.1] at hb; cases hb
    · rw [(hm.attached k i e n hk).2.1] at hb; cases hb

end Sys2Proof.Laws
end

