-- ==== Sys2Proof/Laws/PoolManifest.lean ====
section
/-! SUPPORT. The manifest unit on engine 0 and the tables of an accepted manifest keep the laws of the
pool. -/

namespace Sys2Proof.Laws
open Sys2Proof.Machine

/-! ### The manifest unit on engine 0 -/

theorem kept_idle {m : MeasureState} {e : EngineId} (f : Engine → Engine) (hm : poolKept m)
    (hb : m.engines[e].bound = none) (hw : (f m.engines[e]).workOk) (hb' : (f m.engines[e]).bound = none)
    (hc : (f m.engines[e]).claimant = none ∨
      ((f m.engines[e]).claimant = m.engines[e].claimant ∧ (f m.engines[e]).state = m.engines[e].state))
    (hr : (f m.engines[e]).reservation = m.engines[e].reservation) : poolKept (m.modEngine e f) :=
  kept_of_same (m := m) rfl rfl hm.2 (poolOk_idleEngine f hm.1 hb hw hb' hc hr)

theorem releaseManifest_ok {x : Engine} (h : x.workOk) : x.releaseManifest.workOk ∧
    (x.manifest = true → x.releaseManifest.bound = none) ∧ x.releaseManifest.claimant = x.claimant ∧
    x.releaseManifest.reservation = x.reservation ∧
    (x.state ≠ .holding → x.releaseManifest.state = x.state) := by
  unfold Engine.releaseManifest
  split
  · rename_i hm
    have hb := h.elsewhere (.inr hm)
    have hd := h.nothing hb
    split
    · rename_i hs
      exact ⟨⟨fun _ => ⟨hb, h.holding hs, rfl⟩, by simp, fun _ => hb, fun _ => hd, fun hn => absurd hd hn⟩,
        fun _ => hb, rfl, rfl, fun hn => absurd hs hn⟩
    · rename_i hs
      refine ⟨⟨fun hf => ?_, fun hh => absurd hh hs, fun _ => hb, fun _ => hd, fun hn => absurd hd hn⟩,
        fun _ => hb, rfl, rfl, fun _ => rfl⟩
      have := (h.free hf).2.2
      rw [hm] at this; cases this
  · rename_i hm
    exact ⟨h, fun h' => absurd h' hm, rfl, rfl, fun _ => rfl⟩

theorem kept_failAttempt {s : State} (why : RejectReason) (hm : poolKept s.measure) :
    poolKept (s.failAttempt why).measure := by
  show poolKept (s.measure.modEngine 0 Engine.releaseManifest)
  have hok := hm.1.engines 0
  obtain ⟨h1, h2, h3, h4, h5⟩ := releaseManifest_ok hok
  by_cases hman : s.measure.engines[(0 : EngineId)].manifest = true
  · refine kept_idle _ hm (hok.elsewhere (.inr hman)) h1 (h2 hman) ?_ h4
    by_cases hs : s.measure.engines[(0 : EngineId)].state = .holding
    · exact .inl (h3.trans (claimant_none hm.1 (by rw [hs]; simp)))
    · exact .inr ⟨h3, h5 hs⟩
  · have : ∀ x : Engine, x.manifest ≠ true → x.releaseManifest = x := fun x hx => by
      unfold Engine.releaseManifest
      rw [if_neg hx]
    refine Weaker.kept (weaker_modEngine _ 0 _ ?_ (.inl ?_) (.inl ?_)) hm <;> rw [this _ hman]

theorem kept_presentBeat {s : State} (o : Nat) (d : Beat) (hm : poolKept s.measure) :
    poolKept (s.presentBeat o d).measure := by
  unfold State.presentBeat
  simp only
  split
  · split
    · exact kept_failAttempt (s := { s with manifest := { s.manifest with
        buffer := bufferPut o d s.manifest.buffer } }) _ hm
    · exact hm
  · exact hm

theorem kept_windowBeat {s : State} (o : Nat) (b : WriteBeat) (hm : poolKept s.measure) :
    poolKept (s.windowBeat o b).measure := by
  unfold State.windowBeat
  repeat' split
  all_goals first | exact hm | exact kept_failAttempt _ hm | exact kept_presentBeat _ _ hm

theorem kept_windowBeats (beats : List WriteBeat) {s : State} (o : Nat) (hm : poolKept s.measure) :
    poolKept (s.windowBeats o beats).measure := by
  induction beats generalizing s o with
  | nil => exact hm
  | cons b rest ih => exact ih _ (kept_windowBeat o b hm)

theorem kept_windowWrite {s : State} (tag : Nat) (addr : Addr) (beats : List WriteBeat) (hm : poolKept s.measure) :
    poolKept (s.windowWrite tag addr beats).measure := by
  unfold State.windowWrite
  exact kept_windowBeats beats _ hm

theorem kept_startAttempt {s : State} (hm : poolKept s.measure) : poolKept s.startAttempt.measure := by
  unfold State.startAttempt
  split <;> exact hm

theorem kept_advanceManifest {s : State} (hm : poolKept s.measure) : poolKept s.advanceManifest.measure := by
  have hok := hm.1.engines 0
  have hidle : s.measure.engines[(0 : EngineId)].idleForManifest = true →
      s.measure.engines[(0 : EngineId)].bound = none ∧ s.measure.engines[(0 : EngineId)].claimant = none ∧
      s.measure.engines[(0 : EngineId)].delivered = [] := by
    intro h
    unfold Engine.idleForManifest at h
    simp only [Bool.or_eq_true, Bool.and_eq_true, beq_iff_eq] at h
    rcases h with h | ⟨h1, h2⟩
    · have hb := (hok.free h).1
      exact ⟨hb, claimant_none hm.1 (by rw [h]; simp), hok.nothing hb⟩
    · have hb := hok.elsewhere (.inr h1)
      exact ⟨hb, claimant_none hm.1 (by rw [h2]; simp), hok.nothing hb⟩
  unfold State.advanceManifest
  split
  · split
    · exact hm
    · rename_i hi
      obtain ⟨hb, hc, hd⟩ := hidle (by simpa using hi)
      split
      · split
        · exact kept_idle (e := 0) _ hm hb
            ⟨by simp [Engine.absorbManifest], by simp [Engine.absorbManifest], fun _ => hb, fun _ => hd,
              fun hn => absurd hd hn⟩ hb (.inl hc) rfl
        · exact hm
      · split
        · exact kept_idle (e := 0) (fun e => { e with state := .finalizing }) hm hb
            ⟨by simp, by simp, fun _ => hb, fun _ => hd, fun hn => absurd hd hn⟩ hb (.inl hc) rfl
        · exact hm
  · exact hm

theorem kept_windowAnswered {s : State} (tag : Nat) (status : LinkStatus) (hm : poolKept s.measure) :
    poolKept (s.windowAnswered tag status).measure := by
  unfold State.windowAnswered
  split
  · simp only
    split
    · exact hm
    · exact kept_failAttempt (s := { s with manifest := { s.manifest with
        windowWrites := leave s.manifest.windowWrites tag } }) _ hm
  · exact hm

theorem kept_manifestBeatDone {m : MeasureState} (now : Nat) (hm : poolKept m)
    (h : m.engines[(0 : EngineId)].manifest = true ∧ m.engines[(0 : EngineId)].state = .absorbing .beat) :
    poolKept (m.modEngine 0 (Engine.manifestBeatDone now)) := by
  have hok := hm.1.engines 0
  have hb := hok.elsewhere (.inr h.1)
  have hd := hok.nothing hb
  have hc : m.engines[(0 : EngineId)].claimant = none := claimant_none hm.1 (by rw [h.2]; simp)
  have key : ∀ x : Engine, x.bound = none → x.claimant = none → x.delivered = [] →
      (x.manifestBeatDone now).workOk ∧ (x.manifestBeatDone now).bound = none ∧
      (x.manifestBeatDone now).claimant = none ∧ (x.manifestBeatDone now).reservation = x.reservation := by
    intro x hb hc hd
    unfold Engine.manifestBeatDone
    split
    · exact ⟨⟨fun _ => ⟨rfl, rfl, rfl⟩, fun _ => rfl, fun _ => rfl, fun _ => rfl, fun hn => absurd rfl hn⟩,
        rfl, hc, rfl⟩
    · rename_i hdisc
      exact ⟨⟨by simp, fun _ => by simpa using hdisc, fun _ => hb, fun _ => hd, fun hn => absurd hd hn⟩, hb, hc, rfl⟩
  obtain ⟨k1, k2, k3, k4⟩ := key _ hb hc hd
  exact kept_idle _ hm hb k1 k2 (.inl k3) k4

/-- Without images no engine is bound or promised, and no refill is asked for. -/
theorem noWork_of_images {m : MeasureState} (hm : m.poolOk) (hi : m.images = []) :
    (∀ e : EngineId, m.engines[e].bound = none ∧ m.engines[e].claimant = none) ∧ m.refillPending = [] ∧
    ∀ (k : Fin 8) i e n, ¬ m.refillTags[k].attachedTo i e n := by
  have himg : ∀ i, m.image? i = none := by
    intro i
    unfold MeasureState.image?
    rw [hi]
    split <;> simp
  have hb : ∀ e : EngineId, m.engines[e].bound = none := by
    intro e
    cases hb : m.engines[e].bound with
    | none => rfl
    | some i =>
      obtain ⟨g, hg, -⟩ := hm.bound e i hb
      rw [himg] at hg; cases hg
  refine ⟨fun e => ⟨hb e, ?_⟩, ?_, fun k i e n hk => ?_⟩
  · cases hc : m.engines[e].claimant with
    | none => rfl
    | some i =>
      obtain ⟨⟨g, hg, -⟩, -⟩ := hm.claims e i hc
      rw [himg] at hg; cases hg
  · cases hp : m.refillPending with
    | nil => rfl
    | cons q l =>
      have := (hm.requests q (by rw [hp]; exact List.mem_cons_self)).2.1
      rw [hb] at this; cases this
  · have := (hm.attached k i e n hk).2.1
    rw [hb] at this; cases this

theorem kept_endCheck {m : MeasureState} (hm : poolKept m) (hi : m.images = []) :
    poolKept (m.modEngine 0 Engine.endCheck) := by
  obtain ⟨hb, hc⟩ := (noWork_of_images hm.1 hi).1 0
  have hd := (hm.1.engines 0).nothing hb
  exact kept_idle _ hm hb ⟨fun _ => ⟨hb, rfl, rfl⟩, fun _ => rfl, fun _ => hb, fun _ => hd, fun hn => absurd hd hn⟩
    hb (.inl hc) rfl

/-! ### ARMED -/

theorem engines_reserve (f : EngineId → Option Nat) (l : List EngineId) (m : MeasureState) (e : EngineId)
    (he : e ∈ l) : (l.foldl (fun m e => m.modEngine e (fun x => { x with reservation := f e })) m).engines[e] =
      { m.engines[e] with reservation := f e } := by
  induction l generalizing m with
  | nil => cases he
  | cons a l ih =>
    rw [List.foldl_cons]
    by_cases hl : e ∈ l
    · rw [ih _ hl, engines_modEngine]
      split
      · rename_i h; subst h; rfl
      · rfl
    · have ha : a = e := by
        rcases List.mem_cons.1 he with h | h
        · exact h.symm
        · exact absurd h hl
      subst ha
      have hne : ∀ (l : List EngineId) (m : MeasureState), a ∉ l →
          (l.foldl (fun m e => m.modEngine e (fun x => { x with reservation := f e })) m).engines[a] = m.engines[a] := by
        intro l
        induction l with
        | nil => intro m _; rfl
        | cons b l ih =>
          intro m hb
          rw [List.mem_cons, not_or] at hb
          rw [List.foldl_cons, ih _ hb.2]
          exact engines_modEngine_ne _ hb.1
      rw [hne l _ hl, engines_modEngine_self]

theorem same_reserve (f : EngineId → Option Nat) (l : List EngineId) (m : MeasureState) :
    let m' := l.foldl (fun m e => m.modEngine e (fun x => { x with reservation := f e })) m
    (m'.segments, m'.images, m'.waitList, m'.refillTags, m'.refillPending) =
      (m.segments, m.images, m.waitList, m.refillTags, m.refillPending) := by
  induction l generalizing m with
  | nil => rfl
  | cons a l ih =>
    rw [List.foldl_cons]
    exact ih _

theorem pinnedImage_spec {images : List Image} {e : EngineId} {p : Nat} (h : pinnedImage images e = some p) :
    ∃ g, (if p = 0 then none else images[p - 1]?) = some g ∧ g.declared.pin = some e := by
  unfold pinnedImage at h
  obtain ⟨k, hk, rfl⟩ := Option.map_eq_some_iff.1 h
  have := List.find?_some hk
  obtain ⟨g, hg, hp⟩ := (Option.any_eq_true _ _).1 this
  exact ⟨g, by simpa using hg, by simpa using hp⟩

theorem ownerOf_spec {images : List ImageFields} {e i : Nat} (h : ownerOf images e = some i) :
    ∃ f, 1 ≤ i ∧ images[i - 1]? = some f ∧ f.first ≤ e ∧ e < f.first + f.count := by
  unfold ownerOf at h
  obtain ⟨k, hk, rfl⟩ := Option.map_eq_some_iff.1 h
  have := List.find?_some hk
  obtain ⟨f, hf, hp⟩ := (Option.any_eq_true _ _).1 this
  exact ⟨f, by omega, by simpa using hf, by simpa using hp⟩

theorem sum_aligned {l : List Nat} (h : ∀ x ∈ l, x % 16 = 0) : l.sum % 16 = 0 := by
  induction l with
  | nil => rfl
  | cons a l ih =>
    have h1 := h a List.mem_cons_self
    have h2 := ih fun x hx => h x (List.mem_cons_of_mem _ hx)
    rw [List.sum_cons]
    omega

theorem sum_take_le (l : List Nat) (n : Nat) : (l.take n).sum ≤ l.sum := by
  induction l generalizing n with
  | nil => simp
  | cons a l ih =>
    cases n with
    | zero => simp
    | succ n => have := ih n; simp only [List.take_succ_cons, List.sum_cons]; omega

/-- What the accepted manifest's segments satisfy (R115). -/
theorem segments_aligned {b : List (Nat × Beat)} {n : Nat} {w : Addr} {c : Contents}
    (h : parseManifest b n w = .ok c) : ∀ g ∈ c.segments, g.base % 16 = 0 ∧ g.length % 16 = 0 := by
  unfold parseManifest at h
  split at h
  · cases h
  · split at h
    · cases h
    · rename_i hc
      cases h
      unfold checkContents at hc
      split at hc
      · cases hc
      · split at hc
        · cases hc
        · rename_i h6
          intro g hg
          have h6 := List.any_eq_false.1 (by simpa using h6) g hg
          unfold badSegmentRecord at h6
          simp only [Bool.or_eq_true, not_or, bne_iff_ne, ne_eq, Decidable.not_not] at h6
          exact ⟨h6.1.1.1.1, h6.1.1.1.2⟩

theorem segmentsOk_arm {b : List (Nat × Beat)} {n : Nat} {w : Addr} {c : Contents} {m : MeasureState}
    (h : parseManifest b n w = .ok c) (hs : m.segments = segmentTable c) (hi : m.images = imageTable c) :
    m.segmentsOk := by
  have hal := segments_aligned h
  intro x hx i hxi
  rw [hs] at hx
  unfold segmentTable at hx
  obtain ⟨e, he, hex⟩ := List.mem_filterMap.1 hx
  obtain ⟨sg, hsg, rfl⟩ := Option.map_eq_some_iff.1 hex
  obtain ⟨f, h1, hf, h2, h3⟩ := ownerOf_spec hxi
  have himg : m.image? i = some (declaredImage (declaredOf c f)) := by
    unfold MeasureState.image?
    rw [if_neg (by omega), hi]
    simp [imageTable, hf]
  have hoff : imageOffsetOf c e = (((c.segments.take e).drop f.first).map (·.length)).sum := by
    unfold imageOffsetOf
    have hxi : ownerOf c.images e = some i := hxi
    rw [hxi, Option.bind_some, hf]
  have hsgm := List.mem_of_getElem? hsg
  refine ⟨_, himg, (hal _ hsgm).1, (hal _ hsgm).2, ?_, ?_⟩
  · show imageOffsetOf c e % 16 = 0
    rw [hoff]
    refine sum_aligned fun y hy => ?_
    obtain ⟨z, hz, rfl⟩ := List.mem_map.1 hy
    exact (hal z (List.mem_of_mem_take (List.mem_of_mem_drop hz))).2
  · show imageOffsetOf c e + sg.length ≤ (((c.segments.drop f.first).take f.count).map (·.length)).sum
    rw [hoff]
    have hlt : e < c.segments.length := (List.getElem?_eq_some_iff.1 hsg).1
    have hge : c.segments[e]'hlt = sg := (List.getElem?_eq_some_iff.1 hsg).2
    have e1 : ((c.segments.take e).drop f.first) = (c.segments.drop f.first).take (e - f.first) := by
      rw [List.drop_take]
    have e2 : (c.segments.drop f.first).take (e - f.first + 1) =
        (c.segments.drop f.first).take (e - f.first) ++ [sg] := by
      rw [List.take_add_one, List.getElem?_drop, show f.first + (e - f.first) = e by omega, hsg]
      rfl
    have e3 : (((c.segments.drop f.first).take (e - f.first)).map (·.length)).sum + sg.length =
        (((c.segments.drop f.first).take (e - f.first + 1)).map (·.length)).sum := by
      rw [e2]; simp
    rw [e1, e3]
    have e4 : (c.segments.drop f.first).take (e - f.first + 1) =
        ((c.segments.drop f.first).take f.count).take (e - f.first + 1) := by
      rw [List.take_take, Nat.min_eq_left (by omega)]
    rw [e4, List.map_take]
    exact sum_take_le _ _

/-- The step to ARMED (R118). -/
theorem kept_armed {b : List (Nat × Beat)} {n : Nat} {w : Addr} {c : Contents} {m : MeasureState}
    (h : parseManifest b n w = .ok c) (hi : m.images = []) (hm : poolKept m) : poolKept (m.armed c) := by
  obtain ⟨hnw, -, hna⟩ := noWork_of_images hm.1 hi
  let m0 : MeasureState := { m with
    segments := segmentTable c, images := imageTable c, waitList := [], refillPending := [],
    subjects := [0], verified := [] }
  have hsame := same_reserve (fun e => pinnedImage (imageTable c) e) engineIds m0
  have heng : ∀ e : EngineId, (m.armed c).engines[e] =
      { m.engines[e] with reservation := pinnedImage (imageTable c) e } := fun e =>
    engines_reserve (fun e => pinnedImage (imageTable c) e) engineIds m0 e (mem_engineIds e)
  simp only [Prod.mk.injEq] at hsame
  obtain ⟨s1, s2, s3, s4, s5⟩ := hsame
  have s1 : (m.armed c).segments = segmentTable c := s1
  have s2 : (m.armed c).images = imageTable c := s2
  have s3 : (m.armed c).waitList = [] := s3
  have s4 : (m.armed c).refillTags = m.refillTags := s4
  have s5 : (m.armed c).refillPending = [] := s5
  generalize m.armed c = m' at *
  have hfresh : ∀ g ∈ m'.images, g.cursor = 0 ∧ g.handOff = 0 ∧ g.runs = [] := by
    intro g hg
    rw [s2] at hg
    obtain ⟨f, -, rfl⟩ := List.mem_map.1 hg
    exact ⟨rfl, rfl, rfl⟩
  have hb : ∀ e : EngineId, m'.engines[e].bound = none := fun e => by rw [heng]; exact (hnw e).1
  have hc : ∀ e : EngineId, m'.engines[e].claimant = none := fun e => by rw [heng]; exact (hnw e).2
  refine ⟨⟨fun e => ?_, fun e e' i he => ?_, fun e i he => ?_, fun i g hg _ => (hfresh g (mem_images hg)).2.1,
    fun e p hp => ?_, fun i hi => ?_, fun e i he => ?_, fun q hq => ?_, ?_, fun k i e n hk => ?_⟩,
    segmentsOk_arm h s1 s2, fun g hg => ?_⟩
  · rw [heng]; exact Engine.workOk_congr (x := m.engines[e]) rfl (hm.1.engines e)
  · rw [hb] at he; cases he
  · rw [hb] at he; cases he
  · rw [heng] at hp
    obtain ⟨g, hg, hp'⟩ := pinnedImage_spec hp
    exact ⟨g, by unfold MeasureState.image?; rw [s2]; exact hg, hp'⟩
  · rw [s3] at hi; cases hi
  · rw [hc] at he; cases he
  · rw [s5] at hq; cases hq
  · rw [s5]; exact .nil
  · rw [s4] at hk; exact absurd hk (hna k i e n)
  · obtain ⟨h1, h2, h3⟩ := hfresh g hg
    refine ⟨by rw [h1, h2]; omega, fun r hr => ?_⟩
    rw [h3] at hr; cases hr

end Sys2Proof.Laws
end

