-- ==== Sys2Proof/Laws/PoolForward.lean ====
section
/-! SUPPORT. A forwarded write, classified and handed off, and every command taken keep the laws of the
pool. -/

namespace Sys2Proof.Laws
open Sys2Proof.Machine

/-! ### A forwarded write -/

theorem classify_image {s : State} {a i x : Nat} (h : classify s a = .image i x) :
    ∃ g ∈ s.measure.segments, g.owner = some i ∧ g.base ≤ a ∧ a < g.base + g.length ∧
      x = g.imageOffset + (a - g.base) := by
  unfold classify at h
  split at h
  · cases h
  · split at h
    · rename_i r hr
      subst h
      obtain ⟨area, -, hb⟩ := Option.bind_eq_some_iff.1 hr
      unfold reportBeat at hb
      split at hb
      · simp only at hb
        split at hb <;> cases hb
      · cases hb
    · unfold imageBeat at h
      cases hf : s.measure.segments.find? (segmentHolds · a) with
      | none => rw [hf] at h; cases h
      | some g =>
        rw [hf, Option.bind_some] at h
        have hh := List.find?_some hf
        simp only [segmentHolds, Bool.and_eq_true, decide_eq_true_eq] at hh
        cases ho : g.owner with
        | none => rw [ho] at h; cases h
        | some j =>
          rw [ho] at h
          simp only [Option.map_some, Option.getD_some, Region.image.injEq] at h
          obtain ⟨rfl, rfl⟩ := h
          exact ⟨g, List.mem_of_find?_eq_some hf, ho, hh.1, hh.2, rfl⟩

theorem mem_imageBeats {regions : List Region} {beats : List WriteBeat} {x : ImageBeat}
    (h : some x ∈ imageBeats regions beats) : ∃ k : Nat, regions[k]? = some (.image x.image x.offset) ∧
      beats[k]? = some x.beat := by
  unfold imageBeats at h
  obtain ⟨⟨r, b⟩, hp, hx⟩ := List.mem_map.1 h
  obtain ⟨k, hk⟩ := List.mem_iff_getElem?.1 hp
  obtain ⟨h1, h2⟩ := List.getElem?_zip_eq_some.1 hk
  refine ⟨k, ?_⟩
  simp only at hx
  split at hx
  · cases hx; exact ⟨h1, h2⟩
  · cases hx

theorem beats_within {s : State} {addr : Addr} {beats : List WriteBeat} (ha : addr.toNat % 16 = 0)
    (hs : s.measure.segmentsOk) :
    ∀ x, some x ∈ imageBeats (classifyBeats s addr beats.length) beats → beatWithin s.measure x := by
  intro x hx g hg
  obtain ⟨k, hk, -⟩ := mem_imageBeats hx
  unfold classifyBeats at hk
  rw [List.getElem?_map] at hk
  obtain ⟨k', hk', hr⟩ := Option.map_eq_some_iff.1 hk
  obtain ⟨sg, hsg, ho, h1, h2, h3⟩ := classify_image hr
  obtain ⟨g', hg', a1, a2, a3, a4⟩ := hs sg hsg _ ho
  rw [hg] at hg'; cases hg'
  unfold beatAddress at *
  omega

theorem malformed_aligned {l : LinkState} {kind : LinkKind} {tag : Nat} {addr : Addr} {n : Nat}
    (h : malformed l kind tag addr n = false) : addr.toNat % 16 = 0 := by
  unfold malformed at h
  simp only [Bool.or_eq_false_iff] at h
  simpa using h.1.1.1.1.1

theorem Weaker.work {m m' : MeasureState} (h : Weaker m m') (hr : m.runTableOk → m'.runTableOk)
    (hn : m.waitList.Nodup → m'.waitList.Nodup) (hm : workKept m) : workKept m' :=
  ⟨hr hm.1, h.kept hm.2.1, hn hm.2.2⟩

theorem work_same {m m' : MeasureState}
    (h : (m'.segments, m'.images, m'.engines, m'.waitList, m'.refillTags, m'.refillPending) =
      (m.segments, m.images, m.engines, m.waitList, m.refillTags, m.refillPending)) (hm : workKept m) :
    workKept m' := by
  have h' := h
  simp only [Prod.mk.injEq] at h'
  exact (Weaker.of_same h).work (runTableOk_congr h'.2.1) (by rw [h'.2.2.2.1]; exact id) hm

theorem work_breakImage {m : MeasureState} (i : Nat) (why : BreakReason) (hm : workKept m) :
    workKept (m.breakImage i why) := (evolves_breakImage m i why).work hm (kept_breakImage i why hm.2.1)

theorem work_reopenClosure {m : MeasureState} (i : Nat) (hm : workKept m) : workKept (m.reopenClosure i) :=
  ⟨(reopens_closure m i).runTableOk hm.1, kept_reopenClosure i hm.2.1, (reopens_closure m i).waitList hm.2.2⟩

theorem work_measureWrite {m : MeasureState} (tag : Nat) {beats : List (Option ImageBeat)}
    (hb : beats.length ≤ 16) (hw : ∀ x, some x ∈ beats → beatWithin m x) (hm : workKept m) :
    workKept (m.measureWrite tag beats) :=
  ⟨measureWrite_runTableOk tag hb hm.1, kept_measureWrite tag hb hw hm.1 hm.2.1,
    (moves_measureWrite m tag beats).waitList hm.2.2⟩

theorem work_takeCommand {s : State} (seq : BitVec 8) (kind : Option CommandKind) (i : Nat)
    (hm : workKept s.measure) : workKept (takeCommand s seq kind i).measure := by
  unfold takeCommand
  split
  · exact hm
  · simp only
    split
    · rename_i k _
      cases k with
      | reopen => exact work_reopenClosure i hm
      | abandon => exact work_breakImage i _ hm
      | resend => exact work_same (m := s.measure) rfl hm
      | resume => exact hm
    · exact hm

theorem work_snoop {s : State} (b : WriteBeat) (hm : workKept s.measure) : workKept (snoopHeader s b).measure := by
  unfold snoopHeader
  simp only
  split
  · refine work_takeCommand _ _ _ ?_
    split <;> exact hm
  · split <;> exact hm

/-- A change of the manifest unit's keeps the run table and the wait list. -/
theorem work_manifest {s t : State} (h : ManifestWork s t) (hk : poolKept t.measure) (hm : workKept s.measure) :
    workKept t.measure := h.evolves.work hm hk

theorem work_handOff {s : State} (tag : Nat) (addr : Addr) (beats : List WriteBeat) (ha : addr.toNat % 16 = 0)
    (hb : beats.length ≤ 16) (hm : workKept s.measure) : workKept (handOff s tag addr beats).measure := by
  have hadd : workKept (s.measure.addEntry tag) := work_same (m := s.measure) rfl hm
  have hwin : ∀ u : State, workKept u.measure →
      workKept ((u.startAttempt.windowWrite tag addr beats).advanceManifest).measure := by
    intro u hu
    refine work_manifest ((work_startAttempt u).trans ((work_windowWrite _ tag addr beats).trans
      (work_advanceManifest _))) ?_ hu
    exact kept_advanceManifest (kept_windowWrite tag addr beats (kept_startAttempt hu.2.1))
  unfold handOff
  split
  · unfold handOffArmed
    simp only
    have hl : (imageBeats (classifyBeats s addr beats.length) beats).length ≤ 16 := by
      simp [imageBeats, classifyBeats]; omega
    have hmw := work_measureWrite tag hl (beats_within ha hm.2.1.2.1) hm
    split
    · exact work_snoop (s := { s with measure := (s.measure.measureWrite tag (imageBeats (classifyBeats s addr _) _)) }) _ hmw
    · exact hmw
  · simp only
    split
    · exact hwin { s with measure := s.measure.addEntry tag } hadd
    · exact hadd
  · simp only
    split
    · exact hwin { s with measure := s.measure.addEntry tag } hadd
    · exact hadd
  · exact hadd

end Sys2Proof.Laws
end

