-- ==== Sys2Proof/Laws/PoolSettled.lean ====
section
/-! SUPPORT. What the end of an event leaves: no image that is ready waits where the pool could act for it,
and no engine awaits a refill that is neither asked for nor issued. -/

namespace Sys2Proof.Laws
open Sys2Proof.Machine

/-! ### Readiness -/

/-- The result that makes dependents eligible (R126). -/
def goodOf (m : MeasureState) (i : Nat) : Option Digest := (m.image? i).bind (·.state.goodResult)

/-- Readiness of an image depends on its record and on its predecessor's result (R41). -/
theorem ready_congr {m m' : MeasureState} {j : Nat} (hi : m'.image? j = m.image? j)
    (hg : ∀ p, goodOf m' p = goodOf m p) : m'.ready j = m.ready j := by
  unfold MeasureState.ready
  rw [hi]
  cases m.image? j with
  | none => rfl
  | some g =>
    simp only [Option.any_some, MeasureState.readyImage, MeasureState.eligible]
    cases g.declared.predecessor with
    | none => rfl
    | some p =>
      have := hg p
      unfold goodOf at this
      simp only [this]

theorem ready_of_images {m m' : MeasureState} (h : m'.images = m.images) (j : Nat) : m'.ready j = m.ready j :=
  ready_congr (image?_congr h j) fun p => by unfold goodOf; rw [image?_congr h]

theorem quietStep_good {g g' : Image} (h : quietStep g g') : g'.state.goodResult = g.state.goodResult := by
  rcases h with rfl | ⟨h1, -, -, -, -, h2 | ⟨h2, -⟩⟩
  · rfl
  · rw [h1, h2]
  · rw [h1, h2]; rfl

theorem Quiet.good {m m' : MeasureState} (h : Quiet m m') (hl : m'.images.length = m.images.length) (p : Nat) :
    goodOf m' p = goodOf m p := by
  unfold goodOf
  cases hg : m.image? p with
  | some g =>
    obtain ⟨g', hg', hs⟩ := h.2 p g hg
    rw [hg']
    exact quietStep_good hs
  | none =>
    have : m'.image? p = none := by
      cases hx : m'.image? p with
      | none => rfl
      | some y =>
        have h1 := (image?_isSome m' p).1 (by rw [hx]; rfl)
        rw [hl] at h1
        have h2 := (image?_isSome m p).2 h1
        rw [hg] at h2; cases h2
    rw [this]

theorem ready_filling {m : MeasureState} {i : Nat} (h : m.ready i = true) :
    ∃ g, m.image? i = some g ∧ g.state = .filling ∧ headReady g = true ∧ m.readyImage g = true := by
  unfold MeasureState.ready at h
  cases hg : m.image? i with
  | none => rw [hg] at h; cases h
  | some g =>
    rw [hg, Option.any_some] at h
    have hr := h
    unfold MeasureState.readyImage at hr
    simp only [Bool.and_eq_true, beq_iff_eq] at hr
    exact ⟨g, rfl, hr.1.1, hr.1.2, h⟩

/-! ### One engine starts work on an image -/

/-- What the start or the resumption of work of engine e on image i changes (R53, R55, R56). -/
structure Works (m m' : MeasureState) (e : EngineId) (i : Nat) : Prop where
  engines : ∀ e' : EngineId, e' ≠ e → m'.engines[e'] = m.engines[e']
  bound : m'.engines[e].bound = some i
  claimant : m'.engines[e].claimant = none
  reservation : m'.engines[e].reservation = m.engines[e].reservation
  busy : m'.engines[e].state ≠ .free ∧ m'.engines[e].state ≠ .holding
  images : ∀ j, j ≠ i → m'.image? j = m.image? j
  declared : (m'.image? i).map (·.declared) = (m.image? i).map (·.declared)
  good : ∀ p, goodOf m' p = goodOf m p
  waitList : m'.waitList = m.waitList ∨ m'.waitList = leave m.waitList i
  pending : m'.refillPending = m.refillPending

theorem Works.ready {m m' : MeasureState} {e : EngineId} {i j : Nat} (h : Works m m' e i) (hj : j ≠ i) :
    m'.ready j = m.ready j := ready_congr (h.images j hj) h.good

/-- The choice of an engine whose image is ready is a step, not HOLDING (R55). -/
theorem choose_busy {m : MeasureState} {e : EngineId} {i : Nat} {g : Image}
    (hb : m.engines[e].bound = some i) (hg : m.image? i = some g) (hr : runsOk g.runs)
    (hready : m.readyImage g = true) :
    (m.choose e).engines[e].state ≠ .free ∧ (m.choose e).engines[e].state ≠ .holding := by
  have hh : g.handOff = 0 ∧ ∃ r runs, g.runs = r :: runs := by
    unfold MeasureState.readyImage headReady at hready
    cases hruns : g.runs with
    | nil => rw [hruns] at hready; simp at hready
    | cons r runs =>
      rw [hruns] at hready
      simp only [Bool.and_eq_true, beq_iff_eq] at hready
      exact ⟨hready.1.2.1.2, r, runs, rfl⟩
  generalize hM : m.choose e = M
  unfold MeasureState.choose at hM
  rw [hb] at hM
  simp only [hg] at hM
  split at hM
  · subst hM; rw [engines_modEngine_self]; simp
  · split at hM
    · omega
    · split at hM
      · subst hM; rw [engines_modEngine_self]; simp
      · split at hM
        · rename_i start beats runs hruns
          cases beats with
          | nil =>
            have := hr.2 _ (by rw [hruns]; exact List.mem_cons_self)
            simp [RunBody.sizeOk] at this
          | cons b rest =>
          unfold MeasureState.takeStaged at hM
          simp only [hg, Option.bind_some, hruns, headStagedBeat] at hM
          have := (chosen_take hg (·.absorb b) (fun g => { g.advance with runs := dropStagedBeat g.runs }) (e := e)).engines e
          rw [if_pos rfl, hM] at this
          rw [this]
          simp [Engine.absorb]
        · subst hM; rw [engines_modEngine_self]; simp

theorem works_choose {m : MeasureState} {e : EngineId} {i : Nat} (hm : workKept m)
    (hb : m.engines[e].bound = some i) (hc : m.engines[e].claimant = none) (hr : m.ready i = true) :
    Works m (m.choose e) e i := by
  obtain ⟨g, hg, hst, -, hready⟩ := ready_filling hr
  obtain ⟨g0, hg0, hh, -⟩ := hm.2.1.1.bound e i hb
  rw [hg] at hg0; cases hg0
  obtain ⟨hd, hf, -⟩ := bound_flags (hm.2.1.1.engines e) hb
  have hro := hm.1.1 g (mem_images hg)
  obtain ⟨g', x', ch, c1, c2, c3, c4, c5, c6, c7, c8⟩ := choose_work hb hg hh hd hf
    (((placesOk_iff m).1 hm.2.1.2).2 i g hg) hro
  have hx : (m.choose e).engines[e] = x' := by rw [ch.engines, if_pos rfl]
  have hq : Quiet m (m.choose e) := quiet_choose fun j gj hj hgj => by
    rw [hb] at hj; cases hj
    exact restful_of_ready hr hgj
  refine ⟨fun e' he => by rw [ch.engines, if_neg (Ne.symm he)], by rw [hx, c2], by rw [hx, c3, hc],
    by rw [hx, c4], choose_busy hb hg hro hready, fun j hj => by rw [ch.images, if_neg (Ne.symm hj)], ?_,
    hq.good (evolves_choose m e).length, .inl ch.waitList, ch.pending⟩
  rw [ch.images, if_pos rfl, hg]
  simp [c5]

theorem works_grant {m : MeasureState} {e : EngineId} {i : Nat} (hm : workKept m)
    (hs : m.engines[e].state = .free) (hu : m.unbound i) (hr : m.ready i = true) :
    Works m (m.grant e i) e i := by
  obtain ⟨g, hg, hst, -, hready⟩ := ready_filling hr
  have hh := hm.2.1.1.handOff i g hg hu
  obtain ⟨hb, hd, hman⟩ := (hm.2.1.1.engines e).free hs
  have hdel := (hm.2.1.1.engines e).nothing hb
  have hro := hm.1.1 g (mem_images hg)
  have hplaced := ((placesOk_iff m).1 hm.2.1.2).2 i g hg
  have hq : Quiet m (m.grant e i) := quiet_grant fun gj hgj => restful_of_ready hr hgj
  have hlen := (evolves_grant m e i).length
  have key : ∀ (m' : MeasureState) (g' : Image) (x' : Engine), m.grant e i = m' →
      Chosen ({ m with waitList := leave m.waitList i }) m' e i g' x' → x'.bound = some i →
      x'.claimant = none → x'.reservation = m.engines[e].reservation → g'.declared = g.declared →
      x'.state ≠ .free ∧ x'.state ≠ .holding → Works m (m.grant e i) e i := by
    intro m' g' x' hm' ch c1 c2 c3 c4 c5
    rw [hm'] at hq hlen ⊢
    have hx : m'.engines[e] = x' := by rw [ch.engines, if_pos rfl]
    refine ⟨fun e' he => by rw [ch.engines, if_neg (Ne.symm he)], by rw [hx, c1], by rw [hx, c2],
      by rw [hx, c3], by rw [hx]; exact c5, fun j hj => by rw [ch.images, if_neg (Ne.symm hj)]; rfl, ?_,
      hq.good hlen, .inr ch.waitList, ch.pending⟩
    rw [ch.images, if_pos rfl, hg]
    simp [c4]
  cases hslot : g.slot with
  | some c =>
    refine key (({ m with waitList := leave m.waitList i } : MeasureState).modEngine e
      (fun x => { x with bound := some i, state := .restoring, claimant := none })) g _ ?_
      (chosen_modEngine (m := { m with waitList := leave m.waitList i }) hg _) rfl rfl rfl rfl (by simp)
    unfold MeasureState.grant
    rw [hg]
    simp only [hslot]
  | none =>
    cases hseed : (g.declared.predecessor.bind m.image?).bind (·.state.goodResult) with
    | some d =>
      refine key (({ m with waitList := leave m.waitList i } : MeasureState).modEngine e
        (fun x => { x with bound := some i, state := .absorbing .seed, claimant := none,
                           context := some (takeSeed freshContext d) })) g _ ?_
        (chosen_modEngine (m := { m with waitList := leave m.waitList i }) hg _) rfl rfl rfl rfl (by simp)
      unfold MeasureState.grant
      rw [hg]
      simp only [hslot]
      rw [show ({ m with waitList := leave m.waitList i } : MeasureState).image? = m.image? from rfl, hseed]
    | none =>
      let f : Engine → Engine := fun x => { x with bound := some i, claimant := none, context := some freshContext }
      let m1 : MeasureState := ({ m with waitList := leave m.waitList i } : MeasureState).modEngine e f
      have hx : m1.engines[e] = f m.engines[e] := engines_modEngine_self _ e f
      obtain ⟨g', x', ch, c1, c2, c3, c4, c5, c6, c7, c8⟩ := choose_work (m := m1) (e := e) (i := i) (g := g)
        (by rw [hx]) hg (by rw [hx, hh]; simp only [f]; rw [hdel]; rfl) (by rw [hx]; exact hd)
        (by rw [hx]; exact hman) hplaced hro
      have hbusy := choose_busy (m := m1) (e := e) (i := i) (g := g) (by rw [hx]) hg hro hready
      have hx' : (m1.choose e).engines[e] = x' := by rw [ch.engines, if_pos rfl]
      rw [hx'] at hbusy
      refine key (m1.choose e) g' x' ?_ ⟨fun e' => ?_, ch.images, ch.waitList, ch.pending, ch.tags, ch.segments⟩
        c2 (c3.trans (by rw [hx])) (c4.trans (by rw [hx])) c5 hbusy
      · unfold MeasureState.grant
        rw [hg]
        simp only [hslot]
        rw [show ({ m with waitList := leave m.waitList i } : MeasureState).image? = m.image? from rfl, hseed]
      · rw [ch.engines]
        split
        · rfl
        · rename_i hne
          exact engines_modEngine_ne f (Ne.symm hne)

/-! ### What has been acted on so far -/

/-- The wait list, the claims and the requests stand for ready images; engines for which HOLDING has been
looked at hold for no ready image, and those for which the reservation has been looked at leave none waiting. -/
structure Acted (m : MeasureState) (held pinned : EngineId → Prop) : Prop where
  list : ∀ i ∈ m.waitList, m.ready i = true
  claims : ∀ (e : EngineId) (i : Nat), m.engines[e].claimant = some i → m.ready i = true
  requests : ∀ q ∈ m.refillPending, m.ready q.image = true
  held : ∀ e : EngineId, held e → ∀ i, m.engines[e].state = .holding → m.engines[e].bound = some i →
    m.ready i = false
  pinned : ∀ e : EngineId, pinned e → ∀ p, m.engines[e].reservation = some p → m.engines[e].state = .free →
    m.ready p = true → ¬ m.unbound p

theorem Acted.mono {m : MeasureState} {H H' P P' : EngineId → Prop} (h : Acted m H P) (hh : ∀ e, H' e → H e)
    (hp : ∀ e, P' e → P e) : Acted m H' P' :=
  ⟨h.list, h.claims, h.requests, fun e he => h.held e (hh e he), fun e he => h.pinned e (hp e he)⟩

theorem Acted.works {m m' : MeasureState} {e : EngineId} {i : Nat} {H P : EngineId → Prop} (h : Acted m H P)
    (hw : Works m m' e i) (hm : workKept m) (hb : m.engines[e].bound = none ∨ m.engines[e].bound = some i)
    (ho : ∀ e' : EngineId, e' ≠ e → m.engines[e'].bound ≠ some i)
    (hc : ∀ e' : EngineId, e' ≠ e → m.engines[e'].claimant ≠ some i) (hs : m.engines[e].state ≠ .awaitingRefill)
    (hl : i ∉ m'.waitList) : Acted m' (fun x => H x ∨ x = e) (fun x => P x ∨ x = e) := by
  have hsub : ∀ j ∈ m'.waitList, j ∈ m.waitList := fun j hj => by
    rcases hw.waitList with h | h
    · rw [h] at hj; exact hj
    · rw [h] at hj; exact ((mem_leave _ _ _).1 hj).1
  refine ⟨fun j hj => ?_, fun e' j hj => ?_, fun q hq => ?_, fun e' he' j hst hbj => ?_, fun e' he' p hp hf hr => ?_⟩
  · rw [hw.ready (fun hji => hl (hji ▸ hj))]
    exact h.list j (hsub j hj)
  · by_cases he : e' = e
    · subst he; rw [hw.claimant] at hj; cases hj
    · rw [hw.engines e' he] at hj
      rw [hw.ready (fun hji => hc e' he (hji ▸ hj))]
      exact h.claims e' j hj
  · rw [hw.pending] at hq
    obtain ⟨hqs, hqb, -⟩ := hm.2.1.1.requests q hq
    have hqe : q.engine ≠ e := fun he => hs (he ▸ hqs)
    rw [hw.ready (fun hji => ho q.engine hqe (hji ▸ hqb))]
    exact h.requests q hq
  · by_cases he : e' = e
    · subst he; exact absurd hst hw.busy.2
    · rw [hw.engines e' he] at hst hbj
      rw [hw.ready (fun hji => ho e' he (hji ▸ hbj))]
      exact h.held e' (he'.resolve_right he) j hst hbj
  · by_cases he : e' = e
    · subst he; exact absurd hf hw.busy.1
    · by_cases hpi : p = i
      · subst hpi
        exact fun hu => hu e hw.bound
      · rw [hw.engines e' he] at hp hf
        rw [hw.ready hpi] at hr
        have hn := h.pinned e' (he'.resolve_right he) p hp hf hr
        intro hu
        apply hn
        intro x hx
        by_cases hxe : x = e
        · subst hxe
          rcases hb with hb | hb <;> rw [hb] at hx
          · cases hx
          · cases hx; exact hpi rfl
        · exact hu x (by rw [hw.engines x hxe]; exact hx)

/-! ### The stages of a settlement of the pool -/

theorem fold_hold (l : List RefillRequest) (m : MeasureState) :
    (l.foldl (fun m r => m.hold r.engine) m).images = m.images ∧
    (l.foldl (fun m r => m.hold r.engine) m).refillPending = m.refillPending := by
  induction l generalizing m with
  | nil => exact ⟨rfl, rfl⟩
  | cons r l ih => exact ⟨(ih (m.hold r.engine)).1, (ih (m.hold r.engine)).2⟩

theorem acted_start (m : MeasureState) : Acted m.withdrawUnready.dropUnready (fun _ => False) (fun _ => False) := by
  have hw : m.withdrawUnready.images = m.images ∧
      m.withdrawUnready.refillPending = m.refillPending.filter (fun r => m.ready r.image) := by
    unfold MeasureState.withdrawUnready
    exact fold_hold _ _
  have hready : ∀ j, m.withdrawUnready.dropUnready.ready j = m.ready j := fun j => ready_of_images hw.1 j
  have hready' : ∀ j, m.withdrawUnready.ready j = m.ready j := fun j => ready_of_images hw.1 j
  refine ⟨fun i hi => ?_, fun e i hi => ?_, fun q hq => ?_, fun _ h => h.elim, fun _ h => h.elim⟩
  · have : i ∈ m.withdrawUnready.waitList.filter m.withdrawUnready.ready := hi
    rw [hready, ← hready']
    exact (List.mem_filter.1 this).2
  · rw [hready, ← hready']
    have hx : (m.withdrawUnready.dropUnready).engines[e] =
        (fun e : Engine => if e.claimant.any (fun i => !m.withdrawUnready.ready i) then { e with claimant := none } else e)
          m.withdrawUnready.engines[e] :=
      engines_mapEngines m.withdrawUnready e
        (fun e => if e.claimant.any (fun i => !m.withdrawUnready.ready i) then { e with claimant := none } else e)
    rw [hx] at hi
    simp only at hi
    split at hi
    · cases hi
    · rename_i hn
      rw [hi] at hn
      simpa using hn
  · have hq' : q ∈ m.withdrawUnready.refillPending := hq
    rw [hw.2] at hq'
    rw [hready]
    exact (List.mem_filter.1 hq').2

theorem acted_resume {m : MeasureState} (e : EngineId) {H P : EngineId → Prop} (hm : workKept m) (h : Acted m H P) :
    Acted (m.resumeHolding e) (fun x => H x ∨ x = e) P := by
  unfold MeasureState.resumeHolding
  split
  · rename_i hc
    simp only [Bool.and_eq_true, beq_iff_eq] at hc
    obtain ⟨hs, hr⟩ := hc
    cases hb : m.engines[e].bound with
    | none => rw [hb] at hr; cases hr
    | some i =>
      rw [hb, Option.any_some] at hr
      have hcl : m.engines[e].claimant = none := claimant_none hm.2.1.1 (by rw [hs]; simp)
      have hw := works_choose hm hb hcl hr
      refine (h.works hw hm (.inr hb) (fun e' he hbe => he (hm.2.1.1.single e' e i hbe hb))
        (fun e' _ hce => (hm.2.1.1.claims e' i hce).2.1 e hb) (by rw [hs]; simp) (fun hi => ?_)).mono
        (fun _ h => h) (fun _ h => .inl h)
      have : i ∈ m.waitList := by
        rcases hw.waitList with h | h
        · rw [h] at hi; exact hi
        · rw [h] at hi; exact ((mem_leave _ _ _).1 hi).1
      exact (hm.2.1.1.waiting i this).2.1 e hb
  · rename_i hc
    refine ⟨h.list, h.claims, h.requests, fun x hx i hs hb => ?_, h.pinned⟩
    rcases hx with hx | rfl
    · exact h.held x hx i hs hb
    · rw [Bool.and_eq_true, not_and] at hc
      have := hc (by rw [hs]; rfl)
      rw [hb, Option.any_some] at this
      simpa using this

theorem acted_pinned {m : MeasureState} (e : EngineId) {H P : EngineId → Prop} (hm : workKept m) (h : Acted m H P) :
    Acted (m.grantPinned e) H (fun x => P x ∨ x = e) := by
  unfold MeasureState.grantPinned
  split
  · rename_i p hp
    split
    · rename_i hc
      simp only [Bool.and_eq_true, beq_iff_eq] at hc
      obtain ⟨⟨hs, hr⟩, hu⟩ := hc
      have hu := unbound_of_bindingOf hu
      have hw := works_grant hm hs hu hr
      obtain ⟨g, hg, hpin⟩ := hm.2.1.1.pins e p hp
      have hnp : ¬ m.unpinned p := by
        rintro ⟨g', hg', hn⟩
        rw [hg] at hg'; cases hg'; rw [hpin] at hn; cases hn
      refine (h.works hw hm (.inl ((hm.2.1.1.engines e).free hs).1) (fun e' _ => hu e')
        (fun e' _ hce => hnp (hm.2.1.1.claims e' p hce).1) (by rw [hs]; simp) (fun hi => ?_)).mono
        (fun _ h => .inl h) (fun _ h => h)
      have : p ∈ m.waitList := by
        rcases hw.waitList with h | h
        · rw [h] at hi; exact hi
        · rw [h] at hi; exact ((mem_leave _ _ _).1 hi).1
      exact hnp (hm.2.1.1.waiting p this).1
    · rename_i hc
      refine ⟨h.list, h.claims, h.requests, h.held, fun x hx q hq hs hr => ?_⟩
      rcases hx with hx | rfl
      · exact h.pinned x hx q hq hs hr
      · rw [hp] at hq; cases hq
        intro hu
        apply hc
        simp only [Bool.and_eq_true, beq_iff_eq]
        refine ⟨⟨hs, hr⟩, ?_⟩
        unfold MeasureState.bindingOf
        rw [Option.isNone_iff_eq_none, List.find?_eq_none]
        intro x _
        simpa using hu x
  · rename_i hp
    refine ⟨h.list, h.claims, h.requests, h.held, fun x hx q hq hs hr => ?_⟩
    rcases hx with hx | rfl
    · exact h.pinned x hx q hq hs hr
    · rw [hp] at hq; cases hq

/-- Every image that may wait waits (R50). -/
def waitsAll (m : MeasureState) : Prop := ∀ i, m.mayWait i = true → i ∈ m.waitList

theorem waitsAll_join (m : MeasureState) : waitsAll m.joinWaiting := by
  intro i hi
  have hi' : m.mayWait i = true := hi
  show i ∈ (m.indices.filter m.mayWait).foldl joinTail m.waitList
  rw [mem_foldl_joinTail]
  refine .inr (List.mem_filter.2 ⟨?_, hi'⟩)
  obtain ⟨g, hg, -⟩ := ready_filling ((mayWait_iff m i).1 hi').1
  have := (image?_isSome m i).1 (by rw [hg]; rfl)
  unfold MeasureState.indices
  rw [List.mem_map]
  exact ⟨i - 1, List.mem_range.2 (by omega), by omega⟩

theorem acted_join {m : MeasureState} {H P : EngineId → Prop} (h : Acted m H P) : Acted m.joinWaiting H P := by
  refine ⟨fun i hi => ?_, h.claims, h.requests, h.held, h.pinned⟩
  rcases (mem_foldl_joinTail _ _ _).1 hi with hi | hi
  · exact h.list i hi
  · exact ((mayWait_iff m i).1 (List.mem_filter.1 hi).2).1

theorem acted_one {m m' : MeasureState} {H P : EngineId → Prop} (hm : workKept m) (h : Acted m H P) (ha : waitsAll m)
    (ho : m.arbitrateOne = some m') : Acted m' H P ∧ waitsAll m' := by
  unfold MeasureState.arbitrateOne at ho
  split at ho
  · cases ho
  · rename_i i rest hw
    have hin : i ∈ m.waitList := by rw [hw]; exact List.mem_cons_self
    have hnd : i ∉ rest := by have := hm.2.2; rw [hw] at this; exact (List.nodup_cons.1 this).1
    obtain ⟨w1, w2, w3⟩ := hm.2.1.1.waiting i hin
    have hri := h.list i hin
    have h0 : Weaker m { m with waitList := rest } := ⟨fun _ => rfl, fun _ => .inl rfl, fun _ => .inl rfl,
      fun _ => rfl, fun j hj => by rw [hw]; exact List.mem_cons_of_mem _ hj, .refl _, fun _ _ _ _ h => h, rfl⟩
    have hm0 : workKept { m with waitList := rest } :=
      ⟨runTableOk_congr (m := m) rfl hm.1, h0.kept hm.2.1, by have := hm.2.2; rw [hw] at this; exact (List.nodup_cons.1 this).2⟩
    have h1 : Acted { m with waitList := rest } H P :=
      ⟨fun j hj => h.list j (by rw [hw]; exact List.mem_cons_of_mem _ hj), h.claims, h.requests, h.held, h.pinned⟩
    split at ho
    · rename_i e he
      cases ho
      have hs := (freeEngine_spec he).1
      have hwk := works_grant hm0 hs w2 (i := i) hri
      have hlist : ∀ j, j ∈ (MeasureState.grant { m with waitList := rest } e i).waitList ↔ j ∈ rest := by
        intro j
        rcases hwk.waitList with h | h <;> rw [h]
        rw [mem_leave]
        exact ⟨fun h => h.1, fun h => ⟨h, fun he => hnd (he ▸ h)⟩⟩
      refine ⟨(h1.works hwk hm0 (.inl ((hm.2.1.1.engines e).free hs).1) (fun e' _ => w2 e') (fun e' _ => w3 e')
        (by rw [show ({ m with waitList := rest } : MeasureState).engines[e] = m.engines[e] from rfl, hs]; simp)
        (fun hi => hnd ((hlist i).1 hi))).mono (fun _ h => .inl h) (fun _ h => .inl h), fun j hj => ?_⟩
      rw [hlist]
      obtain ⟨a, b, c, d⟩ := (mayWait_iff _ j).1 hj
      have hji : j ≠ i := fun hji => b e (by rw [hwk.bound, hji])
      have hmj : m.mayWait j = true := by
        refine (mayWait_iff m j).2 ⟨?_, fun x hx => ?_, fun x hx => ?_, ?_⟩
        · rw [hwk.ready hji] at a; exact a
        · by_cases hxe : x = e
          · subst hxe; rw [((hm.2.1.1.engines _).free hs).1] at hx; cases hx
          · exact b x (by rw [hwk.engines x hxe]; exact hx)
        · by_cases hxe : x = e
          · subst hxe; rw [claimant_none hm.2.1.1 (by rw [hs]; simp)] at hx; cases hx
          · exact c x (by rw [hwk.engines x hxe]; exact hx)
        · obtain ⟨g, hg, hp⟩ := d
          rw [hwk.images j hji] at hg
          exact ⟨g, hg, hp⟩
      have := ha j hmj
      rw [hw] at this
      exact (List.mem_cons.1 this).resolve_left hji
    · split at ho
      · rename_i e he
        cases ho
        have hev := evictionChoice_spec he
        simp only [Engine.evictable, Bool.and_eq_true, beq_iff_eq, Option.isNone_iff_eq_none] at hev
        obtain ⟨⟨hs, hres⟩, hcl⟩ := hev
        let f : Engine → Engine := fun x => { x with state := .parking, claimant := some i }
        have heng : ∀ x : EngineId, (({ m with waitList := rest } : MeasureState).modEngine e f).engines[x] =
            if e = x then f m.engines[x] else m.engines[x] := fun x => engines_modEngine _ _ _ _
        refine ⟨⟨fun j hj => h1.list j hj, fun x j hj => ?_, h.requests, fun x hx j hst hb => ?_,
          fun x hx p hp hf hr => ?_⟩, fun j hj => ?_⟩
        · rw [heng] at hj
          split at hj
          · cases hj; exact hri
          · exact h.claims x j hj
        · rw [heng] at hst hb
          split at hst
          · cases hst
          · rename_i hne
            rw [if_neg hne] at hb
            exact h.held x hx j hst hb
        · rw [heng] at hp hf
          split at hf
          · cases hf
          · rename_i hne
            rw [if_neg hne] at hp
            intro hu
            refine h.pinned x hx p hp hf hr fun y hy => hu y ?_
            rw [heng]
            split
            · exact hy
            · exact hy
        · obtain ⟨a, b, c, d⟩ := (mayWait_iff _ j).1 hj
          have hji : j ≠ i := fun hji => c e (by rw [heng, if_pos rfl, hji])
          have hmj : m.mayWait j = true := by
            refine (mayWait_iff m j).2 ⟨a, fun x hx => b x ?_, fun x hx => c x ?_, d⟩
            · rw [heng]; split
              · exact hx
              · exact hx
            · rw [heng]; split
              · rename_i hxe; subst hxe; rw [hcl] at hx; cases hx
              · exact hx
          have := ha j hmj
          rw [hw] at this
          exact (List.mem_cons.1 this).resolve_left hji
      · cases ho

theorem length_one {m m' : MeasureState} (ho : m.arbitrateOne = some m') (n : Nat)
    (hl : m.waitList.length ≤ n + 1) : m'.waitList.length ≤ n := by
  unfold MeasureState.arbitrateOne at ho
  split at ho
  · cases ho
  · rename_i i rest hw
    rw [hw, List.length_cons] at hl
    have hgr : ∀ (m : MeasureState) (e : EngineId), (m.grant e i).waitList.length ≤ m.waitList.length := by
      intro m e
      have : ∀ l : List Nat, (leave l i).length ≤ l.length := fun l => List.length_filter_le _ _
      have hch : ∀ m : MeasureState, (m.choose e).waitList = m.waitList := fun m => waitList_choose m e
      unfold MeasureState.grant
      split
      · exact Nat.le_refl _
      · simp only
        split
        · exact this _
        · split
          · exact this _
          · rw [hch]; exact this _
    split at ho
    · cases ho
      exact Nat.le_trans (hgr { m with waitList := rest } _) (by simp only; omega)
    · split at ho
      · cases ho; simp only [modEngine_waitList]; omega
      · cases ho

theorem acted_arbitrate (n : Nat) {m : MeasureState} {H P : EngineId → Prop} (hm : workKept m) (h : Acted m H P)
    (ha : waitsAll m) (hl : m.waitList.length ≤ n) :
    Acted (m.arbitrate n) H P ∧ waitsAll (m.arbitrate n) ∧ (m.arbitrate n).arbitrateOne = none := by
  induction n generalizing m with
  | zero =>
    refine ⟨h, ha, ?_⟩
    have : m.waitList = [] := List.eq_nil_of_length_eq_zero (by omega)
    show m.arbitrateOne = none
    unfold MeasureState.arbitrateOne
    rw [this]
  | succ n ih =>
    unfold MeasureState.arbitrate
    split
    · rename_i m' ho
      obtain ⟨h1, h2⟩ := acted_one hm h ha ho
      exact ih ⟨(evolves_arbitrateOne ho).runTableOk hm.1, kept_arbitrateOne hm.1 hm.2.1 hm.2.2 ho,
        waitList_arbitrateOne ho hm.2.2⟩ h1 h2 (length_one ho n hl)
    · rename_i hn
      exact ⟨h, ha, hn⟩


/-! ### The pool and the refill unit after an event -/

theorem find_none {P : EngineId → Bool} (h : engineIds.find? P = none) (e : EngineId) : P e = false := by
  have := List.find?_eq_none.1 h e (mem_engineIds e)
  simpa using this

theorem evictionChoice_none {m : MeasureState} (h : m.evictionChoice = none) (e : EngineId) :
    m.engines[e].evictable = false := by
  have gen : ∀ (l : List EngineId) (b : Option EngineId),
      l.foldl (fun best e =>
        if m.engines[e].evictable then
          match best with
          | none => some e
          | some b => if m.engines[e].holdingSince < m.engines[b].holdingSince then some e else best
        else best) b = none → b = none ∧ ∀ e ∈ l, m.engines[e].evictable = false := by
    intro l
    induction l with
    | nil => intro b hb; exact ⟨hb, by simp⟩
    | cons a l ih =>
      intro b hb
      rw [List.foldl_cons] at hb
      obtain ⟨h1, h2⟩ := ih _ hb
      split at h1
      · split at h1
        · cases h1
        · split at h1 <;> cases h1
      · rename_i hn
        refine ⟨h1, fun x hx => ?_⟩
        rcases List.mem_cons.1 hx with rfl | hx
        · simpa using hn
        · exact h2 x hx
  exact (gen engineIds none h).2 e (mem_engineIds e)

theorem arbitrateOne_none {m : MeasureState} (h : m.arbitrateOne = none) (hw : m.waitList ≠ []) (e : EngineId)
    (hr : m.engines[e].reservation = none) :
    m.engines[e].state ≠ .free ∧ (m.engines[e].state = .holding → m.engines[e].claimant ≠ none) := by
  unfold MeasureState.arbitrateOne at h
  split at h
  · rename_i hn; exact absurd hn hw
  · split at h
    · cases h
    · rename_i hf
      split at h
      · cases h
      · rename_i he
        have h1 := find_none hf e
        have h2 := evictionChoice_none he e
        rw [hr] at h1
        unfold Engine.evictable at h2
        rw [hr] at h2
        refine ⟨by simpa using h1, fun hs hc => ?_⟩
        rw [hs, hc] at h2
        cases h2

theorem acted_settlePool {m : MeasureState} (hm : workKept m) : Acted m.settlePool (fun _ => True) (fun _ => True) ∧
    waitsAll m.settlePool ∧ m.settlePool.arbitrateOne = none := by
  have h1 : workKept m.withdrawUnready.dropUnready :=
    ((evolves_withdrawUnready m).trans (evolves_dropUnready _)).work hm
      ((weaker_dropUnready _).kept (kept_withdrawUnready hm.2.1))
  have fold : ∀ (f : MeasureState → EngineId → MeasureState)
      (hf : ∀ m e, workKept m → workKept (f m e)) (Q : MeasureState → (EngineId → Prop) → Prop)
      (hq : ∀ m e H, workKept m → Q m H → Q (f m e) (fun x => H x ∨ x = e)) (l : List EngineId)
      (m : MeasureState) (H : EngineId → Prop), workKept m → Q m H →
      workKept (l.foldl f m) ∧ ∃ H', Q (l.foldl f m) H' ∧ (∀ e, H e → H' e) ∧ ∀ e ∈ l, H' e := by
    intro f hf Q hq l
    induction l with
    | nil => intro m H hm h; exact ⟨hm, H, h, fun _ h => h, by simp⟩
    | cons a l ih =>
      intro m H hm h
      obtain ⟨w, H', q, s1, s2⟩ := ih (f m a) _ (hf m a hm) (hq m a H hm h)
      refine ⟨w, H', q, fun e he => s1 e (.inl he), fun e he => ?_⟩
      rcases List.mem_cons.1 he with rfl | he
      · exact s1 _ (.inr rfl)
      · exact s2 e he
  obtain ⟨h2, H, q2, -, s2⟩ := fold MeasureState.resumeHolding
    (fun m e h => (evolves_resumeHolding m e).work h (kept_resumeHolding e h.1 h.2.1))
    (fun m H => Acted m H (fun _ => False)) (fun m e H hm h => acted_resume e hm h) engineIds _ _ h1 (acted_start m)
  have q2 : Acted _ (fun _ => True) (fun _ => False) := q2.mono (fun e _ => s2 e (mem_engineIds e)) (fun _ h => h)
  obtain ⟨h3, P, q3, -, s3⟩ := fold MeasureState.grantPinned
    (fun m e h => (evolves_grantPinned m e).work h (kept_grantPinned e h.1 h.2.1))
    (fun m P => Acted m (fun _ => True) P) (fun m e P hm h => acted_pinned e hm h) engineIds _ _ h2 q2
  have q3 : Acted _ (fun _ => True) (fun _ => True) := q3.mono (fun _ h => h) (fun e _ => s3 e (mem_engineIds e))
  have h4 := (evolves_joinWaiting _).work h3 (kept_joinWaiting h3.2.1)
  exact acted_arbitrate _ h4 (acted_join q3) (waitsAll_join _) (Nat.le_refl _)

theorem serveFrom_kept {m : MeasureState} {r : RefillRequest} (l : List RefillRequest) (h : m.issueRefill r = none) :
    m.serveFrom (r :: l) = ((m.serveFrom l).1, r :: (m.serveFrom l).2.1, (m.serveFrom l).2.2) := by
  show (match m.issueRefill r with | none => _ | some issued => _) = _
  rw [h]

theorem serveFrom_issued {m : MeasureState} {r : RefillRequest} (l : List RefillRequest)
    {x : MeasureState × LinkRequest} (h : m.issueRefill r = some x) :
    m.serveFrom (r :: l) = ((x.1.serveFrom l).1, (x.1.serveFrom l).2.1, x.2 :: (x.1.serveFrom l).2.2) := by
  show (match m.issueRefill r with | none => _ | some issued => _) = _
  rw [h]

/-- What the serving of the pending list leaves alone, and where its requests end (R72, R75, R81). -/
theorem serveFrom_spec (l : List RefillRequest) (m : MeasureState) :
    (m.serveFrom l).1.images = m.images ∧ (m.serveFrom l).1.engines = m.engines ∧
    (m.serveFrom l).1.segments = m.segments ∧ (m.serveFrom l).1.waitList = m.waitList ∧
    (∀ q ∈ (m.serveFrom l).2.1, q ∈ l) ∧
    (∀ (k : Fin 8) i e n, m.refillTags[k].attachedTo i e n → (m.serveFrom l).1.refillTags[k].attachedTo i e n) ∧
    (∀ q ∈ l, q ∈ (m.serveFrom l).2.1 ∨
      ∃ (k : Fin 8) (n : Nat), (m.serveFrom l).1.refillTags[k].attachedTo q.image q.engine n) ∧
    ((∀ q ∈ l, ((m.image? q.image).bind (·.runs.head?)).bind (chunkOf m.segments q.image) ≠ none) →
      (m.serveFrom l).2.1 ≠ [] → ∀ k : Fin 8, (m.serveFrom l).1.refillTags[k] ≠ .free) := by
  induction l generalizing m with
  | nil => exact ⟨rfl, rfl, rfl, rfl, by simp [MeasureState.serveFrom], fun _ _ _ _ h => h, by simp,
      fun _ h => absurd rfl h⟩
  | cons r l ih =>
    cases hi : m.issueRefill r with
    | none =>
      rw [serveFrom_kept l hi]
      obtain ⟨a, b, c, d, e, f, g, h⟩ := ih m
      refine ⟨a, b, c, d, fun q hq => ?_, f, fun q hq => ?_, fun hc hne k hk => ?_⟩
      · rcases List.mem_cons.1 hq with rfl | hq
        · exact List.mem_cons_self
        · exact List.mem_cons_of_mem _ (e q hq)
      · rcases List.mem_cons.1 hq with rfl | hq
        · exact .inl List.mem_cons_self
        · rcases g q hq with h | h
          · exact .inl (List.mem_cons_of_mem _ h)
          · exact .inr h
      · have hnf : m.freeRefillTag = none := by
          unfold MeasureState.issueRefill at hi
          split at hi
          · cases hi
          · rename_i hx
            cases hf : m.freeRefillTag with
            | none => rfl
            | some t =>
              have hcr := hc r List.mem_cons_self
              cases hch : ((m.image? r.image).bind (·.runs.head?)).bind (chunkOf m.segments r.image) with
              | none => exact absurd hch hcr
              | some x => obtain ⟨a, s, n⟩ := x; exact absurd hch (hx t a s n hf)
        have hall : ∀ k : Fin 8, m.refillTags[k] ≠ .free := by
          intro k hk
          unfold MeasureState.freeRefillTag at hnf
          have := List.find?_eq_none.1 hnf k (mem_refillTagIds k)
          rw [hk] at this
          simp at this
        have hsame : ∀ l : List RefillRequest, (m.serveFrom l).1 = m := by
          intro l
          induction l with
          | nil => rfl
          | cons r l ih =>
            rw [serveFrom_kept l (by unfold MeasureState.issueRefill; rw [hnf])]
            exact ih
        rw [hsame] at hk
        exact hall k hk
    | some x =>
      rw [serveFrom_issued l hi]
      unfold MeasureState.issueRefill at hi
      split at hi
      · rename_i t addr start count hft hch
        cases hi
        obtain ⟨a, b, c, d, e, f, g, h⟩ := ih (m.setRefillTag t (.busy r.image (some r.engine) start count addr))
        have hfree : m.refillTags[t] = .free := by
          have := List.find?_some hft
          simpa using this
        refine ⟨a, b, c, d, fun q hq => List.mem_cons_of_mem _ (e q hq), fun k i e' n hk => f k i e' n ?_,
          fun q hq => ?_, fun hc hne => h (fun q hq => hc q (List.mem_cons_of_mem _ hq)) hne⟩
        · rw [refillTags_setRefillTag]
          split
          · rename_i hkt
            subst hkt
            obtain ⟨s, a, hb⟩ := hk
            rw [hfree] at hb; cases hb
          · exact hk
        · rcases List.mem_cons.1 hq with rfl | hq
          · refine .inr ⟨t, count, f t _ _ _ ⟨start, addr, ?_⟩⟩
            rw [refillTags_setRefillTag, if_pos rfl]
          · exact g q hq
      · cases hi

/-- What `poolSettled` reads of a state. -/
theorem settled_congr {m m' : MeasureState} (hr : ∀ j, m'.ready j = m.ready j) (he : m'.engines = m.engines)
    (hu : ∀ j, m'.unpinned j ↔ m.unpinned j) (hw : m'.waitList = m.waitList)
    (hp : m'.refillPending = m.refillPending) (ht : m'.refillTags = m.refillTags) (h : m.poolSettled) :
    m'.poolSettled := by
  have hub : ∀ j, m'.unbound j ↔ m.unbound j := fun j => by unfold MeasureState.unbound; rw [he]
  refine ⟨fun i => ?_, ?_, fun e i => ?_, fun e i => ?_, fun e p => ?_, fun e i => ?_, ?_⟩
  · rw [hw, hr, hub, hu, he]; exact h.waiting i
  · rw [hw, he]; exact h.arbiter
  · rw [he, hr]; exact h.claims e i
  · rw [he, hr]; exact h.holding e i
  · rw [he, hr, hub]; exact h.pinned e p
  · rw [he, hp, ht]; exact h.awaiting e i
  · rw [hp, ht]; exact h.served

theorem serveRefills_images (m : MeasureState) : m.serveRefills.1.images = m.images :=
  (serveFrom_spec _ m.requestRefills).1

/-- A settled pool whose requests are made and served is settled with its refill unit (R72, R81). -/
theorem settled_serve {m : MeasureState} (hm : workKept m) (hc : m.segmentsCover)
    (ha : Acted m (fun _ => True) (fun _ => True)) (hw : waitsAll m) (hn : m.arbitrateOne = none) :
    m.serveRefills.1.poolSettled := by
  have hk := kept_requestRefills hm.2.1
  obtain ⟨himg, heng, hseg, hwl, hsub, htag, hput, hserved⟩ := serveFrom_spec m.requestRefills.refillPending m.requestRefills
  have himg : m.serveRefills.1.images = m.images := himg
  have heng : m.serveRefills.1.engines = m.engines := heng
  have hwl : m.serveRefills.1.waitList = m.waitList := hwl
  have hready : ∀ j, m.serveRefills.1.ready j = m.ready j := ready_of_images himg
  have hub : ∀ j, m.serveRefills.1.unbound j ↔ m.unbound j := fun j => by unfold MeasureState.unbound; rw [heng]
  have hup : ∀ j, m.serveRefills.1.unpinned j ↔ m.unpinned j := fun j => by
    unfold MeasureState.unpinned; rw [image?_congr himg]
  have hheld : ∀ e : EngineId, m.engines[e].state = .awaitingRefill → ∀ i, m.engines[e].bound = some i →
      { engine := e, image := i } ∈ m.requestRefills.refillPending ∨
        ∃ (k : Fin 8) (n : Nat), m.refillTags[k].attachedTo i e n := by
    intro e hs i hb
    by_cases hp : ∃ q ∈ m.refillPending, q.engine = e
    · obtain ⟨q, hq, rfl⟩ := hp
      have := (hm.2.1.1.requests q hq).2.1
      rw [hb] at this; cases this
      exact .inl (List.mem_append_left _ hq)
    · by_cases hi : m.hasIssued e = true
      · obtain ⟨k, j, n, hk⟩ := (hasIssued_iff m e).1 hi
        have := (hm.2.1.1.attached k j e n hk).2.1
        rw [hb] at this; cases this
        exact .inr ⟨k, n, hk⟩
      · refine .inl (List.mem_append_right _ (List.mem_filterMap.2 ⟨e, mem_engineIds e, ?_⟩))
        unfold MeasureState.newRequest
        rw [if_pos, hb]
        · rfl
        · simp only [Bool.and_eq_true, beq_iff_eq, Bool.not_eq_true', List.any_eq_false]
          refine ⟨⟨hs, fun q hq hqe => hp ⟨q, hq, by simpa using hqe⟩⟩, by simpa using hi⟩
  have hchunk : ∀ q ∈ m.requestRefills.refillPending,
      ((m.image? q.image).bind (·.runs.head?)).bind (chunkOf m.segments q.image) ≠ none := by
    intro q hq
    obtain ⟨hs, hb, -⟩ := hk.1.requests q hq
    have hs : m.engines[q.engine].state = .awaitingRefill := hs
    have hb : m.engines[q.engine].bound = some q.image := hb
    obtain ⟨g, hg, -, haw⟩ := hm.2.1.1.bound q.engine q.image hb
    obtain ⟨h0, r, runs, hruns, hd, hst⟩ := haw hs
    have hpl := ((placesOk_iff m).1 hm.2.1.2).2 q.image g hg
    have hlt : r.start < g.declared.length := by
      have h1 := (hpl.2 r (by rw [hruns]; exact List.mem_cons_self)).2
      have h2 := (hm.1.1 g (mem_images hg)).2 r (by rw [hruns]; exact List.mem_cons_self)
      unfold Run.stop at h1
      cases hbody : r.body with
      | staged b => rw [hbody] at hd; cases hd
      | deferred n a b =>
        rw [hbody] at h1 h2
        simp only [RunBody.sizeOk] at h2
        simp only [RunBody.beatCount] at h1
        omega
    obtain ⟨seg, hseg⟩ := hc q.image g r.start hg hlt
    rw [hg, Option.bind_some, hruns, List.head?_cons, Option.bind_some]
    unfold chunkOf
    rw [hseg]
    simp
  refine ⟨fun i => ?_, fun hne e hr => ?_, fun e i hi => ?_, fun e i hs hb => ?_, fun e p hp hf hr => ?_,
    fun e i hs hb => ?_, hserved hchunk⟩
  · rw [hwl, hready, hub, hup, heng]
    constructor
    · intro hi
      obtain ⟨a, b, c⟩ := hm.2.1.1.waiting i hi
      exact ⟨ha.list i hi, b, a, c⟩
    · rintro ⟨a, b, ⟨g, hg, hp⟩, d⟩
      exact hw i ((mayWait_iff m i).2 ⟨a, b, d, g, hg, hp⟩)
  · rw [hwl] at hne
    rw [heng] at hr ⊢
    exact arbitrateOne_none hn hne e hr
  · rw [heng] at hi; rw [hready]; exact ha.claims e i hi
  · rw [heng] at hs hb; rw [hready]; exact ha.held e trivial i hs hb
  · rw [heng] at hp hf; rw [hready] at hr; rw [hub]; exact ha.pinned e trivial p hp hf hr
  · rw [heng] at hs hb
    rcases hheld e hs i hb with h | ⟨k, n, hk⟩
    · exact hput _ h
    · exact .inr ⟨k, n, htag k i e n hk⟩

/-- The report unit's choice changes nothing that `poolSettled` reads. -/
theorem settled_chooseReport {m : MeasureState} (man : ManifestState) (r : ReportState) (h : m.poolSettled) :
    (chooseReport man m r).2.1.poolSettled := by
  have hw := weaker_chooseReport man m r
  have hi := (chooseReport_images man m r).2
  have hl := (evolves_chooseReport man m r).length
  have hsame : (chooseReport man m r).2.1.engines = m.engines ∧ (chooseReport man m r).2.1.waitList = m.waitList ∧
      (chooseReport man m r).2.1.refillPending = m.refillPending ∧
      (chooseReport man m r).2.1.refillTags = m.refillTags := by
    unfold chooseReport issueRecord
    split
    · simp only
      split
      · split <;> exact ⟨rfl, rfl, rfl, rfl⟩
      · split
        · split <;> exact ⟨rfl, rfl, rfl, rfl⟩
        · split
          · split <;> exact ⟨rfl, rfl, rfl, rfl⟩
          · exact ⟨rfl, rfl, rfl, rfl⟩
    · exact ⟨rfl, rfl, rfl, rfl⟩
  generalize (chooseReport man m r).2.1 = m' at hw hi hl hsame
  have hnone : ∀ i, m.image? i = none → m'.image? i = none := by
    intro i hg
    have := hw.images i
    rw [hg] at this
    simpa using this
  have hgood : ∀ p, goodOf m' p = goodOf m p := by
    intro p
    unfold goodOf
    cases hg : m.image? p with
    | none => rw [hnone p hg]
    | some g =>
      obtain ⟨g', hg', hs, -⟩ := hi p g hg
      rw [hg', hs]
      rfl
  have hready : ∀ j, m'.ready j = m.ready j := by
    intro j
    unfold MeasureState.ready
    cases hg : m.image? j with
    | none => rw [hnone j hg]; rfl
    | some g =>
      obtain ⟨g', hg', hs, -⟩ := hi j g hg
      rw [hg', Option.any_some, Option.any_some, hs]
      simp only [MeasureState.readyImage, MeasureState.eligible, headReady]
      cases g.declared.predecessor with
      | none => rfl
      | some p =>
        have := hgood p
        unfold goodOf at this
        simp only [this]
  refine settled_congr hready hsame.1 (fun j => ?_) hsame.2.1 hsame.2.2.1 hsame.2.2.2 h
  unfold MeasureState.unpinned
  cases hg : m.image? j with
  | none => rw [hnone j hg]
  | some g =>
    obtain ⟨g', hg', hs, -⟩ := hi j g hg
    rw [hg', hs]
    simp

/-- The segments hold every byte of an image, whatever becomes of its measurement. -/
theorem Evolves.cover {m m' : MeasureState} (h : Evolves m m') (hc : m.segmentsCover) : m'.segmentsCover := by
  intro i g' x hg' hx
  rw [h.segments]
  have h1 := (image?_isSome m' i).1 (by rw [hg']; rfl)
  rw [h.length] at h1
  obtain ⟨g, hg⟩ := Option.isSome_iff_exists.1 ((image?_isSome m i).2 h1)
  obtain ⟨g'', hg'', he⟩ := h.images i g hg
  rw [hg'] at hg''; cases hg''
  exact hc i g x hg (by rw [he.declared] at hx; exact hx)

/-- The end of an event leaves the pool and the refill unit settled. -/
theorem settled_settle {s : State} (hm : workKept s.measure) (hc : s.measure.segmentsCover) :
    s.settle.measure.poolSettled := by
  obtain ⟨ha, hw, hn⟩ := acted_settlePool hm
  have hcov : s.measure.settlePool.segmentsCover := by
    exact (evolves_settlePool s.measure).cover hc
  exact settled_congr (m := (chooseReport s.manifest s.measure.settlePool.serveRefills.1 s.report).2.1)
    (fun j => ready_of_images rfl j) rfl (fun _ => Iff.rfl) rfl rfl rfl
    (settled_chooseReport _ _ (settled_serve (work_settlePool hm) hcov ha hw hn))

end Sys2Proof.Laws
end

