-- ==== Sys2Proof/Laws/Settle.lean ====
section
/-! SUPPORT. What the end of an event does for the refill unit, the report unit and the own-request queue,
and what the taking of a command and of the beats of a window write can be. -/

namespace Sys2Proof.Laws
open Sys2Proof.Machine

/-! ### The end of an event -/

/-- The refill unit asks, and serves its pending list (R72, R81). -/
theorem serveRefills_eq (m : MeasureState) : m.serveRefills =
    ({ (m.requestRefills.serveFrom m.requestRefills.refillPending).1 with
        refillPending := (m.requestRefills.serveFrom m.requestRefills.refillPending).2.1 },
      (m.requestRefills.serveFrom m.requestRefills.refillPending).2.2) := by
  unfold MeasureState.serveRefills
  rfl

/-- An event ends with the report unit's choice, after the pool and the refill unit, and with the own
requests of the event joining their queue (R144, R165). -/
theorem settle_chosen (s : State) : ∃ position,
    s.settle.report = (chooseReport s.manifest s.measure.settlePool.serveRefills.1 s.report).1 ∧
    s.settle.measure = { (chooseReport s.manifest s.measure.settlePool.serveRefills.1 s.report).2.1 with
      now := s.settle.measure.now } ∧
    s.settle.link = s.link.joinOwn (joinOrder position s.measure.settlePool.serveRefills.2
      (chooseReport s.manifest s.measure.settlePool.serveRefills.1 s.report).2.2) := by
  unfold State.settle
  exact ⟨_, rfl, rfl, rfl⟩

/-- The report write joins at some place among the refill reads. -/
theorem joinOrder_some (position : Nat) (reads : List LinkRequest) (w : LinkRequest) :
    ∃ k, k ≤ reads.length ∧ joinOrder position reads (some w) = reads.take k ++ w :: reads.drop k :=
  ⟨_, Nat.le_of_lt_succ (Nat.mod_lt _ (Nat.succ_pos _)), rfl⟩

/-- The head-wait count when a request becomes the head by joining an empty queue (R166). -/
theorem joinOwn_headWait_empty {l : LinkState} {new : List LinkRequest} (h : l.own = []) (hn : new ≠ []) :
    (l.joinOwn new).headWait = 0 := by
  simp [LinkState.joinOwn, h, hn]

/-- The head-wait count when the head stays, or no request joins (R166). -/
theorem joinOwn_headWait_kept {l : LinkState} {new : List LinkRequest} (h : l.own ≠ [] ∨ new = []) :
    (l.joinOwn new).headWait = l.headWait := by
  obtain h | rfl := h <;> simp_all [LinkState.joinOwn]

/-! ### Commands -/

/-- In DORMANT, and with the sequence last taken, no command is taken (R153). -/
theorem takeCommand_idle {s : State} {seq : BitVec 8} (kind : Option CommandKind) (i : Nat)
    (h : s.report.channel = .dormant ∨ seq = s.report.lastSeq) : takeCommand s seq kind i = s := by
  unfold takeCommand
  rw [if_pos h]

/-- A command that fails a check changes the last command values and the dirty mark alone (R154). -/
theorem takeCommand_refused {s : State} {seq : BitVec 8} {kind : Option CommandKind} {i : Nat}
    (hc : s.report.channel ≠ .dormant) (hs : seq ≠ s.report.lastSeq) (hr : commandResult s kind i ≠ .done) :
    takeCommand s seq kind i = { s with report := { s.report with
      lastSeq := seq, lastResult := commandResult s kind i, headerDirty := true } } := by
  unfold takeCommand
  rw [if_neg (fun h => h.elim hc hs)]
  simp only
  split
  · exact absurd ‹_› hr
  · rfl

/-! ### Window beats -/

/-- Once the attempt has failed, no later beat is handled (R107). -/
theorem windowBeats_stopped {s : State} (h : s.manifest.phase ≠ .manifestLoading) (beats : List WriteBeat) :
    ∀ offset, s.windowBeats offset beats = s := by
  induction beats with
  | nil => exact fun _ => rfl
  | cons b rest ih =>
    intro offset
    have hb : s.windowBeat offset b = s := by
      unfold State.windowBeat
      rw [if_pos h]
    simp only [State.windowBeats, hb, ih]

end Sys2Proof.Laws
end

