-- ==== Sys2Proof/Laws/Tables.lean ====
section
/-! SUPPORT. The segment table and the declared part of every image stand as they are from ARMED on (R1), and
what the parse checks make of them at ARMED. -/

namespace Sys2Proof.Laws
open Sys2Proof.Machine

/-! ### What no event changes -/

/-- The tables stand: the segments, the images there are and what is declared of each (R1). -/
structure SameTables (m m' : MeasureState) : Prop where
  segments : m'.segments = m.segments
  length : m'.images.length = m.images.length
  declared : ∀ i g, m.image? i = some g → ∃ g', m'.image? i = some g' ∧ g'.declared = g.declared

theorem SameTables.refl (m : MeasureState) : SameTables m m := ⟨rfl, rfl, fun _ g h => ⟨g, h, rfl⟩⟩

theorem SameTables.trans {a b c : MeasureState} (h : SameTables a b) (h' : SameTables b c) : SameTables a c :=
  ⟨h'.segments.trans h.segments, h'.length.trans h.length, fun i g hg => by
    obtain ⟨g1, h1, e1⟩ := h.declared i g hg
    obtain ⟨g2, h2, e2⟩ := h'.declared i g1 h1
    exact ⟨g2, h2, e2.trans e1⟩⟩

theorem SameTables.back {m m' : MeasureState} (h : SameTables m m') {i : Nat} {g' : Image}
    (hg' : m'.image? i = some g') : ∃ g, m.image? i = some g ∧ g'.declared = g.declared := by
  have h1 := (image?_isSome m' i).1 (by rw [hg']; rfl)
  rw [h.length] at h1
  obtain ⟨g, hg⟩ := Option.isSome_iff_exists.1 ((image?_isSome m i).2 h1)
  obtain ⟨g'', hg'', he⟩ := h.declared i g hg
  rw [hg'] at hg''; cases hg''
  exact ⟨g, hg, he⟩

theorem SameTables.of_same {m m' : MeasureState} (h : (m'.images, m'.segments) = (m.images, m.segments)) :
    SameTables m m' := by
  simp only [Prod.mk.injEq] at h
  exact ⟨h.2, by rw [h.1], fun i g hg => ⟨g, by rw [image?_congr h.1]; exact hg, rfl⟩⟩

theorem Moves.tables {m m' : MeasureState} (h : Moves m m') : SameTables m m' :=
  ⟨h.segments, h.length, fun i g hg => by
    obtain ⟨g', hg', hd, -⟩ := h.images i g hg
    exact ⟨g', hg', hd⟩⟩

theorem Evolves.tables {m m' : MeasureState} (h : Evolves m m') : SameTables m m' := h.moves.tables

theorem tables_settle (s : State) : SameTables s.measure s.settle.measure := by
  refine ⟨(evolves_settle s).segments, (evolves_settle s).length, fun i g hg => ?_⟩
  obtain ⟨g', hg', h⟩ := (evolves_settle s).images i g hg
  exact ⟨g', hg', h.declared⟩

theorem tables_reopenClosure (m : MeasureState) (x : Nat) : SameTables m (m.reopenClosure x) := by
  have h := reopens_closure m x
  refine ⟨h.segments, h.length, fun i g hg => ?_⟩
  by_cases hi : i ∈ x :: m.dependents x
  · obtain ⟨g', hg', hd, -⟩ := h.members i hi g hg
    exact ⟨g', hg', hd⟩
  · exact ⟨g, (h.others i hi).trans hg, rfl⟩

theorem tables_takeCommand (s : State) (seq : BitVec 8) (kind : Option CommandKind) (i : Nat) :
    SameTables s.measure (takeCommand s seq kind i).measure := by
  unfold takeCommand
  split
  · exact .refl _
  · simp only
    split
    · rename_i k _
      cases k with
      | reopen => exact tables_reopenClosure _ _
      | abandon => exact (evolves_breakImage _ _ _).tables
      | resend => exact (evolves_enqueue _ _).tables
      | resume => exact .refl _
    · exact .refl _

theorem tables_snoopHeader (s : State) (b : WriteBeat) : SameTables s.measure (snoopHeader s b).measure := by
  unfold snoopHeader
  simp only
  split
  · split
    · exact tables_takeCommand { s with report := s.report.takeConsumer _ } _ _ _
    · exact tables_takeCommand s _ _ _
  · split <;> exact .refl _

theorem ManifestWork.tables {s t : State} (h : ManifestWork s t) : SameTables s.measure t.measure := by
  rw [h.measure]; exact .of_same rfl

theorem tables_handOff (s : State) (tag : Nat) (addr : Addr) (beats : List WriteBeat) :
    SameTables s.measure (handOff s tag addr beats).measure := by
  have hwin : ∀ u : State, SameTables u.measure ((u.startAttempt.windowWrite tag addr beats).advanceManifest).measure :=
    fun u => ((work_startAttempt u).trans ((work_windowWrite _ _ _ _).trans (work_advanceManifest _))).tables
  have hadd : SameTables s.measure (s.measure.addEntry tag) := .of_same rfl
  unfold handOff
  split
  · unfold handOffArmed
    simp only
    have hmw := (moves_measureWrite s.measure tag (imageBeats (classifyBeats s addr beats.length) beats)).tables
    split
    · exact hmw.trans (tables_snoopHeader
        { s with measure := s.measure.measureWrite tag (imageBeats (classifyBeats s addr _) _) } _)
    · exact hmw
  · simp only
    split
    · exact hadd.trans (hwin { s with measure := s.measure.addEntry tag })
    · exact hadd
  · simp only
    split
    · exact hadd.trans (hwin { s with measure := s.measure.addEntry tag })
    · exact hadd
  · exact hadd

theorem SameTables.cover {m m' : MeasureState} (h : SameTables m m') (hc : m.segmentsCover) : m'.segmentsCover := by
  intro i g' x hg' hx
  obtain ⟨g, hg, he⟩ := h.back hg'
  rw [h.segments]
  exact hc i g x hg (he ▸ hx)

theorem SameTables.lower {m m' : MeasureState} (h : SameTables m m') (hl : m.predecessorsLower) :
    m'.predecessorsLower := by
  intro i g' p hg' hp
  obtain ⟨g, hg, he⟩ := h.back hg'
  exact hl i g p hg (he ▸ hp)

/-! ### The tables that the parse checks let pass -/

theorem find_range {n k : Nat} {p : Nat → Bool} (hk : k < n) (hp : p k = true)
    (hu : ∀ j, j < n → p j = true → j = k) : (List.range n).find? p = some k := by
  cases h : (List.range n).find? p with
  | none =>
    rw [List.find?_eq_none] at h
    exact absurd hp (h k (List.mem_range.2 hk))
  | some j =>
    exact congrArg some (hu j (List.mem_range.1 (List.mem_of_find?_eq_some h)) (List.find?_some h))

/-- An entry in the range of one image alone is that image's (R2). -/
theorem ownerOf_some {images : List ImageFields} {i e : Nat} {f : ImageFields}
    (hp : images.Pairwise fun f f' => f.first + f.count ≤ f'.first ∨ f'.first + f'.count ≤ f.first)
    (hf : images[i]? = some f) (h1 : f.first ≤ e) (h2 : e < f.first + f.count) : ownerOf images e = some (i + 1) := by
  have hi := (List.getElem?_eq_some_iff.1 hf).1
  unfold ownerOf
  rw [find_range (k := i) hi]
  · rfl
  · rw [hf]
    simpa using ⟨h1, h2⟩
  · intro j hj hq
    obtain ⟨f', hf'⟩ : ∃ f', images[j]? = some f' := ⟨_, List.getElem?_eq_getElem hj⟩
    rw [hf', Option.any_some, decide_eq_true_eq] at hq
    obtain ⟨h3, rfl⟩ := List.getElem?_eq_some_iff.1 hf
    obtain ⟨h4, rfl⟩ := List.getElem?_eq_some_iff.1 hf'
    rcases Nat.lt_trichotomy i j with h | h | h
    · have := List.pairwise_iff_getElem.1 hp i j h3 h4 h
      omega
    · exact h.symm
    · have := List.pairwise_iff_getElem.1 hp j i h4 h3 h
      omega

/-- An offset below the sum of a list of lengths lies in one of them. -/
theorem place_in_sum {l : List Nat} {x : Nat} (h : x < l.sum) :
    ∃ j y, l[j]? = some y ∧ (l.take j).sum ≤ x ∧ x < (l.take j).sum + y := by
  induction l generalizing x with
  | nil => cases h
  | cons a l ih =>
    rw [List.sum_cons] at h
    by_cases hx : x < a
    · exact ⟨0, a, rfl, Nat.zero_le _, by simpa using hx⟩
    · obtain ⟨j, y, h1, h2, h3⟩ := ih (x := x - a) (by omega)
      refine ⟨j + 1, y, h1, ?_, ?_⟩ <;> rw [List.take_succ_cons, List.sum_cons] <;> omega

theorem anyPair_false {α : Type} (R : α → α → Bool) (l : List α) :
    anyPair R l = false ↔ l.Pairwise fun a b => R a b = false := by
  induction l with
  | nil => simp [anyPair]
  | cons a l ih => simp [anyPair, ih, List.pairwise_cons]

/-- What the checks of an accepted manifest say of the entry ranges and the predecessors (R115, R117). -/
theorem parse_tables {b : List (Nat × Beat)} {n : Nat} {w : Addr} {c : Contents} (h : parseManifest b n w = .ok c) :
    c.images.Pairwise (fun f f' => f.first + f.count ≤ f'.first ∨ f'.first + f'.count ≤ f.first) ∧
    ∀ (k : Nat) (f : ImageFields), c.images[k]? = some f → f.predecessor ≤ k := by
  unfold parseManifest at h
  split at h
  · cases h
  · split at h
    · cases h
    · rename_i hc
      cases h
      unfold checkContents at hc
      repeat' split at hc
      all_goals try cases hc
      rename_i h5 h6 h7 h8 h9 _ _
      refine ⟨?_, fun k f hf => ?_⟩
      · unfold badSegmentLists at h5
        simp only [Bool.or_eq_true, not_or, Bool.not_eq_true] at h5
        rw [anyPair_false, List.pairwise_map] at h5
        refine h5.2.imp fun {f f'} hr => ?_
        unfold rangesMeet entryRange at hr
        simp only [Bool.and_eq_false_iff, decide_eq_false_iff_not] at hr
        omega
      · have hk := (List.getElem?_eq_some_iff.1 hf).1
        unfold badPredecessors at h9
        rw [Bool.not_eq_true, List.any_eq_false] at h9
        have := h9 k (List.mem_range.2 hk)
        rw [hf, Option.any_some, decide_eq_true_eq] at this
        omega

/-- An accepted manifest's segments hold every byte of its images (R2, R3, R115). -/
theorem cover_armed {c : Contents} {m : MeasureState}
    (hp : c.images.Pairwise fun f f' => f.first + f.count ≤ f'.first ∨ f'.first + f'.count ≤ f.first)
    (hs : m.segments = segmentTable c) (hi : m.images = imageTable c) : m.segmentsCover := by
  intro i g x hg hx
  unfold MeasureState.image? at hg
  split at hg
  · cases hg
  · rename_i h0
    rw [hi] at hg
    unfold imageTable at hg
    rw [List.getElem?_map, Option.map_eq_some_iff] at hg
    obtain ⟨f, hf, rfl⟩ := hg
    have hx : x < (((c.segments.drop f.first).take f.count).map (·.length)).sum := hx
    obtain ⟨j, y, h1, h2, h3⟩ := place_in_sum hx
    rw [List.getElem?_map, Option.map_eq_some_iff] at h1
    obtain ⟨sg, hsg, rfl⟩ := h1
    rw [List.getElem?_take] at hsg
    split at hsg
    · rename_i hj
      rw [List.getElem?_drop] at hsg
      have how := ownerOf_some hp hf (e := f.first + j) (by omega) (by omega)
      rw [show i - 1 + 1 = i by omega] at how
      have hoff : imageOffsetOf c (f.first + j) =
          ((((c.segments.drop f.first).take f.count).map (·.length)).take j).sum := by
        unfold imageOffsetOf
        rw [how, Option.bind_some, hf, ← List.map_take, List.take_take, Nat.min_eq_left (by omega)]
        simp only
        rw [List.drop_take, Nat.add_sub_cancel_left]
      refine Option.isSome_iff_exists.1 ?_
      unfold segmentOf
      rw [List.find?_isSome]
      refine ⟨⟨sg.base, sg.length, ownerOf c.images (f.first + j), imageOffsetOf c (f.first + j)⟩, ?_, ?_⟩
      · rw [hs]
        unfold segmentTable
        rw [List.mem_filterMap]
        exact ⟨f.first + j, List.mem_range.2 (List.getElem?_eq_some_iff.1 hsg).1, by rw [hsg]; rfl⟩
      · simp only [how, hoff, beq_self_eq_true, Bool.true_and, Bool.and_eq_true, decide_eq_true_eq]
        exact ⟨h2, h3⟩
    · cases hsg

theorem armed_tables (m : MeasureState) (c : Contents) :
    (m.armed c).segments = segmentTable c ∧ (m.armed c).images = imageTable c := by
  have hsame := same_reserve (fun e => pinnedImage (imageTable c) e) engineIds { m with
    segments := segmentTable c, images := imageTable c, waitList := [], refillPending := [],
    subjects := [0], verified := [] }
  simp only [Prod.mk.injEq] at hsame
  exact ⟨hsame.1, hsame.2.1⟩

/-- What an accepted manifest declares comes before what depends on it (R117). -/
theorem lower_armed {c : Contents} {m : MeasureState}
    (hp : ∀ (k : Nat) (f : ImageFields), c.images[k]? = some f → f.predecessor ≤ k) (hi : m.images = imageTable c) :
    m.predecessorsLower := by
  intro i g p hg hgp
  unfold MeasureState.image? at hg
  split at hg
  · cases hg
  · rw [hi] at hg
    unfold imageTable at hg
    rw [List.getElem?_map, Option.map_eq_some_iff] at hg
    obtain ⟨f, hf, rfl⟩ := hg
    have := hp _ _ hf
    unfold declaredImage declaredOf at hgp
    simp only at hgp
    split at hgp
    · cases hgp
    · cases hgp; omega

end Sys2Proof.Laws
end

