-- ==== Sys2Proof/WellFormed.lean ====
section
/-! DEFINITION. The checks a command meets when it is one the link or the part can send: the tag of a
response row lies in the row's tag range (R161), a response that is not OK carries no data (R160), and an
expiry names a tag that carries a limit (R78, R150). A host request has no check: whatever the host sends
is a request, and the part's own form check decides (R87, R159). -/

namespace Sys2Proof

/-- Tags 0 to 31, the host's (R161). -/
def hostTag (tag : Nat) : Bool := tag < 32

/-- Tags 32 to 39 in the READ space, the refill unit's (R70). -/
def refillTagNumber (tag : Nat) : Bool := 32 ≤ tag && tag < 40

/-- Tags 32 and 33 in the WRITE space, the report unit's (R150). -/
def reportTagNumber (tag : Nat) : Bool := tag == 32 || tag == 33

/-- A response with a status other than OK carries no data, and one with OK at most 16 beats (R160). -/
def responseData (status : LinkStatus) (data : List Beat) : Bool :=
  match status with
  | .ok => data.length ≤ 16
  | _ => data.isEmpty

/-- A command that the link or the part can send. -/
def Instr.wellFormed : Instr → Bool
  | .fwdWriteResponse tag _ => hostTag tag
  | .fwdReadResponse tag status data => hostTag tag && responseData status data
  | .refillResponse tag status data => refillTagNumber tag && responseData status data
  | .reportWriteResponse tag _ => reportTagNumber tag
  | .unknownTagResponse kind _ status data => (kind == .read || data.isEmpty) && responseData status data
  | .refillLimitExpiry tag => refillTagNumber tag
  | .reportLimitExpiry tag => reportTagNumber tag
  | .coldReset => true
  | .warmReset => true
  | .resetEnd _ _ => true
  | .sensingDone _ _ => true
  | .hostReadAccept _ _ _ => true
  | .hostWriteAccept _ _ _ => true
  | .consumerUpdate _ => true
  | .reopen _ _ => true
  | .abandon _ _ => true
  | .resend _ _ => true
  | .resume _ _ => true
  | .memoryTakesRequest _ => true
  | .hostResponseDelivery _ => true
  | .restoreDone _ => true
  | .seedStepDone _ => true
  | .beatStepDone _ => true
  | .finalisationDone _ => true
  | .parkDone _ => true
  | .manifestBeatStepDone => true
  | .manifestCheckDone => true
  | .parsingDone => true
  | .fuseBlown => true
  | .burnLimitExpiry => true
  | .vprogSupplyChange _ => true

end Sys2Proof
end

