-- ==== Sys2Proof/Tests/Slice0.lean ====
section
/-! SUPPORT. Tests: the well-formedness checks, the spec's worked examples, each command on a small state,
and for each statement with hypotheses a state and operands that meet them. Expected values are the spec's
own, or worked by hand from its rules. -/

namespace Sys2Proof.Tests

open Sys2Proof Sys2Proof.Machine

set_option maxRecDepth 100000

/-! ### Small states -/

/-- The state a command leads to. -/
def after (c : Instr) (s : State) : State :=
  match exec c s with
  | .next t => t
  | .fault _ => s
  | .refused _ => s

/-- Reset has ended; sensing is under way. -/
def sensing : State := { State.reset with resetLine := .inactive }

/-- A phase with both anchors read, the window at 00_0010_0000H. -/
def inPhase (p : Phase) : State :=
  { sensing with manifest := { sensing.manifest with
      phase := p, windowBase := 0x0000100000#40,
      anchors := some { primary := .programmed 1, alternate := some 2 } } }

def plain : Policy := { readWhileLoading := false, readAfterFail := false, reopenable := false, measureOnly := false }

def declared (first count length : Nat) (predecessor : Option Nat) : Declared :=
  { policy := plain, predecessor := predecessor, pin := none, firstSegment := first, segmentCount := count,
    length := length, expected := 7 }

def image (d : Declared) (st : ImageState) : Image := { declaredImage d with state := st }

/-- The layout of the spec's classification example (file 01), ARMED: image 1 of segments 0 and 1, image 2
of segment 2 with image 1 as its predecessor; a report area of 8 slots, the channel WRITING_HEADER. -/
def layout (st1 st2 : ImageState) : State :=
  let s := inPhase .armed
  { s with
    manifest := { s.manifest with
      record := some { slot := .primary, failedAttempts := 0, lastReason := none, digest := 1, lengthBytes := 256 },
      revocation := some .none }
    measure := { s.measure with
      segments :=
        [{ base := 0x200000, length := 0x7F80, owner := some 1, imageOffset := 0 },
         { base := 0x300000, length := 0x1000, owner := some 1, imageOffset := 0x7F80 },
         { base := 0x207F80, length := 0x4000, owner := some 2, imageOffset := 0 }],
      images := [image (declared 0 2 0x8F80 none) st1, image (declared 2 1 0x4000 (some 1)) st2] }
    report := { s.report with
      channel := .writingHeader, tags := #v[.busy .header, .free],
      area := some { base := 0x101000, slots := 8, nextRecord := 1 } }
    lines := { s.lines with sets := some (6, 0) } }

/-- One image of 64 bytes at 00_0060_0000H, ARMED. -/
def one (st : ImageState) : State :=
  let s := layout st .declared
  { s with measure := { s.measure with
      segments := [{ base := 0x600000, length := 0x40, owner := some 1, imageOffset := 0 }],
      images := [image (declared 0 1 0x40 none) st] } }

/-- Image i changed. -/
def on (s : State) (i : Nat) (f : Image → Image) : State := { s with measure := s.measure.modImage i f }

/-- Engine e changed. -/
def engine (s : State) (e : EngineId) (f : Engine → Engine) : State :=
  { s with measure := s.measure.modEngine e f }

/-- The state of image i. -/
def stateOf (s : State) (i : Nat) : Option ImageState := (s.measure.image? i).map (·.state)

/-- n fully strobed beats. -/
def fullBeats (n : Nat) : List WriteBeat := (List.range n).map (fun k => fullBeat (BitVec.ofNat 128 k))

/-! ### Well-formedness: an ill-formed command for each check -/

theorem test_host_tag_refused : (Instr.fwdWriteResponse 32 .ok).wellFormed = false := by decide
theorem test_host_tag_accepted : (Instr.fwdReadResponse 31 .ok [0]).wellFormed = true := by decide
theorem test_refill_tag_refused : (Instr.refillLimitExpiry 40).wellFormed = false := by decide
theorem test_report_tag_refused : (Instr.reportLimitExpiry 34).wellFormed = false := by decide
theorem test_data_without_ok_refused : (Instr.fwdReadResponse 3 .memfault [0]).wellFormed = false := by decide
theorem test_too_much_data_refused :
    (Instr.refillResponse 32 .ok (List.replicate 17 0)).wellFormed = false := by decide
theorem test_write_response_data_refused :
    (Instr.unknownTagResponse .write 40 .ok [0]).wellFormed = false := by decide
theorem test_report_response_tag_refused : (Instr.reportWriteResponse 40 .ok).wellFormed = false := by decide

/-! ### The digest: the public standard's example for "abc" -/

theorem test_sha256_abc : finalResult { freshContext with block := [0x61, 0x62, 0x63], total := 3 } =
    digestOfBytes [0xba, 0x78, 0x16, 0xbf, 0x8f, 0x01, 0xcf, 0xea, 0x41, 0x41, 0x40, 0xde, 0x5d, 0xae, 0x22,
      0x23, 0xb0, 0x03, 0x61, 0xa3, 0x96, 0x17, 0x7a, 0x9c, 0xb4, 0x10, 0xff, 0x61, 0xf2, 0x00, 0x15, 0xad] := by
  decide

/-! ### The classification and gate examples (files 01 and 05) -/

theorem test_classification_example :
    let s := layout (.verified 7) .filling
    [0x100040, 0x101010, 0x101040, 0x1010B0, 0x101240, 0x207F70, 0x207F80, 0x300000, 0x300FF0, 0x301000].map
      (classify s) =
    [.window 0x40, .header 1, .record 0 0, .record 1 3, .none, .image 1 0x7F70, .image 2 0, .image 1 0x7F80,
      .image 1 0x8F70, .none] := by decide

theorem test_gate_example :
    let s := layout (.verified 7) .filling
    [requestForwards s .read 0x207F60 4, requestForwards s .write 0x207F80 2, requestForwards s .write 0x101000 2,
      requestForwards s .write 0x101010 1, requestForwards s .write 0x101230 3,
      requestForwards s .write 0x300FC0 4, requestForwards s .write 0x301000 2,
      requestForwards s .read 0x100040 1] =
    [false, true, false, true, false, false, true, true] := by decide

theorem test_form_example :
    let l := { LinkState.reset with hostWrites := [4] }
    [malformed l .write 11 0x207FF8 1, malformed l .write 12 0x207F80 16, malformed l .write 4 0x207FA0 1,
      malformed l .read 4 0x207FA0 1, malformed l .read 0 0xFFFFFFFF00 16] = [true, true, true, false, false] := by
  decide

/-! ### Each command on a small state -/

theorem test_cold_reset_clears_attempts :
    let t := after .coldReset { inPhase .lockout with lines := { LineState.reset with fault := true } }
    t.manifest.phase = .sensing ∧ t.manifest.attempts = 0 ∧ t.lines.fault = false := by decide

theorem test_warm_reset_keeps_attempts :
    let s := inPhase .lockout
    let t := after .warmReset { s with manifest := { s.manifest with attempts := 3, lastReason := some .rewrite } }
    t.manifest.attempts = 3 ∧ t.manifest.lastReason = some .rewrite ∧ t.resetLine = .warm := by decide

theorem test_straps_select_window :
    (after (.resetEnd true false) State.reset).manifest.windowBase = 0x0040000000 ∧
    (after (.resetEnd true true) State.reset).manifest.windowBase = 0xFFFFFFF000 := by decide

theorem test_blank_anchors_release :
    let t := after (.sensingDone .blank none) sensing
    t.manifest.phase = .unprovisioned ∧ t.lines = { sets := none, rls0 := true, rls1 := true, fault := false } := by
  decide

theorem test_revoked_primary_is_not_blank :
    (after (.sensingDone .revoked none) sensing).manifest.phase = .manifestLoading := by decide

theorem test_read_refused_whole :
    let t := after (.hostReadAccept 3 0x207F60 4) (layout (.verified 7) .filling)
    t.link.refusals = [{ kind := .read, tag := 3, status := .refused, data := [] }] ∧
      t.link.hostReads = [3] ∧ t.link.forward = [] := by decide

/-- File 07, the chain with a failed first link. -/
theorem test_partial_beat_breaks_chain :
    let s := on (layout .filling .filling) 2 (fun g => { g with runs := [{ start := 0, body := .staged [5] }] })
    let t := after (.hostWriteAccept 3 0x200000 [{ data := 0, strobes := 0x00FF }]) s
    stateOf t 1 = some (.broken .partialBeat) ∧ stateOf t 2 = some (.broken .predecessorFailed) ∧
      t.measure.subjects = [1, 2] ∧ t.lines.fault = true ∧ (t.measure.image? 2).map (·.runs) = some [] := by decide

/-- File 05, a new attempt from REJECTED, by a write at window offset 40H. -/
theorem test_window_write_starts_attempt :
    let t := after (.hostWriteAccept 3 0x100040 (fullBeats 4)) (inPhase .rejected)
    t.manifest.phase = .manifestLoading ∧ t.manifest.buffer.map (·.1) = [0x40, 0x50, 0x60, 0x70] ∧
      t.manifest.length = none ∧ t.lines.fault = false := by decide

theorem test_consumer_update_in_range :
    let s := layout .declared .declared
    let s := { s with report := { s.report with producer := 2, consumer := 0xFFFF } }
    (after (.consumerUpdate 1) s).report.consumer = 1 ∧ (after (.consumerUpdate 3) s).report.consumer = 0xFFFF := by
  decide

/-- File 07, event 7: the dependent is VERIFIED with REOPENABLE clear. -/
theorem test_reopen_dependent_locked :
    let s := on (layout (.verified 7) (.verified 7)) 1
      (fun g => { g with declared := { g.declared with policy := { plain with reopenable := true } } })
    let t := after (.reopen 5 1) s
    t.report.lastResult = .dependentLocked ∧ t.report.lastSeq = 5 ∧ stateOf t 1 = some (.verified 7) ∧
      (after (.reopen 5 2) s).report.lastResult = .badState := by decide

/-- File 07: the reopen of a broken chain. -/
theorem test_reopen_broken_chain :
    let t := after (.reopen 5 1) (layout (.broken .partialBeat) (.broken .predecessorFailed))
    stateOf t 1 = some .declared ∧ stateOf t 2 = some .declared ∧ t.measure.subjects = [1, 2] ∧
      (t.measure.image? 2).map (·.epoch) = some 1 ∧ t.lines.fault = false := by decide

theorem test_abandon_breaks :
    stateOf (after (.abandon 5 1) (layout .filling .declared)) 1 = some (.broken .abandoned) := by decide

theorem test_resend_queues_manifest :
    let t := after (.resend 5 0) (layout .filling .declared)
    t.measure.subjects = [0] ∧ t.report.lastResult = .done ∧ t.report.headerDirty = true := by decide

theorem test_resume_needs_halted :
    (after (.resume 5 0) (layout .filling .declared)).report.lastResult = .notHalted := by decide

/-- File 09, the interleaving example, steps 2 and 6: the head-wait count rises with a forwarded request and
the own head is offered at 4. -/
theorem test_head_wait_counts :
    let l := { LinkState.reset with forward := [.read 1 0 1, .read 2 0 1], own := [.read 32 0 1, .read 33 0 1] }
    let s := { sensing with link := l }
    let t := { sensing with link := { l with headWait := 4 } }
    (after (.memoryTakesRequest .taken) s).link.headWait = 1 ∧
      (after (.memoryTakesRequest .taken) t).link.memOut = some (.read 32 0 1) ∧
      (after (.memoryTakesRequest .taken) t).link.headWait = 0 := by decide

/-- File 09, the merging example: deliveries 1 to 4. -/
theorem test_merging_example :
    let s := { sensing with link := { LinkState.reset with
      hostReads := [2, 4], hostWrites := [7, 9],
      relay := [{ kind := .read, tag := 2, status := .ok, data := [1, 2, 3, 4] },
                { kind := .write, tag := 7, status := .memfault, data := [] }],
      refusals := [{ kind := .write, tag := 9, status := .refused, data := [] },
                   { kind := .read, tag := 4, status := .refused, data := [] }] } }
    let s1 := after (.hostResponseDelivery .taken) s
    let s2 := after (.hostResponseDelivery .taken) s1
    let s3 := after (.hostResponseDelivery .taken) s2
    let s4 := after (.hostResponseDelivery .taken) s3
    [s1, s2, s3, s4].map (fun s => (s.link.hostOut.map (·.tag), s.link.hostReads, s.link.hostWrites)) =
      [(some 2, [4], [7, 9]), (some 9, [4], [7]), (some 7, [4], []), (some 4, [], [])] := by decide

theorem test_write_fault_breaks_recorded :
    let s := on (layout .filling .declared) 1 (fun g => { g with inFlight := 1 })
    let s := { s with link := { s.link with hostWrites := [3], memWrites := [3] },
                      measure := { s.measure with entries := [{ tag := 3, seq := ⟨1, 0⟩, recorded := [(1, 0)] }] } }
    let t := after (.fwdWriteResponse 3 .memfault) s
    stateOf t 1 = some (.broken .writeFault) ∧ (t.measure.image? 1).map (·.inFlight) = some 0 ∧
      t.link.relay.map (·.tag) = [3] ∧ t.link.hostWrites = [3] := by decide

theorem test_read_response_relayed :
    let s := { sensing with link := { LinkState.reset with hostReads := [3], memReads := [3] } }
    (after (.fwdReadResponse 3 .ok [9]) s).link.relay = [{ kind := .read, tag := 3, status := .ok, data := [9] }] := by
  decide

/-- The states of a refill in flight for image 1 on tag 32 and engine 0, of one beat. -/
def refilling (img : Image → Image) : State :=
  let s := on (one .filling) 1 (fun g => img { g with runs := [{ start := 0, body := .deferred 4 ⟨1, 0⟩ true }] })
  let s := engine s 0 (fun e => { e with state := .awaitingRefill, bound := some 1, context := some freshContext })
  { s with measure := s.measure.setRefillTag 0 (.busy 1 (some 0) 0 2 0x600000) }

theorem test_refill_delivers :
    let t := after (.refillResponse 32 .ok [5, 6]) (refilling id)
    t.measure.refillTags[0] = .free ∧ t.measure.engines[0].delivered = [6] ∧
      t.measure.engines[0].state = .absorbing .beat ∧ (t.measure.image? 1).map (fun g => (g.cursor, g.handOff)) =
        some (16, 1) := by decide

theorem test_refill_timeout_quarantines :
    let t := after (.refillLimitExpiry 32) (refilling id)
    t.measure.refillTags[0] = .quarantined ∧ stateOf t 1 = some (.broken .refillTimeout) ∧
      t.measure.engines[0].state = .free := by decide

/-- File 08, event 2: the header is acknowledged, and the manifest record goes to slot 0. -/
theorem test_header_acknowledged :
    let s := layout .declared .declared
    let t := after (.reportWriteResponse 32 .ok) { s with measure := { s.measure with subjects := [0] } }
    t.report.channel = .writingRecord ∧ t.report.tags[0] = .busy (.slot 0) ∧ t.report.producer = 0 ∧
      t.measure.subjects = [] := by decide

theorem test_report_timeout_halts :
    let t := after (.reportLimitExpiry 32) (layout .declared .declared)
    t.report.channel = .halted ∧ t.report.tags[0] = .quarantined .header ∧ t.lines.fault = true := by decide

theorem test_unknown_tag_discarded :
    after (.unknownTagResponse .write 40 .ok []) (layout .declared .declared) = layout .declared .declared := by
  decide

/-- An engine at work on image 1, whose head run holds the four beats of the whole image. -/
def working (st : EngineState) (f : Engine → Engine) : State :=
  let s := on (one .filling) 1 (fun g =>
    { g with runs := [{ start := 0, body := .staged [1, 2, 3, 4] }], slot := some freshContext })
  engine s 0 (fun e => f { e with state := st, bound := some 1, context := some freshContext })

theorem test_restore_frees_slot :
    let t := after (.restoreDone 0) (working .restoring id)
    (t.measure.image? 1).map (fun g => (g.slot, g.cursor)) = some (none, 16) ∧
      t.measure.engines[0].state = .absorbing .beat := by decide

theorem test_seed_step_chooses :
    (after (.seedStepDone 0) (working (.absorbing .seed) id)).measure.engines[0].state = .absorbing .beat := by
  decide

theorem test_last_beat_finalises :
    let s := on (working (.absorbing .beat) id) 1
      (fun g => { g with state := .finishing none, cursor := 64, runs := [] })
    (after (.beatStepDone 0) s).measure.engines[0].state = .finalizing := by decide

/-- R8: with a write in flight the result waits. -/
theorem test_finalisation_waits_for_writes :
    let s := on (working .finalizing id) 1
      (fun g => { g with state := .finishing none, cursor := 64, runs := [], inFlight := 1 })
    let t := after (.finalisationDone 0) s
    (stateOf t 1).any (fun st => match st with | .finishing (some _) => true | _ => false) = true ∧
      t.measure.engines[0].state = .free := by decide

theorem test_finalisation_mismatches :
    let s := on (working .finalizing id) 1
      (fun g => { g with state := .finishing none, cursor := 64, runs := [] })
    (stateOf (after (.finalisationDone 0) s) 1).any (·.isFailed) = true := by decide

/-- File 03, event 4: the park completes, and the engine is granted to its claimant. -/
theorem test_park_passes_to_claimant :
    let s := engine (layout .filling .filling) 1 (fun e =>
      { e with state := .parking, bound := some 1, claimant := some 2, context := some freshContext })
    let s := on (on s 1 (fun g => { g with cursor := 16 })) 2 (fun g => { g with slot := some freshContext })
    let t := after (.parkDone 1) s
    t.measure.engines[1].bound = some 2 ∧ t.measure.engines[1].state = .restoring ∧
      (t.measure.image? 1).map (·.slot.isSome) = some true := by decide

/-- MANIFEST_LOADING with the length 1 known, offset o to be absorbed, and engine 0 as given. -/
def absorbing (o : Nat) (present : List (Nat × Beat)) (writes : List Nat) (f : Engine → Engine) : State :=
  let s := inPhase .manifestLoading
  let s := { s with manifest := { s.manifest with
    length := some 1, absorbOffset := o, buffer := present, windowWrites := writes } }
  engine s 0
    (fun e => f { e with state := .absorbing .beat, manifest := true, context := some freshContext })

theorem test_manifest_absorbed_then_checked :
    (after .manifestBeatStepDone (absorbing 64 [] [] id)).manifest.phase = .manifestCheck ∧
      (after .manifestBeatStepDone (absorbing 64 [] [5] id)).manifest.phase = .manifestLoading := by decide

theorem test_discarded_manifest_step_frees :
    let t := after .manifestBeatStepDone (absorbing 64 [] [5] (fun e => { e with discard := true }))
    t.measure.engines[0].state = .free ∧ t.measure.engines[0].manifest = false := by decide

/-- MANIFEST_CHECK with ALTERNATE as given. -/
def checking (alternate : Digest) : State :=
  let s := inPhase .manifestCheck
  engine { s with manifest := { s.manifest with
      anchors := some { primary := .revoked, alternate := some alternate } } } 0
    (fun e => { e with state := .finalizing, manifest := true, context := some freshContext })

theorem test_check_accepts_alternate :
    let d := finalResult freshContext
    let t := after .manifestCheckDone (checking d)
    t.manifest.phase = .parsing ∧ t.manifest.checked = some (.alternate, d) := by decide

theorem test_check_fails_attempt :
    let t := after .manifestCheckDone (checking 0)
    t.manifest.phase = .rejected ∧ t.manifest.lastReason = some .noAnchorMatch ∧ t.manifest.attempts = 1 ∧
      t.lines.fault = true := by decide

/-- PARSING of a 64-byte manifest without images and segments, its header beats 0 and 1 given. -/
def parsing (beat0 beat1 : Beat) (slot : AnchorSlot) (primary : SlotReading) : State :=
  let s := inPhase .parsing
  { s with manifest := { s.manifest with
    buffer := [(0, beat0), (16, beat1), (32, 0), (48, 0)], length := some 1, absorbOffset := 64,
    checked := some (slot, 3), anchors := some { primary := primary, alternate := some 2 } } }

/-- Header beat 0: version 1, no images, no segments, the flag byte, length 1, report area at
00_0020_0000H. -/
def header0 (flags : Nat) : Beat := BitVec.ofNat 128 (1 + flags * 2 ^ 24 + 2 ^ 32 + 0x200000 * 2 ^ 64)

/-- R134: two empty sets, and both lines assert at ARMED. -/
theorem test_empty_manifest_arms :
    let t := after .parsingDone (parsing (header0 0) 8 .primary (.programmed 1))
    t.manifest.phase = .armed ∧ t.lines.rls0 = true ∧ t.lines.rls1 = true ∧ t.measure.subjects = [0] ∧
      t.report.channel = .writingHeader ∧ t.manifest.revocation = some .none := by decide

/-- R113: record count 9 fails check 7. -/
theorem test_bad_report_area_rejected :
    let t := after .parsingDone (parsing (header0 0) 9 .primary (.programmed 1))
    t.manifest.phase = .rejected ∧ t.manifest.lastReason = some .badReportArea := by decide

/-- ARMED with a burn running. -/
def burning (present : Bool) : State :=
  let s := layout .declared .declared
  { s with manifest := { s.manifest with revocation := some .inProgress }, vprog := present,
           fuses := .read (.whole 1) none }

theorem test_fuse_blown_needs_supply :
    (after .fuseBlown (burning true)).manifest.revocation = some .done ∧
      (after .fuseBlown (burning false)).manifest.revocation = some .inProgress := by decide

theorem test_burn_limit_fails :
    let t := after .burnLimitExpiry (burning true)
    t.manifest.revocation = some .failed ∧ t.lines.fault = true ∧ t.measure.subjects = [0] := by decide

theorem test_supply_changes_pin_alone :
    after (.vprogSupplyChange true) (burning false) = burning true := by decide

/-! ### Further examples of the spec -/

/-- File 04, the chunks of a run that crosses two boundaries. -/
theorem test_chunk_example :
    let segments : List Segment :=
      [{ base := 0x500E80, length := 0x200, owner := some 12, imageOffset := 0 },
       { base := 0x900000, length := 0x1000, owner := some 12, imageOffset := 0x200 }]
    let chunk (start beats : Nat) := chunkOf segments 12 { start := start, body := .deferred beats ⟨1, 0⟩ true }
    [chunk 0x40 40, chunk 0x140 24, chunk 0x180 20, chunk 0x200 12] =
      [some (0x500EC0, 0x40, 16), some (0x500FC0, 0x140, 4), some (0x501000, 0x180, 8),
        some (0x900000, 0x200, 12)] := by decide

/-- File 10, the record of a broken image. -/
theorem test_record_example :
    let g := { image (declared 0 1 0x4000 none) (.broken .rewrite) with cursor := 0x1200, transitions := 1 }
    imageRecordBytes 2 4 g =
      [0x01, 0x04, 0x07, 0x01, 2, 0, 0, 0, 0x00, 0x01, 0, 0, 0, 0, 0, 0, 0x00, 0x12, 0, 0] ++
        List.replicate 44 0 := by decide

/-- R23: FFFF_FFFFH is followed by 1, and a number still unanswered is passed over. -/
theorem test_number_passes_over :
    let m := { MeasureState.reset with nextSeq := 0xFFFFFFFF, entries :=
      [{ tag := 1, seq := ⟨0xFFFFFFFF, 0⟩, recorded := [] }, { tag := 2, seq := ⟨1, 1⟩, recorded := [] }] }
    m.giveNumber.number = 2 := by decide

/-! ### Witnesses: for each statement with hypotheses, states and operands that meet them

Where the spec's ranges have ends, the witnesses stand on them. -/

theorem witness_StepRunsFrontCommand : State.reset.pending = [] := rfl

/-- Images in FILLING and in another state, and a settle that issues a write. -/
theorem witness_SettleLeavesAlone :
    stateOf (layout .filling .declared) 1 = some .filling ∧
    stateOf (layout .filling .declared) 2 = some .declared ∧
    ∃ t, t = (layout .filling .declared).settle := by
  exact ⟨by decide, by decide, _, rfl⟩

/-- A report write joins an empty own-request queue, and one that has a head; and none joins. -/
theorem witness_SettleLeavesAlone_headWait :
    let s (own : List LinkRequest) (first : Bool) : State := { layout .declared .declared with
      report := { (layout .declared .declared).report with
        channel := .ready, tags := #v[.free, .free], headerFirst := first }
      link := { LinkState.reset with own := own, headWait := 3 } }
    ((s [] true).settle.link.own.length = 1 ∧ (s [] true).settle.link.headWait = 0) ∧
    ((s [.read 32 0 1] true).settle.link.own.length = 2 ∧ (s [.read 32 0 1] true).settle.link.headWait = 3) ∧
    ((s [] false).settle.link.own = [] ∧ (s [] false).settle.link.headWait = 3) := by decide

theorem witness_StrapsFixTheWindow :
    State.reset.resetLine ≠ .inactive ∧ sensing.resetLine = .inactive ∧
    (∃ t, exec .coldReset sensing = .next t) ∧ State.reset.resetLine = .cold ∧
    (∃ t, exec .warmReset State.reset = .next t) := by
  exact ⟨by decide, by decide, ⟨_, rfl⟩, by decide, ⟨_, rfl⟩⟩

/-- The part with a window base. -/
def windowAt (base : Addr) : State :=
  { sensing with manifest := { sensing.manifest with windowBase := base } }

/-- The first and the last byte of the highest window, which ends with the address space. -/
theorem witness_StrapsFixTheWindow_edges :
    (windowAt 0xFFFFFFF000).manifest.windowBase ∈
      [0x0000000000#40, 0x0000100000#40, 0x0040000000#40, 0xFFFFFFF000#40] ∧
    classify (windowAt 0xFFFFFFF000) 0xFFFFFFF000 = .window 0 ∧
    classify (windowAt 0xFFFFFFF000) 0xFFFFFFFFFF = .window 4095 ∧
    classify (windowAt 0) 0 = .window 0 ∧ classify (windowAt 0) 4096 = .none := by
  exact ⟨by decide, by decide, by decide, by decide, by decide⟩

/-- Sensing with the counter at n. -/
def sensingAt (n : Nat) : State := { sensing with manifest := { sensing.manifest with attempts := n } }

/-- LOCKOUT at 3 even when both slots read as BLANK, UNPROVISIONED at 2, and manifest loading with either
slot programmed. -/
theorem witness_SensingChoosesPhase :
    (sensingAt 3).manifest.phase = .sensing ∧ (sensingAt 3).resetLine = .inactive ∧
    (sensingAt 3).fuses = .unread ∧
    (after (.sensingDone .blank none) (sensingAt 3)).manifest.phase = .lockout ∧
    (after (.sensingDone .blank none) (sensingAt 2)).manifest.phase = .unprovisioned ∧
    (after (.sensingDone .blank (some 5)) (sensingAt 2)).manifest.phase = .manifestLoading ∧
    (after (.sensingDone (.programmed 5) none) (sensingAt 0)).manifest.phase = .manifestLoading := by decide

/-- UNPROVISIONED with n inbound entries occupied. -/
def occupying (n : Nat) : State :=
  { inPhase .unprovisioned with link := { LinkState.reset with
      forward := List.replicate n (.read 0 0 1) } }

/-- Each of the five conditions alone, with 15 entries occupied; a request at the last page's end is well
formed. -/
theorem witness_FormCheckAnswersMalformed :
    let s := { occupying 15 with link := { (occupying 15).link with hostReads := [4], hostWrites := [4] } }
    s.manifest.phase ≠ .sensing ∧ s.link.occupied < 16 ∧
    [malformed s.link .read 31 0x208 1, malformed s.link .read 31 0x200 0, malformed s.link .read 31 0x200 17,
      malformed s.link .read 31 0xFF0 2, malformed s.link .read 32 0x200 1, malformed s.link .read 4 0x200 1,
      malformed s.link .write 4 0x200 [fullBeat 0].length, malformed s.link .read 31 0xFFFFFFFF00 16] =
    [true, true, true, true, true, true, true, false] ∧
    s.manifest.windowBase ∈ [0x0000000000#40, 0x0000100000#40, 0x0040000000#40, 0xFFFFFFF000#40] := by decide

/-- The two reasons to be held, each alone; and the write of the gate example that is refused for one
beat. -/
theorem witness_RequestsHeldOrRefused :
    (sensing.manifest.phase = .sensing ∧ sensing.link.occupied = 0) ∧
    ((occupying 16).manifest.phase ≠ .sensing ∧ 16 ≤ (occupying 16).link.occupied) ∧
    (let s := layout (.verified 7) .filling
     s.manifest.phase ≠ .sensing ∧ s.link.occupied < 16 ∧
     malformed s.link .write 3 0x300FC0 (fullBeats 4).length = false ∧
     ∃ k, k < (fullBeats 4).length ∧
      beatForwards s .write (classify s ((0x300FC0 : Addr).toNat + 16 * k)) = false) := by
  exact ⟨by decide, by decide, by decide, by decide, by decide, 3, by decide, by decide⟩

theorem witness_HostReadDecided :
    let s := layout (.verified 7) .filling
    s.manifest.phase ≠ .sensing ∧ s.link.occupied < 16 ∧ malformed s.link .read 31 0x200000 16 = false ∧
    (∀ k, k < 16 → beatForwards s .read (classify s ((0x200000 : Addr).toNat + 16 * k)) = true) ∧
    malformed s.link .read 31 0x207F60 4 = false ∧
    (∃ k, k < 4 ∧ beatForwards s .read (classify s ((0x207F60 : Addr).toNat + 16 * k)) = false) := by
  exact ⟨by decide, by decide, by decide, by decide, by decide, 3, by decide, by decide⟩

theorem witness_GateTable :
    (∀ p, (inPhase p).manifest.phase = p) ∧
    (layout .declared .filling).manifest.phase = .armed ∧
    ((layout .declared .filling).measure.image? 1).isSome = true ∧
    ((layout .declared .filling).measure.image? 2).isSome = true := by
  exact ⟨fun _ => rfl, by decide, by decide, by decide⟩

/-- In UNPROVISIONED a write inside the window, and in MANIFEST_LOADING one just past its end. -/
theorem witness_UnmeasuredWriteForwarded :
    (let s := inPhase .unprovisioned
     s.manifest.phase ≠ .sensing ∧ s.manifest.phase ≠ .armed ∧ s.link.occupied < 16 ∧
     malformed s.link .write 0 0x100000 (fullBeats 1).length = false ∧
     ∀ k, k < (fullBeats 1).length → ∀ i x, classify s ((0x100000 : Addr).toNat + 16 * k) ≠ .image i x) ∧
    (let s := inPhase .manifestLoading
     s.manifest.phase ≠ .sensing ∧ s.manifest.phase ≠ .armed ∧ s.manifest.phase ≠ .unprovisioned ∧
     s.link.occupied < 16 ∧ malformed s.link .write 0 0x101000 (fullBeats 1).length = false ∧
     (∀ k, k < (fullBeats 1).length → ∀ d, classify s ((0x101000 : Addr).toNat + 16 * k) ≠ .window d) ∧
     ∀ k, k < (fullBeats 1).length → ∀ i x, classify s ((0x101000 : Addr).toNat + 16 * k) ≠ .image i x) := by
  refine ⟨⟨by decide, by decide, by decide, by decide, ?_⟩, by decide, by decide, by decide, by decide,
    by decide, ?_, ?_⟩
  all_goals
    intro k hk
    obtain rfl : k = 0 := by simp [fullBeats] at hk; omega
    first
    | (intro i x h; revert h; exact nofun)
    | (intro d h; revert h; exact nofun)

/-- With 32 numbers unanswered; the next one held, and not held. -/
theorem witness_NumberGivenIsNotHeld :
    let entries (first : Nat) : List WriteEntry :=
      (List.range 32).map (fun k => { tag := k, seq := ⟨BitVec.ofNat 32 (first + k), k⟩, recorded := [] })
    (∀ first ∈ [1, 40], (entries first).length ≤ 32) ∧
    { MeasureState.reset with entries := entries 1 }.giveNumber.number = 33 ∧
    (∀ w ∈ entries 40, w.seq.number ≠ MeasureState.reset.nextSeq) ∧ MeasureState.reset.nextSeq ≠ 0 := by
  decide

/-- A write of 16 beats into image 1 in FILLING, on which image 2 depends. -/
theorem witness_WriteFrame :
    let s := layout .filling .declared
    s.manifest.phase = .armed ∧ s.link.occupied < 16 ∧
    malformed s.link .write 31 0x207000 (fullBeats 16).length = false ∧
    (∀ k, k < (fullBeats 16).length →
      beatForwards s .write (classify s ((0x207000 : Addr).toNat + 16 * k)) = true) ∧
    classify s (0x207000 : Addr).toNat ≠ .header 1 ∧ stateOf s 1 = some .filling ∧
    s.measure.dependents 1 = [2] := by decide

/-- One image of four beats, and a second one whose runs use up staging slots and run entries: n runs of
16 staged beats, and k deferred ones. -/
def crowded (n k : Nat) (f : Image → Image) : State :=
  let s := one .filling
  let other := { image (declared 0 1 0x40 none) .filling with
    runs := List.replicate n { start := 0, body := .staged (List.replicate 16 0) } ++
      List.replicate k { start := 0, body := .deferred 1 ⟨1, 0⟩ true } }
  on { s with measure := { s.measure with images := s.measure.images ++ [other] } } 1 f

/-- What the hypotheses on the write of beats at image offset off say, for image 1 at 00_0060_0000H. -/
def writesInto (s : State) (off : Nat) (beats : List WriteBeat) : Prop :=
  s.manifest.phase = .armed ∧ s.link.occupied < 16 ∧
  malformed s.link .write 3 (BitVec.ofNat 40 (0x600000 + off)) beats.length = false ∧
  (∀ k, k < beats.length →
    classify s ((BitVec.ofNat 40 (0x600000 + off)).toNat + 16 * k) = .image 1 (off + 16 * k)) ∧
  stateOf s 1 = some .filling

theorem witness_WriteIntoOneImage_strobes :
    (writesInto (one .filling) 0 [fullBeat 1, { data := 0, strobes := 0x7FFF }] ∧
      ∃ b ∈ [fullBeat 1, { data := 0, strobes := 0x7FFF }], b.strobes ≠ 0 ∧ b.strobes ≠ 0xFFFF) ∧
    (writesInto (one .filling) 48 [{ data := 0, strobes := 0 }] ∧
      ∀ b ∈ [({ data := 0, strobes := 0 } : WriteBeat)], b.strobes = 0) := by
  unfold writesInto; decide

/-- Full beats: one beat below the cursor; one beat of a run overlapped; and neither, at the cursor. -/
theorem witness_WriteIntoOneImage_rewrite :
    let s := on (one .filling) 1 (fun g => { g with cursor := 16, runs := [{ start := 48, body := .staged [1] }] })
    (∀ b ∈ fullBeats 2, b.strobes = 0xFFFF) ∧
    writesInto s 0 (fullBeats 2) ∧ writesInto s 32 (fullBeats 2) ∧ writesInto s 16 (fullBeats 2) ∧
    (s.measure.image? 1).map (fun g => decide (0 < g.cursor + 16 * g.handOff)) = some true ∧
    (s.measure.image? 1).map (fun g => decide (∃ r ∈ g.runs, 32 < r.stop ∧ r.start < 32 + 16 * 2)) =
      some true ∧
    (s.measure.image? 1).map (fun g => decide (¬ (16 < g.cursor + 16 * g.handOff ∨
      ∃ r ∈ g.runs, 16 < r.stop ∧ r.start < 16 + 16 * 2))) = some true := by
  unfold writesInto; decide

/-- Four beats staged into the last slots, and deferred when one slot more is used. -/
theorem witness_WriteIntoOneImage_room :
    let deferred := { start := 0, body := .deferred 1 ⟨1, 0⟩ true }
    let staged := crowded 63 0 (fun g => { g with runs := [{ start := 48, body := .staged [1, 2, 3, 4, 5, 6, 7, 8,
      9, 10, 11, 12, 13] }] })
    let new := crowded 63 191 (fun g => { g with cursor := 16, runs := [{ start := 48, body := .staged [1] }] })
    let merged := crowded 0 255 (fun g => { g with runs := [deferred] })
    let full := crowded 0 256 id
    writesInto staged 0 (fullBeats 3) ∧ (fullBeats 3).length = 1024 - staged.measure.slotsUsed ∧
      0 < 256 - staged.measure.entriesUsed ∧
    writesInto new 16 (fullBeats 2) ∧ 256 - new.measure.entriesUsed = 1 ∧
    writesInto merged 16 (fullBeats 2) ∧ 256 - merged.measure.entriesUsed = 0 ∧
      (merged.measure.image? 1).map (·.runs) = some [deferred] ∧
      (deferred.body.isDeferred = true ∧ deferred.stop = 16) ∧
    writesInto full 0 (fullBeats 2) ∧ 256 - full.measure.entriesUsed = 0 ∧
      (full.measure.image? 1).map (·.runs) = some [] := by
  unfold writesInto; decide

/-- A write of five beats over two images and a jump of the offset: a full beat and an empty one in image 1, a
full beat there, and a full and a partial one in image 2; and a group of an image that takes no more. -/
theorem witness_WriteIntoOneImage_groups :
    let s := layout .filling .declared
    let beats := [fullBeat 1, { data := 2, strobes := 0 }, fullBeat 3, fullBeat 4, { data := 5, strobes := 0x7FFF }]
    s.manifest.phase = .armed ∧ s.link.occupied < 16 ∧ malformed s.link .write 31 0x207F50 beats.length = false ∧
    (∀ k, k < beats.length →
      beatForwards s .write (classify s ((0x207F50 : Addr).toNat + 16 * k)) = true) ∧
    classify s (0x207F50 : Addr).toNat ≠ .header 1 ∧
    (List.range 5).map (fun k => classify s ((0x207F50 : Addr).toNat + 16 * k)) =
      [.image 1 0x7F50, .image 1 0x7F60, .image 1 0x7F70, .image 2 0, .image 2 16] ∧
    stateOf s 1 = some .filling ∧ stateOf s 2 = some .declared ∧
    stateOf (layout (.verified 7) .declared) 1 = some (.verified 7) := by decide

/-- A group between two DEFERRED runs that touch it, with a STAGED run beyond. -/
theorem witness_DeferredGroupMerges :
    let runs : List Run := [{ start := 0, body := .deferred 1 ⟨1, 0⟩ true },
      { start := 32, body := .deferred 2 ⟨2, 1⟩ false }, { start := 64, body := .staged [1] }]
    let x : Group := { image := 1, start := 16, data := [7] }
    runsOk runs ∧ 1 ≤ x.data.length ∧ (∀ r ∈ runs, r.stop ≤ x.start ∨ x.stop ≤ r.start) ∧
    deferRun x ⟨3, 2⟩ runs = [{ start := 0, body := .deferred 4 ⟨3, 2⟩ false },
      { start := 64, body := .staged [1] }] := by
  refine ⟨?_, by decide, by decide, by decide⟩
  simp [runsOk, runBefore, RunBody.sizeOk, Run.stop, RunBody.beatCount, RunBody.isDeferred]

/-- A header beat whose consumer and command bytes are strobed, and one with a byte of each missing. -/
theorem witness_HeaderBeatOneIsSnooped :
    let s := layout .declared .declared
    s.manifest.phase = .armed ∧ s.link.occupied < 16 ∧ malformed s.link .write 0 0x101010 1 = false ∧
    classify s (0x101010 : Addr).toNat = .header 1 ∧
    (0x001F : Strobes).getLsbD 0 = true ∧ (0x001F : Strobes).getLsbD 1 = true ∧
    (0x001F : Strobes).getLsbD 2 = true ∧ (0x001F : Strobes).getLsbD 3 = true ∧
    (0x001F : Strobes).getLsbD 4 = true ∧ (0xFFED : Strobes).getLsbD 1 = false ∧
    (0xFFED : Strobes).getLsbD 4 = false := by decide

/-- Commands that are taken: of no kind, refused, and each of the four carried out; one not taken for its
sequence, and one in DORMANT; and consumer values at the producer index and one past it. -/
theorem witness_HeaderBeatOneIsSnooped_command :
    let s := layout (.broken .partialBeat) .filling
    let halted : State := { s with report := { s.report with channel := .halted } }
    s.report.channel ≠ .dormant ∧ (5 : BitVec 8) ≠ s.report.lastSeq ∧ (0 : BitVec 8) = s.report.lastSeq ∧
    State.reset.report.channel = .dormant ∧ halted.report.channel ≠ .dormant ∧
    commandResult s none 1 = .badKind ∧ commandResult s (some .abandon) 1 ≠ .done ∧
    commandResult s (some .reopen) 1 = .done ∧ commandResult s (some .abandon) 2 = .done ∧
    commandResult s (some .resend) 2 = .done ∧ commandResult halted (some .resume) 0 = .done ∧
    (let r := { s.report with producer := 2, consumer := 0xFFFF }
     r.channel ≠ .dormant ∧ ((2 : BitVec 16) - r.consumer).toNat ≤ (r.producer - r.consumer).toNat ∧
     (r.producer - r.consumer).toNat < ((3 : BitVec 16) - r.consumer).toNat) := by decide

/-- The part with host-port and memory-port queues. -/
def linked (f : LinkState → LinkState) : State := { inPhase .rejected with link := f LinkState.reset }

def read1 (k : LinkStatus) : Response := { kind := .read, tag := 31, status := k, data := [] }

/-- No offer stands: empty queues, one of the two, and both under either mark; an offer that stands. -/
theorem witness_ResponsesMergedAndDelivered_offer :
    (∀ mark ∈ [ResponseSource.relayed, .part], ∀ relay ∈ [[], [read1 .ok]], ∀ refusals ∈ [[], [read1 .refused]],
      (linked (fun l => { l with relay := relay, refusals := refusals, lastSource := mark })).link.hostOffer =
        none) ∧
    (linked (fun l => { l with relay := [read1 .ok], hostOffer := some .relayed })).link.hostOffer =
      some .relayed := by decide

theorem witness_ResponsesMergedAndDelivered_taken :
    (let s := linked (fun l => { l with relay := [read1 .ok], hostReads := [31], hostOffer := some .relayed })
     s.link.hostOffer = some .relayed ∧ s.link.relay = read1 .ok :: []) ∧
    (∀ status ∈ [LinkStatus.refused, .malformed],
      let s := linked (fun l => { l with refusals := [read1 status], hostReads := [31], hostOffer := some .part })
      s.link.hostOffer = some .part ∧ s.link.refusals = read1 status :: []) ∧
    (∃ t, exec .warmReset (linked (fun l => { l with lastSource := .relayed })) = .next t) := by
  exact ⟨by decide, by decide, _, rfl⟩

/-- The head-wait count at 3 and at 4, with both queues waiting. -/
theorem witness_MemoryArbiterOffers :
    let forward := [LinkRequest.read 1 0 1]
    let own := [LinkRequest.read 32 0 1]
    (∀ n ∈ [3, 4], let s := linked (fun l => { l with forward := forward, own := own, headWait := n })
      s.link.memOffer = none ∧ s.link.forward ≠ [] ∧ s.link.own ≠ [] ∧ s.link.headWait = n) ∧
    (∀ f ∈ [[], forward], ∀ o ∈ [[], own],
      (linked (fun l => { l with forward := f, own := o })).link.memOffer = none) ∧
    (∀ o ∈ [[], own], let s := linked (fun l => { l with forward := forward, own := o, memOffer := some .forward })
      s.link.memOffer = some .forward ∧ s.link.forward = .read 1 0 1 :: []) ∧
    (let s := linked (fun l => { l with forward := forward, own := own, memOffer := some .own, headWait := 4 })
     s.link.memOffer = some .own ∧ s.link.own = .read 32 0 1 :: []) := by decide

/-- The own head behind five forwarded requests, with the count at 0 and at 4, and a forwarded request
standing offered at 3. -/
theorem witness_OwnHeadWaitsAtMostFour :
    let forward := (List.range 5).map (fun k => LinkRequest.read k 0 1)
    let own := [LinkRequest.read 32 0 1]
    (∀ n ∈ [0, 4], let s := linked (fun l => { l with forward := forward, own := own, headWait := n })
      s.link.own = .read 32 0 1 :: [] ∧ s.link.headWaitOk ∧ s.link.memOffer ≠ some .forward) ∧
    (let s := linked (fun l =>
      { l with forward := forward, own := own, headWait := 3, memOffer := some .forward })
     s.link.own = .read 32 0 1 :: [] ∧ s.link.headWaitOk ∧ s.link.forward ≠ []) := by
  unfold LinkState.headWaitOk; decide

theorem witness_ReadResponseRelayed :
    31 < 32 ∧ 31 ∈ (linked (fun l => { l with hostReads := [31], memReads := [31] })).link.memReads := by decide

/-- A write in flight on tag 31, recorded for image 1. -/
def inFlight (st : ImageState) (f : Image → Image) : State :=
  let s := on (layout st .declared) 1 (fun g => f { g with inFlight := 1 })
  { s with link := { s.link with hostWrites := [31], memWrites := [31] },
           measure := { s.measure with entries := [{ tag := 31, seq := ⟨1, 0⟩, recorded := [(1, 0)] }] } }

/-- An image found is one of the list. -/
theorem image_cases {m : MeasureState} {g₁ g₂ g : Image} {i : Nat} (hm : m.images = [g₁, g₂])
    (h : m.image? i = some g) : (i = 1 ∧ g = g₁) ∨ (i = 2 ∧ g = g₂) := by
  match i with
  | 0 => simp [MeasureState.image?] at h
  | 1 => simp [MeasureState.image?, hm] at h; exact .inl ⟨rfl, h.symm⟩
  | 2 => simp [MeasureState.image?, hm] at h; exact .inr ⟨rfl, h.symm⟩
  | n + 3 => simp [MeasureState.image?, hm] at h

theorem inFlight_predecessorsLower (st : ImageState) (f : Image → Image)
    (hf : ∀ g, (f g).declared = g.declared) : (inFlight st f).measure.predecessorsLower := by
  intro i g p hg hp
  obtain ⟨rfl, rfl⟩ | ⟨rfl, rfl⟩ := image_cases rfl hg
  · rw [hf] at hp
    simp [image, declaredImage, declared] at hp
  · simp [image, declaredImage, declared] at hp
    omega

/-- What the hypotheses on the response to the write on tag 31 say, with image 1 in the state given. -/
def answers (s : State) (st : ImageState) : Prop :=
  31 < 32 ∧ 31 ∈ s.link.memWrites ∧ 31 ∉ s.manifest.windowWrites ∧ s.manifest.phase ≠ .manifestLoading ∧
  s.measure.entries.find? (·.tag == 31) = some { tag := 31, seq := ⟨1, 0⟩, recorded := [(1, 0)] } ∧
  (s.measure.image? 1).map (fun g => (g.epoch, g.inFlight, g.state)) = some (0, 1, st) ∧
  s.measure.dependents 1 = [2] ∧ stateOf s 2 = some .declared

/-- The response that brings the count to 0 with a verdict pending, matched and not; one that finds an image in
FILLING with a DEFERRED run of a lower number; and one that comes to an image that is broken already. -/
theorem witness_WriteResponseActs :
    (∀ st ∈ [ImageState.finishing (some { digest := 7, matched := true }),
        .finishing (some { digest := 8, matched := false }), .filling, .broken .rewrite],
      let s := inFlight st (fun g => { g with runs := [{ start := 0, body := .deferred 1 ⟨1, 0⟩ false }] })
      answers s st ∧ s.measure.predecessorsLower) ∧
    verdictState (image (declared 0 1 0x40 none) .filling) { digest := 7, matched := true } = .verified 7 ∧
    verdictState (image (declared 0 1 0x40 none) .filling) { digest := 8, matched := false } = .mismatched 8 ∧
    ImageState.filling.isMeasuring = true ∧ (ImageState.broken .rewrite).isMeasuring = false := by
  refine ⟨fun st hst => ⟨?_, inFlight_predecessorsLower st _ fun _ => rfl⟩, rfl, rfl, rfl, rfl⟩
  unfold answers
  revert st
  decide

/-- A window write on tag 31, the last and not the last in flight, with the whole length absorbed and engine 0
HOLDING. -/
theorem witness_WriteResponseActs_window :
    ∀ writes ∈ [[31], [31, 5]],
      let s := absorbing 64 [] writes (fun e => { e with state := .holding })
      let s := { s with link := { s.link with memWrites := writes }
                        measure := { s.measure with entries := [{ tag := 31, seq := ⟨1, 0⟩, recorded := [] }] } }
      31 ∈ s.link.memWrites ∧ s.manifest.phase = .manifestLoading ∧ 31 ∈ s.manifest.windowWrites ∧
      s.measure.entries.find? (·.tag == 31) = some { tag := 31, seq := ⟨1, 0⟩, recorded := [] } ∧
      s.measure.images = [] ∧ (s.manifest.windowWrites.filter (· != 31) = [] ↔ writes = [31]) ∧
      s.manifest.length = some 1 ∧ 64 * 1 ≤ s.manifest.absorbOffset ∧
      s.measure.engines[(0 : EngineId)].state = .holding ∧ s.measure.engines[(0 : EngineId)].manifest = true := by
  decide

/-- A host tag, an own tag of each space and a tag of neither space. -/
theorem witness_UnknownTagDiscarded :
    let s := layout .declared .declared
    (31 < 32 → 31 ∉ s.link.memReads) ∧ (31 < 32 → 31 ∉ s.link.memWrites) ∧
    (∀ k : Fin 8, s.measure.refillTags[k] = .free) ∧ s.report.tags[(1 : Fin 2)] = .free ∧
    (∀ k : Fin 8, 40 ≠ 32 + k.val) ∧ (∀ k : Fin 2, 34 ≠ 32 + k.val) := by decide

/-- Refill tag 7 as given, with image 1 and engine 0 as in `refilling`. -/
def refillTag (t : RefillTag) : State :=
  { refilling id with measure := (refilling id).measure.setRefillTag 7 t }

theorem witness_RefillResponseHandled :
    (refillTag (.busy 1 (some 0) 0 2 0x600000)).measure.refillTags[(7 : Fin 8)] = .busy 1 (some 0) 0 2 0x600000 ∧
    2 ≤ ([5, 6] : List Beat).length ∧ ([5] : List Beat).length < 2 ∧
    (refillTag (.busy 1 none 0 2 0x600000)).measure.refillTags[(7 : Fin 8)] = .busy 1 none 0 2 0x600000 ∧
    (refillTag .quarantined).measure.refillTags[(7 : Fin 8)] = .quarantined := by decide

theorem witness_RefillLimitQuarantines :
    (refillTag (.busy 1 (some 0) 0 2 0x600000)).measure.refillTags[(7 : Fin 8)] = .busy 1 (some 0) 0 2 0x600000 ∧
    (refillTag (.busy 1 none 0 2 0x600000)).measure.refillTags[(7 : Fin 8)] = .busy 1 none 0 2 0x600000 ∧
    (refillTag .free).measure.refillTags[(7 : Fin 8)] = .free ∧
    (refillTag .quarantined).measure.refillTags[(7 : Fin 8)] = .quarantined := by decide

/-- The last beat of a segment that ends with the address space; and the issue on the one FREE tag. -/
theorem witness_ChunkIsTheLeastOfFour :
    (let g : Segment := { base := 0xFFFFFFFFE0, length := 0x20, owner := some 1, imageOffset := 0x40 }
     let r : Run := { start := 0x50, body := .deferred 1 ⟨1, 0⟩ true }
     segmentOf [g] 1 r.start = some g ∧ g.base % 16 = 0 ∧ g.length % 16 = 0 ∧ g.imageOffset % 16 = 0 ∧
     r.start % 16 = 0 ∧ 1 ≤ r.body.beatCount ∧ g.base + g.length ≤ 2 ^ 40) ∧
    (let m := (refilling id).measure
     let m := { m with refillTags := #v[.quarantined, .quarantined, .quarantined, .quarantined, .quarantined,
                                        .quarantined, .quarantined, .free] }
     let r : Run := { start := 0, body := .deferred 4 ⟨1, 0⟩ true }
     (m.image? 1).map (·.runs) = some [r] ∧ chunkOf m.segments 1 r = some (0x600000, r.start, 4) ∧
     m.refillTags[(7 : Fin 8)] = .free ∧ ∀ t' : Fin 8, t' < 7 → m.refillTags[t'] ≠ .free) := by decide

/-- Requests to be made, one pending already; a list served with a tag FREE and with none. -/
theorem witness_ChunkIsTheLeastOfFour_served :
    let m : MeasureState := { (refilling id).measure with refillTags := MeasureState.reset.refillTags }
    let none : MeasureState := { m with refillTags := Vector.replicate 8 .quarantined }
    m.engines[(0 : EngineId)].state = .awaitingRefill ∧ m.engines[(0 : EngineId)].bound = some 1 ∧
    m.refillPending = [] ∧ (m.issueRefill { engine := 0, image := 1 }).isSome = true ∧
    (∀ k : Fin 8, none.refillTags[k] ≠ .free) ∧ none.issueRefill { engine := 0, image := 1 } = .none := by decide

/-- Readiness with a STAGED head, and with a settled DEFERRED one and a predecessor that is VERIFIED. -/
theorem witness_ReadyMeans :
    (working .holding id).measure.ready 1 = true ∧
    (on (layout (.verified 7) .filling) 2 (fun g =>
      { g with runs := [{ start := 0, body := .deferred 1 ⟨1, 0⟩ true }] })).measure.ready 2 = true := by decide

/-- Engine 0 bound to image 1, both changed. -/
def boundTo (f : Image → Image) (h : Engine → Engine) : MeasureState := (on (working .holding h) 1 f).measure

/-- The cursor, the length and the hand-off of image 1. -/
def progress (m : MeasureState) : Option (Nat × Nat × Nat) :=
  (m.image? 1).map (fun g => (g.cursor, g.declared.length, g.handOff))

/-- The runs of image 1. -/
def runsOf (m : MeasureState) : Option (List Run) := (m.image? 1).map (·.runs)

/-- Finalise, take a delivered beat, park. -/
theorem witness_NextStepChoice :
    (boundTo id id).engines[(0 : EngineId)].bound = some 1 ∧
    progress (boundTo (fun g => { g with cursor := 64 }) id) = some (64, 64, 0) ∧
    (let m := boundTo (fun g => { g with cursor := 48, handOff := 1 }) (fun e => { e with delivered := [5] })
     progress m = some (48, 64, 1) ∧ m.engines[(0 : EngineId)].delivered = 5 :: []) ∧
    (let m := boundTo id (fun e => { e with parkOrder := true })
     progress m = some (0, 64, 0) ∧ m.engines[(0 : EngineId)].parkOrder = true) := by decide

/-- Take a staged beat, await a refill, hold, each at the last beat. -/
theorem witness_NextStepChoice_ready :
    let last (body : RunBody) :=
      boundTo (fun g => { g with cursor := 48, runs := [{ start := 48, body := body }] }) id
    (∀ body ∈ [RunBody.staged [4], .deferred 1 ⟨1, 0⟩ true, .deferred 1 ⟨1, 0⟩ false],
      progress (last body) = some (48, 64, 0) ∧ runsOf (last body) = some ({ start := 48, body := body } :: []) ∧
      (last body).engines[(0 : EngineId)].parkOrder = false) ∧
    (last (.staged [4])).ready 1 = true ∧ (last (.deferred 1 ⟨1, 0⟩ true)).ready 1 = true ∧
    (last (.deferred 1 ⟨1, 0⟩ false)).ready 1 = false := by decide

theorem witness_GrantsAndTheArbiter_grant :
    ((working .holding id).measure.image? 1).map (·.slot) = some (some freshContext) ∧
    (let m := (layout (.verified 7) .filling).measure
     (m.image? 2).map (fun g => (g.slot, g.declared.predecessor)) = some (none, some 1) ∧
     (m.image? 1).map (·.state) = some (.verified 7)) ∧
    ((one .filling).measure.image? 1).map (fun g => (g.slot, g.declared.predecessor)) = some (none, none) := by
  decide

/-- Image 3 waits; engine 0 finalises, engine 1 is reserved, and engines 2 and 3 are as given. -/
def waiting (e2 e3 : Engine) : MeasureState :=
  { MeasureState.reset with
    waitList := [3],
    engines := #v[{ idleEngine with state := .finalizing },
      { idleEngine with state := .holding, reservation := some 5 }, e2, e3] }

/-- Engine 3 the only one FREE and unreserved; none FREE, with 2 and 3 holding since the same instant; and
none to be had, one holding for a claimant. -/
theorem witness_GrantsAndTheArbiter_arbiter :
    let free (m : MeasureState) (e : EngineId) : Prop := m.engines[e].state = .free ∧ m.engines[e].reservation = none
    let holds (m : MeasureState) (e : EngineId) : Prop := m.engines[e].state = .holding ∧
      m.engines[e].reservation = none ∧ m.engines[e].claimant = none
    let holding : Engine := { idleEngine with state := .holding, holdingSince := 9 }
    let one := waiting holding idleEngine
    let two := waiting holding holding
    let none := waiting { idleEngine with state := .parking } { holding with claimant := some 4 }
    one.waitList = 3 :: [] ∧ free one 3 ∧ (∀ e', e' < 3 → ¬ free one e') ∧
    (∀ e, ¬ free two e) ∧ holds two 2 ∧
    (∀ e', holds two e' → two.engines[(2 : EngineId)].holdingSince < two.engines[e'].holdingSince ∨
      (two.engines[(2 : EngineId)].holdingSince = two.engines[e'].holdingSince ∧ 2 ≤ e')) ∧
    (∀ e, ¬ free none e) ∧ (∀ e, ¬ holds none e) := by decide

/-- Engine 0 of image 1 as given, with a request of it pending; image 1 ready, and not ready. -/
theorem witness_GrantsAndTheArbiter_pool :
    let ready := (working .holding id).measure
    let gap := (on (working .holding id) 1 (fun g => { g with runs := [] })).measure
    let request : RefillRequest := { engine := 0, image := 1 }
    ready.ready 1 = true ∧ gap.ready 1 = false ∧
    ready.engines[(0 : EngineId)].state = .holding ∧ ready.engines[(0 : EngineId)].bound = some 1 ∧
    (∃ q ∈ ({ gap with refillPending := [request] } : MeasureState).refillPending,
      q.engine = 0 ∧ gap.ready q.image = false) ∧
    (∀ m ∈ [ready, gap], let m' := m.modEngine 2 (fun e => { e with state := .parking, claimant := some 1 })
      m'.engines[(2 : EngineId)].claimant = some 1 ∧ m'.ready 1 = m.ready 1) ∧
    (let m := (engine (on (one .filling) 1 (fun g => { g with runs := [{ start := 0, body := .staged [1] }] })) 3
        (fun e => { e with reservation := some 1 })).measure
     m.engines[(3 : EngineId)].reservation = some 1 ∧ m.engines[(3 : EngineId)].state = .free ∧
     m.ready 1 = true ∧ ∀ e : EngineId, m.engines[e].bound ≠ some 1) := by decide

/-- An engine at work, without and with the discard mark, and with a claimant. -/
theorem witness_StepsEndInAChoice :
    ∀ st ∈ [EngineState.restoring, .absorbing .seed, .absorbing .beat],
      let s := working st id
      s.measure.engines[(0 : EngineId)].manifest = false ∧ s.measure.engines[(0 : EngineId)].discard = false ∧
      s.measure.engines[(0 : EngineId)].bound = some 1 ∧ (s.measure.image? 1).isSome = true ∧
      s.measure.engines[(0 : EngineId)].state = st := by decide

theorem witness_FinalisationGivesTheVerdict :
    ∀ n ∈ [0, 1],
      let s := on (working .finalizing (fun e => { e with reservation := some 1 })) 1
        (fun g => { g with state := .finishing none, cursor := 64, runs := [], inFlight := n })
      s.measure.engines[(0 : EngineId)].state = .finalizing ∧ s.measure.engines[(0 : EngineId)].manifest = false ∧
      s.measure.engines[(0 : EngineId)].discard = false ∧ s.measure.engines[(0 : EngineId)].bound = some 1 ∧
      s.measure.engines[(0 : EngineId)].context = some freshContext ∧
      (s.measure.image? 1).map (fun g => (g.state, g.inFlight)) = some (.finishing none, n) ∧
      s.measure.engines[(0 : EngineId)].reservation = some 1 := by decide

/-- A matching verdict, a mismatched one with a dependent that is still measuring, and one that is measured
only. -/
theorem witness_FinalisationGivesTheVerdict_verdicts :
    let closing (f : Image → Image) (st : ImageState) : State :=
      engine (on (layout (.finishing none) st) 1 (fun g => f { g with cursor := 0x8F80 })) 0
        (fun e => { e with state := .finalizing, bound := some 1, context := some freshContext })
    let result := hashDigest (compress initialHash ([] ++ [0x80] ++ List.replicate 55 0 ++ beBytes 8 0))
    let failing := closing id .filling
    failing.measure.engines[(0 : EngineId)].state = .finalizing ∧
    failing.measure.engines[(0 : EngineId)].bound = some 1 ∧
    failing.measure.engines[(0 : EngineId)].context = some freshContext ∧
    stateOf failing 1 = some (.finishing none) ∧ (failing.measure.image? 1).map (·.inFlight) = some 0 ∧
    (failing.measure.image? 1).map (fun g => decide (g.declared.policy.measureOnly = false ∧
      result ≠ g.declared.expected)) = some true ∧
    2 ∈ failing.measure.dependents 1 ∧ stateOf failing 2 = some .filling ∧
    ((closing (fun g => { g with declared := { g.declared with expected := result } }) .declared).measure.image? 1).map
      (fun g => decide (g.declared.policy.measureOnly = false ∧ result = g.declared.expected)) = some true ∧
    ((closing (fun g => { g with declared := { g.declared with policy := { plain with measureOnly := true } } })
      .declared).measure.image? 1).map (·.declared.policy.measureOnly) = some true := by decide

theorem witness_ParkSavesTheContext :
    ∀ x ∈ [(none, none), (none, some 1), (some 2, some 1), (some 2, none)],
      let s := working .parking (fun e => { e with claimant := x.1, reservation := x.2 })
      s.measure.engines[(0 : EngineId)].state = .parking ∧ s.measure.engines[(0 : EngineId)].manifest = false ∧
      s.measure.engines[(0 : EngineId)].discard = false ∧ s.measure.engines[(0 : EngineId)].bound = some 1 ∧
      s.measure.engines[(0 : EngineId)].context = some freshContext ∧
      s.measure.engines[(0 : EngineId)].claimant = x.1 ∧ s.measure.engines[(0 : EngineId)].reservation = x.2 := by
  decide

theorem witness_DiscardedStepEndsFree :
    ∀ st ∈ [EngineState.restoring, .absorbing .seed, .absorbing .beat, .finalizing, .parking],
      ∀ x ∈ [(none, none), (some 2, some 1), (some 2, none)],
      let s := working st (fun e =>
        { e with bound := none, context := none, discard := true, claimant := x.1, reservation := x.2 })
      s.measure.engines[(0 : EngineId)].manifest = false ∧ s.measure.engines[(0 : EngineId)].discard = true ∧
      s.measure.engines[(0 : EngineId)].state = st ∧ s.measure.engines[(0 : EngineId)].claimant = x.1 ∧
      s.measure.engines[(0 : EngineId)].reservation = x.2 := by decide

theorem layout_predecessorsLower (st1 st2 : ImageState) : (layout st1 st2).measure.predecessorsLower := by
  intro i g p hg hp
  match i with
  | 0 => simp [MeasureState.image?] at hg
  | 1 =>
    obtain rfl : image (declared 0 2 0x8F80 none) st1 = g := by simpa [layout, MeasureState.image?] using hg
    simp [image, declaredImage, declared] at hp
  | 2 =>
    obtain rfl : image (declared 2 1 0x4000 (some 1)) st2 = g := by simpa [layout, MeasureState.image?] using hg
    simp [image, declaredImage, declared] at hp
    omega
  | n + 3 => simp [layout, MeasureState.image?] at hg

/-- Image 1 measuring, with dependents that are and that are not, an engine at work on it, one that waits
for it, and an attached refill; and one that is not measuring. -/
theorem witness_BreakActionTakesAll :
    (layout (.verified 7) .filling).measure.isMeasuring 1 = false ∧
    (layout .filling .filling).measure.predecessorsLower ∧ (layout .filling .filling).measure.isMeasuring 1 = true ∧
    2 ∈ (layout .filling .filling).measure.dependents 1 ∧
    stateOf (layout .filling .filling) 2 = some .filling ∧
    stateOf (layout .filling (.broken .rewrite)) 2 = some (.broken .rewrite) ∧
    (refilling id).measure.isMeasuring 1 = true ∧
    (refilling id).measure.engines[(0 : EngineId)].bound = some 1 ∧
    (refilling id).measure.engines[(0 : EngineId)].state = .awaitingRefill ∧
    (refilling id).measure.refillTags[(0 : Fin 8)] = .busy 1 (some 0) 0 2 0x600000 ∧
    (working .restoring id).measure.engines[(0 : EngineId)].bound = some 1 ∧
    (working .restoring id).measure.engines[(0 : EngineId)].state = .restoring :=
  ⟨by decide, layout_predecessorsLower _ _, by decide, by decide, by decide, by decide, by decide, by decide,
    by decide, by decide, by decide, by decide⟩

/-- A closure of two images, and one of the image alone. -/
theorem witness_ReopenTakesTheClosure :
    (layout (.broken .rewrite) (.broken .predecessorFailed)).measure.predecessorsLower ∧
    2 ∈ (layout (.broken .rewrite) (.broken .predecessorFailed)).measure.dependents 1 ∧
    1 ∉ (layout (.broken .rewrite) (.broken .predecessorFailed)).measure.dependents 2 ∧
    stateOf (layout (.broken .rewrite) (.broken .predecessorFailed)) 1 = some (.broken .rewrite) ∧
    stateOf (layout (.broken .rewrite) (.broken .predecessorFailed)) 2 = some (.broken .predecessorFailed) :=
  ⟨layout_predecessorsLower _ _, by decide, by decide, by decide, by decide⟩

/-- The rows of the displacement table: engine 3, to which image 1 is pinned, in each state, with its request
pending or issued, with and without a claimant that is ready. -/
theorem witness_ReopenTakesTheClosure_pinned :
    let pinned (f : Engine → Engine) : MeasureState :=
      (engine (on (layout .declared .filling) 1
        (fun g => { g with declared := { g.declared with pin := some 3 } })) 3 f).measure
    (∀ st ∈ [EngineState.free, .finalizing, .holding, .restoring, .absorbing .seed, .absorbing .beat,
        .awaitingRefill, .parking], ∀ d ∈ [true, false], ∀ c ∈ [none, some 2],
      let m := pinned (fun e => { e with state := st, discard := d, claimant := c })
      (m.image? 1).map (·.declared.pin) = some (some 3) ∧ m.engines[(3 : EngineId)].state = st ∧
      m.engines[(3 : EngineId)].discard = d ∧ m.engines[(3 : EngineId)].claimant = c) ∧
    (∃ q ∈ ({ pinned id with refillPending := [{ engine := 3, image := 2 }] } : MeasureState).refillPending,
      q.engine = 3) ∧
    (pinned id).refillPending = [] ∧ (pinned id).ready 2 = false ∧
    (on (layout (.verified 7) .filling) 2 (fun g =>
      { g with runs := [{ start := 0, body := .staged [1] }] })).measure.ready 2 = true ∧
    (layout .declared .filling).measure.image? 1 = some (image (declared 0 2 0x8F80 none) .declared) := by decide

theorem witness_DependentsAreTheClosure :
    (layout .filling .filling).measure.predecessorsLower ∧
    dependsOn (layout .filling .filling).measure 1 2 ∧ 2 ∈ (layout .filling .filling).measure.dependents 1 :=
  ⟨layout_predecessorsLower _ _, .direct (g := image (declared 2 1 0x4000 (some 1)) .filling) (by decide) rfl,
    by decide⟩

/-- Each result of R154, with index 2 the last image and index 3 the first that is none. -/
theorem witness_CommandChecks :
    let reopenable (s : State) (i : Nat) : State :=
      on s i (fun g => { g with declared := { g.declared with policy := { plain with reopenable := true } } })
    let s := layout (.verified 7) (.verified 7)
    s.report.channel ≠ .dormant ∧ (5 : BitVec 8) ≠ s.report.lastSeq ∧
    s.measure.image? 0 = none ∧ s.measure.image? 3 = none ∧ (s.measure.image? 2).isSome = true ∧
    commandResult s (some .reopen) (3 : BitVec 8).toNat = .badIndex ∧
    commandResult s (some .reopen) (2 : BitVec 8).toNat = .badState ∧
    commandResult (reopenable s 1) (some .reopen) (1 : BitVec 8).toNat = .dependentLocked ∧
    commandResult (reopenable (reopenable s 1) 2) (some .reopen) (1 : BitVec 8).toNat = .done ∧
    commandResult (layout (.mismatched 7) (.recorded 7)) (some .reopen) (1 : BitVec 8).toNat = .dependentLocked ∧
    commandResult s (some .abandon) (0 : BitVec 8).toNat = .badIndex ∧
    commandResult s (some .abandon) (1 : BitVec 8).toNat = .badState ∧
    commandResult (layout .filling .declared) (some .abandon) (1 : BitVec 8).toNat = .done ∧
    commandResult s (some .resend) (3 : BitVec 8).toNat = .badIndex ∧
    commandResult s (some .resume) (0 : BitVec 8).toNat = .notHalted := by decide

/-- The report unit changed. -/
def reporting (f : ReportState → ReportState) : State :=
  let s := layout (.broken .rewrite) (.broken .predecessorFailed)
  { s with report := f s.report }

theorem witness_CommandsCarriedOut :
    let s := layout (.broken .rewrite) (.broken .predecessorFailed)
    s.report.channel ≠ .dormant ∧ (5 : BitVec 8) ≠ s.report.lastSeq ∧ (0 : BitVec 8) = s.report.lastSeq ∧
    commandResult s (some .reopen) (1 : BitVec 8).toNat = .done ∧
    commandResult (layout .filling .declared) (some .abandon) (1 : BitVec 8).toNat = .done ∧
    (2 : BitVec 8).toNat ≤ s.measure.images.length ∧ (0 : BitVec 8).toNat ≤ s.measure.images.length ∧
    (reporting (fun r => { r with channel := .halted })).report.channel = .halted ∧
    State.reset.report.channel = .dormant := by decide

/-- The producer index itself and one past it, across 65535. -/
theorem witness_ConsumerUpdateTaken :
    let s := reporting (fun r => { r with producer := 2, consumer := 0xFFFF })
    s.report.channel ≠ .dormant ∧
    ((2 : BitVec 16) - s.report.consumer).toNat ≤ (s.report.producer - s.report.consumer).toNat ∧
    (s.report.producer - s.report.consumer).toNat < ((3 : BitVec 16) - s.report.consumer).toNat := by decide

/-- The report unit with tag 33 as given. -/
def reportTag (t : ReportTag) (f : ReportState → ReportState) : State :=
  reporting (fun r => f { r with tags := #v[.free, t] })

theorem witness_ReportWriteAcknowledged :
    (reportTag (.busy (.slot 7)) id).report.tags[(1 : Fin 2)] = .busy (.slot 7) ∧
    (∀ owed ∈ [true, false],
      let s := reportTag (.busy .header) (fun r => { r with advanceOwed := owed })
      s.report.tags[(1 : Fin 2)] = .busy .header ∧ s.report.advanceOwed = owed) := by decide

theorem witness_FailedReportWriteHalts :
    (reportTag (.busy .header) id).report.tags[(1 : Fin 2)] = .busy .header ∧ LinkStatus.memfault ≠ .ok ∧
    (let s := reportTag (.busy (.slot 7)) (fun r => { r with inFlight := some { subject := 2, captured := 255 } })
     s.report.tags[(1 : Fin 2)] = .busy (.slot 7) ∧ s.report.inFlight = some { subject := 2, captured := 255 }) ∧
    (reportTag (.quarantined (.slot 7)) id).report.tags[(1 : Fin 2)] = .quarantined (.slot 7) ∧
    (reportTag .free id).report.tags[(1 : Fin 2)] = .free := by decide

/-- READY with the ring of 8 holding n records and the subjects as given. -/
def ready (n : BitVec 16) (subjects : List Nat) (f : ReportState → ReportState) : State :=
  let s := reporting (fun r =>
    f { r with channel := .ready, tags := #v[.free, .free], producer := n, consumer := 0 })
  { s with measure := { s.measure with subjects := subjects } }

/-- A header due; a record due with one slot left, for an image and for the manifest; the ring full with a
dirty header and without. -/
theorem witness_ReadyChoosesTheNextWrite :
    (ready 8 [2] id).report.channel = .ready ∧
    (ready 8 [2] id).report.area = some { base := 0x101000, slots := 8, nextRecord := 1 } ∧
    (ready 8 [] (fun r => { r with headerFirst := true })).report.headerFirst = true ∧
    (ready 7 [2] (fun r => { r with advanceOwed := true })).report.advanceOwed = true ∧
    (ready 7 [2] id).report.fill < 8 ∧ ((ready 7 [2] id).measure.image? 2).isSome = true ∧
    (ready 7 [0] id).measure.subjects = 0 :: [] ∧ (ready 7 [0] id).manifest.record.isSome = true ∧
    ¬ (ready 8 [2] id).report.fill < 8 ∧ (ready 8 [2] id).report.advanceOwed = false ∧
    (ready 8 [2] id).report.headerFirst = false ∧ (ready 8 [2] id).report.headerDirty = false ∧
    (ready 8 [2] (fun r => { r with headerDirty := true })).report.headerDirty = true := by
  exact ⟨by decide, by decide, by decide, by decide, by decide, by decide, by decide, by decide, by decide,
    by decide, by decide, by decide, by decide⟩

/-- The writes that the target of a quarantined tag, or the want of a FREE tag, holds back. -/
theorem witness_ReadyChoosesTheNextWrite_tags :
    let s (tags : Vector ReportTag 2) : State := ready 7 [2] (fun r => { r with tags := tags })
    (s #v[.free, .free]).report.tags[(0 : Fin 2)] = .free ∧ (∀ t', t' < (0 : Fin 2) →
      (s #v[.free, .free]).report.tags[t'] ≠ .free) ∧
    (s #v[.quarantined (.slot 7), .free]).report.tags[(0 : Fin 2)] = .quarantined (.slot 7) ∧
    (s #v[.quarantined .header, .free]).report.tags[(0 : Fin 2)] = .quarantined .header ∧
    (s #v[.quarantined .header, .free]).report.tags[(1 : Fin 2)] = .free ∧
    (∀ t : Fin 2, (s #v[.quarantined .header, .quarantined (.slot 3)]).report.tags[t] ≠ .free) := by
  decide

/-- An event that ends with the channel READY and a record due, with a header due, and in another state. -/
theorem witness_ReadyChoosesTheNextWrite_settled :
    (ready 7 [2] id).settle.report.channel = .writingRecord ∧ (ready 7 [2] id).settle.measure.subjects = [] ∧
    (ready 7 [2] id).settle.link.own.length = 1 ∧
    (ready 7 [2] (fun r => { r with headerFirst := true })).settle.report.channel = .writingHeader ∧
    (reporting (fun r => { r with channel := .halted })).report.channel ≠ .ready := by decide

theorem witness_ImageRecordLayout :
    let g := { image (declared 0 1 0x40 none) (.verified 7) with transitions := 255, cursor := 2 ^ 32 - 16 }
    let record : ManifestRecord :=
      { slot := .alternate, failedAttempts := 2, lastReason := some .overlap, digest := 7, lengthBytes := 4096 }
    1 ≤ 31 ∧ 31 ≤ 31 ∧ g.transitions ≤ 255 ∧ g.cursor < 2 ^ 32 ∧ record.failedAttempts ≤ 255 ∧
    record.lengthBytes < 2 ^ 32 := by decide

/-- MANIFEST_LOADING with a length and a buffer. -/
def loading (length : Option Nat) (buffer : List (Nat × Beat)) : State :=
  let s := inPhase .manifestLoading
  { s with manifest := { s.manifest with length := length, buffer := buffer } }

/-- Length 1 known: the first offset beyond it and the last within; a beat present; and header beats that
bring the lengths 0, 1, 64 and 65. -/
theorem witness_WindowBeatHandled :
    let s := loading (some 1) [(0, 8)]
    s.manifest.phase = .manifestLoading ∧ s.manifest.length = some 1 ∧ 64 * 1 ≤ 64 ∧ ¬ 64 * 1 ≤ 48 ∧
    (0, 8) ∈ s.manifest.buffer ∧ (∀ x ∈ s.manifest.buffer, x.1 ≠ 48) ∧
    (loading none []).manifest.phase = .manifestLoading ∧ (loading none []).manifest.buffer = [] ∧
    (0x7FFF : Strobes) ≠ 0 ∧ (0x7FFF : Strobes) ≠ 0xFFFF ∧
    [0, 1, 64, 65].map (fun n => ((BitVec.ofNat 128 (n * 2 ^ 32)).extractLsb' 32 16).toNat) = [0, 1, 64, 65] := by
  decide

/-- The second and the third failed attempt, engine 0 waiting, at work and not the manifest's. -/
theorem witness_FailedAttempt :
    (∀ n ∈ [1, 2], (sensingAt n).manifest.attempts = n ∧ (sensingAt n).manifest.attempts ≤ 2) ∧
    (absorbing 0 [] [] (fun e => { e with state := .holding })).measure.engines[(0 : EngineId)].manifest = true ∧
    (absorbing 0 [] [] (fun e => { e with state := .holding })).measure.engines[(0 : EngineId)].state = .holding ∧
    (absorbing 0 [] [] id).measure.engines[(0 : EngineId)].state ≠ .holding ∧
    sensing.measure.engines[(0 : EngineId)].manifest = false := by decide

/-- The first and the last beat of the window, in both phases. -/
theorem witness_WindowWriteAccepted :
    (inPhase .manifestLoading).manifest.phase = .manifestLoading ∧ (inPhase .rejected).manifest.phase = .rejected ∧
    (inPhase .rejected).link.occupied < 16 ∧ 31 ∉ (inPhase .rejected).manifest.windowWrites ∧
    malformed (inPhase .rejected).link .write 31 0x100000 (fullBeats 1).length = false ∧
    malformed (inPhase .rejected).link .write 31 0x100FF0 (fullBeats 1).length = false ∧
    (inPhase .rejected).manifest.windowBase.toNat ≤ (0x100000 : Addr).toNat ∧
    (0x100FF0 : Addr).toNat < (inPhase .rejected).manifest.windowBase.toNat + 4096 := by decide

/-- A write of three beats: the attempt fails at the second, and the third is not handled. -/
theorem witness_WindowWriteAccepted_beats :
    (inPhase .rejected).manifest.phase ≠ .manifestLoading ∧
    (let t := (inPhase .manifestLoading).windowBeats 16 [fullBeat 1, { data := 2, strobes := 0x7FFF }, fullBeat 3]
     t.manifest.phase = .rejected ∧ t.manifest.lastReason = some .partialBeat ∧ t.manifest.buffer = []) ∧
    ((inPhase .manifestLoading).windowBeats 16 [fullBeat 1, fullBeat 3]).manifest.buffer = [(16, 1), (32, 3)] := by
  decide

/-- The last beat present and not present; all absorbed with and without a window write in flight; engine 0
FREE and waiting; and a beat step with and without the discard mark. -/
theorem witness_ManifestAbsorbedInOrder :
    let held (o : Nat) (present : List (Nat × Beat)) (writes : List Nat) : State :=
      absorbing o present writes (fun e => { e with state := .holding })
    (∀ o ∈ [48, 64], (held o [(48, 1)] [5]).manifest.phase = .manifestLoading ∧
      (held o [(48, 1)] [5]).manifest.length = some 1 ∧
      (held o [(48, 1)] [5]).measure.engines[(0 : EngineId)].state = .holding ∧
      (held o [(48, 1)] [5]).measure.engines[(0 : EngineId)].manifest = true ∧
      (held o [(48, 1)] [5]).measure.engines[(0 : EngineId)].context = some freshContext ∧
      (held o [(48, 1)] [5]).manifest.absorbOffset = o) ∧
    bufferAt (held 48 [(48, 1)] []).manifest.buffer 48 = some 1 ∧
    bufferAt (held 48 [] []).manifest.buffer 48 = none ∧
    (held 64 [] []).manifest.windowWrites = [] ∧ (held 64 [] [5]).manifest.windowWrites ≠ [] ∧
    (loading (some 1) [(0, 8)]).measure.engines[(0 : EngineId)].state = .free ∧
    (∀ d ∈ [true, false],
      let s := absorbing 48 [] [] (fun e => { e with discard := d })
      s.measure.engines[(0 : EngineId)].manifest = true ∧
      s.measure.engines[(0 : EngineId)].state = .absorbing .beat ∧
      s.measure.engines[(0 : EngineId)].discard = d) := by decide

/-- A manifest that both slots' digests accept, that ALTERNATE's accepts and that neither does; and an event
that does not reach the check. -/
theorem witness_AnchorCheckDecides :
    (checking 0).manifest.phase = .manifestCheck ∧
    (checking 0).measure.engines[(0 : EngineId)].context = some freshContext ∧
    (checking 0).manifest.anchors = some { primary := .revoked, alternate := some 0 } ∧
    (checking (finalResult freshContext)).manifest.anchors =
      some { primary := .revoked, alternate := some (finalResult freshContext) } ∧
    some (0 : Digest) ≠ some (finalResult freshContext) ∧
    (checking 0).manifest.windowWrites = [] ∧ (checking 0).manifest.revocation = none ∧
    ∃ t, exec (.vprogSupplyChange true) (checking 0) = .next t := by
  exact ⟨by decide, by decide, by decide, by decide, by decide, by decide, by decide, _, rfl⟩

theorem checking_engine (e : EngineId) : (checking 0).measure.engines[e] =
    if e = 0 then { idleEngine with state := .finalizing, manifest := true, context := some freshContext }
    else idleEngine := by
  revert e; decide

/-- The check in progress: engine 0 finalises for the manifest, and no image and no other work is there. -/
theorem witness_AnchorCheckDecides_engine :
    (checking 0).tablesOk ∧ (checking 0).measure.poolOk ∧
    (checking 0).measure.engines[(0 : EngineId)].manifest = true ∧
    (checking 0).measure.engines[(0 : EngineId)].state = .finalizing := by
  refine ⟨fun _ => ⟨rfl, rfl, rfl, rfl, rfl, rfl, rfl, rfl, rfl⟩, ?_, rfl, rfl⟩
  have hb : ∀ e : EngineId, (checking 0).measure.engines[e].bound = none ∧
      (checking 0).measure.engines[e].claimant = none ∧ (checking 0).measure.engines[e].reservation = none := by
    decide
  exact {
    engines := fun e => by
      rw [checking_engine]; split <;> exact ⟨by decide, by decide, by decide, by decide, fun h => absurd rfl h⟩
    single := fun e e' i h => by rw [(hb e).1] at h; exact nomatch h
    bound := fun e i h => by rw [(hb e).1] at h; exact nomatch h
    handOff := fun i g hg => by
      match i with
      | 0 => exact nomatch hg
      | n + 1 => exact nomatch hg
    pins := fun e p h => by rw [(hb e).2.2] at h; exact nomatch h
    waiting := nofun
    claims := fun e p h => by rw [(hb e).2.1] at h; exact nomatch h
    requests := nofun
    once := .nil
    attached := fun k i e n ⟨a, b, h⟩ => by
      have : ∀ k : Fin 8, (checking 0).measure.refillTags[k] = .free := by decide
      rw [this] at h; exact nomatch h }

/-- A manifest of 192 bytes: image 1 pinned to engine 3 with the one segment, RLS0 its release line. -/
def whole (flags : Nat) : List (Nat × Beat) :=
  [(0, BitVec.ofNat 128 (1 + 2 ^ 8 + 2 ^ 16 + flags * 2 ^ 24 + 3 * 2 ^ 32 + 0x200000 * 2 ^ 64)),
   (16, BitVec.ofNat 128 (8 + 2 * 2 ^ 32)), (32, 0), (48, 0),
   (64, BitVec.ofNat 128 (3 * 2 ^ 16 + 2 ^ 32)), (80, 0), (96, 7), (112, 0),
   (128, BitVec.ofNat 128 (0x600000 + 0x40 * 2 ^ 64)), (144, 0), (160, 0), (176, 0)]

/-- PARSING of it. -/
def parsingWhole (flags : Nat) (slot : AnchorSlot) (primary : SlotReading) : State :=
  let s := parsing 0 0 slot primary
  { s with manifest := { s.manifest with buffer := whole flags, length := some 3, absorbOffset := 192 } }

/-- What it holds. -/
def contents (flags : Nat) : Contents :=
  { header := { version := 1, imageCount := 1, segmentCount := 1, revokePrimary := decide (flags = 1),
                reportBase := 0x200000, recordCount := 8, set0 := 2, set1 := 0 },
    images := [{ policy := plain, predecessor := 0, pin := 3, first := 0, count := 1, expected := 7 }],
    segments := [{ base := 0x600000, length := 0x40 }] }

theorem parse_accepts {b : List (Nat × Beat)} {n : Nat} {base : Addr} {c : Contents}
    (hn : checkCounts (readHeader b) n = none) (hr : readContents b = c) (hc : checkContents c base = none) :
    parseManifest b n base = .ok c := by
  unfold parseManifest
  rw [hn, hr, hc]

theorem whole_accepted (flags : Nat) (h : flags = 0 ∨ flags = 1) :
    parseManifest (whole flags) (64 * 3) 0x100000 = .ok (contents flags) := by
  obtain rfl | rfl := h
  · exact parse_accepts (by decide) (by decide) (by decide)
  · exact parse_accepts (by decide) (by decide) (by decide)

theorem witness_ParsingDecides :
    let s := parsingWhole 0 .primary (.programmed 1)
    s.manifest.phase = .parsing ∧ s.manifest.checked = some (.primary, 3) ∧
    s.manifest.anchors = some { primary := .programmed 1, alternate := some 2 } ∧ s.manifest.length = some 3 ∧
    s.manifest.buffer = whole 0 ∧ s.manifest.windowBase = 0x100000 ∧
    parseManifest (whole 0) (64 * 3) 0x100000 = .ok (contents 0) ∧
    (contents 0).images.map (fun f => (f.first, f.count, f.pin)) = [(0, 1, 3)] ∧
    (contents 0).segments = [{ base := 0x600000, length := 0x40 }] ∧
    checkCounts (readHeader [(0, 0), (16, 0)]) 64 = some .badVersion := by
  exact ⟨by decide, by decide, by decide, by decide, by decide, by decide, whole_accepted 0 (.inl rfl),
    by decide, by decide, by decide⟩

/-- The counts at 31 and 32 images, 64 and 65 segments, and a length one unit too short. -/
theorem witness_ParseChecks :
    let counts (version images segments : Nat) : List (Nat × Beat) :=
      [(0, BitVec.ofNat 128 (version + images * 2 ^ 8 + segments * 2 ^ 16))]
    ([counts 2 0 0, counts 1 31 64, counts 1 32 0, counts 1 0 65].map (fun b =>
      ((bufferByte b 0).toNat, (bufferByte b 1).toNat, (bufferByte b 2).toNat)) =
        [(2, 0, 0), (1, 31, 64), (1, 32, 0), (1, 0, 65)]) ∧
    64 * 47 < 64 + 64 * 31 + 16 * 64 ∧
    parseManifest (whole 1) (64 * 3) 0x100000 = .ok (contents 1) :=
  ⟨by decide, by decide, whole_accepted 1 (.inr rfl)⟩

/-- A manifest of one image and one segment with one field changed: the checks 5 to 11 fail one by one. -/
theorem witness_ParseChecks_reasons :
    let first (reportBase : Nat) : Nat × Beat :=
      (0, BitVec.ofNat 128 (1 + 2 ^ 8 + 2 ^ 16 + 3 * 2 ^ 32 + reportBase * 2 ^ 64))
    let sets (set0 : Nat) : Nat × Beat := (16, BitVec.ofNat 128 (8 + set0 * 2 ^ 32))
    let record (predecessor pin index : Nat) : Nat × Beat :=
      (64, BitVec.ofNat 128 (predecessor * 2 ^ 8 + pin * 2 ^ 16 + index * 2 ^ 24 + 2 ^ 32))
    let segment (base length : Nat) : Nat × Beat := (128, BitVec.ofNat 128 (base + length * 2 ^ 64))
    ∀ x ∈ [([first 0x200000, sets 2, record 0 3 1, segment 0x600000 0x40], RejectReason.tooManySegments),
        ([first 0x200000, sets 2, record 0 3 0, segment 0x600000 0x48], .badSegment),
        ([first 0x200000, sets 2, record 0 3 0, segment 0xFFFFFFFFF0 0x20], .badSegment),
        ([first 0x200020, sets 2, record 0 3 0, segment 0x600000 0x40], .badReportArea),
        ([first 0x200000, sets 2, record 0 3 0, segment 0x200230 0x20], .overlap),
        ([first 0x200000, sets 2, record 1 3 0, segment 0x600000 0x40], .badPredecessor),
        ([first 0x200000, sets 2, record 0 4 0, segment 0x600000 0x40], .badPin),
        ([first 0x200000, sets 4, record 0 3 0, segment 0x600000 0x40], .badReleaseSet)],
      checkCounts (readHeader x.1) (64 * 3) = none ∧ checkContents (readContents x.1) 0x100000 = some x.2 := by
  decide

/-- Every case of the decision, with the supply present and absent. -/
theorem witness_RevocationDecidedAtArmed :
    (∀ x ∈ [(0, AnchorSlot.primary, SlotReading.programmed 1), (1, .primary, .programmed 1),
        (1, .alternate, .blank), (1, .alternate, .revoked), (1, .alternate, .programmed 1)],
      let s := parsingWhole x.1 x.2.1 x.2.2
      s.manifest.phase = .parsing ∧ s.manifest.checked = some (x.2.1, 3) ∧
      s.manifest.anchors = some { primary := x.2.2, alternate := some 2 } ∧ s.manifest.length = some 3 ∧
      s.manifest.buffer = whole x.1 ∧ s.manifest.windowBase = 0x100000 ∧
      (bufferByte s.manifest.buffer 3).getLsbD 0 = decide (x.1 = 1)) ∧
    (∀ flags, flags = 0 ∨ flags = 1 → parseManifest (whole flags) (64 * 3) 0x100000 = .ok (contents flags)) ∧
    (∀ s : State, ∃ t, exec .parsingDone s = .next t) := by
  refine ⟨by decide, whole_accepted, fun s => ?_⟩
  simp only [exec, execParsingDone]
  repeat' split
  all_goals exact ⟨_, rfl⟩

theorem witness_BurnEnds :
    (burning true).manifest.revocation = some .inProgress ∧ (burning true).vprog = true ∧
    (burning false).manifest.revocation = some .inProgress ∧ (burning false).vprog = false ∧
    (burning true).fuses = .read (.whole 1) none ∧
    (layout .declared .declared).manifest.revocation ≠ some .inProgress ∧
    (∀ p ∈ [PrimaryFuse.blank, .whole 1, .uncertain 1, .revoked],
      let s := { sensing with fuses := .read p (some 2) }
      s.manifest.phase = .sensing ∧ s.resetLine = .inactive ∧ s.fuses = .read p (some 2)) ∧
    ∃ t, exec (.sensingDone .revoked none) sensing = .next t := by
  exact ⟨by decide, by decide, by decide, by decide, by decide, by decide, by decide, _, rfl⟩

theorem witness_BurnEnds_reset :
    (burning false).manifest.revocation = some .inProgress ∧ (burning false).fuses = .read (.whole 1) none ∧
    (after .coldReset (burning false)).fuses = .read (.uncertain 1) none ∧
    (after .warmReset (burning true)).fuses = .read (.uncertain 1) none ∧
    (after .warmReset { burning true with fuses := .read .revoked none }).fuses = .read .revoked none ∧
    (∃ t, exec .coldReset (burning false) = .next t) ∧ ∃ t, exec .warmReset (burning true) = .next t := by
  exact ⟨by decide, by decide, by decide, by decide, by decide, ⟨_, rfl⟩, _, rfl⟩

/-! ### A state that meets every invariant, and steps from it -/

/-- ARMED with image 1 in FILLING, a write in flight into it on tag 31, its first run STAGED and its second
DEFERRED, and RLS1, whose set is empty, asserted; the write's response waits in the queue. -/
def kept : State :=
  let s := inFlight .filling (fun g => { g with runs :=
    [{ start := 16, body := .staged [1, 2] }, { start := 48, body := .deferred 300 ⟨1, 0⟩ false }] })
  { s with lines := { s.lines with rls1 := true }, pending := [.fwdWriteResponse 31 .ok],
           measure := { s.measure with subjects := [2, 1], waitList := [2] } }

theorem kept_attemptsOk : kept.manifest.attemptsOk := by
  refine ⟨Nat.zero_le 3, ?_, ?_⟩ <;>
    simp [kept, inFlight, on, layout, inPhase, sensing, State.reset, ManifestState.reset]

theorem witness_PhaseChanges : kept.manifest.attemptsOk ∧
    (∃ t, exec (.fwdWriteResponse 31 .ok) kept = .next t) ∧ ∃ t, step kept = .next t :=
  ⟨kept_attemptsOk, ⟨_, rfl⟩, _, rfl⟩

/-- A header beat 1 that carries REOPEN of image 1 with sequence 5. -/
def reopening : WriteBeat := { data := BitVec.ofNat 128 (5 * 2 ^ 16 + 1 * 2 ^ 24 + 1 * 2 ^ 32), strobes := 0x001C }

theorem witness_ImagesMoveForwardOrReopen :
    let s := layout (.broken .partialBeat) (.broken .predecessorFailed)
    s.measure.predecessorsLower ∧ s.manifest.phase = .armed ∧ s.manifest.windowWrites = [] ∧
    (s.measure.image? 1).isSome = true ∧
    (∀ c ∈ [Instr.reopen 5 1, .hostWriteAccept 0 0x101010 [reopening]],
      (∃ t, exec c s = .next t) ∧ (after c s).manifest.phase = .armed ∧ stateOf (after c s) 1 = some .declared) ∧
    classify s (0x101010 : Addr).toNat = .header 1 ∧ reopening.data.extractLsb' 24 8 = 1 ∧
    reopening.data.extractLsb' 16 8 = 5 ∧ reopening.data.extractLsb' 32 8 = 1 ∧ 5 ≠ s.report.lastSeq ∧
    commandResult s (some .reopen) (1 : BitVec 8).toNat = .done ∧ 2 ∈ s.measure.dependents (1 : BitVec 8).toNat := by
  refine ⟨layout_predecessorsLower _ _, by decide, by decide, by decide, ?_, by decide, by decide, by decide,
    by decide, by decide, by decide, by decide⟩
  intro c hc
  simp at hc
  obtain rfl | rfl := hc
  · exact ⟨⟨_, rfl⟩, by decide, by decide⟩
  · exact ⟨⟨_, rfl⟩, by decide, by decide⟩

theorem kept_runTableOk : kept.measure.runTableOk := by
  refine ⟨?_, by decide, by decide⟩
  intro g hg
  have h : g.runs = [] ∨ g.runs =
      [{ start := 16, body := .staged [1, 2] }, { start := 48, body := .deferred 300 ⟨1, 0⟩ false }] := by
    simp [kept, inFlight, on, layout, MeasureState.modImage] at hg
    obtain rfl | rfl := hg
    · exact .inr rfl
    · exact .inl rfl
  obtain h | h := h <;> rw [h] <;>
    simp [runsOk, runBefore, RunBody.sizeOk, Run.stop, RunBody.beatCount, RunBody.isDeferred]

/-- ARMED with engine 0 HOLDING for image 1, whose runs begin beyond its cursor. -/
def calm : State :=
  engine { kept with measure := { kept.measure with waitList := [] } } 0
    (fun e => { e with state := .holding, bound := some 1, context := some freshContext })

theorem calm_engine (e : EngineId) : calm.measure.engines[e] =
    if e = 0 then { idleEngine with state := .holding, bound := some 1, context := some freshContext }
    else idleEngine := by
  revert e; decide

theorem calm_poolOk : calm.measure.poolOk where
  engines := fun e => by
    rw [calm_engine]
    split <;> exact ⟨by decide, by decide, by decide, by decide, fun h => absurd rfl h⟩
  single := by
    intro e e' i h h'
    rw [calm_engine] at h h'
    split at h <;> split at h' <;> simp_all [idleEngine]
  bound := by
    intro e i h
    rw [calm_engine] at h ⊢
    split at h
    · obtain rfl : 1 = i := by simpa using h
      rw [if_pos ‹_›]
      exact ⟨_, rfl, rfl, nofun⟩
    · simp [idleEngine] at h
  handOff := by
    intro i g hg _
    obtain ⟨-, rfl⟩ | ⟨-, rfl⟩ := image_cases rfl hg <;> rfl
  pins := by
    intro e p h
    rw [calm_engine] at h
    split at h <;> simp [idleEngine] at h
  waiting := nofun
  claims := by
    intro e p h
    rw [calm_engine] at h
    split at h <;> simp [idleEngine] at h
  requests := nofun
  once := .nil
  attached := by
    intro k i e n ⟨a, b, h⟩
    revert h; revert k
    intro k
    have : ∀ k : Fin 8, calm.measure.refillTags[k] = .free := by decide
    rw [this]; exact nofun

theorem calm_placesOk : calm.measure.placesOk := by
  refine ⟨fun x hx i hi => ?_, fun g hg => ?_⟩
  · have : x ∈ (layout .filling .declared).measure.segments := hx
    simp [layout] at this
    obtain rfl | rfl | rfl := this <;> obtain rfl := Option.some.inj hi <;> exact ⟨_, rfl, by decide⟩
  · have : ∀ g ∈ calm.measure.images, g.cursor + 16 * g.handOff ≤ g.declared.length ∧
        ∀ r ∈ g.runs, g.cursor + 16 * g.handOff ≤ r.start ∧ r.stop ≤ g.declared.length := by decide
    exact this g hg

theorem calm_segmentsCover : calm.measure.segmentsCover := by
  intro i g x hg hx
  obtain ⟨rfl, rfl⟩ | ⟨rfl, rfl⟩ := image_cases rfl hg
  · have hx : x < 0x8F80 := hx
    by_cases h : x < 0x7F80
    · exact ⟨{ base := 0x200000, length := 0x7F80, owner := some 1, imageOffset := 0 }, by
        show segmentOf (layout .filling .declared).measure.segments 1 x = _
        simp [segmentOf, layout, h]⟩
    · refine ⟨{ base := 0x300000, length := 0x1000, owner := some 1, imageOffset := 0x7F80 }, ?_⟩
      show segmentOf (layout .filling .declared).measure.segments 1 x = _
      simp [segmentOf, layout, h]
      omega
  · have hx : x < 0x4000 := hx
    refine ⟨{ base := 0x207F80, length := 0x4000, owner := some 2, imageOffset := 0 }, ?_⟩
    show segmentOf (layout .filling .declared).measure.segments 2 x = _
    simp [segmentOf, layout]
    omega

theorem calm_not_ready (i : Nat) : calm.measure.ready i = false := by
  match i with
  | 0 => decide
  | 1 => decide
  | 2 => decide
  | n + 3 => rfl

theorem calm_poolSettled : calm.measure.poolSettled where
  waiting := fun i => ⟨nofun, fun h => by simp [calm_not_ready] at h⟩
  arbiter := fun h => absurd rfl h
  claims := by
    intro e p h
    rw [calm_engine] at h
    split at h <;> simp [idleEngine] at h
  holding := fun _ i _ _ => calm_not_ready i
  pinned := by
    intro e p h
    rw [calm_engine] at h
    split at h <;> simp [idleEngine] at h
  awaiting := by
    intro e i h
    rw [calm_engine] at h
    split at h <;> simp [idleEngine] at h
  served := fun h => absurd rfl h

theorem witness_RunTableKept : kept.measure.runTableOk ∧ (∃ t, step kept = .next t) ∧
    calm.measure.runTableOk ∧ calm.measure.placesOk ∧ calm.measure.poolOk ∧ calm.measure.waitList.Nodup ∧
    calm.tablesOk ∧ ∃ t, step calm = .next t :=
  ⟨kept_runTableOk, ⟨_, rfl⟩, kept_runTableOk, calm_placesOk, calm_poolOk, .nil, fun h => absurd rfl h, _, rfl⟩

/-- Length 64, with the last beat present. -/
theorem witness_BufferKept :
    let s := { loading (some 64) [(0, 64), (4080, 1)] with pending := [.vprogSupplyChange true] }
    s.manifest.bufferOk ∧ ∃ t, step s = .next t := by
  refine ⟨⟨by decide, ?_⟩, _, rfl⟩
  intro n hn
  obtain rfl : 64 = n := by simpa [loading] using hn
  exact ⟨by decide, by decide, by decide⟩

theorem kept_channelOk : kept.report.channelOk := by
  refine ⟨0, .header, rfl, rfl, fun t' x' h => ?_⟩
  match t' with
  | 0 => rfl
  | 1 => exact absurd h (by simp [kept, inFlight, on, layout])

/-- In ARMED, and in REJECTED, where the tables must be empty. -/
theorem witness_TablesInArmedAlone :
    kept.tablesOk ∧ kept.manifest.attemptsOk ∧ kept.report.channelOk ∧
    (inPhase .rejected).tablesOk ∧ (∃ t, step kept = .next t) :=
  ⟨fun h => absurd rfl h, kept_attemptsOk, kept_channelOk,
    fun _ => ⟨rfl, rfl, rfl, rfl, rfl, rfl, rfl, rfl, rfl⟩, _, rfl⟩

theorem witness_TablesInArmedAlone_tables :
    kept.measure.predecessorsLower ∧ calm.measure.segmentsCover ∧ (∃ t, step kept = .next t) ∧
      ∃ t, step calm = .next t :=
  ⟨inFlight_predecessorsLower .filling (fun g => { g with runs :=
      [{ start := 16, body := .staged [1, 2] }, { start := 48, body := .deferred 300 ⟨1, 0⟩ false }] }) fun _ => rfl,
    calm_segmentsCover, ⟨_, rfl⟩, _, rfl⟩

/-- Tag 31 on the memory port, tag 0 answered and not delivered, tag 1 refused and not delivered. -/
theorem witness_HostTagsKept :
    let s := linked (fun l => { l with
      hostReads := [31, 0, 1], memReads := [31], relay := [{ read1 .ok with tag := 0 }],
      refusals := [{ read1 .refused with tag := 1 }, { read1 .malformed with tag := 31 }],
      forward := List.replicate 14 (.read 31 0 1) })
    s.link.tagsOk ∧ s.entriesOk ∧ s.link.inboundOk ∧
    kept.entriesOk ∧ kept.measure.entries ≠ [] ∧
    ∃ t, step { s with pending := [.hostResponseDelivery .ready] } = .next t := by
  refine ⟨⟨by decide, by decide, by decide, by decide, ?_, ?_⟩, rfl, Nat.le_refl 16, rfl, by decide, _, rfl⟩ <;>
    decide

theorem kept_lines : kept.faultOk ∧ kept.releaseOk := by
  refine ⟨⟨fun h => absurd h (by simp [kept, inFlight, on, layout, inPhase, sensing, State.reset, LineState.reset]),
    ?_⟩, fun h => absurd h nofun, fun _ h => absurd rfl h, fun _ => ⟨6, 0, rfl, ?_, ?_⟩⟩
  · rintro (⟨i, g, hg, hf⟩ | h | h | h | h)
    · match i with
      | 0 => simp [MeasureState.image?] at hg
      | 1 => obtain rfl := Option.some.inj hg; exact absurd hf (by decide)
      | 2 => obtain rfl := Option.some.inj hg; exact absurd hf (by decide)
      | n + 3 => simp [kept, inFlight, on, layout, MeasureState.modImage, MeasureState.image?] at hg
    all_goals simp [kept, inFlight, on, layout, inPhase] at h
  · refine ⟨fun h => absurd h (by simp [kept, inFlight, on, layout, inPhase, sensing, State.reset, LineState.reset]),
      fun h => absurd (h 1 (by decide) (by decide)) (by simp [kept, inFlight, on, layout, inPhase, sensing, State.reset, MeasureState.reset, MeasureState.modImage])⟩
  · refine ⟨fun _ i hi h => ?_, fun _ => rfl⟩
    simp at h

theorem witness_LinesFollowTheState :
    kept.manifest.attemptsOk ∧ kept.faultOk ∧ kept.releaseOk ∧ kept.lines.rls1 = true ∧
    (∃ t, step kept = .next t) ∧
    ∃ t, exec (.vprogSupplyChange true) kept = .next t :=
  ⟨kept_attemptsOk, kept_lines.1, kept_lines.2, rfl, ⟨_, rfl⟩, _, rfl⟩

/-- A ring of 8 with a record being written into its last free slot. -/
theorem witness_ReportRingKept :
    let s := reporting (fun r => { r with
      channel := .writingRecord, tags := #v[.busy (.slot 7), .free],
      producer := 7, area := some { base := 0x101000, slots := 8, nextRecord := 8 } })
    s.report.channelOk ∧ s.report.ringOk ∧
    ∃ t, step { s with pending := [.vprogSupplyChange true] } = .next t := by
  refine ⟨⟨⟨0, .slot 7, rfl, ⟨7, rfl⟩, fun t' x' h => ?_⟩, rfl⟩, fun a ha => ?_, _, rfl⟩
  · match t' with
    | 0 => rfl
    | 1 => exact absurd h (by simp [reporting])
  · obtain rfl : ({ base := 0x101000, slots := 8, nextRecord := 8 } : ReportArea) = a := by
      simpa [reporting] using ha
    exact ⟨by decide, by decide, by decide, by decide⟩

/-- The head-wait count at 4 behind a forwarded queue. -/
theorem witness_QueuesKept :
    kept.measure.subjects.Nodup ∧ kept.measure.waitList.Nodup ∧
    (∃ t, step kept = .next t) ∧
    let s := linked (fun l => { l with forward := [.read 1 0 1], own := [.read 32 0 1], headWait := 4 })
    s.link.headWaitOk ∧ ∃ t, step { s with pending := [.memoryTakesRequest .taken] } = .next t := by
  exact ⟨by decide, by decide, ⟨_, rfl⟩, ⟨by decide, by decide⟩, _, rfl⟩

theorem witness_QueuesKept_settled :
    calm.measure.runTableOk ∧ calm.measure.placesOk ∧ calm.measure.poolOk ∧ calm.measure.waitList.Nodup ∧
    calm.tablesOk ∧ calm.measure.segmentsCover ∧ calm.measure.poolSettled ∧ ∃ t, step calm = .next t :=
  ⟨kept_runTableOk, calm_placesOk, calm_poolOk, .nil, fun h => absurd rfl h, calm_segmentsCover,
    calm_poolSettled, _, rfl⟩

end Sys2Proof.Tests
end

/-! Readiness of an image (R41): what each of its conditions says. -/

namespace Sys2Proof.Proofs
open Sys2Proof.Machine

/-- The states that make dependents eligible (R126). -/
theorem goodResult_isSome_iff (st : ImageState) :
    st.goodResult.isSome = true ↔ (∃ d, st = .verified d) ∨ ∃ d, st = .recorded d := by
  cases st <;> simp [ImageState.goodResult]

/-- The runs an engine can take beats of. -/
theorem takeable_iff (b : RunBody) :
    b.takeable = true ↔ (∃ beats, b = .staged beats) ∨ ∃ n q, b = .deferred n q true := by
  cases b <;> simp [RunBody.takeable]

theorem headReady_iff (g : Image) :
    headReady g = true ↔
      (∃ r runs, g.runs = r :: runs ∧ r.start = g.cursor ∧ r.body.takeable = true) ∧ g.handOff = 0 := by
  unfold headReady
  cases hruns : g.runs with
  | nil => simp
  | cons r runs =>
    simp only [Bool.and_eq_true, beq_iff_eq, List.cons.injEq]
    constructor
    · rintro ⟨⟨hstart, hoff⟩, htake⟩
      exact ⟨⟨r, runs, ⟨rfl, rfl⟩, hstart, htake⟩, hoff⟩
    · rintro ⟨⟨r', runs', ⟨rfl, rfl⟩, hstart, htake⟩, hoff⟩
      exact ⟨⟨hstart, hoff⟩, htake⟩

theorem eligible_iff (m : MeasureState) (g : Image) :
    m.eligible g = true ↔ g.declared.predecessor = none ∨
      ∃ p h, g.declared.predecessor = some p ∧ m.image? p = some h ∧ h.state.goodResult.isSome = true := by
  unfold MeasureState.eligible
  cases g.declared.predecessor with
  | none => simp
  | some p => cases hp : m.image? p <;> simp [hp]

theorem readyImage_iff (m : MeasureState) (g : Image) :
    m.readyImage g = true ↔ g.state = .filling ∧ headReady g = true ∧ m.eligible g = true := by
  simp only [MeasureState.readyImage, Bool.and_eq_true, beq_iff_eq, and_assoc]

theorem ready_iff (m : MeasureState) (i : Nat) :
    m.ready i = true ↔ ∃ g, m.image? i = some g ∧ m.readyImage g = true := by
  rw [MeasureState.ready, Option.any_eq_true]

/-- Settles O25: readiness is the conjunction of its conditions, each read by its own lemma. -/
theorem readyMeans : Obligations.ReadyMeans := by
  intro m i
  simp only [ready_iff, readyImage_iff, headReady_iff, eligible_iff, takeable_iff,
    goodResult_isSome_iff, and_assoc]

end Sys2Proof.Proofs

/-! The form check (R87): its conditions, its answer at the host port, and the manifest window a well-formed
request cannot straddle. -/

namespace Sys2Proof.Proofs
open Sys2Proof.Machine

/-! ### Which addresses the window holds (R16, R102) -/

theorem windowOffset_eq_some_iff (base : Addr) (a d : Nat) :
    windowOffset base a = some d ↔ a = base.toNat + d ∧ d < 4096 := by
  unfold windowOffset
  rw [Option.ite_none_right_eq_some, Option.some.injEq, Config.windowBytes]
  omega

theorem reportBeat_ne_window (area : ReportArea) (a d : Nat) : reportBeat area a ≠ some (.window d) := by
  unfold reportBeat
  dsimp only
  split
  · split <;> simp
  · simp

theorem imageBeat_ne_window (segments : List Segment) (a d : Nat) :
    imageBeat segments a ≠ some (.window d) := by
  simp [imageBeat, Option.bind_eq_some_iff]

/-- The window is looked up first, and neither of the later look-ups answers it. -/
theorem classify_eq_window_iff (s : State) (a d : Nat) :
    classify s a = .window d ↔ a = s.manifest.windowBase.toNat + d ∧ d < 4096 := by
  rw [← windowOffset_eq_some_iff]
  unfold classify
  cases windowOffset s.manifest.windowBase a with
  | some _ => simp
  | none =>
    cases hreport : s.report.area.bind (reportBeat · a) with
    | some r =>
      obtain ⟨area, -, hr⟩ := Option.bind_eq_some_iff.1 hreport
      have hne : r ≠ .window d := fun h => reportBeat_ne_window area a d (h ▸ hr)
      simpa using hne
    | none =>
      cases himage : imageBeat s.measure.segments a with
      | some r =>
        have hne : r ≠ .window d := fun h => imageBeat_ne_window _ a d (h ▸ himage)
        simpa using hne
      | none => simp

theorem classify_is_window_iff (s : State) (a : Nat) :
    (∃ d, classify s a = .window d) ↔
      s.manifest.windowBase.toNat ≤ a ∧ a < s.manifest.windowBase.toNat + 4096 := by
  simp only [classify_eq_window_iff]
  constructor
  · rintro ⟨d, ha, hd⟩
    omega
  · rintro ⟨hlow, hhigh⟩
    exact ⟨a - s.manifest.windowBase.toNat, by omega, by omega⟩

/-! ### The conditions of the form check (R87) -/

/-- A beat count out of range is a condition of its own, so the page crossing counts for a count in range
alone. -/
theorem malformed_iff (l : LinkState) (kind : LinkKind) (tag : Nat) (addr : Addr) (n : Nat) :
    malformed l kind tag addr n = true ↔
      addr.toNat % 16 ≠ 0 ∨ n = 0 ∨ 16 < n ∨
      (1 ≤ n ∧ n ≤ 16 ∧ addr.toNat / 4096 ≠ (addr.toNat + 16 * n - 1) / 4096) ∨
      31 < tag ∨ tag ∈ hostTable l kind := by
  simp only [malformed, crossesPage, Config.pageBytes, Bool.or_eq_true, bne_iff_ne, beq_iff_eq,
    decide_eq_true_eq, List.contains_iff_mem]
  by_cases hcount : 1 ≤ n ∧ n ≤ 16
  · simp only [hcount.1, hcount.2, true_and, or_assoc]
  · have hbad : n = 0 ∨ 16 < n := by omega
    obtain rfl | hmany := hbad
    · simp only [true_or, or_true]
    · simp only [hmany, true_or, or_true]

/-- A well-formed request stays in one page. -/
theorem page_eq_of_not_malformed {l : LinkState} {kind : LinkKind} {tag n : Nat} {addr : Addr}
    (h : malformed l kind tag addr n = false) {k : Nat} (hk : k < n) :
    (addr.toNat + 16 * k) / 4096 = addr.toNat / 4096 := by
  have hconditions := mt (malformed_iff l kind tag addr n).2 (by simp [h])
  simp only [not_or] at hconditions
  obtain ⟨-, hzero, hmany, hcross, -⟩ := hconditions
  have hends : addr.toNat / 4096 = (addr.toNat + 16 * n - 1) / 4096 := by
    omega
  omega

/-- A page-aligned window is one page, and a well-formed request lies in one page. -/
theorem windowWhole_of_aligned {s : State} (hbase : s.manifest.windowBase.toNat % 4096 = 0) :
    s.windowWhole := by
  intro kind tag n addr hform
  have hsame : ∀ k, k < n → ((∃ d, classify s (addr.toNat + 16 * k) = .window d) ↔
      addr.toNat / 4096 = s.manifest.windowBase.toNat / 4096) := by
    intro k hk
    have hpage := page_eq_of_not_malformed hform hk
    rw [classify_is_window_iff]
    omega
  by_cases hin : addr.toNat / 4096 = s.manifest.windowBase.toNat / 4096
  · exact .inl fun k hk => (hsame k hk).2 hin
  · exact .inr fun k hk d hd => hin ((hsame k hk).1 ⟨d, hd⟩)

/-- The four window bases that the straps can choose (R102). -/
theorem strapped_base_aligned {base : Addr}
    (h : base ∈ [0x0000000000#40, 0x0000100000#40, 0x0040000000#40, 0xFFFFFFF000#40]) :
    base.toNat % 4096 = 0 := by
  simp only [List.mem_cons, List.not_mem_nil, or_false] at h
  obtain rfl | rfl | rfl | rfl := h <;> rfl

/-! ### The answer at the host port (R86, R89) -/

theorem takesRequests_iff (s : State) :
    s.takesRequests = true ↔ s.manifest.phase ≠ .sensing ∧ s.link.occupied < 16 := by
  rw [State.takesRequests, Bool.and_eq_true, bne_iff_ne, decide_eq_true_eq, Config.inboundEntries]

theorem exec_hostReadAccept_of_malformed {s : State} {tag n : Nat} {addr : Addr}
    (htakes : s.takesRequests = true) (hform : malformed s.link .read tag addr n = true) :
    exec (.hostReadAccept tag addr n) s = .next { s with link := s.link.refuse .read tag .malformed } := by
  simp [exec, execHostReadAccept, htakes, hform]

theorem exec_hostWriteAccept_of_malformed {s : State} {tag : Nat} {addr : Addr} {beats : List WriteBeat}
    (htakes : s.takesRequests = true) (hform : malformed s.link .write tag addr beats.length = true) :
    exec (.hostWriteAccept tag addr beats) s =
      .next { s with link := s.link.refuse .write tag .malformed } := by
  simp [exec, execHostWriteAccept, htakes, hform]

/-- Settles O6: the conditions one by one, the single MALFORMED answer of each kind of request, and the
window as one page. -/
theorem formCheckAnswersMalformed : Obligations.FormCheckAnswersMalformed := by
  refine ⟨malformed_iff, ?read, ?write, ?window⟩
  case read =>
    intro s tag n addr hphase hroom hform
    exact exec_hostReadAccept_of_malformed ((takesRequests_iff s).2 ⟨hphase, hroom⟩) hform
  case write =>
    intro s tag addr beats hphase hroom hform
    exact exec_hostWriteAccept_of_malformed ((takesRequests_iff s).2 ⟨hphase, hroom⟩) hform
  case window =>
    intro s hbase
    exact windowWhole_of_aligned (strapped_base_aligned hbase)

end Sys2Proof.Proofs

/-! Sensing: what is read of the anchors, and the phase that it leads to (R103, R104). -/

namespace Sys2Proof.Proofs
open Sys2Proof.Machine Sys2Proof.Laws

/-! ### The phase after sensing (R104) -/

theorem sensedAnchors_unread (primary : SlotReading) (alternate : Option Digest) :
    sensedAnchors .unread primary alternate = { primary := primary, alternate := alternate } := rfl

theorem phaseAfterSensing_of_three (anchors : Anchors) : phaseAfterSensing 3 anchors = .lockout := rfl

theorem phaseAfterSensing_of_blank {attempts : Nat} {anchors : Anchors} (hcount : attempts ≠ 3)
    (hprimary : anchors.primary = .blank) (halternate : anchors.alternate = none) :
    phaseAfterSensing attempts anchors = .unprovisioned := by
  rw [phaseAfterSensing, if_neg hcount, if_pos ⟨hprimary, halternate⟩]

theorem phaseAfterSensing_of_provisioned {attempts : Nat} {anchors : Anchors} (hcount : attempts ≠ 3)
    (hslot : anchors.primary ≠ .blank ∨ anchors.alternate ≠ none) :
    phaseAfterSensing attempts anchors = .manifestLoading := by
  rw [phaseAfterSensing, if_neg hcount, if_neg fun h => hslot.elim (· h.1) (· h.2)]

/-- Sensing is left whatever was read. -/
theorem phaseAfterSensing_ne_sensing (attempts : Nat) (anchors : Anchors) :
    phaseAfterSensing attempts anchors ≠ .sensing := by
  unfold phaseAfterSensing
  split
  · exact nofun
  · split <;> exact nofun

/-- The manifest unit after a sensing that read the anchors. -/
def sensedManifest (u : ManifestState) (anchors : Anchors) : ManifestState :=
  { u.clearLoading with anchors := some anchors, phase := phaseAfterSensing u.attempts anchors }

theorem exec_sensingDone {s : State} (primary : SlotReading) (alternate : Option Digest)
    (hphase : s.manifest.phase = .sensing) (hreset : s.resetLine = .inactive) :
    exec (.sensingDone primary alternate) s = .next (State.settle { s with
      fuses := fusesOf (sensedAnchors s.fuses primary alternate)
      manifest := sensedManifest s.manifest (sensedAnchors s.fuses primary alternate) }) :=
  if_pos ⟨hphase, hreset⟩

/-- After sensing an entry of the inbound queue is all that a request needs (R86, R162). -/
theorem takesRequests_sensed (s : State) (fuses : Fuses) (anchors : Anchors) :
    State.takesRequests { s with fuses := fuses, manifest := sensedManifest s.manifest anchors } = true ↔
      s.link.occupied < 16 := by
  rw [takesRequests_iff]
  exact and_iff_right (phaseAfterSensing_ne_sensing s.manifest.attempts anchors)

/-- Settles O5: the anchors are those that `sensedAnchors` gives, and the phase follows them by cases. -/
theorem sensingChoosesPhase : Obligations.SensingChoosesPhase := by
  intro s primary alternate hphase hreset
  refine ⟨_, _, _, exec_sensingDone primary alternate hphase hreset, rfl, ?unread, ?lockout, ?blank,
    ?provisioned, rfl, rfl, rfl, takesRequests_sensed s _ _⟩
  case unread =>
    intro hunread
    rw [hunread, sensedAnchors_unread]
  case lockout =>
    intro hthree
    rw [sensedManifest, hthree, phaseAfterSensing_of_three]
  case blank => exact phaseAfterSensing_of_blank
  case provisioned =>
    intro hcount hslot
    exact ⟨phaseAfterSensing_of_provisioned hcount hslot, rfl, rfl, rfl, rfl⟩

end Sys2Proof.Proofs

/-! The check of the manifest digest on engine 0 (R112): its outcomes, and what reaches it while it is in
progress. -/

namespace Sys2Proof.Proofs
open Sys2Proof.Machine Sys2Proof.Laws

/-! ### The completion of the check -/

theorem acceptingSlot_of_primary {anchors : Anchors} {digest : Digest}
    (hprimary : anchors.primary = .programmed digest) : acceptingSlot anchors digest = some .primary :=
  if_pos hprimary

theorem acceptingSlot_of_alternate {anchors : Anchors} {digest : Digest}
    (hprimary : anchors.primary ≠ .programmed digest) (halternate : anchors.alternate = some digest) :
    acceptingSlot anchors digest = some .alternate := by
  rw [acceptingSlot, if_neg hprimary, if_pos halternate]

theorem acceptingSlot_of_neither {anchors : Anchors} {digest : Digest}
    (hprimary : anchors.primary ≠ .programmed digest) (halternate : anchors.alternate ≠ some digest) :
    acceptingSlot anchors digest = none := by
  rw [acceptingSlot, if_neg hprimary, if_neg halternate]

section completion
variable {s : State} {anchors : Anchors} {c : Context} (hphase : s.manifest.phase = .manifestCheck)
  (hanchors : s.manifest.anchors = some anchors)
  (hcontext : s.measure.engines[(0 : EngineId)].context = some c)
include hphase hanchors hcontext

theorem exec_manifestCheckDone_of_match {slot : AnchorSlot}
    (hslot : acceptingSlot anchors (finalResult c) = some slot) :
    exec .manifestCheckDone s = .next (State.settle { s with
      manifest := { s.manifest with phase := .parsing, checked := some (slot, finalResult c) }
      measure := s.measure.modEngine 0 Engine.endCheck }) := by
  simp only [exec, execManifestCheckDone, hphase, hanchors, hcontext, hslot]

theorem exec_manifestCheckDone_of_no_match (hslot : acceptingSlot anchors (finalResult c) = none) :
    exec .manifestCheckDone s = .next (State.settle (State.failAttempt
      { s with measure := s.measure.modEngine 0 Engine.endCheck } .noAnchorMatch)) := by
  simp only [exec, execManifestCheckDone, hphase, hanchors, hcontext, hslot]

end completion

/-! ### The pool without images

Outside ARMED there is no image, and then the end of an event gives no engine anything to do. -/

/-- No image gives the pool work: there is none, none has asked for a refill, and none is promised an
engine. -/
structure Workless (m : MeasureState) : Prop where
  images : m.images = []
  requests : m.refillPending = []
  claimants : ∀ e : EngineId, m.engines[e].claimant = none

theorem image?_of_images_nil {m : MeasureState} (h : m.images = []) (i : Nat) : m.image? i = none := by
  rw [MeasureState.image?, h, List.getElem?_nil, ite_self]

theorem ready_of_images_nil {m : MeasureState} (h : m.images = []) (i : Nat) : m.ready i = false := by
  rw [MeasureState.ready, image?_of_images_nil h, Option.any_none]

theorem isMeasuring_of_images_nil {m : MeasureState} (h : m.images = []) (i : Nat) :
    m.isMeasuring i = false := by
  rw [MeasureState.isMeasuring, image?_of_images_nil h, Option.any_none]

theorem indices_of_images_nil {m : MeasureState} (h : m.images = []) : m.indices = [] := by
  rw [MeasureState.indices, h]; rfl

theorem Workless.of_same {m m' : MeasureState} (h : Workless m)
    (hsame : (m'.images, m'.refillPending, m'.engines) = (m.images, m.refillPending, m.engines)) :
    Workless m' := by
  simp only [Prod.mk.injEq] at hsame
  obtain ⟨himages, hrequests, hengines⟩ := hsame
  exact ⟨himages.trans h.images, hrequests.trans h.requests, fun e => by rw [hengines, h.claimants]⟩

/-- Engines are equal when each is. -/
theorem engines_ext {m m' : MeasureState} (h : ∀ e : EngineId, m'.engines[e] = m.engines[e]) :
    m'.engines = m.engines :=
  Vector.ext fun k hk => h ⟨k, hk⟩

theorem Workless.withdrawUnready {m : MeasureState} (h : Workless m) : m.withdrawUnready = m := by
  obtain ⟨-, hrequests, -⟩ := h
  cases m
  subst hrequests
  rfl

theorem Workless.engines_dropUnready {m : MeasureState} (h : Workless m) :
    m.dropUnready.engines = m.engines := by
  refine engines_ext fun e => ?_
  unfold MeasureState.dropUnready
  simp only [engines_mapEngines, h.claimants e, Option.any_none, Bool.false_eq_true, if_false]

theorem waitList_dropUnready_of_images_nil {m : MeasureState} (h : m.images = []) :
    m.dropUnready.waitList = [] :=
  List.filter_eq_nil_iff.2 fun i _ => by
    rw [ready_of_images_nil (m := m.mapEngines _) h]
    exact Bool.false_ne_true

theorem resumeHolding_of_images_nil {m : MeasureState} (h : m.images = []) (e : EngineId) :
    m.resumeHolding e = m := by
  have hready : m.ready = fun _ => false := funext (ready_of_images_nil h)
  simp [MeasureState.resumeHolding, hready]

theorem grantPinned_of_images_nil {m : MeasureState} (h : m.images = []) (e : EngineId) :
    m.grantPinned e = m := by
  unfold MeasureState.grantPinned
  split
  · rw [ready_of_images_nil h, Bool.and_false, Bool.false_and, if_neg Bool.false_ne_true]
  · rfl

theorem joinWaiting_of_images_nil {m : MeasureState} (h : m.images = []) : m.joinWaiting = m := by
  rw [MeasureState.joinWaiting, indices_of_images_nil h]; rfl

theorem Workless.engines_settlePool {m : MeasureState} (h : Workless m) :
    m.settlePool.engines = m.engines := by
  have himages : m.dropUnready.images = [] := h.images
  have hresume : engineIds.foldl MeasureState.resumeHolding m.dropUnready = m.dropUnready :=
    foldl_inv (· = m.dropUnready) _ engineIds
      (fun _ e _ hsame => hsame ▸ resumeHolding_of_images_nil himages e) _ rfl
  have hgrant : engineIds.foldl MeasureState.grantPinned m.dropUnready = m.dropUnready :=
    foldl_inv (· = m.dropUnready) _ engineIds
      (fun _ e _ hsame => hsame ▸ grantPinned_of_images_nil himages e) _ rfl
  have hpool : m.settlePool = m.dropUnready := by
    rw [MeasureState.settlePool, h.withdrawUnready, hresume, hgrant, joinWaiting_of_images_nil himages,
      waitList_dropUnready_of_images_nil h.images]
    rfl
  rw [hpool, h.engines_dropUnready]

theorem engines_serveRefills (m : MeasureState) : m.serveRefills.1.engines = m.engines := by
  obtain ⟨-, hengines, -⟩ := serveFrom_spec m.requestRefills.refillPending m.requestRefills
  exact hengines

theorem engines_chooseReport (man : ManifestState) (m : MeasureState) (r : ReportState) :
    (chooseReport man m r).2.1.engines = m.engines := by
  unfold chooseReport issueRecord
  repeat' split
  all_goals rfl

/-- The end of an event leaves every engine as it is (R50, R51, R56, R63, R72). -/
theorem Workless.engines_settle {s : State} (h : Workless s.measure) :
    s.settle.measure.engines = s.measure.engines :=
  (engines_chooseReport s.manifest _ s.report).trans
    ((engines_serveRefills _).trans h.engines_settlePool)

/-! ### What an event does to a pool without images -/

section noImages
variable {m : MeasureState} (h : m.images = [])
include h

theorem images_modImage_of_images_nil (i : Nat) (f : Image → Image) : (m.modImage i f).images = [] := by
  rw [MeasureState.modImage, h, List.modify_nil, ite_self]

theorem breakImage_of_images_nil (i : Nat) (why : BreakReason) : m.breakImage i why = m :=
  breakImage_of_not_measuring (isMeasuring_of_images_nil h i) why

theorem current_of_images_nil (recorded : List (Nat × BitVec 8)) : m.current recorded = [] := by
  rw [MeasureState.current, indices_of_images_nil h, List.filter_nil]

theorem reportFailed_of_images_nil (r : ReportState) (target : ReportTarget) :
    ((m.reportFailed r target).images, (m.reportFailed r target).refillPending,
      (m.reportFailed r target).engines) = (m.images, m.refillPending, m.engines) := by
  unfold MeasureState.reportFailed MeasureState.returnSubject
  split
  · simp only [images_modImage_of_images_nil h, h, modImage_refillPending, modImage_engines]
  · rfl

/-- Without images a write response only takes its write entry away. -/
theorem writeAnswered_of_images_nil (tag : Nat) (status : LinkStatus) :
    ((m.writeAnswered tag status).images, (m.writeAnswered tag status).refillPending,
      (m.writeAnswered tag status).engines) = (m.images, m.refillPending, m.engines) := by
  have hcurrent : ∀ (entries : List WriteEntry) (recorded : List (Nat × BitVec 8)),
      MeasureState.current { m with entries := entries } recorded = [] :=
    fun entries recorded => current_of_images_nil (m := { m with entries := entries }) h recorded
  unfold MeasureState.writeAnswered
  split
  · rfl
  · simp only [hcurrent, List.foldl_nil, ite_self]
    rw [MeasureState.settleRuns]
    simp only [h, List.map_nil]

end noImages

theorem choose_of_unbound {m : MeasureState} {e : EngineId} (h : m.engines[e].bound = none) :
    m.choose e = m := by
  rw [MeasureState.choose, h]

theorem passOn_of_no_claimant {m : MeasureState} {e : EngineId} (h : m.engines[e].claimant = none) :
    m.passOn e = m := by
  rw [MeasureState.passOn, h]

/-- The end of a step of an engine without an image: it changes that engine alone, which does not work for
the manifest unit, and gives it no claimant (R66). -/
theorem stepEnd_of_unbound {m m' : MeasureState} (hend : StepEnd m m')
    (hbound : ∀ e : EngineId, m.engines[e].bound = none)
    (hclaimant : ∀ e : EngineId, m.engines[e].claimant = none) :
    m' = m ∨ ∃ (e : EngineId) (f : Engine → Engine), m' = m.modEngine e f ∧
      m.engines[e].manifest = false ∧ (f m.engines[e]).claimant = none := by
  have hmanifest : ∀ {e : EngineId} {st : EngineState},
      m.engines[e].worksIn st = true → m.engines[e].manifest = false :=
    fun h => ((worksIn_iff _ _).1 h).2
  cases hend with
  | restored e hworks =>
    unfold restoreDone
    split
    · exact .inr ⟨e, _, rfl, hmanifest hworks, hclaimant e⟩
    · rw [hbound e]; exact .inl rfl
  | absorbed e step hworks =>
    unfold absorbDone
    split
    · exact .inr ⟨e, _, rfl, hmanifest hworks, hclaimant e⟩
    · refine .inr ⟨e, _, choose_of_unbound ?_, hmanifest hworks, hclaimant e⟩
      rw [engines_modEngine_self]
      exact hbound e
  | finalised e hworks =>
    unfold finalisationDone
    split
    · exact .inr ⟨e, _, rfl, hmanifest hworks, hclaimant e⟩
    · rw [hbound e]; exact .inl rfl
  | parked e hworks =>
    unfold parkDone
    split
    · refine .inr ⟨e, _, passOn_of_no_claimant ?_, hmanifest hworks, hclaimant e⟩
      rw [MeasureState.endDiscarded, engines_modEngine_self]
      exact hclaimant e
    · rw [hbound e]; exact .inl rfl

/-! ### What an event does to the manifest unit in the check -/

theorem advanceManifest_of_not_loading {s : State} (h : s.manifest.phase ≠ .manifestLoading) :
    s.advanceManifest = s := by
  unfold State.advanceManifest
  split
  · rename_i hphase _
    exact absurd hphase h
  · rfl

theorem windowAnswered_of_no_writes {s : State} (h : s.manifest.windowWrites = []) (tag : Nat)
    (status : LinkStatus) : s.windowAnswered tag status = s := by
  rw [State.windowAnswered, h]; rfl

theorem manifest_takeCommand (s : State) (seq : BitVec 8) (kind : Option CommandKind) (i : Nat) :
    (takeCommand s seq kind i).manifest = s.manifest := by
  unfold takeCommand
  split
  · rfl
  · simp only
    split
    · rename_i k _
      cases k <;> rfl
    · rfl

/-- In MANIFEST_CHECK a forwarded write is numbered and entered, and nothing else (R43, R97). -/
theorem handOff_of_check {s : State} (h : s.manifest.phase = .manifestCheck) (tag : Nat) (addr : Addr)
    (beats : List WriteBeat) : handOff s tag addr beats = { s with measure := s.measure.addEntry tag } := by
  rw [handOff, h]

/-! ### The check in progress (R112) -/

/-- Engine 0 finalises the manifest's digest, no image exists and the report channel is DORMANT. -/
structure ChecksDigest (s : State) : Prop where
  pool : s.measure.poolOk
  images : s.measure.images = []
  dormant : s.report.channel = .dormant
  manifest : s.measure.engines[(0 : EngineId)].manifest = true
  state : s.measure.engines[(0 : EngineId)].state = .finalizing

theorem ChecksDigest.unbound {s : State} (h : ChecksDigest s) (e : EngineId) :
    s.measure.engines[e].bound = none := ((noWork_of_images h.pool h.images).1 e).1

theorem ChecksDigest.workless {s : State} (h : ChecksDigest s) : Workless s.measure := by
  obtain ⟨hengines, hrequests, -⟩ := noWork_of_images h.pool h.images
  exact ⟨h.images, hrequests, fun e => (hengines e).2⟩

theorem ChecksDigest.not_attached {s : State} (h : ChecksDigest s) (k : Fin 8) (i : Nat) (e : EngineId)
    (n : Nat) : ¬ s.measure.refillTags[k].attachedTo i e n :=
  (noWork_of_images h.pool h.images).2.2 k i e n

/-- The event did not reach the check: the manifest unit, and engine 0 while it checks a digest, are as
they were. -/
structure CheckKept (s t : State) : Prop where
  manifest : t.manifest = s.manifest
  engine : ChecksDigest s → t.measure.engines[(0 : EngineId)] = s.measure.engines[(0 : EngineId)]

/-- An event of which the manifest unit and the pool see nothing. -/
theorem CheckKept.of_unseen {s t : State} (hmanifest : t.manifest = s.manifest)
    (hmeasure : t.measure = s.measure) : CheckKept s t :=
  ⟨hmanifest, fun _ => by rw [hmeasure]⟩

/-- The end of an event that leaves the pool without work. -/
theorem CheckKept.settle {s u : State} (hmanifest : u.manifest = s.manifest)
    (hpool : ChecksDigest s → Workless u.measure ∧
      u.measure.engines[(0 : EngineId)] = s.measure.engines[(0 : EngineId)]) :
    CheckKept s u.settle := by
  refine ⟨hmanifest, fun h => ?_⟩
  obtain ⟨hworkless, hengine⟩ := hpool h
  rw [hworkless.engines_settle, hengine]

/-- The end of an event that changes none of what the pool works on. -/
theorem CheckKept.settle_same {s u : State} (hmanifest : u.manifest = s.manifest)
    (hsame : ChecksDigest s → (u.measure.images, u.measure.refillPending, u.measure.engines) =
      (s.measure.images, s.measure.refillPending, s.measure.engines)) :
    CheckKept s u.settle :=
  .settle hmanifest fun h =>
    ⟨h.workless.of_same (hsame h), engines_congr (Prod.mk.inj (Prod.mk.inj (hsame h)).2).2 0⟩

theorem checkKept_answerRefill (s : State) (k : Fin 8) (status : LinkStatus) (data : List Beat) :
    CheckKept s (answerRefill s k status data) := by
  unfold answerRefill
  split
  · exact .of_unseen rfl rfl
  · exact .settle_same rfl fun _ => rfl
  · exact .settle_same rfl fun _ => rfl
  · rename_i i e start n address htag
    have hno : ¬ ChecksDigest s := fun h => h.not_attached k i e n ⟨start, address, htag⟩
    split <;> exact .settle rfl fun h => absurd h hno

theorem checkKept_answerReport (s : State) (k : Fin 2) (status : LinkStatus) :
    CheckKept s (answerReport s k status) := by
  unfold answerReport
  split
  · exact .of_unseen rfl rfl
  · exact .settle_same rfl fun _ => rfl
  · split
    · exact .settle_same rfl fun _ => rfl
    · exact .settle_same rfl fun h => reportFailed_of_images_nil h.images _ _

/-- A write response: no window write is in flight, so the manifest unit does not act on it (R110). -/
theorem checkKept_answerWrite {s : State} (hphase : s.manifest.phase = .manifestCheck)
    (hwrites : s.manifest.windowWrites = []) (tag : Nat) (status : LinkStatus) :
    CheckKept s (answerWrite s tag status) := by
  have hanswer : answerWrite s tag status = State.settle { s with
      link := s.link.relayResponse { kind := .write, tag := tag, status := status, data := [] }
      measure := s.measure.writeAnswered tag status } := by
    simp [answerWrite, windowAnswered_of_no_writes, advanceManifest_of_not_loading, hwrites, hphase]
  rw [hanswer]
  exact .settle_same rfl fun h => writeAnswered_of_images_nil h.images tag status

theorem checkKept_refillExpired {s : State} (k : Fin 8) {m : MeasureState}
    (hm : m = s.measure.setRefillTag k .quarantined ∨
      ∃ i, m = (s.measure.setRefillTag k .quarantined).breakImage i .refillTimeout) :
    CheckKept s (State.settle { s with measure := m }) := by
  refine .settle_same rfl fun h => ?_
  obtain rfl | ⟨i, rfl⟩ := hm
  · rfl
  · rw [breakImage_of_images_nil (m := s.measure.setRefillTag k .quarantined) h.images]
    rfl

/-- The end of an engine's step on an image: engine 0 is not the one, since it works for the manifest. -/
theorem checkKept_stepEnd {s : State} {m : MeasureState} (hend : StepEnd s.measure m) :
    CheckKept s (State.settle { s with measure := m }) := by
  refine .settle rfl fun h => ?_
  obtain rfl | ⟨e, f, rfl, hmanifest, hclaimant⟩ := stepEnd_of_unbound hend h.unbound h.workless.claimants
  · exact ⟨h.workless, rfl⟩
  · have hne : (0 : EngineId) ≠ e := by
      rintro rfl
      rw [h.manifest] at hmanifest
      cases hmanifest
    refine ⟨⟨h.images, h.workless.requests, fun e' => ?_⟩, engines_modEngine_ne f hne⟩
    by_cases hsame : e' = e
    · subst hsame
      rw [engines_modEngine_self, hclaimant]
    · rw [engines_modEngine_ne f hsame, h.workless.claimants]

/-- No event but its completion and a reset reaches the check (R112). -/
theorem checkKept_of_effect {s t : State} {c : Instr} (heffect : Effect s c t)
    (hphase : s.manifest.phase = .manifestCheck) (hwrites : s.manifest.windowWrites = [])
    (hrevocation : s.manifest.revocation = none) (hdone : c ≠ .manifestCheckDone)
    (hcold : c ≠ .coldReset) (hwarm : c ≠ .warmReset)
    (hend : ∀ msel1 msel0, c ≠ .resetEnd msel1 msel0) : CheckKept s t := by
  have hother : ∀ phase, s.manifest.phase = phase → phase ≠ .manifestCheck → CheckKept s t :=
    fun phase hp hne => absurd (hp.symm.trans hphase) hne
  cases heffect with
  | cold => exact absurd rfl hcold
  | warm => exact absurd rfl hwarm
  | straps msel1 msel0 => exact absurd rfl (hend msel1 msel0)
  | checked => exact absurd rfl hdone
  | unmatched => exact absurd rfl hdone
  | sensed p a hp => exact hother _ hp (by decide)
  | rejected why hp => exact hother _ hp (by decide)
  | accepted c slot digest p n hp => exact hother _ hp (by decide)
  | burnt c outcome fuses hburning => rw [hrevocation] at hburning; cases hburning
  | nothing | malformed | refused | readForwarded | hostOffered | delivered | memOffered | sent
  | readAnswered | supply => exact .of_unseen rfl rfl
  | wrote tag addr beats =>
    rw [handOff_of_check (s := enteredWrite s tag addr beats) hphase]
    exact .settle_same rfl fun _ => rfl
  | writeAnswered c tag status => exact checkKept_answerWrite hphase hwrites tag status
  | refill c k status data => exact checkKept_answerRefill s k status data
  | report c k status => exact checkKept_answerReport s k status
  | refillExpired tag k m _ hm => exact checkKept_refillExpired k hm
  | reportExpired => exact .settle_same rfl fun h => reportFailed_of_images_nil h.images _ _
  | consumer => exact .settle_same rfl fun _ => rfl
  | command c seq image kind hchannel =>
    exact .settle (manifest_takeCommand s seq _ _) fun h => absurd h.dormant hchannel
  | engine c m hstep => exact checkKept_stepEnd hstep
  | manifestBeat hbeat =>
    rw [advanceManifest_of_not_loading (by simp [hphase])]
    refine .settle rfl fun h => ?_
    have hstate := hbeat.2
    rw [h.state] at hstate
    cases hstate

theorem checksDigest_of_tablesOk {s : State} (hphase : s.manifest.phase = .manifestCheck)
    (htables : s.tablesOk) (hpool : s.measure.poolOk)
    (hmanifest : s.measure.engines[(0 : EngineId)].manifest = true)
    (hstate : s.measure.engines[(0 : EngineId)].state = .finalizing) : ChecksDigest s := by
  obtain ⟨himages, -, -, -, -, hdormant, -⟩ := htables (by simp [hphase])
  exact ⟨hpool, himages, hdormant, hmanifest, hstate⟩

/-- Settles O46: the completion by its accepting slot, and every other event by what it can be. -/
theorem anchorCheckDecides : Obligations.AnchorCheckDecides := by
  refine ⟨fun s anchors c hphase hanchors hcontext => ⟨?primary, ?alternate, ?neither⟩, ?others⟩
  case primary =>
    intro hprimary
    exact exec_manifestCheckDone_of_match hphase hanchors hcontext (acceptingSlot_of_primary hprimary)
  case alternate =>
    intro hprimary halternate
    exact exec_manifestCheckDone_of_match hphase hanchors hcontext
      (acceptingSlot_of_alternate hprimary halternate)
  case neither =>
    intro hprimary halternate
    exact exec_manifestCheckDone_of_no_match hphase hanchors hcontext
      (acceptingSlot_of_neither hprimary halternate)
  case others =>
    intro c s t hphase hwrites hrevocation hexec hdone hcold hwarm hend
    have hkept := checkKept_of_effect (exec_effect hexec) hphase hwrites hrevocation hdone hcold hwarm hend
    exact ⟨hkept.manifest, fun htables hpool hmanifest hstate =>
      hkept.engine (checksDigest_of_tablesOk hphase htables hpool hmanifest hstate)⟩

end Sys2Proof.Proofs

/-! The checks of a command (R154): each kind's checks in their order, and what a command that fails one
leaves. -/

namespace Sys2Proof.Proofs
open Sys2Proof.Machine Sys2Proof.Laws

/-! ### What the checks look at -/

/-- The indices that BAD_INDEX answers: 0 and those past the image count. -/
theorem image?_eq_none_iff (m : MeasureState) (i : Nat) :
    m.image? i = none ↔ i = 0 ∨ m.images.length < i := by
  rw [← Option.not_isSome_iff_eq_none, image?_isSome]
  omega

theorem isFailed_iff (st : ImageState) :
    st.isFailed = true ↔ (∃ d, st = .mismatched d) ∨ ∃ why, st = .broken why := by
  cases st <;> simp [ImageState.isFailed]

theorem reopenAllowed_iff (g : Image) :
    reopenAllowed g = true ↔ (∃ d, g.state = .mismatched d) ∨ (∃ why, g.state = .broken why) ∨
      (((∃ d, g.state = .verified d) ∨ ∃ d, g.state = .recorded d) ∧
        g.declared.policy.reopenable = true) := by
  simp only [reopenAllowed, Bool.or_eq_true, Bool.and_eq_true, isFailed_iff, goodResult_isSome_iff, or_assoc]

/-- The closure of a REOPEN is locked by one dependent with a good result that is not reopenable (R130). -/
theorem locked_iff (m : MeasureState) (i : Nat) :
    m.locked i = true ↔ ∃ d h, d ∈ m.dependents i ∧ m.image? d = some h ∧
      ((∃ x, h.state = .verified x) ∨ ∃ x, h.state = .recorded x) ∧
      h.declared.policy.reopenable = false := by
  simp only [MeasureState.locked, List.any_eq_true, Option.any_eq_true, Bool.and_eq_true,
    Bool.not_eq_true', goodResult_isSome_iff, exists_and_left]

/-! ### The results, check by check -/

theorem commandResult_of_image?_none {s : State} {i : Nat} (hnone : s.measure.image? i = none) :
    commandResult s (some .reopen) i = .badIndex ∧ commandResult s (some .abandon) i = .badIndex := by
  simp [commandResult, hnone]

theorem commandResult_reopen {s : State} {i : Nat} {g : Image} (himage : s.measure.image? i = some g) :
    commandResult s (some .reopen) i =
      if reopenAllowed g = true then if s.measure.locked i = true then .dependentLocked else .done
      else .badState := by
  cases hallowed : reopenAllowed g <;> simp [commandResult, himage, hallowed]

theorem commandResult_abandon {s : State} {i : Nat} {g : Image} (himage : s.measure.image? i = some g) :
    commandResult s (some .abandon) i = if g.state.isMeasuring = true then .done else .badState := by
  simp [commandResult, himage]

/-! ### A refused command -/

/-- The row of the table by which a command of this kind is taken by itself. -/
def commandRow (seq image : BitVec 8) : CommandKind → Instr
  | .reopen => .reopen seq image
  | .abandon => .abandon seq image
  | .resend => .resend seq image
  | .resume => .resume seq image

/-- Outside DORMANT each of the four rows takes its command. -/
theorem exec_commandRow {s : State} (hchannel : s.report.channel ≠ .dormant) (seq image : BitVec 8)
    (kind : CommandKind) :
    exec (commandRow seq image kind) s = .next (takeCommand s seq (some kind) image.toNat).settle := by
  cases kind <;> exact if_neg hchannel

theorem exec_commandRow_refused {s : State} {seq image : BitVec 8} {r : CommandResult}
    (hchannel : s.report.channel ≠ .dormant) (hseq : seq ≠ s.report.lastSeq) (kind : CommandKind)
    (hresult : commandResult s (some kind) image.toNat = r) (hrefused : r ≠ .done) :
    exec (commandRow seq image kind) s = .next (State.settle { s with report := { s.report with
      lastSeq := seq, lastResult := r, headerDirty := true } }) := by
  subst hresult
  rw [exec_commandRow hchannel, takeCommand_refused hchannel hseq hrefused]

/-- Settles O35: the result of each kind by its checks in order, and one refusal for the four kinds. -/
theorem commandChecks : Obligations.CommandChecks := by
  refine ⟨fun s i => ⟨rfl, image?_eq_none_iff s.measure i, commandResult_of_image?_none, ?checks, rfl, rfl⟩,
    ?refused⟩
  case checks =>
    intro g himage
    simp only [← reopenAllowed_iff, ← locked_iff, commandResult_reopen himage, commandResult_abandon himage]
    refine ⟨?badState, ?dependentLocked, ?reopened, ?abandoned, ?notMeasuring⟩
    case badState => exact fun hallowed => if_neg hallowed
    case dependentLocked => exact fun hallowed hlocked => by rw [if_pos hallowed, if_pos hlocked]
    case reopened => exact fun hallowed hlocked => by rw [if_pos hallowed, if_neg hlocked]
    case abandoned => exact fun hmeasuring => if_pos hmeasuring
    case notMeasuring => exact fun hmeasuring => if_neg (by simp [hmeasuring])
  case refused =>
    intro s seq image hchannel hseq
    exact ⟨fun _ => exec_commandRow_refused hchannel hseq .reopen,
      fun _ => exec_commandRow_refused hchannel hseq .abandon,
      fun _ => exec_commandRow_refused hchannel hseq .resend,
      fun _ => exec_commandRow_refused hchannel hseq .resume⟩

end Sys2Proof.Proofs

/-! The host response merger (R170) and the delivery of a response to the host (R171). -/

namespace Sys2Proof.Proofs
open Sys2Proof.Machine

/-! ### What the merger chooses (R170) -/

/-- The source whose turn it is when both have a response waiting and the last one came from `mark`. -/
def otherSource : ResponseSource → ResponseSource
  | .part => .relayed
  | .relayed => .part

theorem hostChoice_of_none_waiting {l : LinkState} (hrelay : l.relay = []) (hpart : l.refusals = []) :
    l.hostChoice = none := by
  rw [LinkState.hostChoice, hrelay, hpart]

theorem hostChoice_of_relay_alone {l : LinkState} (hrelay : l.relay ≠ []) (hpart : l.refusals = []) :
    l.hostChoice = some .relayed := by
  obtain ⟨r, rest, hrelay⟩ := List.exists_cons_of_ne_nil hrelay
  rw [LinkState.hostChoice, hrelay, hpart]

theorem hostChoice_of_refusals_alone {l : LinkState} (hrelay : l.relay = []) (hpart : l.refusals ≠ []) :
    l.hostChoice = some .part := by
  obtain ⟨p, rest, hpart⟩ := List.exists_cons_of_ne_nil hpart
  rw [LinkState.hostChoice, hrelay, hpart]

/-- The sources alternate while both have a response waiting. -/
theorem hostChoice_of_both_waiting {l : LinkState} {mark : ResponseSource} (hrelay : l.relay ≠ [])
    (hpart : l.refusals ≠ []) (hmark : l.lastSource = mark) : l.hostChoice = some (otherSource mark) := by
  obtain ⟨r, relayRest, hrelay⟩ := List.exists_cons_of_ne_nil hrelay
  obtain ⟨p, partRest, hpart⟩ := List.exists_cons_of_ne_nil hpart
  rw [LinkState.hostChoice, hrelay, hpart, hmark]
  cases mark <;> rfl

/-! ### What a delivery takes (R171) -/

theorem releaseHost_eq (l : LinkState) (kind : LinkKind) (tag : Nat) :
    l.releaseHost kind tag = { l with
      hostReads := if kind = .read then l.hostReads.filter (· != tag) else l.hostReads
      hostWrites := if kind = .write then l.hostWrites.filter (· != tag) else l.hostWrites } := by
  cases kind <;> rfl

theorem deliver_relayed {l : LinkState} {r : Response} {rest : List Response} (hrelay : l.relay = r :: rest) :
    l.deliver .relayed = { l with
      relay := rest, hostOffer := none, lastSource := .relayed, hostOut := some r
      hostReads := if r.kind = .read then l.hostReads.filter (· != r.tag) else l.hostReads
      hostWrites := if r.kind = .write then l.hostWrites.filter (· != r.tag) else l.hostWrites } := by
  simp only [LinkState.deliver, hrelay, releaseHost_eq]

/-- A MALFORMED response holds no tag (R88, R89), so its delivery releases none. -/
theorem deliver_part {l : LinkState} {r : Response} {rest : List Response} (hpart : l.refusals = r :: rest) :
    l.deliver .part = { l with
      refusals := rest, hostOffer := none, lastSource := .part, hostOut := some r
      hostReads := if r.kind = .read ∧ r.status ≠ .malformed then
        l.hostReads.filter (· != r.tag) else l.hostReads
      hostWrites := if r.kind = .write ∧ r.status ≠ .malformed then
        l.hostWrites.filter (· != r.tag) else l.hostWrites } := by
  by_cases hmalformed : r.status = .malformed
  · simp [LinkState.deliver, hpart, hmalformed]
  · simp [LinkState.deliver, hpart, hmalformed, releaseHost_eq]

/-! ### The two moments at the host port -/

theorem exec_hostReady (s : State) : exec (.hostResponseDelivery .ready) s =
    .next { s with link := { s.link with hostOffer := s.link.hostOffer.or s.link.hostChoice } } := rfl

/-- What stands offered is what the host takes. -/
theorem exec_hostTaken {s : State} {source : ResponseSource} (hoffer : s.link.hostOffer = some source) :
    exec (.hostResponseDelivery .taken) s = .next { s with link := s.link.deliver source } := by
  simp only [exec, execHostResponseDelivery, hoffer, Option.some_or]

theorem resetTo_lastSource (s : State) (line : ResetLine) (attempts : Nat) (reason : Option RejectReason) :
    (resetTo s line attempts reason).link.lastSource = .part := rfl

/-- Settles O16: the offer is the one that stands, or else the merger's choice by the queues and the mark; a
delivery is that of the source offered; both resets set the mark. -/
theorem responsesMergedAndDelivered : Obligations.ResponsesMergedAndDelivered := by
  refine ⟨fun s => ⟨s.link.hostOffer.or s.link.hostChoice, exec_hostReady s, ?stands, ?chosen⟩,
    ?relayed, ?part, ?reset⟩
  case stands =>
    intro x hoffer
    rw [hoffer, Option.some_or]
  case chosen =>
    intro hoffer
    rw [hoffer, Option.none_or]
    exact ⟨hostChoice_of_none_waiting, hostChoice_of_relay_alone, hostChoice_of_refusals_alone,
      hostChoice_of_both_waiting, hostChoice_of_both_waiting⟩
  case relayed =>
    intro s r rest hoffer hrelay
    rw [exec_hostTaken hoffer, deliver_relayed hrelay]
  case part =>
    intro s r rest hoffer hpart
    rw [exec_hostTaken hoffer, deliver_part hpart]
  case reset =>
    rintro s t (hcold | hwarm)
    · obtain rfl := Host.Outcome.next.inj hcold
      exact resetTo_lastSource ..
    · obtain rfl := Host.Outcome.next.inj hwarm
      exact resetTo_lastSource ..

end Sys2Proof.Proofs

/-! The routing of memory's responses by tag (R167), and the discard of one whose tag is not outstanding
(R168). -/

namespace Sys2Proof.Proofs
open Sys2Proof.Machine

/-! ### The own tags by their numbers (R70, R150) -/

theorem refillTagOf_eq_some_iff (tag : Nat) (k : Fin 8) : refillTagOf tag = some k ↔ tag = 32 + k.val := by
  rw [refillTagOf, Option.dite_none_right_eq_some]
  simp only [Option.some.injEq, Fin.ext_iff]
  exact ⟨fun ⟨_, hk⟩ => by omega, fun htag => ⟨by omega, by omega⟩⟩

theorem reportTagOf_eq_some_iff (tag : Nat) (k : Fin 2) : reportTagOf tag = some k ↔ tag = 32 + k.val := by
  rw [reportTagOf, Option.dite_none_right_eq_some]
  simp only [Option.some.injEq, Fin.ext_iff]
  exact ⟨fun ⟨_, hk⟩ => by omega, fun htag => ⟨by omega, by omega⟩⟩

/-! ### A response on a FREE own tag -/

theorem answerRefill_of_free {s : State} {k : Fin 8} (hfree : s.measure.refillTags[k] = .free)
    (status : LinkStatus) (data : List Beat) : answerRefill s k status data = s := by
  simp only [answerRefill, hfree]

theorem answerReport_of_free {s : State} {k : Fin 2} (hfree : s.report.tags[k] = .free) (status : LinkStatus) :
    answerReport s k status = s := by
  simp only [answerReport, hfree]

/-! ### A response that is discarded (R168) -/

theorem routeResponse_read_discarded {s : State} {tag : Nat} (hhost : tag < 32 → tag ∉ s.link.memReads)
    (hown : ∀ k : Fin 8, tag = 32 + k.val → s.measure.refillTags[k] = .free) (status : LinkStatus)
    (data : List Beat) : routeResponse s .read tag status data = s := by
  by_cases hspace : tag < 32
  · simp [routeResponse, hspace, hhost hspace]
  · cases hk : refillTagOf tag with
    | none => simp [routeResponse, hspace, hk]
    | some k =>
      have hfree := hown k ((refillTagOf_eq_some_iff tag k).1 hk)
      simp only [routeResponse, hspace, if_false, hk, answerRefill_of_free hfree]

theorem routeResponse_write_discarded {s : State} {tag : Nat} (hhost : tag < 32 → tag ∉ s.link.memWrites)
    (hown : ∀ k : Fin 2, tag = 32 + k.val → s.report.tags[k] = .free) (status : LinkStatus)
    (data : List Beat) : routeResponse s .write tag status data = s := by
  by_cases hspace : tag < 32
  · simp [routeResponse, hspace, hhost hspace]
  · cases hk : reportTagOf tag with
    | none => simp [routeResponse, hspace, hk]
    | some k =>
      have hfree := hown k ((reportTagOf_eq_some_iff tag k).1 hk)
      simp only [routeResponse, hspace, if_false, hk, answerReport_of_free hfree]

/-- Settles O21: each row of its kind routes the response, and the routing discards it. -/
theorem unknownTagDiscarded : Obligations.UnknownTagDiscarded := by
  intro s tag status data
  constructor
  · intro hhost hown
    have hdiscard := routeResponse_read_discarded hhost hown status data
    exact ⟨congrArg Host.Outcome.next hdiscard, congrArg Host.Outcome.next hdiscard,
      congrArg Host.Outcome.next hdiscard⟩
  · intro hhost hown
    have hdiscard := routeResponse_write_discarded hhost hown status
    exact ⟨congrArg Host.Outcome.next (hdiscard data), congrArg Host.Outcome.next (hdiscard []),
      congrArg Host.Outcome.next (hdiscard [])⟩

end Sys2Proof.Proofs

/-! One step of the part: the event it runs, and what that event brings to the blocks that work on images
before the follow-ups of its end. -/

namespace Sys2Proof.Proofs
open Sys2Proof.Machine Sys2Proof.Laws

/-! ### The step and its event -/

theorem step_effect {s t : State} (h : step s = .next t) :
    t = s ∨ ∃ c rest, Effect { s with pending := rest } c t := by
  unfold step at h
  split at h
  · exact .inl (Host.Outcome.next.inj h).symm
  · exact .inr ⟨_, _, exec_effect h⟩

/-- A property that does not look at the queue and that every event keeps, every step keeps. -/
theorem step_keeps {P : State → Prop} (hqueue : ∀ s queue, P s → P { s with pending := queue })
    (hevent : ∀ {s t : State} {c : Instr}, P s → Effect s c t → P t) {s t : State} (hs : P s)
    (h : step s = .next t) : P t := by
  obtain rfl | ⟨c, rest, heffect⟩ := step_effect h
  · exact hs
  · exact hevent (hqueue s rest hs) heffect

/-! ### What an event brings to the blocks that work on images -/

/-- The record of a refill tag that no engine waits for. -/
def idleTag (r : RefillTag) : Prop := ∀ i e n, ¬ r.attachedTo i e n

theorem idle_free : idleTag .free := fun _ _ _ ⟨_, _, h⟩ => nomatch h

theorem idle_quarantined : idleTag .quarantined := fun _ _ _ ⟨_, _, h⟩ => nomatch h

/-- The measuring blocks after command `c` on state `s`, before the follow-ups of its end. -/
inductive PoolEffect (s : State) (c : Instr) : MeasureState → Prop where
  | unseen : PoolEffect s c s.measure
  | handedOff (tag : Nat) (addr : Addr) (beats : List WriteBeat) (hc : c = .hostWriteAccept tag addr beats)
      (hform : malformed s.link .write tag addr beats.length = false) :
      PoolEffect s c (handOff (enteredWrite s tag addr beats) tag addr beats).measure
  | answered (link : LinkState) (tag : Nat) (status : LinkStatus) :
      PoolEffect s c (State.windowAnswered { s with
        link := link, measure := s.measure.writeAnswered tag status } tag status).advanceManifest.measure
  | tagSet (k : Fin 8) {r : RefillTag} (hidle : idleTag r) : PoolEffect s c (s.measure.setRefillTag k r)
  | chunk {k : Fin 8} {i : Nat} {e : EngineId} {n : Nat} {beats : List Beat}
      (hattached : s.measure.refillTags[k].attachedTo i e n) (hbeats : beats.length = n) :
      PoolEffect s c ((s.measure.setRefillTag k .free).deliverChunk e i n beats)
  | refillBroken (k : Fin 8) {r : RefillTag} (hidle : idleTag r) (i : Nat) (why : BreakReason) :
      PoolEffect s c ((s.measure.setRefillTag k r).breakImage i why)
  | reportFailed (r : ReportState) (target : ReportTarget) : PoolEffect s c (s.measure.reportFailed r target)
  | command (seq image : BitVec 8) (kind : CommandKind) (hc : c = commandRow seq image kind) :
      PoolEffect s c (takeCommand s seq (some kind) image.toNat).measure
  | stepEnd {m : MeasureState} (hend : StepEnd s.measure m) : PoolEffect s c m
  | manifestBeat (hbeat : s.measure.engines[(0 : EngineId)].manifest = true ∧
      s.measure.engines[(0 : EngineId)].state = .absorbing .beat) :
      PoolEffect s c (State.advanceManifest { s with
        measure := s.measure.modEngine 0 (Engine.manifestBeatDone s.measure.now) }).measure
  | checkEnded (hphase : s.manifest.phase = .manifestCheck) :
      PoolEffect s c (s.measure.modEngine 0 Engine.endCheck)
  | unmatched (hphase : s.manifest.phase = .manifestCheck) (why : RejectReason) :
      PoolEffect s c (State.failAttempt { s with measure := s.measure.modEngine 0 Engine.endCheck } why).measure
  | rejected (why : RejectReason) : PoolEffect s c (s.failAttempt why).measure
  | accepted {contents : Contents} {n : Nat} (hphase : s.manifest.phase = .parsing)
      (hparse : parseManifest s.manifest.buffer n s.manifest.windowBase = .ok contents) :
      PoolEffect s c (s.measure.armed contents)
  | burnt : PoolEffect s c (s.measure.enqueue 0)

/-- An event leaves the measuring blocks alone, resets them, or acts on them and then lets the follow-ups
run. -/
inductive PoolAfter (s : State) (c : Instr) : State → Prop where
  | same {t : State} (hsame : t.measure = s.measure) : PoolAfter s c t
  | reset {t : State} (hreset : t.measure = .reset) (hphase : t.manifest.phase = .sensing) : PoolAfter s c t
  | settled {u : State} (heffect : PoolEffect s c u.measure) : PoolAfter s c u.settle

theorem poolAfter_answerRefill (s : State) (c : Instr) (k : Fin 8) (status : LinkStatus) (data : List Beat) :
    PoolAfter s c (answerRefill s k status data) := by
  unfold answerRefill
  split
  · exact .same rfl
  · exact .settled (.tagSet k idle_free)
  · exact .settled (.tagSet k idle_free)
  · rename_i i e start n address htag
    split
    · exact .settled (.chunk ⟨start, address, htag⟩ (returnedBeats_length ..))
    · exact .settled (.refillBroken k idle_free i _)

theorem poolAfter_answerReport (s : State) (c : Instr) (k : Fin 2) (status : LinkStatus) :
    PoolAfter s c (answerReport s k status) := by
  unfold answerReport
  split
  · exact .same rfl
  · exact .settled .unseen
  · split
    · exact .settled .unseen
    · exact .settled (.reportFailed _ _)

theorem poolAfter_of_effect {s t : State} {c : Instr} (heffect : Effect s c t) : PoolAfter s c t := by
  cases heffect with
  | cold | warm => exact .reset rfl rfl
  | nothing | straps | malformed | refused | readForwarded | hostOffered | delivered | memOffered | sent
  | readAnswered | supply => exact .same rfl
  | sensed | consumer => exact .settled .unseen
  | wrote tag addr beats _ hform => exact .settled (.handedOff tag addr beats rfl hform)
  | writeAnswered c tag status => exact .settled (.answered _ tag status)
  | refill c k status data => exact poolAfter_answerRefill s c k status data
  | report c k status => exact poolAfter_answerReport s c k status
  | refillExpired tag k m _ hm =>
    obtain rfl | ⟨i, rfl⟩ := hm
    · exact .settled (.tagSet k idle_quarantined)
    · exact .settled (.refillBroken k idle_quarantined i _)
  | reportExpired => exact .settled (.reportFailed _ _)
  | command c seq image kind _ hc =>
    refine .settled (.command seq image kind ?_)
    obtain ⟨rfl, rfl⟩ | ⟨rfl, rfl⟩ | ⟨rfl, rfl⟩ | ⟨rfl, rfl⟩ := hc <;> rfl
  | engine c m hend => exact .settled (.stepEnd hend)
  | manifestBeat hbeat => exact .settled (.manifestBeat hbeat)
  | checked slot digest hphase => exact .settled (.checkEnded hphase)
  | unmatched hphase => exact .settled (.unmatched hphase _)
  | rejected why => exact .settled (.rejected why)
  | accepted c slot digest p n hphase hparse => exact .settled (.accepted hphase hparse)
  | burnt => exact .settled .burnt

end Sys2Proof.Proofs

/-! What an event brings to the manifest unit: the phase, the attempt counter, the buffer and the window. -/

namespace Sys2Proof.Proofs
open Sys2Proof.Machine Sys2Proof.Laws

/-! ### The manifest unit after an event -/

/-- The manifest unit after command `c` on a state whose manifest unit is `u`; `v` stands for a state that
differs from it in the other blocks alone. -/
inductive ManifestEffect (u : ManifestState) (c : Instr) : ManifestState → Prop where
  | same : ManifestEffect u c u
  | reset (hc : c = .coldReset ∨ c = .warmReset) (attempts : Nat) (reason : Option RejectReason)
      (hattempts : attempts = 0 ∨ attempts = u.attempts) :
      ManifestEffect u c { ManifestState.reset with
        windowBase := u.windowBase, attempts := attempts, lastReason := reason }
  | straps (msel1 msel0 : Bool) (hc : c = .resetEnd msel1 msel0) :
      ManifestEffect u c { u with windowBase := windowBaseOf msel1 msel0 }
  | sensed (p : SlotReading) (a : Option Digest) (hc : c = .sensingDone p a) (hphase : u.phase = .sensing)
      (anchors : Anchors) : ManifestEffect u c (sensedManifest u anchors)
  | windowWritten (v : State) (hv : v.manifest = u) (tag : Nat) (addr : Addr) (beats : List WriteBeat)
      (hc : c = .hostWriteAccept tag addr beats) (hphase : u.phase = .manifestLoading ∨ u.phase = .rejected)
      (hwindow : inWindow v addr = true) :
      ManifestEffect u c (v.startAttempt.windowWrite tag addr beats).advanceManifest.manifest
  | answered (v : State) (hv : v.manifest = u) (tag : Nat) (status : LinkStatus)
      (hc : writeResponse c tag status) :
      ManifestEffect u c (v.windowAnswered tag status).advanceManifest.manifest
  | beatDone (v : State) (hv : v.manifest = u) (hc : c = .manifestBeatStepDone) :
      ManifestEffect u c v.advanceManifest.manifest
  | checked (hphase : u.phase = .manifestCheck) (hc : c = .manifestCheckDone) (slot : AnchorSlot)
      (digest : Digest) : ManifestEffect u c { u with phase := .parsing, checked := some (slot, digest) }
  | failed (v : State) (hv : v.manifest = u) (hphase : u.phase = .manifestCheck ∧ c = .manifestCheckDone ∨
      u.phase = .parsing ∧ c = .parsingDone) (why : RejectReason) :
      ManifestEffect u c (v.failAttempt why).manifest
  | accepted (hphase : u.phase = .parsing) (hc : c = .parsingDone) (contents : Contents) (slot : AnchorSlot)
      (digest : Digest) (p : SlotReading) (n : Nat) (vprog : Bool) :
      ManifestEffect u c (u.armed contents slot digest p n vprog)
  | burnt (outcome : Revocation) (hburning : u.revocation = some .inProgress) :
      ManifestEffect u c { u with revocation := some outcome }

theorem manifest_snoopHeader (s : State) (b : WriteBeat) : (snoopHeader s b).manifest = s.manifest := by
  unfold snoopHeader
  split <;> split <;> simp only [manifest_takeCommand]

theorem manifest_handOffArmed (s : State) (tag : Nat) (addr : Addr) (beats : List WriteBeat) :
    (handOffArmed s tag addr beats).manifest = s.manifest := by
  unfold handOffArmed
  simp only
  split
  · exact manifest_snoopHeader _ _
  · rfl

/-- A forwarded write reaches the manifest unit in MANIFEST_LOADING and REJECTED, by a write into the window
(R97). -/
theorem manifest_handOff (s : State) (tag : Nat) (addr : Addr) (beats : List WriteBeat) :
    (handOff s tag addr beats).manifest = s.manifest ∨
      (s.manifest.phase = .manifestLoading ∨ s.manifest.phase = .rejected) ∧ inWindow s addr = true ∧
      (handOff s tag addr beats).manifest = (State.windowWrite (State.startAttempt
        { s with measure := s.measure.addEntry tag }) tag addr beats).advanceManifest.manifest := by
  have hwindow : ∀ u : State, u = { s with measure := s.measure.addEntry tag } →
      inWindow u addr = inWindow s addr := by rintro _ rfl; rfl
  unfold handOff
  split
  · exact .inl (manifest_handOffArmed s tag addr beats)
  · rename_i hphase
    simp only [hwindow _ rfl]
    split
    · rename_i hin
      exact .inr ⟨.inl hphase, hin, rfl⟩
    · exact .inl rfl
  · rename_i hphase
    simp only [hwindow _ rfl]
    split
    · rename_i hin
      exact .inr ⟨.inr hphase, hin, rfl⟩
    · exact .inl rfl
  · exact .inl rfl

theorem manifest_answerRefill (s : State) (k : Fin 8) (status : LinkStatus) (data : List Beat) :
    (answerRefill s k status data).manifest = s.manifest := by
  unfold answerRefill
  repeat' split
  all_goals rfl

theorem manifest_answerReport (s : State) (k : Fin 2) (status : LinkStatus) :
    (answerReport s k status).manifest = s.manifest := by
  unfold answerReport
  repeat' split
  all_goals rfl

theorem manifestEffect_of_effect {s t : State} {c : Instr} (heffect : Effect s c t) :
    ManifestEffect s.manifest c t.manifest := by
  have hsame : ∀ u : State, u.manifest = s.manifest → ManifestEffect s.manifest c u.manifest :=
    fun u h => h ▸ .same
  cases heffect with
  | cold => exact .reset (.inl rfl) 0 none (.inl rfl)
  | warm => exact .reset (.inr rfl) _ _ (.inr rfl)
  | straps msel1 msel0 => exact .straps msel1 msel0 rfl
  | sensed p a hphase _ fuses anchors => exact .sensed p a rfl hphase anchors
  | nothing | malformed | refused | readForwarded | hostOffered | delivered | memOffered | sent
  | readAnswered | supply | refillExpired | reportExpired | consumer | engine => exact .same
  | wrote tag addr beats =>
    obtain h | ⟨hphase, hwindow, h⟩ := manifest_handOff (enteredWrite s tag addr beats) tag addr beats
    · exact hsame _ h
    · rw [settle_manifest, h]
      exact .windowWritten { enteredWrite s tag addr beats with
        measure := (enteredWrite s tag addr beats).measure.addEntry tag } rfl tag addr beats rfl hphase hwindow
  | writeAnswered c tag status _ _ _ hwrite => exact .answered { s with
      link := s.link.relayResponse { kind := .write, tag := tag, status := status, data := [] }
      measure := s.measure.writeAnswered tag status } rfl tag status hwrite
  | refill c k status data => exact hsame _ (manifest_answerRefill s k status data)
  | report c k status => exact hsame _ (manifest_answerReport s k status)
  | command c seq image kind => exact hsame _ (manifest_takeCommand s seq _ _)
  | manifestBeat => exact .beatDone _ rfl rfl
  | checked slot digest hphase => exact .checked hphase rfl slot digest
  | unmatched hphase => exact .failed _ rfl (.inl ⟨hphase, rfl⟩) _
  | rejected why hphase => exact .failed _ rfl (.inr ⟨hphase, rfl⟩) why
  | accepted contents slot digest p n hphase => exact .accepted hphase rfl contents slot digest p n _
  | burnt c outcome fuses hburning => exact .burnt outcome hburning

end Sys2Proof.Proofs

/-! What every event keeps of the manifest unit: the buffer's form (R106, R108), the agreement of the attempt
counter with the phase (R120), and the phases that it can lead to (R101). -/

namespace Sys2Proof.Proofs
open Sys2Proof.Machine Sys2Proof.Laws

/-! ### The buffer (R106, R108) -/

theorem startAttempt_eq (s : State) :
    s.startAttempt = s ∨ s.manifest.phase = .rejected ∧ s.startAttempt =
      { s with manifest := { s.manifest.clearLoading with phase := .manifestLoading } } := by
  unfold State.startAttempt
  split
  · rename_i hphase
    exact .inr ⟨hphase, rfl⟩
  · exact .inl rfl

theorem bufferOk_startAttempt {s : State} (h : s.manifest.bufferOk) : s.startAttempt.manifest.bufferOk := by
  obtain heq | ⟨-, heq⟩ := startAttempt_eq s
  · rwa [heq]
  · rw [heq]
    exact bufferOk_congr (u := s.manifest.clearLoading) rfl rfl (bufferOk_clear _)

theorem bufferOk_windowWrite {s : State} (h : s.manifest.bufferOk) (tag : Nat) (addr : Addr)
    (beats : List WriteBeat) : (s.windowWrite tag addr beats).manifest.bufferOk :=
  bufferOk_windowBeats beats (s := { s with manifest :=
    { s.manifest with windowWrites := joinTail s.manifest.windowWrites tag } }) h _

theorem bufferOk_windowAnswered {s : State} (h : s.manifest.bufferOk) (tag : Nat) (status : LinkStatus) :
    (s.windowAnswered tag status).manifest.bufferOk := by
  unfold State.windowAnswered
  split
  · simp only
    split
    · exact h
    · exact bufferOk_failAttempt _ _
  · exact h

theorem bufferOk_of_effect {u u' : ManifestState} {c : Instr} (h : u.bufferOk)
    (heffect : ManifestEffect u c u') : u'.bufferOk := by
  cases heffect with
  | same | straps | checked | accepted | burnt => exact h
  | reset => exact bufferOk_clear ManifestState.reset
  | sensed => exact bufferOk_congr (u := u.clearLoading) rfl rfl (bufferOk_clear u)
  | windowWritten v hv tag addr beats =>
    subst hv
    exact bufferOk_advanceManifest (bufferOk_windowWrite (bufferOk_startAttempt h) tag addr beats)
  | answered v hv tag status =>
    subst hv
    exact bufferOk_advanceManifest (bufferOk_windowAnswered h tag status)
  | beatDone v hv =>
    subst hv
    exact bufferOk_advanceManifest h
  | failed v hv hphase why => exact bufferOk_failAttempt v why

/-- Settles O54, event by event. -/
theorem bufferKept : Obligations.BufferKept := fun _ _ =>
  step_keeps (P := fun s => s.manifest.bufferOk) (fun _ _ h => h)
    (fun h heffect => bufferOk_of_effect h (manifestEffect_of_effect heffect))

/-! ### The phases that the manifest unit's own actions lead to (R107, R110, R111, R119) -/

/-- The phase after a failed attempt, by the attempts before it. -/
def phaseAfterFailure (attempts : Nat) : Phase := if 3 ≤ attempts + 1 then .lockout else .rejected

theorem phaseAfterFailure_cases (attempts : Nat) :
    phaseAfterFailure attempts = .rejected ∨ phaseAfterFailure attempts = .lockout := by
  unfold phaseAfterFailure
  split
  · exact .inr rfl
  · exact .inl rfl

/-- The attempt failed: what is left of the phase, the counter and the window write set. -/
structure FailedFrom (u u' : ManifestState) : Prop where
  phase : u'.phase = phaseAfterFailure u.attempts
  attempts : u'.attempts = u.attempts + 1
  windowWrites : u'.windowWrites = []

theorem failedFrom_failAttempt (s : State) (why : RejectReason) :
    FailedFrom s.manifest (s.failAttempt why).manifest := ⟨rfl, rfl, rfl⟩

theorem FailedFrom.not_loading {u u' : ManifestState} (h : FailedFrom u u') : u'.phase ≠ .manifestLoading := by
  rw [h.phase]
  obtain hphase | hphase := phaseAfterFailure_cases u.attempts <;> simp [hphase]

/-- All of a manifest of known length is absorbed. -/
def wholeAbsorbed (u : ManifestState) : Prop := ∃ n, u.length = some n ∧ 64 * n ≤ u.absorbOffset

/-- The manifest unit goes on: the attempt counter and the window write set stay, and the phase changes only
when the check begins (R111). -/
theorem advanceManifest_phase (s : State) :
    s.advanceManifest.manifest.attempts = s.manifest.attempts ∧
    s.advanceManifest.manifest.windowWrites = s.manifest.windowWrites ∧
    (s.advanceManifest.manifest.phase = s.manifest.phase ∨
      s.manifest.phase = .manifestLoading ∧ s.advanceManifest.manifest.phase = .manifestCheck ∧
      s.manifest.windowWrites = [] ∧ wholeAbsorbed s.manifest) := by
  obtain ⟨hattempts, hwrites, -⟩ := phase_advanceManifest s
  refine ⟨hattempts, hwrites, ?_⟩
  unfold State.advanceManifest
  split
  · rename_i whole hphase hlength
    obtain ⟨n, hn, rfl⟩ := Option.map_eq_some_iff.1 hlength
    split
    · exact .inl rfl
    · split
      · split <;> exact .inl rfl
      · rename_i hleft
        split
        · rename_i hempty
          exact .inr ⟨hphase, rfl, List.isEmpty_iff.1 hempty, n, hn, Nat.not_lt.1 hleft⟩
        · exact .inl rfl
  · exact .inl rfl

theorem windowWrite_phase {s : State} (hphase : s.manifest.phase = .manifestLoading) (tag : Nat) (addr : Addr)
    (beats : List WriteBeat) :
    let u := (s.windowWrite tag addr beats).manifest
    u.phase = .manifestLoading ∧ u.attempts = s.manifest.attempts ∧ u.windowWrites ≠ [] ∨
      FailedFrom s.manifest u := by
  have hjoined : joinTail s.manifest.windowWrites tag ≠ [] :=
    List.ne_nil_of_mem ((mem_joinTail _ _ _).2 (.inr rfl))
  obtain ⟨hp, ha, hw⟩ | ⟨hp, ha, hw⟩ := phase_windowBeats beats (s := { s with manifest :=
    { s.manifest with windowWrites := joinTail s.manifest.windowWrites tag } }) hphase
    (addr.toNat - s.manifest.windowBase.toNat)
  · exact .inl ⟨hp, ha, fun h => hjoined (hw.symm.trans h)⟩
  · exact .inr ⟨hp, ha, hw⟩

/-- A window write in MANIFEST_LOADING: the manifest unit, gone on, is still loading with that write in
flight, or the attempt has failed. -/
theorem windowWritten_phase {s : State} (hphase : s.manifest.phase = .manifestLoading) (tag : Nat) (addr : Addr)
    (beats : List WriteBeat) :
    let u := (s.windowWrite tag addr beats).advanceManifest.manifest
    u.phase = .manifestLoading ∧ u.attempts = s.manifest.attempts ∨ FailedFrom s.manifest u := by
  obtain ⟨hattempts, hwrites, hgone⟩ := advanceManifest_phase (s.windowWrite tag addr beats)
  obtain ⟨hp, ha, hw⟩ | hfailed := windowWrite_phase hphase tag addr beats
  · obtain hsame | ⟨-, -, hempty, -⟩ := hgone
    · exact .inl ⟨hsame.trans hp, hattempts.trans ha⟩
    · exact absurd hempty hw
  · rw [advanceManifest_of_not_loading hfailed.not_loading]
    exact .inr hfailed

/-- What a response to a forwarded write brings to the manifest unit (R110). -/
theorem windowAnswered_cases (s : State) (tag : Nat) (status : LinkStatus) :
    tag ∉ s.manifest.windowWrites ∧ s.windowAnswered tag status = s ∨
    tag ∈ s.manifest.windowWrites ∧ status = .ok ∧ s.windowAnswered tag status =
      { s with manifest := { s.manifest with windowWrites := leave s.manifest.windowWrites tag } } ∨
    tag ∈ s.manifest.windowWrites ∧ status ≠ .ok ∧
      FailedFrom s.manifest (s.windowAnswered tag status).manifest := by
  unfold State.windowAnswered
  simp only [List.contains_iff_mem]
  split
  · rename_i hmem
    split
    · rename_i hok
      exact .inr (.inl ⟨hmem, hok, rfl⟩)
    · rename_i hok
      exact .inr (.inr ⟨hmem, hok, rfl, rfl, rfl⟩)
  · rename_i hmem
    exact .inl ⟨hmem, rfl⟩

/-- A response to a forwarded write, and the manifest unit gone on: nothing of the phase changes but that the
check begins, or a window write has failed the attempt (R110, R111). -/
theorem answered_phase (s : State) (tag : Nat) (status : LinkStatus) :
    let u := (s.windowAnswered tag status).advanceManifest.manifest
    (u.attempts = s.manifest.attempts ∧ (∀ w ∈ u.windowWrites, w ∈ s.manifest.windowWrites) ∧
      (u.phase = s.manifest.phase ∨ s.manifest.phase = .manifestLoading ∧ u.phase = .manifestCheck ∧
        u.windowWrites = [] ∧ wholeAbsorbed s.manifest ∧
        ∀ w ∈ s.manifest.windowWrites, w = tag ∧ status = .ok)) ∨
    tag ∈ s.manifest.windowWrites ∧ status ≠ .ok ∧ FailedFrom s.manifest u := by
  obtain ⟨hattempts, hwrites, hgone⟩ := advanceManifest_phase (s.windowAnswered tag status)
  obtain ⟨hmem, heq⟩ | ⟨hmem, hok, heq⟩ | ⟨hmem, hstatus, hfailed⟩ := windowAnswered_cases s tag status
  · rw [heq] at hattempts hwrites hgone ⊢
    refine .inl ⟨hattempts, fun w hw => hwrites ▸ hw, hgone.imp id ?_⟩
    rintro ⟨hphase, hcheck, hempty, hwhole⟩
    exact ⟨hphase, hcheck, hwrites.trans hempty, hwhole, by simp [hempty]⟩
  · rw [heq] at hattempts hwrites hgone ⊢
    refine .inl ⟨hattempts, fun w hw => ?_, hgone.imp id ?_⟩
    · rw [hwrites] at hw
      exact ((mem_leave _ _ _).1 hw).1
    · rintro ⟨hphase, hcheck, hempty, hwhole⟩
      refine ⟨hphase, hcheck, hwrites.trans hempty, hwhole, fun w hw => ⟨?_, hok⟩⟩
      refine Classical.byContradiction fun hne => ?_
      exact List.ne_nil_of_mem ((mem_leave _ _ _).2 ⟨hw, hne⟩) hempty
  · rw [advanceManifest_of_not_loading hfailed.not_loading]
    exact .inr ⟨hmem, hstatus, hfailed⟩

theorem startAttempt_loading {s : State}
    (hphase : s.manifest.phase = .manifestLoading ∨ s.manifest.phase = .rejected) :
    s.startAttempt.manifest.phase = .manifestLoading ∧
      s.startAttempt.manifest.attempts = s.manifest.attempts := by
  obtain heq | ⟨-, heq⟩ := startAttempt_eq s
  · rw [heq]
    refine ⟨hphase.resolve_right fun hrejected => ?_, rfl⟩
    have hstarted : s.startAttempt.manifest.phase = .manifestLoading := by
      rw [State.startAttempt, if_pos hrejected]
    rw [heq, hrejected] at hstarted
    cases hstarted
  · rw [heq]
    exact ⟨rfl, rfl⟩

/-! ### The attempt counter (R120) -/

theorem attemptsOk_of_failedFrom {u u' : ManifestState} (h : u.attemptsOk) (hphase : u.phase ≠ .lockout)
    (hsensing : u.phase ≠ .sensing) (hfailed : FailedFrom u u') : u'.attemptsOk := by
  obtain ⟨hcount, hlockout, -⟩ := h
  have hbelow : u.attempts ≠ 3 := fun hthree => hphase (hlockout.2 ⟨hthree, hsensing⟩)
  refine ⟨by rw [hfailed.attempts]; omega, ?_, fun hw => absurd hfailed.windowWrites hw⟩
  rw [hfailed.phase, hfailed.attempts, phaseAfterFailure]
  split
  · simp; omega
  · simp; omega

theorem attemptsOk_congr {u u' : ManifestState} (h : u.attemptsOk) (hattempts : u'.attempts = u.attempts)
    (hphase : u'.phase ≠ .lockout) (hold : u.phase ≠ .lockout) (hold' : u.phase ≠ .sensing)
    (hwrites : u'.windowWrites ≠ [] → u'.phase = .manifestLoading) : u'.attemptsOk := by
  obtain ⟨hcount, hlockout, -⟩ := h
  have hbelow : u.attempts ≠ 3 := fun hthree => hold (hlockout.2 ⟨hthree, hold'⟩)
  exact ⟨hattempts ▸ hcount, ⟨fun h => absurd h hphase, fun h => absurd (hattempts ▸ h.1) hbelow⟩, hwrites⟩

theorem attemptsOk_sensed {u : ManifestState} (h : u.attemptsOk) (anchors : Anchors) :
    (sensedManifest u anchors).attemptsOk := by
  obtain ⟨hcount, -, -⟩ := h
  refine ⟨hcount, ?_, fun hwrites => absurd rfl hwrites⟩
  change phaseAfterSensing u.attempts anchors = .lockout ↔
    u.attempts = 3 ∧ phaseAfterSensing u.attempts anchors ≠ .sensing
  unfold phaseAfterSensing
  (repeat' split) <;> simp [*]

theorem attemptsOk_of_effect {u u' : ManifestState} {c : Instr} (h : u.attemptsOk)
    (heffect : ManifestEffect u c u') : u'.attemptsOk := by
  have hwrites : ∀ phase, u.phase = phase → phase ≠ .manifestLoading → u.windowWrites = [] :=
    fun phase hp hne => Classical.byContradiction fun hw => hne (hp.symm.trans (h.2.2 hw))
  cases heffect with
  | same | straps | burnt => exact h
  | reset hc attempts reason hattempts =>
    refine ⟨?_, by simp [ManifestState.reset], fun hw => absurd rfl hw⟩
    obtain rfl | rfl := hattempts
    · exact Nat.zero_le 3
    · exact h.1
  | sensed p a hc hphase anchors => exact attemptsOk_sensed h anchors
  | checked hphase =>
    exact attemptsOk_congr h rfl nofun (by simp [hphase]) (by simp [hphase])
      fun hw => absurd (hwrites _ hphase (by decide)) hw
  | accepted hphase =>
    exact attemptsOk_congr h rfl nofun (by simp [hphase]) (by simp [hphase])
      fun hw => absurd (hwrites _ hphase (by decide)) hw
  | failed v hv hphase why =>
    subst hv
    exact attemptsOk_of_failedFrom h (by rcases hphase with ⟨hp, -⟩ | ⟨hp, -⟩ <;> simp [hp])
      (by rcases hphase with ⟨hp, -⟩ | ⟨hp, -⟩ <;> simp [hp]) (failedFrom_failAttempt v why)
  | windowWritten v hv tag addr beats hc hphase =>
    subst hv
    obtain ⟨hloading, hattempts⟩ := startAttempt_loading hphase
    have hlock : v.manifest.phase ≠ .lockout := by rcases hphase with hp | hp <;> simp [hp]
    have hsensing : v.manifest.phase ≠ .sensing := by rcases hphase with hp | hp <;> simp [hp]
    obtain ⟨hp, ha⟩ | ⟨hp, ha, hw⟩ := windowWritten_phase hloading tag addr beats
    · exact attemptsOk_congr h (ha.trans hattempts) (by simp [hp]) hlock hsensing fun _ => hp
    · rw [hattempts] at hp ha
      exact attemptsOk_of_failedFrom h hlock hsensing ⟨hp, ha, hw⟩
  | answered v hv tag status =>
    subst hv
    obtain ⟨ha, hw, hp | ⟨hp, hp', hempty, -⟩⟩ | ⟨hmem, -, hfailed⟩ := answered_phase v tag status
    · refine ⟨ha ▸ h.1, by rw [ha, hp]; exact h.2.1, fun hsome => hp.trans (h.2.2 ?_)⟩
      obtain ⟨w, hw'⟩ := List.exists_mem_of_ne_nil _ hsome
      exact List.ne_nil_of_mem (hw w hw')
    · exact attemptsOk_congr h ha (by simp [hp']) (by simp [hp]) (by simp [hp])
        fun hsome => absurd hempty hsome
    · have hp := h.2.2 (List.ne_nil_of_mem hmem)
      exact attemptsOk_of_failedFrom h (by simp [hp]) (by simp [hp]) hfailed
  | beatDone v hv =>
    subst hv
    obtain ⟨ha, hw, hp | ⟨hp, hp', hempty, -⟩⟩ := advanceManifest_phase v
    · exact ⟨ha ▸ h.1, by rw [ha, hp]; exact h.2.1, by rw [hw, hp]; exact h.2.2⟩
    · exact attemptsOk_congr h ha (by simp [hp']) (by simp [hp]) (by simp [hp])
        fun hsome => absurd (hw.trans hempty) hsome

/-! ### The phase table (R101) -/

theorem classify_of_inWindow {s : State} {addr : Addr} (h : inWindow s addr = true) :
    ∃ d, classify s addr.toNat = .window d := by
  obtain ⟨d, hd⟩ := Option.isSome_iff_exists.1 h
  exact ⟨d, (classify_eq_window_iff s _ d).2 ((windowOffset_eq_some_iff _ _ d).1 hd)⟩

/-- The window is fixed by the manifest unit alone. -/
theorem classify_window_congr {s v : State} (h : v.manifest = s.manifest) {a d : Nat}
    (hv : classify v a = .window d) : classify s a = .window d := by
  rw [classify_eq_window_iff] at hv ⊢
  rwa [h] at hv

theorem phaseAfterSensing_cases (attempts : Nat) (anchors : Anchors) :
    phaseAfterSensing attempts anchors = .lockout ∨ phaseAfterSensing attempts anchors = .unprovisioned ∨
      phaseAfterSensing attempts anchors = .manifestLoading := by
  unfold phaseAfterSensing
  (repeat' split) <;> simp

/-- A command writes into the manifest window of the unit. -/
def WritesWindow (u : ManifestState) (c : Instr) : Prop :=
  ∃ tag addr beats, c = .hostWriteAccept tag addr beats ∧ ∀ s : State, s.manifest = u →
    ∃ d, classify s addr.toNat = .window d

/-- The phases a command can lead to, each with the event of the phase table that leads there (R101). -/
inductive PhaseStep (u : ManifestState) (c : Instr) : Phase → Prop where
  | stays : PhaseStep u c u.phase
  | reset (hc : c = .coldReset ∨ c = .warmReset) : PhaseStep u c .sensing
  | sensed (hphase : u.phase = .sensing) {p : SlotReading} {a : Option Digest} (hc : c = .sensingDone p a)
      {phase : Phase} (hafter : phase = .lockout ∨ phase = .unprovisioned ∨ phase = .manifestLoading) :
      PhaseStep u c phase
  | beatFails (hphase : u.phase = .manifestLoading) (hwrites : WritesWindow u c) {phase : Phase}
      (hafter : phase = .rejected ∨ phase = .lockout) : PhaseStep u c phase
  | lastBeat (hphase : u.phase = .manifestLoading) (hc : c = .manifestBeatStepDone)
      (habsorbed : wholeAbsorbed u) (hempty : u.windowWrites = []) : PhaseStep u c .manifestCheck
  | lastResponse (hphase : u.phase = .manifestLoading) {tag : Nat} {status : LinkStatus}
      (hc : writeResponse c tag status) (habsorbed : wholeAbsorbed u)
      (hlast : ∀ w ∈ u.windowWrites, w = tag ∧ status = .ok) : PhaseStep u c .manifestCheck
  | responseFails (hphase : u.phase = .manifestLoading) {tag : Nat} {status : LinkStatus}
      (hc : writeResponse c tag status) (hmem : tag ∈ u.windowWrites) (hstatus : status ≠ .ok) {phase : Phase}
      (hafter : phase = .rejected ∨ phase = .lockout) : PhaseStep u c phase
  | checked (hphase : u.phase = .manifestCheck) (hc : c = .manifestCheckDone) {phase : Phase}
      (hafter : phase = .parsing ∨ phase = .rejected ∨ phase = .lockout) : PhaseStep u c phase
  | parsed (hphase : u.phase = .parsing) (hc : c = .parsingDone) {phase : Phase}
      (hafter : phase = .armed ∨ phase = .rejected ∨ phase = .lockout) : PhaseStep u c phase
  | retried (hphase : u.phase = .rejected) (hwrites : WritesWindow u c) {phase : Phase}
      (hafter : phase = .manifestLoading ∨ phase = .lockout) : PhaseStep u c phase

theorem writesWindow_of_inWindow {v : State} {tag : Nat} {addr : Addr} {beats : List WriteBeat} {c : Instr}
    (hc : c = .hostWriteAccept tag addr beats) (hwindow : inWindow v addr = true) :
    WritesWindow v.manifest c := by
  obtain ⟨d, hd⟩ := classify_of_inWindow hwindow
  exact ⟨tag, addr, beats, hc, fun s hs => ⟨d, classify_window_congr hs.symm hd⟩⟩

theorem FailedFrom.cases {u u' : ManifestState} (h : FailedFrom u u') :
    u'.phase = .rejected ∨ u'.phase = .lockout := h.phase ▸ phaseAfterFailure_cases _

theorem phaseStep_of_effect {u u' : ManifestState} {c : Instr} (h : u.attemptsOk)
    (heffect : ManifestEffect u c u') : PhaseStep u c u'.phase := by
  have hstays : ∀ {phase : Phase}, phase = u.phase → PhaseStep u c phase := fun hp => hp ▸ .stays
  cases heffect with
  | same | straps | burnt => exact .stays
  | reset hc => exact .reset hc
  | sensed p a hc hphase anchors => exact .sensed hphase hc (phaseAfterSensing_cases _ anchors)
  | checked hphase hc => exact .checked hphase hc (.inl rfl)
  | accepted hphase hc => exact .parsed hphase hc (.inl rfl)
  | failed v hv hphase why =>
    have hafter := (failedFrom_failAttempt v why).cases
    rcases hphase with ⟨hp, hc⟩ | ⟨hp, hc⟩
    · exact .checked hp hc (.inr hafter)
    · exact .parsed hp hc (.inr hafter)
  | windowWritten v hv tag addr beats hc hphase hwindow =>
    subst hv
    obtain ⟨hloading, -⟩ := startAttempt_loading hphase
    have hwrites := writesWindow_of_inWindow hc hwindow
    have hafter := windowWritten_phase hloading tag addr beats
    obtain hload | hrejected := hphase
    · exact hafter.elim (fun h => hstays (h.1.trans hload.symm)) fun h => .beatFails hload hwrites h.cases
    · obtain h | h := hafter
      · exact .retried hrejected hwrites (.inl h.1)
      · exact h.cases.elim (fun hback => hstays (hback.trans hrejected.symm))
          fun hlocked => .retried hrejected hwrites (.inr hlocked)
  | answered v hv tag status hc =>
    subst hv
    obtain ⟨-, -, hp | ⟨hp, hp', -, hwhole, hlast⟩⟩ | ⟨hmem, hstatus, hfailed⟩ := answered_phase v tag status
    · exact hstays hp
    · exact hp' ▸ .lastResponse hp hc hwhole hlast
    · exact .responseFails (h.2.2 (List.ne_nil_of_mem hmem)) hc hmem hstatus hfailed.cases
  | beatDone v hv hc =>
    subst hv
    obtain ⟨-, -, hp | ⟨hp, hp', hempty, hwhole⟩⟩ := advanceManifest_phase v
    · exact hstays hp
    · exact hp' ▸ .lastBeat hp hc hwhole hempty

/-- Settles O51: the phase by the event that leads to it, and the counter event by event. -/
theorem phaseChanges : Obligations.PhaseChanges := by
  refine ⟨fun c s t hok hexec => ?changes, fun s t => ?attempts⟩
  case attempts =>
    exact step_keeps (P := fun s => s.manifest.attemptsOk) (fun _ _ h => h)
      (fun h heffect => attemptsOk_of_effect h (manifestEffect_of_effect heffect))
  case changes =>
    have hstep := phaseStep_of_effect hok (manifestEffect_of_effect (exec_effect hexec))
    have hwindow : WritesWindow s.manifest c → ∃ tag addr beats d, c = .hostWriteAccept tag addr beats ∧
        classify s addr.toNat = .window d := by
      rintro ⟨tag, addr, beats, hc, hin⟩
      obtain ⟨d, hd⟩ := hin s rfl
      exact ⟨tag, addr, beats, d, hc, hd⟩
    generalize t.manifest.phase = phase at hstep ⊢
    cases hstep with
    | stays => exact .inl rfl
    | reset hc => exact .inr <| .inl ⟨hc, rfl⟩
    | sensed hphase hc hafter => exact .inr <| .inr <| .inl ⟨hphase, ⟨_, _, hc⟩, hafter⟩
    | beatFails hphase hwrites hafter =>
      exact .inr <| .inr <| .inr <| .inl ⟨hphase, hwindow hwrites, hafter⟩
    | lastBeat hphase hc habsorbed hempty =>
      exact .inr <| .inr <| .inr <| .inr <| .inl ⟨hphase, hc, habsorbed, hempty, rfl⟩
    | lastResponse hphase hc habsorbed hlast =>
      exact .inr <| .inr <| .inr <| .inr <| .inr <| .inl
        ⟨hphase, _, _, hc, .inl ⟨rfl, habsorbed, hlast⟩⟩
    | responseFails hphase hc hmem hstatus hafter =>
      exact .inr <| .inr <| .inr <| .inr <| .inr <| .inl
        ⟨hphase, _, _, hc, .inr ⟨hafter, hmem, hstatus⟩⟩
    | checked hphase hc hafter =>
      exact .inr <| .inr <| .inr <| .inr <| .inr <| .inr <| .inl ⟨hphase, hc, hafter⟩
    | parsed hphase hc hafter =>
      exact .inr <| .inr <| .inr <| .inr <| .inr <| .inr <| .inr <| .inl ⟨hphase, hc, hafter⟩
    | retried hphase hwrites hafter =>
      exact .inr <| .inr <| .inr <| .inr <| .inr <| .inr <| .inr <| .inr
        ⟨hphase, hwindow hwrites, hafter⟩

end Sys2Proof.Proofs

/-! How an event changes the measuring blocks: images move forwards, or a REOPEN is carried out, or the tables
are set at ARMED. -/

namespace Sys2Proof.Proofs
open Sys2Proof.Machine Sys2Proof.Laws

/-! ### A command and header beat 1 (R153, R155) -/

/-- What a command carries out on the measuring blocks: nothing is reopened but by a REOPEN that is new and
passes its checks. -/
theorem takeCommand_measure (s : State) (seq : BitVec 8) (kind : Option CommandKind) (i : Nat) :
    Evolves s.measure (takeCommand s seq kind i).measure ∨
      kind = some .reopen ∧ seq ≠ s.report.lastSeq ∧ commandResult s (some .reopen) i = .done ∧
        (takeCommand s seq kind i).measure = s.measure.reopenClosure i := by
  unfold takeCommand
  split
  · exact .inl (.refl _)
  · rename_i htaken
    simp only
    split
    · rename_i k hdone
      cases k with
      | reopen => exact .inr ⟨rfl, fun h => htaken (.inr h), hdone, rfl⟩
      | abandon => exact .inl (evolves_breakImage _ _ _)
      | resend => exact .inl (evolves_enqueue _ _)
      | resume => exact .inl (.refl _)
    · exact .inl (.refl _)

/-- A write of header beat 1 is measured nowhere (R97, R98). -/
theorem measureWrite_header (m : MeasureState) (tag : Nat) (b : WriteBeat) :
    m.measureWrite tag (imageBeats [.header 1] [b]) = m.addEntry tag := rfl

theorem commandKind_eq_reopen {code : BitVec 8} (h : commandKind code = some .reopen) : code = 1 := by
  refine Classical.byContradiction fun hother => ?_
  rw [commandKind, if_neg hother] at h
  (repeat' split at h) <;> cases h

/-- The consumer field of a write of header beat 1, before its command. -/
def takeConsumerField (s : State) (b : WriteBeat) : State :=
  if strobed b [0, 1] then
    let value := BitVec.ofNat 16 (littleEndian [beatByte b.data 0, beatByte b.data 1])
    { s with report := s.report.takeConsumer value }
  else s

theorem snoopHeader_eq (s : State) (b : WriteBeat) : snoopHeader s b =
    if strobed b [2, 3, 4] then
      takeCommand (takeConsumerField s b) (beatByte b.data 2) (commandKind (beatByte b.data 3))
        (beatByte b.data 4).toNat
    else takeConsumerField s b := rfl

/-- The consumer field moves the consumer index alone. -/
theorem takeConsumerField_eq (s : State) (b : WriteBeat) : ∃ consumer,
    takeConsumerField s b = { s with report := { s.report with consumer := consumer } } := by
  unfold takeConsumerField ReportState.takeConsumer
  simp only
  split
  · split
    · exact ⟨_, rfl⟩
    · split <;> exact ⟨_, rfl⟩
  · exact ⟨_, rfl⟩

/-! ### A reopen taken -/

/-- The command reopens image x and its dependents: a REOPEN that is new and passes its checks. -/
def ReopenTaken (s : State) (c : Instr) (x : Nat) : Prop :=
  ∃ seq image : BitVec 8,
    (c = .reopen seq image ∨ ∃ tag addr b, c = .hostWriteAccept tag addr [b] ∧
      classify s addr.toNat = .header 1 ∧ b.data.extractLsb' 24 8 = 1 ∧
      b.data.extractLsb' 16 8 = seq ∧ b.data.extractLsb' 32 8 = image) ∧
    seq ≠ s.report.lastSeq ∧ commandResult s (some .reopen) image.toNat = .done ∧ image.toNat = x

/-- What an event does to the measuring blocks, before the follow-ups of its end. -/
inductive PoolChange (s : State) (c : Instr) (m : MeasureState) : Prop where
  | moves (hmoves : Moves s.measure m)
  | reopened {entered : MeasureState} {x : Nat} (hmoves : Moves s.measure entered)
      (himages : entered.images = s.measure.images) (hm : m = entered.reopenClosure x)
      (htaken : ReopenTaken s c x)
  | armed {contents : Contents} {n : Nat} (hphase : s.manifest.phase = .parsing)
      (hparse : parseManifest s.manifest.buffer n s.manifest.windowBase = .ok contents)
      (hm : m = s.measure.armed contents)

/-- A forwarded write in ARMED by its regions: header beat 1 is snooped, any other write is measured alone
(R97, R98). -/
theorem handOffArmed_cases (s : State) (tag : Nat) (addr : Addr) (beats : List WriteBeat) :
    (∃ b, beats = [b] ∧ classify s addr.toNat = .header 1 ∧
      handOffArmed s tag addr beats = snoopHeader { s with measure := s.measure.addEntry tag } b) ∨
    handOffArmed s tag addr beats = { s with
      measure := s.measure.measureWrite tag (imageBeats (classifyBeats s addr beats.length) beats) } := by
  unfold handOffArmed
  simp only
  split
  · rename_i regions b hregions
    have hclass : classify s addr.toNat = .header 1 := by
      simpa [classifyBeats, beatAddress] using hregions
    exact .inl ⟨b, rfl, hclass, by rw [hregions, measureWrite_header]⟩
  · exact .inr rfl

theorem poolChange_handOffArmed {s u : State} {tag : Nat} {addr : Addr} {beats : List WriteBeat}
    (hmeasure : u.measure = s.measure) (hreport : u.report = s.report) (hmanifest : u.manifest = s.manifest) :
    PoolChange s (.hostWriteAccept tag addr beats) (handOffArmed u tag addr beats).measure := by
  have hadd : Moves s.measure (s.measure.addEntry tag) := moves_addEntry _ tag
  obtain ⟨b, rfl, hclass, heq⟩ | heq := handOffArmed_cases u tag addr beats
  · rw [heq, snoopHeader_eq]
    obtain ⟨consumer, hconsumer⟩ := takeConsumerField_eq { u with measure := u.measure.addEntry tag } b
    rw [hconsumer, hmeasure, hreport]
    split
    · obtain hevolves | ⟨hkind, hseq, hdone, hm⟩ := takeCommand_measure { u with
          measure := s.measure.addEntry tag, report := { s.report with consumer := consumer } }
        (beatByte b.data 2) (commandKind (beatByte b.data 3)) (beatByte b.data 4).toNat
      · exact .moves (hadd.trans hevolves.moves)
      · refine .reopened hadd rfl hm ⟨_, _, .inr ⟨tag, addr, b, rfl, ?_, commandKind_eq_reopen hkind, rfl, rfl⟩,
          hseq, hdone, rfl⟩
        unfold classify at hclass ⊢
        rwa [hmeasure, hreport, hmanifest] at hclass
    · exact .moves hadd
  · rw [heq, hmeasure]
    exact .moves (moves_measureWrite _ _ _)

theorem moves_windowWrite {s u : State} (hmoves : Moves s.measure u.measure) (tag : Nat) (addr : Addr)
    (beats : List WriteBeat) :
    Moves s.measure (u.startAttempt.windowWrite tag addr beats).advanceManifest.measure :=
  hmoves.trans ((work_startAttempt u).trans ((work_windowWrite _ tag addr beats).trans
    (work_advanceManifest _))).evolves.moves

theorem poolChange_handOff (s : State) (tag : Nat) (addr : Addr) (beats : List WriteBeat) :
    PoolChange s (.hostWriteAccept tag addr beats)
      (handOff (enteredWrite s tag addr beats) tag addr beats).measure := by
  have hadd : Moves s.measure (s.measure.addEntry tag) := moves_addEntry _ tag
  have hwindow := fun u h => PoolChange.moves (c := .hostWriteAccept tag addr beats)
    (moves_windowWrite (s := s) (u := u) h tag addr beats)
  unfold handOff
  split
  · exact poolChange_handOffArmed rfl rfl rfl
  · simp only
    split
    · exact hwindow { enteredWrite s tag addr beats with measure := s.measure.addEntry tag } hadd
    · exact .moves hadd
  · simp only
    split
    · exact hwindow { enteredWrite s tag addr beats with measure := s.measure.addEntry tag } hadd
    · exact .moves hadd
  · exact .moves hadd

/-! ### Every event -/

theorem poolChange_of_effect {s : State} {c : Instr} {m : MeasureState} (heffect : PoolEffect s c m) :
    PoolChange s c m := by
  have hmanifest : ∀ {u v : State}, Moves s.measure u.measure → ManifestWork u v → PoolChange s c v.measure :=
    fun h hwork => .moves (h.trans hwork.evolves.moves)
  cases heffect with
  | unseen => exact .moves (.refl _)
  | handedOff tag addr beats hc hform => exact hc ▸ poolChange_handOff s tag addr beats
  | answered link tag status =>
    exact hmanifest (u := { s with link := link, measure := s.measure.writeAnswered tag status })
      (moves_writeAnswered _ _ _) ((work_windowAnswered _ _ _).trans (work_advanceManifest _))
  | tagSet k hidle => exact .moves (evolves_setRefillTag _ _ _).moves
  | chunk => exact .moves ((evolves_setRefillTag _ _ _).trans (evolves_deliverChunk _ _ _ _ _)).moves
  | refillBroken k hidle i why =>
    exact .moves ((evolves_setRefillTag _ _ _).trans (evolves_breakImage _ _ _)).moves
  | reportFailed r target => exact .moves (evolves_reportFailed _ _ _).moves
  | command seq image kind hc =>
    obtain hevolves | ⟨hkind, hseq, hdone, hm⟩ := takeCommand_measure s seq (some kind) image.toNat
    · exact .moves hevolves.moves
    · obtain rfl := Option.some.inj hkind
      exact .reopened (.refl _) rfl hm ⟨seq, image, .inl hc, hseq, hdone, rfl⟩
  | stepEnd hend => exact .moves hend.evolves.moves
  | manifestBeat =>
    exact hmanifest (u := { s with measure := s.measure.modEngine 0 (Engine.manifestBeatDone s.measure.now) })
      (evolves_modEngine _ _ _).moves (work_advanceManifest _)
  | checkEnded => exact .moves (evolves_modEngine _ _ _).moves
  | unmatched hphase why =>
    exact hmanifest (u := { s with measure := s.measure.modEngine 0 Engine.endCheck })
      (evolves_modEngine _ _ _).moves (work_failAttempt _ why)
  | rejected why => exact hmanifest (.refl _) (work_failAttempt s why)
  | accepted hphase hparse => exact .armed hphase hparse rfl
  | burnt => exact .moves (evolves_enqueue _ _).moves

/-! ### The tables (R1, R2, R3) -/

theorem PoolChange.tables {s : State} {c : Instr} {m : MeasureState} (h : PoolChange s c m) :
    SameTables s.measure m ∨ ∃ contents n,
      parseManifest s.manifest.buffer n s.manifest.windowBase = .ok contents ∧
        m = s.measure.armed contents := by
  cases h with
  | moves hmoves => exact .inl hmoves.tables
  | reopened hmoves _ hm => exact .inl (hm ▸ hmoves.tables.trans (tables_reopenClosure _ _))
  | armed _ hparse hm => exact .inr ⟨_, _, hparse, hm⟩

/-- A property of the tables that holds without images and when they are set at ARMED, every event keeps. -/
theorem tables_kept {P : MeasureState → Prop} (hreset : P .reset)
    (hsame : ∀ {m m' : MeasureState}, SameTables m m' → P m → P m')
    (harmed : ∀ {buffer : List (Nat × Beat)} {n : Nat} {base : Addr} {contents : Contents} (m : MeasureState),
      parseManifest buffer n base = .ok contents → P (m.armed contents))
    {s t : State} {c : Instr} (hs : P s.measure) (heffect : Effect s c t) : P t.measure := by
  cases poolAfter_of_effect heffect with
  | same h => rwa [h]
  | reset h => rwa [h]
  | settled hpool =>
    refine hsame (tables_settle _) ?_
    obtain htables | ⟨contents, n, hparse, hm⟩ := (poolChange_of_effect hpool).tables
    · exact hsame htables hs
    · exact hm ▸ harmed s.measure hparse

theorem predecessorsLower_of_effect {s t : State} {c : Instr} (hs : s.measure.predecessorsLower)
    (heffect : Effect s c t) : t.measure.predecessorsLower :=
  tables_kept (P := MeasureState.predecessorsLower)
    (fun i g p hg => by simp [image?_of_images_nil (m := .reset) rfl] at hg)
    SameTables.lower (fun m hparse => lower_armed (parse_tables hparse).2 (armed_tables m _).2) hs heffect

theorem segmentsCover_of_effect {s t : State} {c : Instr} (hs : s.measure.segmentsCover)
    (heffect : Effect s c t) : t.measure.segmentsCover :=
  tables_kept (P := MeasureState.segmentsCover)
    (fun i g x hg => by simp [image?_of_images_nil (m := .reset) rfl] at hg)
    SameTables.cover (fun m hparse => cover_armed (parse_tables hparse).1 (armed_tables m _).1
      (armed_tables m _).2) hs heffect

end Sys2Proof.Proofs

/-! What every step keeps of the measuring blocks: the run table, the pool, the place of the runs, the queues
without repeats, and the pool settled. -/

namespace Sys2Proof.Proofs
open Sys2Proof.Machine Sys2Proof.Laws

/-! ### The run table (R20, R21, R22) -/

theorem runTableOk_of_images_nil {m : MeasureState} (h : m.images = []) : m.runTableOk := by
  simp [MeasureState.runTableOk, MeasureState.entriesUsed, MeasureState.slotsUsed, h]

theorem runTableOk_armed (m : MeasureState) (contents : Contents) : (m.armed contents).runTableOk := by
  have hruns : ∀ g ∈ (m.armed contents).images, g.runs = [] := by
    simp [armed_tables, imageTable, declaredImage]
  have hzero : ∀ w : Image → Nat, (∀ g, g.runs = [] → w g = 0) →
      ((m.armed contents).images.map w).sum = 0 := by
    intro w hw
    rw [List.map_congr_left fun g hg => hw g (hruns g hg), List.map_const', List.sum_replicate_nat, Nat.mul_zero]
  refine ⟨fun g hg => hruns g hg ▸ runsOk_nil, ?_, ?_⟩
  · rw [MeasureState.entriesUsed, hzero _ fun g hg => by rw [Image.entriesUsed, hg]; rfl]
    exact Nat.zero_le _
  · rw [MeasureState.slotsUsed, hzero _ fun g hg => by rw [Image.slotsUsed, hg]; rfl]
    exact Nat.zero_le _

theorem runTableOk_takeCommand {s : State} (seq : BitVec 8) (kind : Option CommandKind) (i : Nat)
    (h : s.measure.runTableOk) : (takeCommand s seq kind i).measure.runTableOk := by
  obtain hevolves | ⟨-, -, -, hm⟩ := takeCommand_measure s seq kind i
  · exact hevolves.runTableOk h
  · rw [hm]
    exact (reopens_closure _ _).runTableOk h

theorem runTableOk_snoopHeader {s : State} (b : WriteBeat) (h : s.measure.runTableOk) :
    (snoopHeader s b).measure.runTableOk := by
  obtain ⟨consumer, hconsumer⟩ := takeConsumerField_eq s b
  rw [snoopHeader_eq, hconsumer]
  split
  · exact runTableOk_takeCommand _ _ _ h
  · exact h

theorem runTableOk_handOff {s : State} (tag : Nat) (addr : Addr) {beats : List WriteBeat}
    (hbeats : beats.length ≤ 16) (h : s.measure.runTableOk) : (handOff s tag addr beats).measure.runTableOk := by
  have hwindow : ∀ u : State, u.measure = s.measure.addEntry tag →
      (u.startAttempt.windowWrite tag addr beats).advanceManifest.measure.runTableOk := by
    intro u hu
    refine ((work_startAttempt u).trans ((work_windowWrite _ tag addr beats).trans
      (work_advanceManifest _))).evolves.runTableOk ?_
    rw [hu]
    exact h
  unfold handOff
  split
  · obtain ⟨b, rfl, -, heq⟩ | heq := handOffArmed_cases s tag addr beats
    · rw [heq]
      exact runTableOk_snoopHeader _ h
    · rw [heq]
      exact measureWrite_runTableOk tag (by simpa [imageBeats, classifyBeats] using hbeats) h
  · simp only
    split
    · exact hwindow _ rfl
    · exact h
  · simp only
    split
    · exact hwindow _ rfl
    · exact h
  · exact h

theorem length_le_of_not_malformed {l : LinkState} {kind : LinkKind} {tag : Nat} {addr : Addr} {n : Nat}
    (h : malformed l kind tag addr n = false) : n ≤ 16 :=
  let ⟨_, _, _, hle⟩ := not_malformed h
  hle

theorem runTableOk_of_poolEffect {s : State} {c : Instr} {m : MeasureState} (h : s.measure.runTableOk)
    (heffect : PoolEffect s c m) : m.runTableOk := by
  cases heffect with
  | unseen => exact h
  | handedOff tag addr beats _ hform =>
    exact runTableOk_handOff (s := enteredWrite s tag addr beats) tag addr (length_le_of_not_malformed hform) h
  | answered link tag status =>
    exact ((work_windowAnswered _ tag status).trans (work_advanceManifest _)).evolves.runTableOk
      (writeAnswered_runTableOk tag status h)
  | tagSet k hidle => exact (evolves_setRefillTag _ _ _).runTableOk h
  | chunk => exact ((evolves_setRefillTag _ _ _).trans (evolves_deliverChunk _ _ _ _ _)).runTableOk h
  | refillBroken k hidle i why =>
    exact ((evolves_setRefillTag _ _ _).trans (evolves_breakImage _ _ _)).runTableOk h
  | reportFailed r target => exact (evolves_reportFailed _ _ _).runTableOk h
  | command seq image kind hc => exact runTableOk_takeCommand _ _ _ h
  | stepEnd hend => exact hend.evolves.runTableOk h
  | manifestBeat =>
    exact (work_advanceManifest _).evolves.runTableOk ((evolves_modEngine s.measure 0 _).runTableOk h)
  | checkEnded => exact (evolves_modEngine _ _ _).runTableOk h
  | unmatched hphase why =>
    exact (work_failAttempt _ why).evolves.runTableOk ((evolves_modEngine s.measure 0 _).runTableOk h)
  | rejected why => exact (work_failAttempt s why).evolves.runTableOk h
  | accepted => exact runTableOk_armed _ _
  | burnt => exact (evolves_enqueue _ _).runTableOk h

theorem runTableOk_of_effect {s t : State} {c : Instr} (h : s.measure.runTableOk)
    (heffect : Effect s c t) : t.measure.runTableOk := by
  cases poolAfter_of_effect heffect with
  | same hsame => rwa [hsame]
  | reset hreset => exact hreset ▸ runTableOk_of_images_nil rfl
  | settled hpool =>
    exact runTableOk_congr rfl ((evolves_settle _).runTableOk (runTableOk_of_poolEffect h hpool))

/-! ### The pool and the place of the runs (R19, R47, R50, R52, R62, R70, R72) -/

theorem images_nil_of_phase {s : State} (htables : s.tablesOk) {phase : Phase}
    (hphase : s.manifest.phase = phase) (hne : phase ≠ .armed) : s.measure.images = [] :=
  (htables (hphase ▸ hne)).1

theorem workKept_of_poolEffect {s : State} {c : Instr} {m : MeasureState} (hwork : workKept s.measure)
    (htables : s.tablesOk) (heffect : PoolEffect s c m) : workKept m := by
  have hrun := hwork.1
  have hkept := hwork.2.1
  have htag : ∀ k {r : RefillTag}, idleTag r → workKept (s.measure.setRefillTag k r) := fun k r hidle =>
    (evolves_setRefillTag _ _ _).work hwork ((weaker_setRefillTag _ k r hidle).kept hkept)
  cases heffect with
  | unseen => exact hwork
  | handedOff tag addr beats _ hform =>
    exact work_handOff (s := enteredWrite s tag addr beats) tag addr beats (malformed_aligned hform)
      (length_le_of_not_malformed hform) hwork
  | answered link tag status =>
    have hanswered : workKept (s.measure.writeAnswered tag status) :=
      ⟨writeAnswered_runTableOk tag status hrun, kept_writeAnswered tag status hkept,
        (moves_writeAnswered _ _ _).waitList hwork.2.2⟩
    exact work_manifest ((work_windowAnswered _ tag status).trans (work_advanceManifest _))
      (kept_advanceManifest (kept_windowAnswered tag status hanswered.2.1)) hanswered
  | tagSet k hidle => exact htag k hidle
  | chunk hattached hbeats =>
    exact ((evolves_setRefillTag _ _ _).trans (evolves_deliverChunk _ _ _ _ _)).work hwork
      (kept_deliver hrun hkept hattached hbeats)
  | refillBroken k hidle i why => exact work_breakImage i why (htag k hidle)
  | reportFailed r target =>
    exact (evolves_reportFailed _ _ _).work hwork ((weaker_reportFailed _ r target).kept hkept)
  | command seq image kind hc => exact work_takeCommand _ _ _ hwork
  | stepEnd hend => exact hend.evolves.work hwork (kept_stepEnd hrun hkept hend)
  | manifestBeat hbeat =>
    have hdone := kept_manifestBeatDone s.measure.now hkept hbeat
    exact work_manifest (work_advanceManifest _) (kept_advanceManifest hdone)
      ((evolves_modEngine s.measure 0 _).work hwork hdone)
  | checkEnded hphase =>
    exact (evolves_modEngine _ _ _).work hwork
      (kept_endCheck hkept (images_nil_of_phase htables hphase (by decide)))
  | unmatched hphase why =>
    have hended := kept_endCheck hkept (images_nil_of_phase htables hphase (by decide))
    exact work_manifest (work_failAttempt _ why) (kept_failAttempt why hended)
      ((evolves_modEngine s.measure 0 _).work hwork hended)
  | rejected why => exact work_manifest (work_failAttempt s why) (kept_failAttempt why hkept) hwork
  | accepted hphase hparse =>
    exact ⟨runTableOk_armed _ _, kept_armed hparse (images_nil_of_phase htables hphase (by decide)) hkept,
      List.nodup_nil⟩
  | burnt => exact work_same (m := s.measure) rfl hwork

theorem engine_reset (e : EngineId) : MeasureState.reset.engines[e] = idleEngine := by
  revert e
  decide

theorem refillTag_reset (k : Fin 8) : MeasureState.reset.refillTags[k] = .free := by
  revert k
  decide

theorem poolOk_reset : MeasureState.reset.poolOk where
  engines e := by rw [engine_reset]; constructor <;> simp [idleEngine]
  single e e' i h := by rw [engine_reset] at h; cases h
  bound e i h := by rw [engine_reset] at h; cases h
  handOff i g h := by simp [image?_of_images_nil (m := .reset) rfl] at h
  pins e p h := by rw [engine_reset] at h; cases h
  waiting i h := by simp [MeasureState.reset] at h
  claims e i h := by rw [engine_reset] at h; cases h
  requests q h := by simp [MeasureState.reset] at h
  once := List.Pairwise.nil
  attached k i e n := by
    rintro ⟨start, address, h⟩
    rw [refillTag_reset] at h
    cases h

theorem workKept_of_images_nil {m : MeasureState} (himages : m.images = []) (hsegments : m.segments = [])
    (hwait : m.waitList = []) (hpool : m.poolOk) : workKept m := by
  refine ⟨runTableOk_of_images_nil himages, ⟨hpool, ?_, ?_⟩, ?_⟩
  · simp [MeasureState.segmentsOk, hsegments]
  · simp [himages]
  · simp [hwait]

theorem workKept_reset : workKept .reset := workKept_of_images_nil rfl rfl rfl poolOk_reset

theorem workKept_of_effect {s t : State} {c : Instr} (hwork : workKept s.measure) (htables : s.tablesOk)
    (heffect : Effect s c t) : workKept t.measure := by
  cases poolAfter_of_effect heffect with
  | same hsame => rwa [hsame]
  | reset hreset => exact hreset ▸ workKept_reset
  | settled hpool => exact work_settle (workKept_of_poolEffect hwork htables hpool)

/-- Settles O53: the run table by itself, and the pool with the places by the laws of the pool. -/
theorem runTableKept : Obligations.RunTableKept := by
  constructor
  · intro s t
    exact step_keeps (P := fun s => s.measure.runTableOk) (fun _ _ h => h) runTableOk_of_effect
  · intro s t hrun hplaces hpool hwait htables hstep
    obtain rfl | ⟨c, rest, heffect⟩ := step_effect hstep
    · exact ⟨hplaces, hpool⟩
    · obtain ⟨-, ⟨hpool', hplaces'⟩, -⟩ :=
        workKept_of_effect (s := { s with pending := rest }) ⟨hrun, ⟨hpool, hplaces⟩, hwait⟩ htables heffect
      exact ⟨hplaces', hpool'⟩

/-! ### The pool settled (R50, R51, R52, R56, R63, R72, R81) -/

/-- Without images, and with no request pending, nothing is left to act on. -/
theorem poolSettled_of_images_nil {m : MeasureState} (himages : m.images = []) (hwait : m.waitList = [])
    (hrequests : m.refillPending = []) (hclaims : ∀ e : EngineId, m.engines[e].claimant = none)
    (hbound : ∀ e : EngineId, m.engines[e].bound = none) : m.poolSettled where
  waiting i := by simp [hwait, ready_of_images_nil himages]
  arbiter h := absurd hwait h
  claims e i h := nomatch (hclaims e).symm.trans h
  holding e i _ _ := ready_of_images_nil himages i
  pinned e p _ _ h := by simp [ready_of_images_nil himages] at h
  awaiting e i _ h := nomatch (hbound e).symm.trans h
  served h := absurd hrequests h

theorem poolSettled_reset : MeasureState.reset.poolSettled :=
  poolSettled_of_images_nil rfl rfl rfl (fun e => congrArg Engine.claimant (engine_reset e))
    fun e => congrArg Engine.bound (engine_reset e)

theorem segmentsCover_of_poolEffect {s : State} {c : Instr} {m : MeasureState} (h : s.measure.segmentsCover)
    (heffect : PoolEffect s c m) : m.segmentsCover := by
  obtain htables | ⟨contents, n, hparse, rfl⟩ := (poolChange_of_effect heffect).tables
  · exact htables.cover h
  · obtain ⟨hsegments, himages⟩ := armed_tables s.measure contents
    exact cover_armed (parse_tables hparse).1 hsegments himages

theorem poolSettled_of_effect {s t : State} {c : Instr} (hsettled : s.measure.poolSettled)
    (hwork : workKept s.measure) (htables : s.tablesOk) (hcover : s.measure.segmentsCover)
    (heffect : Effect s c t) : t.measure.poolSettled := by
  cases poolAfter_of_effect heffect with
  | same hsame => rwa [hsame]
  | reset hreset => exact hreset ▸ poolSettled_reset
  | settled hpool =>
    exact settled_settle (workKept_of_poolEffect hwork htables hpool) (segmentsCover_of_poolEffect hcover hpool)

/-! ### The report queue and the wait list without repeats (R50, R142) -/

/-- Neither queue holds anything twice. -/
def queuesNodup (m : MeasureState) : Prop := m.subjects.Nodup ∧ m.waitList.Nodup

theorem PoolChange.nodup {s : State} {c : Instr} {m : MeasureState} (h : PoolChange s c m)
    (hs : queuesNodup s.measure) : queuesNodup m := by
  cases h with
  | moves hmoves => exact ⟨hmoves.subjects hs.1, hmoves.waitList hs.2⟩
  | @reopened entered x hmoves _ hm =>
    have hreopens := reopens_closure entered x
    exact hm ▸ ⟨hreopens.subjects (hmoves.subjects hs.1), hreopens.waitList (hmoves.waitList hs.2)⟩
  | armed _ _ hm => exact hm ▸ ⟨List.nodup_cons.2 ⟨List.not_mem_nil, List.nodup_nil⟩, List.nodup_nil⟩

theorem queuesNodup_of_effect {s t : State} {c : Instr} (hs : queuesNodup s.measure)
    (heffect : Effect s c t) : queuesNodup t.measure := by
  cases poolAfter_of_effect heffect with
  | same hsame => rwa [hsame]
  | reset hreset => exact hreset ▸ ⟨List.nodup_nil, List.nodup_nil⟩
  | settled hpool =>
    obtain ⟨hsubjects, hwait⟩ := (poolChange_of_effect hpool).nodup hs
    exact ⟨(evolves_settle _).subjects hsubjects, (evolves_settle _).waitList hwait⟩

end Sys2Proof.Proofs

/-! What an event brings to the links: the tags that are outstanding, the inbound queue and the head-wait
count (R24, R88, R161 to R171). -/

namespace Sys2Proof.Proofs
open Sys2Proof.Machine Sys2Proof.Laws

/-! ### The links after an event -/

/-- The tags of the write entries (R24). -/
def entryTags (m : MeasureState) : List Nat := m.entries.map (·.tag)

/-- The link ports after an event on state `s`, before its own requests join their queue, with the tags of
the write entries. -/
inductive LinkEffect (s : State) : LinkState → List Nat → Prop where
  | same : LinkEffect s s.link (entryTags s.measure)
  | reset : LinkEffect s .reset []
  | malformed (kind : LinkKind) (tag : Nat) (htakes : s.takesRequests = true) :
      LinkEffect s (s.link.refuse kind tag .malformed) (entryTags s.measure)
  | refused (kind : LinkKind) (tag : Nat) (htakes : s.takesRequests = true) (hnew : tag ∉ hostTable s.link kind)
      (htag : tag < 32) :
      LinkEffect s ((s.link.enterHost kind tag).refuse kind tag .refused) (entryTags s.measure)
  | readForwarded (tag : Nat) (addr : Addr) (n : Nat) (htakes : s.takesRequests = true)
      (hnew : tag ∉ s.link.hostReads) (htag : tag < 32) :
      LinkEffect s ((s.link.enterHost .read tag).forwardRequest (.read tag addr n)) (entryTags s.measure)
  | writeForwarded (tag : Nat) (addr : Addr) (beats : List WriteBeat) (htakes : s.takesRequests = true)
      (hnew : tag ∉ s.link.hostWrites) (htag : tag < 32) :
      LinkEffect s (enteredWrite s tag addr beats).link (entryTags s.measure ++ [tag])
  | hostOffered (offer : Option ResponseSource) :
      LinkEffect s { s.link with hostOffer := offer } (entryTags s.measure)
  | delivered (source : ResponseSource) : LinkEffect s (s.link.deliver source) (entryTags s.measure)
  | memOffered : LinkEffect s { s.link with memOffer := s.link.memOffer.or s.link.memChoice }
      (entryTags s.measure)
  | sent (source : RequestSource) (hsource : s.link.memOffer.or s.link.memChoice = some source) :
      LinkEffect s (s.link.send source) (entryTags s.measure)
  | readAnswered (tag : Nat) (status : LinkStatus) (data : List Beat) (hmem : tag ∈ s.link.memReads) :
      LinkEffect s (s.link.relayResponse { kind := .read, tag := tag, status := status, data := data })
        (entryTags s.measure)
  | writeAnswered (tag : Nat) (status : LinkStatus) (hmem : tag ∈ s.link.memWrites) :
      LinkEffect s (s.link.relayResponse { kind := .write, tag := tag, status := status, data := [] })
        (leave (entryTags s.measure) tag)

theorem entryTags_of_keys {m m' : MeasureState} (h : entryKeys m'.entries = entryKeys m.entries) :
    entryTags m' = entryTags m := by
  have hfst : ∀ u : MeasureState, entryTags u = (entryKeys u.entries).map (·.1) := fun u => by
    rw [entryKeys, List.map_map]; rfl
  rw [hfst, hfst, h]

theorem entryTags_takeCommand (s : State) (seq : BitVec 8) (kind : Option CommandKind) (i : Nat) :
    entryTags (takeCommand s seq kind i).measure = entryTags s.measure := by
  obtain hevolves | ⟨-, -, -, hm⟩ := takeCommand_measure s seq kind i
  · rw [entryTags, hevolves.entries, entryTags]
  · rw [hm]
    exact entryTags_of_keys (reopens_closure _ _).keys

theorem entryTags_snoopHeader (s : State) (b : WriteBeat) :
    entryTags (snoopHeader s b).measure = entryTags s.measure := by
  obtain ⟨consumer, hconsumer⟩ := takeConsumerField_eq s b
  rw [snoopHeader_eq, hconsumer]
  split
  · exact entryTags_takeCommand _ _ _ _
  · rfl

theorem entryTags_addEntry (m : MeasureState) (tag : Nat) :
    entryTags (m.addEntry tag) = entryTags m ++ [tag] := by
  simp [entryTags, MeasureState.addEntry]

theorem entryTags_measureWrite (m : MeasureState) (tag : Nat) (beats : List (Option ImageBeat)) :
    entryTags (m.measureWrite tag beats) = entryTags m ++ [tag] := by
  rw [← entryTags_addEntry]
  refine entryTags_of_keys ((measureWrite_keys m tag beats).1.trans ?_)
  simp [entryKeys, MeasureState.addEntry]

theorem entryTags_of_work {s t : State} (h : ManifestWork s t) :
    entryTags t.measure = entryTags s.measure := by
  rw [h.measure]; rfl

/-- A forwarded write takes a write entry of its own, whatever else it does (R24). -/
theorem entryTags_handOff (s : State) (tag : Nat) (addr : Addr) (beats : List WriteBeat) :
    entryTags (handOff s tag addr beats).measure = entryTags s.measure ++ [tag] := by
  have hadd := entryTags_addEntry s.measure tag
  have hwindow : ∀ u : State, u.measure = s.measure.addEntry tag →
      entryTags (u.startAttempt.windowWrite tag addr beats).advanceManifest.measure =
        entryTags s.measure ++ [tag] := fun u hu => by
    rw [entryTags_of_work ((work_startAttempt u).trans ((work_windowWrite _ tag addr beats).trans
      (work_advanceManifest _))), hu, hadd]
  unfold handOff
  split
  · obtain ⟨b, -, -, heq⟩ | heq := handOffArmed_cases s tag addr beats
    · rw [heq, entryTags_snoopHeader, hadd]
    · rw [heq, entryTags_measureWrite]
  · simp only
    split
    · exact hwindow _ rfl
    · exact hadd
  · simp only
    split
    · exact hwindow _ rfl
    · exact hadd
  · exact hadd

theorem entryTags_settle (s : State) : entryTags s.settle.measure = entryTags s.measure := by
  have h := (evolves_settle s).entries
  rw [entryTags, entryTags, ← h]

theorem entryTags_writeAnswered (m : MeasureState) (tag : Nat) (status : LinkStatus) :
    entryTags (m.writeAnswered tag status) = leave (entryTags m) tag := by
  rw [entryTags, (writeAnswered_evolves m tag status).entries, leave, entryTags, List.filter_map]
  rfl

theorem link_takeCommand (s : State) (seq : BitVec 8) (kind : Option CommandKind) (i : Nat) :
    (takeCommand s seq kind i).link = s.link := by
  unfold takeCommand
  split
  · rfl
  · simp only
    split
    · rename_i k _
      cases k <;> rfl
    · rfl

theorem link_of_work {s t : State} (h : ManifestWork s t) : t.link = s.link :=
  (Prod.mk.inj h.others).1

theorem link_handOff (s : State) (tag : Nat) (addr : Addr) (beats : List WriteBeat) :
    (handOff s tag addr beats).link = s.link := by
  have hwindow : ∀ u : State, (u.startAttempt.windowWrite tag addr beats).advanceManifest.link = u.link :=
    fun u => link_of_work ((work_startAttempt u).trans ((work_windowWrite _ tag addr beats).trans
      (work_advanceManifest _)))
  unfold handOff
  split
  · obtain ⟨b, -, -, heq⟩ | heq := handOffArmed_cases s tag addr beats
    · obtain ⟨consumer, hconsumer⟩ :=
        takeConsumerField_eq { s with measure := s.measure.addEntry tag } b
      rw [heq, snoopHeader_eq, hconsumer]
      split
      · exact link_takeCommand _ _ _ _
      · rfl
    · rw [heq]
  · simp only
    split
    · exact hwindow _
    · rfl
  · simp only
    split
    · exact hwindow _
    · rfl
  · rfl

/-- Own requests join at the end of an event (R165). -/
theorem link_settle (s : State) : ∃ new, s.settle.link = s.link.joinOwn new :=
  let ⟨_, _, _, h⟩ := settle_chosen s
  ⟨_, h⟩

theorem joinOwn_nil (l : LinkState) : l.joinOwn [] = l := by
  simp [LinkState.joinOwn]

/-- The links after an event: its effect on them, and then its own requests. -/
def LinkAfter (s t : State) : Prop :=
  ∃ l new, LinkEffect s l (entryTags t.measure) ∧ t.link = l.joinOwn new

theorem LinkAfter.settle {s u : State} (h : LinkEffect s u.link (entryTags u.measure)) :
    LinkAfter s u.settle := by
  obtain ⟨new, hnew⟩ := link_settle u
  exact ⟨u.link, new, entryTags_settle u ▸ h, hnew⟩

theorem LinkAfter.plain {s t : State} (h : LinkEffect s t.link (entryTags t.measure)) : LinkAfter s t :=
  ⟨t.link, [], h, (joinOwn_nil _).symm⟩

/-- The end of an event that touched neither a link nor a write entry's tag. -/
theorem LinkAfter.settle_same {s u : State} (hlink : u.link = s.link)
    (htags : entryTags u.measure = entryTags s.measure) : LinkAfter s u.settle :=
  .settle (by rw [hlink, htags]; exact .same)

theorem linkAfter_answerRefill (s : State) (k : Fin 8) (status : LinkStatus) (data : List Beat) :
    LinkAfter s (answerRefill s k status data) := by
  unfold answerRefill
  split
  · exact .plain .same
  · exact .settle_same rfl rfl
  · exact .settle_same rfl rfl
  · split
    · exact .settle_same rfl (congrArg (List.map _) (evolves_deliverChunk _ _ _ _ _).entries)
    · exact .settle_same rfl (congrArg (List.map _) (evolves_breakImage _ _ _).entries)

theorem linkAfter_answerReport (s : State) (k : Fin 2) (status : LinkStatus) :
    LinkAfter s (answerReport s k status) := by
  unfold answerReport
  split
  · exact .plain .same
  · exact .settle_same rfl rfl
  · split
    · exact .settle_same rfl rfl
    · exact .settle_same rfl (congrArg (List.map _) (evolves_reportFailed _ _ _).entries)

theorem linkAfter_answerWrite {s : State} {tag : Nat} (status : LinkStatus) (hmem : tag ∈ s.link.memWrites) :
    LinkAfter s (answerWrite s tag status) := by
  let answered : State := { s with
    link := s.link.relayResponse { kind := .write, tag := tag, status := status, data := [] }
    measure := s.measure.writeAnswered tag status }
  have hwork : ManifestWork answered (answered.windowAnswered tag status).advanceManifest :=
    (work_windowAnswered answered tag status).trans (work_advanceManifest _)
  refine .settle (u := (answered.windowAnswered tag status).advanceManifest) ?_
  rw [link_of_work hwork, entryTags_of_work hwork, entryTags_writeAnswered]
  exact .writeAnswered tag status hmem

theorem linkAfter_of_effect {s t : State} {c : Instr} (heffect : Effect s c t) : LinkAfter s t := by
  have hsame : ∀ {u : State}, u.link = s.link → Evolves s.measure u.measure → LinkAfter s u.settle :=
    fun hlink h => .settle_same hlink (congrArg (List.map _) h.entries)
  have hmanifest : ∀ {u v : State}, u.link = s.link → entryTags u.measure = entryTags s.measure →
      ManifestWork u v → LinkAfter s v.settle := fun hlink htags hwork =>
    .settle_same ((link_of_work hwork).trans hlink) ((entryTags_of_work hwork).trans htags)
  cases heffect with
  | cold | warm => exact .plain .reset
  | nothing | straps | supply => exact .plain .same
  | malformed _ kind tag _ htakes => exact .plain (.malformed kind tag htakes)
  | refused _ kind tag _ htakes hnew htag => exact .plain (.refused kind tag htakes hnew htag)
  | readForwarded tag addr n htakes hnew htag => exact .plain (.readForwarded tag addr n htakes hnew htag)
  | hostOffered => exact .plain (.hostOffered _)
  | delivered source => exact .plain (.delivered source)
  | memOffered => exact .plain .memOffered
  | sent source hsource => exact .plain (.sent source hsource)
  | readAnswered c tag status data hmem => exact .plain (.readAnswered tag status data hmem)
  | sensed | consumer | checked | burnt => exact .settle_same rfl rfl
  | wrote tag addr beats htakes hform =>
    obtain ⟨hnew, htag, -⟩ := not_malformed hform
    refine .settle ?_
    rw [link_handOff, entryTags_handOff]
    exact .writeForwarded tag addr beats htakes hnew htag
  | writeAnswered c tag status hmem => exact linkAfter_answerWrite status hmem
  | refill c k status data => exact linkAfter_answerRefill s k status data
  | report c k status => exact linkAfter_answerReport s k status
  | refillExpired tag k m hevolves => exact hsame rfl hevolves
  | reportExpired => exact hsame rfl (evolves_reportFailed _ _ _)
  | command c seq image kind =>
    exact .settle_same (link_takeCommand _ _ _ _) (entryTags_takeCommand _ _ _ _)
  | engine c m hend => exact hsame rfl hend.evolves
  | manifestBeat =>
    exact hmanifest (u := { s with measure := s.measure.modEngine 0 (Engine.manifestBeatDone s.measure.now) })
      rfl rfl (work_advanceManifest _)
  | unmatched =>
    exact hmanifest (u := { s with measure := s.measure.modEngine 0 Engine.endCheck }) rfl rfl
      (work_failAttempt _ _)
  | rejected why => exact hmanifest rfl rfl (work_failAttempt s why)
  | accepted contents => exact .settle_same rfl rfl

end Sys2Proof.Proofs

/-! Host tags outstanding once, the inbound queue within its room, and the head-wait count within 4. -/

namespace Sys2Proof.Proofs
open Sys2Proof.Machine Sys2Proof.Laws

/-! ### The tables of one kind (R88, R161, R163, R169) -/

/-- The memory port's outstanding table of a kind (R161). -/
def memTable (l : LinkState) : LinkKind → List Nat
  | .read => l.memReads
  | .write => l.memWrites

/-- The host tags of one kind: each outstanding once, and where R161 says it is. -/
structure KindOk (host mem relayed refused : List Nat) : Prop where
  nodup : host.Nodup
  range : ∀ t ∈ host, t < 32
  places : host.Perm (mem ++ (relayed ++ refused))

theorem tagsOk_iff (l : LinkState) :
    l.tagsOk ↔ ∀ kind, KindOk (hostTable l kind) (memTable l kind) (l.relayTags kind) (l.refusedTags kind) := by
  constructor
  · rintro ⟨hreads, hwrites, hreadRange, hwriteRange, hreadPlaces, hwritePlaces⟩ (_ | _)
    · exact ⟨hreads, hreadRange, hreadPlaces⟩
    · exact ⟨hwrites, hwriteRange, hwritePlaces⟩
  · intro h
    have hread := h .read
    have hwrite := h .write
    exact ⟨hread.nodup, hwrite.nodup, hread.range, hwrite.range, hread.places, hwrite.places⟩

/-- Without repeats, what leaves a list is one occurrence. -/
theorem leave_eq_erase {l : List Nat} (hl : l.Nodup) (t : Nat) : leave l t = l.erase t :=
  (hl.erase_eq_filter t).symm

section oneKind
variable {host mem relayed refused : List Nat} {t : Nat} (h : KindOk host mem relayed refused)
include h

theorem KindOk.enter {mem' refused' : List Nat} (hnew : t ∉ host) (htag : t < 32)
    (hplaces : (mem' ++ (relayed ++ refused')).Perm ((mem ++ (relayed ++ refused)) ++ [t])) :
    KindOk (host ++ [t]) mem' relayed refused' where
  nodup := (List.perm_append_singleton t host).nodup_iff.2 (List.nodup_cons.2 ⟨hnew, h.nodup⟩)
  range x hx := by
    obtain hx | hx := List.mem_append.1 hx
    · exact h.range x hx
    · exact List.mem_singleton.1 hx ▸ htag
  places := (h.places.append_right [t]).trans hplaces.symm

theorem KindOk.forward (hnew : t ∉ host) (htag : t < 32) :
    KindOk (host ++ [t]) (mem ++ [t]) relayed refused :=
  h.enter hnew htag (by grind)

theorem KindOk.refuse (hnew : t ∉ host) (htag : t < 32) :
    KindOk (host ++ [t]) mem relayed (refused ++ [t]) :=
  h.enter hnew htag (by simp [← List.append_assoc])

theorem KindOk.answer (hmem : t ∈ mem) : KindOk host (leave mem t) (relayed ++ [t]) refused where
  nodup := h.nodup
  range := h.range
  places := by
    have hnodup : mem.Nodup := (List.nodup_append.1 (h.places.nodup_iff.1 h.nodup)).1
    rw [leave_eq_erase hnodup]
    refine h.places.trans (((List.perm_cons_erase hmem).append_right _).trans ?_)
    grind

/-- The tag is released with the response that is taken from one of the two queues. -/
theorem KindOk.release {relayed' refused' : List Nat}
    (hplaces : (mem ++ (relayed ++ refused)).Perm (t :: (mem ++ (relayed' ++ refused')))) :
    KindOk (leave host t) mem relayed' refused' where
  nodup := nodup_leave h.nodup t
  range x hx := h.range x ((mem_leave _ _ _).1 hx).1
  places := by
    rw [leave_eq_erase h.nodup]
    have := (h.places.trans hplaces).erase t
    rwa [List.erase_cons_head] at this

end oneKind

/-! ### The tables after each action of the links -/

section tables
variable (l : LinkState) (kind k : LinkKind) (tag : Nat)

theorem refusedTags_refuse (status : LinkStatus) : (l.refuse kind tag status).refusedTags k =
    l.refusedTags k ++ if kind = k ∧ status ≠ .malformed then [tag] else [] := by
  by_cases h : kind = k ∧ status ≠ .malformed
  · simp [LinkState.refusedTags, LinkState.refuse, List.filter_append, h]
  · rw [if_neg h]
    have hdrop : (kind == k && status != .malformed) = false := by simpa using h
    simp [LinkState.refusedTags, LinkState.refuse, List.filter_append, hdrop]

theorem hostTable_enterHost : hostTable (l.enterHost kind tag) k =
    hostTable l k ++ if kind = k then [tag] else [] := by
  cases kind <;> cases k <;> simp [hostTable, LinkState.enterHost]

theorem relayTags_relayResponse (r : Response) : (l.relayResponse r).relayTags k =
    l.relayTags k ++ if r.kind = k then [r.tag] else [] := by
  obtain ⟨rkind, rtag, status, data⟩ := r
  cases rkind <;> cases k <;> simp [LinkState.relayTags, LinkState.relayResponse, List.filter_append]

theorem memTable_relayResponse (r : Response) : memTable (l.relayResponse r) k =
    if r.kind = k then leave (memTable l k) r.tag else memTable l k := by
  obtain ⟨rkind, rtag, status, data⟩ := r
  cases rkind <;> cases k <;> rfl

end tables

/-! ### A delivery and a sending (R164, R165, R171) -/

section queues
variable {l : LinkState}

theorem deliver_relayed_nil (h : l.relay = []) : l.deliver .relayed = { l with hostOffer := none } := by
  rw [LinkState.deliver, h]

theorem deliver_part_nil (h : l.refusals = []) : l.deliver .part = { l with hostOffer := none } := by
  rw [LinkState.deliver, h]

theorem send_forward_nil (h : l.forward = []) : l.send .forward = { l with memOffer := none } := by
  rw [LinkState.send, h]

theorem send_own_nil (h : l.own = []) : l.send .own = { l with memOffer := none } := by
  rw [LinkState.send, h]

theorem send_forward {r : LinkRequest} {rest : List LinkRequest} (h : l.forward = r :: rest) :
    l.send .forward = { l with
      forward := rest, memOffer := none, memOut := some r
      headWait := if l.own = [] then l.headWait else l.headWait + 1 } := by
  simp [LinkState.send, h]

theorem send_own {r : LinkRequest} {rest : List LinkRequest} (h : l.own = r :: rest) :
    l.send .own = { l with own := rest, memOffer := none, memOut := some r, headWait := 0 } := by
  simp [LinkState.send, h]

/-- What is taken from a queue leaves the other queues and tables as they are, and no queue longer. -/
theorem deliver_kept (l : LinkState) (source : ResponseSource) :
    (l.deliver source).memWrites = l.memWrites ∧ (l.deliver source).forward = l.forward ∧
      (l.deliver source).refusals.length ≤ l.refusals.length ∧ (l.deliver source).own = l.own ∧
      (l.deliver source).memOffer = l.memOffer ∧ (l.deliver source).headWait = l.headWait := by
  cases source with
  | relayed =>
    cases hrelay : l.relay with
    | nil => rw [deliver_relayed_nil hrelay]; simp
    | cons r rest => rw [deliver_relayed hrelay]; simp
  | part =>
    cases hrefusals : l.refusals with
    | nil => rw [deliver_part_nil hrefusals]; simp [hrefusals]
    | cons r rest => rw [deliver_part hrefusals]; simp

theorem send_kept (l : LinkState) (source : RequestSource) :
    (l.send source).memWrites = l.memWrites ∧ (l.send source).refusals = l.refusals ∧
      (l.send source).forward.length ≤ l.forward.length ∧ (l.send source).memOffer = none := by
  cases source with
  | forward =>
    cases hforward : l.forward with
    | nil => rw [send_forward_nil hforward]; simp [hforward]
    | cons r rest => rw [send_forward hforward]; simp
  | own =>
    cases hown : l.own with
    | nil => rw [send_own_nil hown]; simp
    | cons r rest => rw [send_own hown]; simp

end queues

/-! ### Every event keeps the tags (R88, R161) -/

section actions
variable {l : LinkState} (h : l.tagsOk)
include h

theorem tagsOk_malformed (kind : LinkKind) (tag : Nat) : (l.refuse kind tag .malformed).tagsOk := by
  rw [tagsOk_iff] at h ⊢
  intro k
  rw [refusedTags_refuse, if_neg (by simp), List.append_nil]
  exact h k

theorem tagsOk_refused {kind : LinkKind} {tag : Nat} (hnew : tag ∉ hostTable l kind) (htag : tag < 32) :
    ((l.enterHost kind tag).refuse kind tag .refused).tagsOk := by
  rw [tagsOk_iff] at h ⊢
  intro k
  have hother := h k
  cases kind <;> cases k
  case read.read => exact refusedTags_refuse (l.enterHost .read tag) .read .read tag _ ▸ hother.refuse hnew htag
  case write.write => exact refusedTags_refuse (l.enterHost .write tag) .write .write tag _ ▸ hother.refuse hnew htag
  all_goals
    rw [refusedTags_refuse, if_neg (by simp), List.append_nil]
    exact hother

theorem tagsOk_readForwarded {tag : Nat} (hnew : tag ∉ l.hostReads) (htag : tag < 32) (addr : Addr) (n : Nat) :
    ((l.enterHost .read tag).forwardRequest (.read tag addr n)).tagsOk := by
  rw [tagsOk_iff] at h ⊢
  rintro (_ | _)
  · exact (h .read).forward hnew htag
  · exact h .write

theorem tagsOk_writeForwarded {tag : Nat} (hnew : tag ∉ l.hostWrites) (htag : tag < 32) (addr : Addr)
    (beats : List WriteBeat) : ((l.enterHost .write tag).forwardRequest (.write tag addr beats)).tagsOk := by
  rw [tagsOk_iff] at h ⊢
  rintro (_ | _)
  · exact h .read
  · exact (h .write).forward hnew htag

theorem tagsOk_relayResponse {r : Response} (hmem : r.tag ∈ memTable l r.kind) :
    (l.relayResponse r).tagsOk := by
  rw [tagsOk_iff] at h ⊢
  intro k
  have hhost : hostTable (l.relayResponse r) k = hostTable l k := by
    obtain ⟨_ | _, tag, status, data⟩ := r <;> rfl
  have hrefused : (l.relayResponse r).refusedTags k = l.refusedTags k := by
    obtain ⟨_ | _, tag, status, data⟩ := r <;> rfl
  rw [hhost, hrefused, relayTags_relayResponse, memTable_relayResponse]
  split
  · rename_i hkind
    subst hkind
    exact (h _).answer hmem
  · rw [List.append_nil]
    exact h k

/-- A response of a kind leaves the tables of the other kind alone, and takes its tag out of its own. -/
theorem tagsOk_released {l' : LinkState} {kind : LinkKind} {tag : Nat}
    (hhost : ∀ k, hostTable l' k = if kind = k then leave (hostTable l k) tag else hostTable l k)
    (hmem : ∀ k, memTable l' k = memTable l k)
    (hqueues : ∀ k, (l.relayTags k ++ l.refusedTags k).Perm
      ((if kind = k then [tag] else []) ++ (l'.relayTags k ++ l'.refusedTags k))) : l'.tagsOk := by
  rw [tagsOk_iff] at h ⊢
  intro k
  have hplaces := (hqueues k).append_left (memTable l k)
  rw [hhost, hmem]
  split
  · rename_i hkind
    rw [if_pos hkind] at hplaces
    exact (h k).release (hplaces.trans List.perm_middle)
  · rename_i hkind
    rw [if_neg hkind] at hplaces
    exact ⟨(h k).nodup, (h k).range, (h k).places.trans hplaces⟩

theorem tagsOk_deliver (source : ResponseSource) : (l.deliver source).tagsOk := by
  cases source with
  | relayed =>
    cases hrelay : l.relay with
    | nil => rwa [deliver_relayed_nil hrelay]
    | cons r rest =>
      rw [deliver_relayed hrelay]
      refine tagsOk_released h (kind := r.kind) (tag := r.tag) ?_ (fun _ => by cases ‹LinkKind› <;> rfl) ?_
      · rintro (_ | _) <;> rfl
      · intro k
        by_cases hkind : r.kind = k <;> simp [LinkState.relayTags, LinkState.refusedTags, hrelay, hkind]
  | part =>
    cases hrefusals : l.refusals with
    | nil => rwa [deliver_part_nil hrefusals]
    | cons r rest =>
      rw [deliver_part hrefusals]
      by_cases hstatus : r.status = .malformed
      · have hsame : ∀ k, LinkState.refusedTags { l with refusals := rest } k = l.refusedTags k := by
          intro k
          simp [LinkState.refusedTags, hrefusals, hstatus]
        simp only [hstatus, ne_eq, not_true_eq_false, and_false, if_false]
        rw [tagsOk_iff] at h ⊢
        exact fun k => (hsame k).symm ▸ h k
      · simp only [hstatus, ne_eq, not_false_eq_true, and_true]
        refine tagsOk_released h (kind := r.kind) (tag := r.tag) ?_ (fun _ => by cases ‹LinkKind› <;> rfl) ?_
        · rintro (_ | _) <;> rfl
        · intro k
          by_cases hkind : r.kind = k
          · simp [LinkState.relayTags, LinkState.refusedTags, hrefusals, hkind, hstatus]
          · simp [LinkState.relayTags, LinkState.refusedTags, hrefusals, hkind]

theorem tagsOk_send (source : RequestSource) : (l.send source).tagsOk := by
  cases source with
  | forward =>
    cases hforward : l.forward with
    | nil => rwa [send_forward_nil hforward]
    | cons r rest => rwa [send_forward hforward]
  | own =>
    cases hown : l.own with
    | nil => rwa [send_own_nil hown]
    | cons r rest => rwa [send_own hown]

end actions

theorem tagsOk_reset : LinkState.reset.tagsOk := by
  simp [LinkState.tagsOk, LinkState.reset, LinkState.relayTags, LinkState.refusedTags]

theorem tagsOk_of_linkEffect {s : State} {l : LinkState} {tags : List Nat} (h : s.link.tagsOk)
    (heffect : LinkEffect s l tags) : l.tagsOk := by
  cases heffect with
  | same | hostOffered | memOffered => exact h
  | reset => exact tagsOk_reset
  | malformed kind tag => exact tagsOk_malformed h kind tag
  | refused kind tag _ hnew htag => exact tagsOk_refused h hnew htag
  | readForwarded tag addr n _ hnew htag => exact tagsOk_readForwarded h hnew htag addr n
  | writeForwarded tag addr beats _ hnew htag => exact tagsOk_writeForwarded h hnew htag addr beats
  | delivered source => exact tagsOk_deliver h source
  | sent source => exact tagsOk_send h source
  | readAnswered tag status data hmem => exact tagsOk_relayResponse h hmem
  | writeAnswered tag status hmem => exact tagsOk_relayResponse h hmem

/-! ### The write entries and the inbound queue (R24, R162) -/

theorem entries_of_linkEffect {s : State} {l : LinkState} {tags : List Nat}
    (h : entryTags s.measure = s.link.memWrites) (heffect : LinkEffect s l tags) : tags = l.memWrites := by
  cases heffect with
  | same | hostOffered | memOffered | malformed | readForwarded | readAnswered => exact h
  | reset => rfl
  | refused kind tag => cases kind <;> exact h
  | writeForwarded tag => exact congrArg (· ++ [tag]) h
  | delivered source => exact h.trans (deliver_kept s.link source).1.symm
  | sent source => exact h.trans (send_kept s.link source).1.symm
  | writeAnswered tag => exact congrArg (leave · tag) h

theorem occupied_lt_of_takes {s : State} (h : s.takesRequests = true) : s.link.occupied < 16 :=
  ((takesRequests_iff s).1 h).2

theorem inboundOk_of_linkEffect {s : State} {l : LinkState} {tags : List Nat} (h : s.link.inboundOk)
    (heffect : LinkEffect s l tags) : l.inboundOk := by
  have hroom : s.takesRequests = true → l.occupied = s.link.occupied + 1 → l.inboundOk := fun htakes hone =>
    Nat.le_trans (Nat.le_of_eq hone) (occupied_lt_of_takes htakes)
  have hkept : l.forward.length ≤ s.link.forward.length → l.refusals.length ≤ s.link.refusals.length →
      l.inboundOk := fun hforward hrefusals => Nat.le_trans (Nat.add_le_add hforward hrefusals) h
  cases heffect with
  | same | hostOffered | memOffered | readAnswered | writeAnswered => exact h
  | reset => exact Nat.zero_le 16
  | malformed kind tag htakes =>
    exact hroom htakes (by simp [LinkState.occupied, LinkState.refuse, ← Nat.add_assoc])
  | refused kind tag htakes =>
    refine hroom htakes ?_
    cases kind <;> simp [LinkState.occupied, LinkState.refuse, LinkState.enterHost, ← Nat.add_assoc]
  | readForwarded tag addr n htakes =>
    exact hroom htakes (by
      simp [LinkState.occupied, LinkState.forwardRequest, LinkState.enterHost, Nat.add_right_comm])
  | writeForwarded tag addr beats htakes =>
    exact hroom htakes (by
      simp [LinkState.occupied, LinkState.forwardRequest, LinkState.enterHost, enteredWrite, Nat.add_right_comm])
  | delivered source =>
    obtain ⟨-, hforward, hrefusals, -⟩ := deliver_kept s.link source
    exact hkept (Nat.le_of_eq (congrArg List.length hforward)) hrefusals
  | sent source =>
    obtain ⟨-, hrefusals, hforward, -⟩ := send_kept s.link source
    exact hkept hforward (Nat.le_of_eq (congrArg List.length hrefusals))

/-- The links between events: tags, write entries and inbound queue. -/
def linksOk (s : State) : Prop := s.link.tagsOk ∧ s.entriesOk ∧ s.link.inboundOk

theorem linksOk_of_effect {s t : State} {c : Instr} (h : linksOk s) (heffect : Effect s c t) : linksOk t := by
  obtain ⟨htags, hentries, hinbound⟩ := h
  obtain ⟨l, new, hlink, hl⟩ := linkAfter_of_effect heffect
  have htags' : l.tagsOk := tagsOk_of_linkEffect htags hlink
  have hinbound' : l.inboundOk := inboundOk_of_linkEffect hinbound hlink
  have hentries' : entryTags t.measure = l.memWrites := entries_of_linkEffect hentries hlink
  unfold linksOk State.entriesOk
  rw [hl]
  exact ⟨htags', hentries', hinbound'⟩

/-- Settles O56, event by event. -/
theorem hostTagsKept : Obligations.HostTagsKept := fun _ _ htags hentries hinbound =>
  step_keeps (P := linksOk) (fun _ _ h => h) linksOk_of_effect ⟨htags, hentries, hinbound⟩

/-! ### The head-wait count (R166) -/

/-- A forwarded request is offered ahead of an own head only below the bound. -/
theorem headWait_lt_of_forward {l : LinkState} (h : l.headWaitOk)
    (hoffer : l.memOffer.or l.memChoice = some .forward) (hown : l.own ≠ []) : l.headWait < 4 := by
  cases hstands : l.memOffer with
  | some source =>
    rw [hstands, Option.some_or] at hoffer
    exact h.2 (hstands.trans hoffer) hown
  | none =>
    rw [hstands, Option.none_or] at hoffer
    unfold LinkState.memChoice at hoffer
    split at hoffer
    case h_2 => contradiction
    case h_4 =>
      split at hoffer
      · assumption
      · cases hoffer
    all_goals cases hoffer

theorem headWaitOk_of_no_offer {l : LinkState} (hle : l.headWait ≤ 4) (hoffer : l.memOffer = none) :
    l.headWaitOk := ⟨hle, fun h => nomatch hoffer.symm.trans h⟩

theorem headWaitOk_send {l : LinkState} (h : l.headWaitOk) {source : RequestSource}
    (hsource : l.memOffer.or l.memChoice = some source) : (l.send source).headWaitOk := by
  refine headWaitOk_of_no_offer ?_ (send_kept l source).2.2.2
  cases source with
  | own =>
    cases hown : l.own with
    | nil => rw [send_own_nil hown]; exact h.1
    | cons r rest => rw [send_own hown]; exact Nat.zero_le 4
  | forward =>
    cases hforward : l.forward with
    | nil => rw [send_forward_nil hforward]; exact h.1
    | cons r rest =>
      rw [send_forward hforward]
      simp only
      split
      · exact h.1
      · rename_i hown
        exact headWait_lt_of_forward h hsource hown

theorem headWaitOk_congr {l l' : LinkState} (h : l.headWaitOk)
    (hsame : (l'.own, l'.headWait, l'.memOffer) = (l.own, l.headWait, l.memOffer)) : l'.headWaitOk := by
  simp only [Prod.mk.injEq] at hsame
  obtain ⟨hown, hwait, hoffer⟩ := hsame
  rw [LinkState.headWaitOk, hown, hwait, hoffer]
  exact h

theorem headWaitOk_joinOwn {l : LinkState} (h : l.headWaitOk) (new : List LinkRequest) :
    (l.joinOwn new).headWaitOk := by
  by_cases hempty : l.own = [] ∧ new ≠ []
  · have hzero := joinOwn_headWait_empty hempty.1 hempty.2
    exact ⟨hzero ▸ Nat.zero_le 4, fun _ _ => hzero ▸ Nat.zero_lt_succ 3⟩
  · have hkept : l.own ≠ [] ∨ new = [] := 
      (Classical.not_and_iff_not_or_not.1 hempty).imp id Classical.not_not.1
    have hwait := joinOwn_headWait_kept hkept
    refine ⟨hwait ▸ h.1, fun hoffer hown => hwait ▸ h.2 hoffer ?_⟩
    rintro hnone
    obtain hsome | rfl := hkept
    · exact hsome hnone
    · exact hown (by simp [LinkState.joinOwn, hnone])

theorem headWaitOk_of_linkEffect {s : State} {l : LinkState} {tags : List Nat} (h : s.link.headWaitOk)
    (heffect : LinkEffect s l tags) : l.headWaitOk := by
  cases heffect with
  | same | hostOffered | malformed | readForwarded | writeForwarded | readAnswered | writeAnswered =>
    exact headWaitOk_congr h rfl
  | refused kind => cases kind <;> exact headWaitOk_congr h rfl
  | reset => exact headWaitOk_of_no_offer (Nat.zero_le 4) rfl
  | memOffered => exact ⟨h.1, headWait_lt_of_forward h⟩
  | delivered source =>
    obtain ⟨-, -, -, hown, hoffer, hwait⟩ := deliver_kept s.link source
    exact headWaitOk_congr h (by rw [hown, hwait, hoffer])
  | sent source hsource => exact headWaitOk_send h hsource

theorem headWaitOk_of_effect {s t : State} {c : Instr} (h : s.link.headWaitOk) (heffect : Effect s c t) :
    t.link.headWaitOk := by
  obtain ⟨l, new, hlink, hl⟩ := linkAfter_of_effect heffect
  exact hl ▸ headWaitOk_joinOwn (headWaitOk_of_linkEffect h hlink) new

/-- Settles O59: the queues and the count event by event, and the pool by its laws at the event's end. -/
theorem queuesKept : Obligations.QueuesKept := by
  refine ⟨fun s t hsubjects hwait => ?nodup, fun s t => ?headWait, ?settled⟩
  case nodup =>
    exact step_keeps (P := fun s => queuesNodup s.measure) (fun _ _ h => h) queuesNodup_of_effect
      ⟨hsubjects, hwait⟩
  case headWait =>
    exact step_keeps (P := fun s => s.link.headWaitOk) (fun _ _ h => h) headWaitOk_of_effect
  case settled =>
    intro s t hrun hplaces hpool hwait htables hcover hsettled hstep
    obtain rfl | ⟨c, rest, heffect⟩ := step_effect hstep
    · exact hsettled
    · exact poolSettled_of_effect (s := { s with pending := rest }) hsettled
        ⟨hrun, ⟨hpool, hplaces⟩, hwait⟩ htables hcover heffect

end Sys2Proof.Proofs

/-! The report unit: what an event brings to it, and what every event keeps of the channel and the ring (R141,
R143, R148). -/

namespace Sys2Proof.Proofs
open Sys2Proof.Machine Sys2Proof.Laws

/-! ### The report unit after an event -/

/-- The report unit after command `c` on state `s`, before the choice at the event's end. -/
inductive ReportEffect (s : State) (c : Instr) : ReportState → Prop where
  | same : ReportEffect s c s.report
  | reset (hc : c = .coldReset ∨ c = .warmReset) : ReportEffect s c .reset
  | acknowledged {k : Fin 2} {target : ReportTarget} (hbusy : s.report.tags[k] = .busy target) :
      ReportEffect s c (s.report.acknowledged k target)
  | failed {k : Fin 2} {target : ReportTarget} (hbusy : s.report.tags[k] = .busy target) {tag : ReportTag}
      (htag : tag = .free ∨ tag = .quarantined target) : ReportEffect s c (s.report.failed k target tag)
  | freed {k : Fin 2} {target : ReportTarget} (hheld : s.report.tags[k] = .quarantined target) :
      ReportEffect s c (s.report.setTag k .free)
  | header (consumer : BitVec 16) (hfill : (s.report.producer - consumer).toNat ≤ s.report.fill)
      (channel : Channel)
      (hchannel : channel = s.report.channel ∨ s.report.channel = .halted ∧ channel = .ready)
      (seq : BitVec 8) (result : CommandResult) (dirty : Bool) :
      ReportEffect s c { s.report with
        consumer := consumer, channel := channel, lastSeq := seq, lastResult := result, headerDirty := dirty }
  | armed (hphase : s.manifest.phase = .parsing) {contents : Contents} {n : Nat}
      (hparse : parseManifest s.manifest.buffer n s.manifest.windowBase = .ok contents) :
      ReportEffect s c (s.report.armed contents.header.reportBase contents.header.recordCount)

/-- A consumer index that is taken lies from the old one to the producer index, so no more records stand
(R152). -/
theorem takeConsumer_eq (r : ReportState) (v : BitVec 16) : ∃ consumer,
    r.takeConsumer v = { r with consumer := consumer } ∧ (r.producer - consumer).toNat ≤ r.fill := by
  unfold ReportState.takeConsumer
  split
  · exact ⟨_, rfl, (Nat.le_refl _)⟩
  · split
    · rename_i hrange
      refine ⟨v, rfl, ?_⟩
      unfold ReportState.fill at hrange ⊢
      bv_omega
    · exact ⟨_, rfl, (Nat.le_refl _)⟩

/-- A command writes the last command values, and a RESUME that passes its check the channel. -/
theorem report_takeCommand (s : State) (seq : BitVec 8) (kind : Option CommandKind) (i : Nat) :
    ∃ channel seq' result dirty, (takeCommand s seq kind i).report = { s.report with
        channel := channel, lastSeq := seq', lastResult := result, headerDirty := dirty } ∧
      (channel = s.report.channel ∨ s.report.channel = .halted ∧ channel = .ready) := by
  unfold takeCommand
  split
  · exact ⟨_, _, _, _, rfl, .inl rfl⟩
  · simp only
    split
    · rename_i k hdone
      cases k with
      | resume =>
        have hhalted : s.report.channel = .halted := by
          change (if s.report.channel = .halted then CommandResult.done else .notHalted) = _ at hdone
          split at hdone
          · rename_i h
            exact h
          · cases hdone
        exact ⟨_, _, _, _, rfl, .inr ⟨hhalted, rfl⟩⟩
      | reopen | abandon | resend => exact ⟨_, _, _, _, rfl, .inl rfl⟩
    · exact ⟨_, _, _, _, rfl, .inl rfl⟩

theorem reportEffect_takeCommand {s u : State} {c : Instr} {consumer : BitVec 16}
    (hreport : u.report = { s.report with consumer := consumer })
    (hfill : (s.report.producer - consumer).toNat ≤ s.report.fill) (seq : BitVec 8)
    (kind : Option CommandKind) (i : Nat) : ReportEffect s c (takeCommand u seq kind i).report := by
  obtain ⟨channel, seq', result, dirty, heq, hchannel⟩ := report_takeCommand u seq kind i
  rw [hreport] at heq hchannel
  rw [heq]
  exact .header consumer hfill channel hchannel seq' result dirty

theorem reportEffect_consumer {s u : State} {c : Instr} {consumer : BitVec 16}
    (hreport : u.report = { s.report with consumer := consumer })
    (hfill : (s.report.producer - consumer).toNat ≤ s.report.fill) : ReportEffect s c u.report := by
  rw [hreport]
  exact .header consumer hfill _ (.inl rfl) _ _ _

theorem report_takeConsumerField (u : State) {r : ReportState} (hreport : u.report = r) (b : WriteBeat) :
    ∃ consumer, (takeConsumerField u b).report = { r with consumer := consumer } ∧
      (r.producer - consumer).toNat ≤ r.fill := by
  subst hreport
  unfold takeConsumerField
  simp only
  split
  · exact takeConsumer_eq _ _
  · exact ⟨_, rfl, (Nat.le_refl _)⟩

theorem report_of_work {s t : State} (h : ManifestWork s t) : t.report = s.report :=
  (Prod.mk.inj (Prod.mk.inj h.others).2).1

theorem reportEffect_handOff {s u : State} {c : Instr} (hreport : u.report = s.report) (tag : Nat) (addr : Addr)
    (beats : List WriteBeat) : ReportEffect s c (handOff u tag addr beats).report := by
  have hsame : ∀ r, r = s.report → ReportEffect s c r := by rintro _ rfl; exact .same
  have hwindow : ∀ v : State, v.report = s.report →
      ReportEffect s c (v.startAttempt.windowWrite tag addr beats).advanceManifest.report := fun v hv =>
    hsame _ ((report_of_work ((work_startAttempt v).trans ((work_windowWrite _ tag addr beats).trans
      (work_advanceManifest _)))).trans hv)
  unfold handOff
  split
  · obtain ⟨b, -, -, heq⟩ | heq := handOffArmed_cases u tag addr beats
    · obtain ⟨consumer, hconsumer, hfill⟩ :=
        report_takeConsumerField { u with measure := u.measure.addEntry tag } hreport b
      rw [heq, snoopHeader_eq]
      split
      · exact reportEffect_takeCommand hconsumer hfill _ _ _
      · exact reportEffect_consumer hconsumer hfill
    · exact hsame _ ((congrArg State.report heq).trans hreport)
  · simp only
    split
    · exact hwindow _ hreport
    · exact hsame _ hreport
  · simp only
    split
    · exact hwindow _ hreport
    · exact hsame _ hreport
  · exact hsame _ hreport

/-- The choice at the end of an event (R144). -/
def reportChoice (s : State) : ReportState :=
  (chooseReport s.manifest s.measure.settlePool.serveRefills.1 s.report).1

theorem settle_report (s : State) : s.settle.report = reportChoice s :=
  let ⟨_, h, _, _⟩ := settle_chosen s
  h

/-- What an event leaves of the report unit: its effect, and the choice at its end when it has one. -/
inductive ReportAfter (s : State) (c : Instr) : State → Prop where
  | plain {t : State} (h : ReportEffect s c t.report) : ReportAfter s c t
  | settled {u : State} (h : ReportEffect s c u.report) : ReportAfter s c u.settle

theorem reportAfter_answerReport (s : State) (c : Instr) (k : Fin 2) (status : LinkStatus) :
    ReportAfter s c (answerReport s k status) := by
  unfold answerReport
  split
  · exact .plain .same
  · rename_i target hheld
    exact .settled (.freed hheld)
  · rename_i target hbusy
    split
    · exact .settled (.acknowledged hbusy)
    · exact .settled (.failed hbusy (.inl rfl))

theorem reportAfter_answerRefill (s : State) (c : Instr) (k : Fin 8) (status : LinkStatus) (data : List Beat) :
    ReportAfter s c (answerRefill s k status data) := by
  unfold answerRefill
  split
  · exact .plain .same
  · exact .settled .same
  · exact .settled .same
  · split
    · exact .settled .same
    · exact .settled .same

theorem reportAfter_of_effect {s t : State} {c : Instr} (heffect : Effect s c t) : ReportAfter s c t := by
  have hmanifest : ∀ {u v : State}, u.report = s.report → ManifestWork u v → ReportAfter s c v.settle :=
    fun hu hwork => .settled (by rw [report_of_work hwork, hu]; exact .same)
  cases heffect with
  | cold => exact .plain (.reset (.inl rfl))
  | warm => exact .plain (.reset (.inr rfl))
  | refused _ kind => cases kind <;> exact .plain .same
  | nothing | straps | malformed | readForwarded | hostOffered | delivered | memOffered | sent
  | readAnswered | supply => exact .plain .same
  | sensed | refillExpired | engine | checked | burnt => exact .settled .same
  | wrote tag addr beats => exact .settled (reportEffect_handOff (s := s) (u := enteredWrite s tag addr beats) rfl tag addr beats)
  | writeAnswered c tag status =>
    exact hmanifest (u := { s with
      link := s.link.relayResponse { kind := .write, tag := tag, status := status, data := [] }
      measure := s.measure.writeAnswered tag status }) rfl
      ((work_windowAnswered _ tag status).trans (work_advanceManifest _))
  | refill c k status data => exact reportAfter_answerRefill s c k status data
  | report c k status => exact reportAfter_answerReport s c k status
  | reportExpired tag k target hbusy => exact .settled (.failed hbusy (.inr rfl))
  | consumer v =>
    obtain ⟨consumer, heq, hfill⟩ := takeConsumer_eq s.report v
    exact .settled (reportEffect_consumer (u := { s with report := s.report.takeConsumer v }) heq hfill)
  | command c seq image kind =>
    exact .settled (reportEffect_takeCommand (consumer := s.report.consumer) rfl (Nat.le_refl _) _ _ _)
  | manifestBeat =>
    exact hmanifest (u := { s with measure := s.measure.modEngine 0 (Engine.manifestBeatDone s.measure.now) })
      rfl (work_advanceManifest _)
  | unmatched =>
    exact hmanifest (u := { s with measure := s.measure.modEngine 0 Engine.endCheck }) rfl (work_failAttempt _ _)
  | rejected why => exact hmanifest rfl (work_failAttempt s why)
  | accepted contents slot digest p n hphase hparse => exact .settled (.armed hphase hparse)

/-! ### The choice at the end of an event -/

/-- The report unit after the choice of R144: as it was, a header issued, or a record issued with room for
it. -/
inductive ReportChoice (r : ReportState) : ReportState → Prop where
  | nothing : ReportChoice r r
  | header (area : ReportArea) (k : Fin 2) (hready : r.channel = .ready) :
      ReportChoice r (r.issueHeader area k).1
  | record {area : ReportArea} {k : Fin 2} {n : Nat} {w : RecordInFlight} (hready : r.channel = .ready)
      (harea : r.area = some area) (howed : r.advanceOwed = false) (hroom : r.fill < area.slots) :
      ReportChoice r { r.setTag k (.busy (.slot n)) with channel := .writingRecord, inFlight := some w }

theorem reportChoice_chooseReport (man : ManifestState) (m : MeasureState) (r : ReportState) :
    ReportChoice r (chooseReport man m r).1 := by
  unfold chooseReport
  split
  · rename_i area hready harea
    have hheader : ReportChoice r (match r.tagFor .header with
        | some t => ((r.issueHeader area t).1, m, some (r.issueHeader area t).2)
        | none => (r, m, none)).1 := by
      split
      · exact .header area _ hready
      · exact .nothing
    by_cases howed : (r.advanceOwed || r.headerFirst) = true
    · rw [if_pos howed]
      exact hheader
    · rw [if_neg howed]
      split
      · rename_i hroom
        split
        · exact .record hready harea (Bool.eq_false_iff.2 (fun h => howed (by simp [h])))
            (of_decide_eq_true hroom)
        · exact .nothing
      · split
        · exact hheader
        · exact .nothing
  · exact .nothing

theorem reportChoice_settle (u : State) : ReportChoice u.report u.settle.report := by
  rw [settle_report]
  exact reportChoice_chooseReport _ _ _

/-! ### One write BUSY -/

theorem tags_setTag (r : ReportState) (k k' : Fin 2) (v : ReportTag) :
    (r.setTag k v).tags[k'] = if k = k' then v else r.tags[k'] := by
  simp [ReportState.setTag, Vector.getElem_set, Fin.ext_iff]

theorem idle_setTag {r : ReportState} {k : Fin 2} {v : ReportTag}
    (honly : ∀ (k' : Fin 2) x, r.tags[k'] = .busy x → k' = k) (hv : ∀ x, v ≠ .busy x) : (r.setTag k v).idle := by
  intro k' x hbusy
  rw [tags_setTag] at hbusy
  split at hbusy
  · exact hv x hbusy
  · rename_i hk
    exact hk (honly k' x hbusy).symm

theorem oneBusy_setTag {r : ReportState} (hidle : r.idle) (k : Fin 2) {x : ReportTarget}
    {kind : ReportTarget → Prop} (hx : kind x) : (r.setTag k (.busy x)).oneBusy kind := by
  refine ⟨k, x, by rw [tags_setTag, if_pos rfl], hx, fun k' x' hbusy => ?_⟩
  rw [tags_setTag] at hbusy
  split at hbusy
  · rename_i hk
    exact hk.symm
  · exact absurd hbusy (hidle k' x')

/-- What a BUSY tag says of the channel: its target's write is in flight, on that tag alone (R143). -/
theorem busy_cases {r : ReportState} (h : r.channelOk) {k : Fin 2} {x : ReportTarget}
    (hbusy : r.tags[k] = .busy x) : (∀ (k' : Fin 2) x', r.tags[k'] = .busy x' → k' = k) ∧
      ((∃ n, x = .slot n) ∧ r.channel = .writingRecord ∧ r.advanceOwed = false ∨
        x = .header ∧ r.channel = .writingHeader) := by
  unfold ReportState.channelOk at h
  have hone : ∀ {kind : ReportTarget → Prop}, r.oneBusy kind →
      kind x ∧ ∀ (k' : Fin 2) x', r.tags[k'] = .busy x' → k' = k := by
    rintro kind ⟨k₀, x₀, hbusy₀, hkind, honly⟩
    obtain rfl : k = k₀ := honly k x hbusy
    exact ⟨ReportTag.busy.inj (hbusy₀.symm.trans hbusy) ▸ hkind, honly⟩
  split at h
  · exact absurd hbusy (h k x)
  · exact absurd hbusy (h k x)
  · exact absurd hbusy (h k x)
  · rename_i hchannel
    exact ⟨(hone h.1).2, .inl ⟨(hone h.1).1, hchannel, h.2⟩⟩
  · rename_i hchannel
    exact ⟨(hone h).2, .inr ⟨(hone h).1, hchannel⟩⟩

theorem channelOk_of_idle {r : ReportState} (hidle : r.idle)
    (hchannel : r.channel = .dormant ∨ r.channel = .ready ∨ r.channel = .halted) : r.channelOk := by
  unfold ReportState.channelOk
  rcases hchannel with h | h | h <;> rw [h] <;> exact hidle

theorem idle_of_ready {r : ReportState} (h : r.channelOk) (hready : r.channel = .ready) : r.idle := by
  unfold ReportState.channelOk at h
  rw [hready] at h
  exact h

theorem idle_of_halted {r : ReportState} (h : r.channelOk) (hhalted : r.channel = .halted) : r.idle := by
  unfold ReportState.channelOk at h
  rw [hhalted] at h
  exact h

theorem idle_of_tags {r : ReportState} (h : r.tags = #v[.free, .free]) : r.idle := by
  have hfree (k : Fin 2) : (#v[.free, .free] : Vector ReportTag 2)[k] = .free := by
    revert k
    decide
  intro k x
  rw [h, hfree]
  nofun

theorem channelOk_reset : ReportState.reset.channelOk :=
  channelOk_of_idle (idle_of_tags rfl) (.inl rfl)

theorem channelOk_of_effect {s : State} {c : Instr} {r : ReportState} (h : s.report.channelOk)
    (heffect : ReportEffect s c r) : r.channelOk := by
  cases heffect with
  | same => exact h
  | reset => exact channelOk_reset
  | @acknowledged k target hbusy =>
    have hidle : (s.report.setTag k .free).idle := idle_setTag (busy_cases h hbusy).1 (fun _ => nofun)
    unfold ReportState.acknowledged
    split
    · exact channelOk_of_idle hidle (.inr (.inl rfl))
    · simp only
      split
      · exact channelOk_of_idle hidle (.inr (.inl rfl))
      · exact channelOk_of_idle hidle (.inr (.inl rfl))
  | @failed k target hbusy tag htag =>
    have hidle : (s.report.setTag k tag).idle :=
      idle_setTag (busy_cases h hbusy).1 (fun x => by rcases htag with rfl | rfl <;> nofun)
    unfold ReportState.failed
    split
    · exact channelOk_of_idle hidle (.inr (.inr rfl))
    · exact channelOk_of_idle hidle (.inr (.inr rfl))
  | @freed k target hheld =>
    have hbusy : ∀ (k' : Fin 2) x, (s.report.setTag k .free).tags[k'] = .busy x ↔ s.report.tags[k'] = .busy x := by
      intro k' x
      rw [tags_setTag]
      split
      · rename_i hk
        subst hk
        rw [hheld]
        exact ⟨nofun, nofun⟩
      · rfl
    simp only [ReportState.channelOk, ReportState.idle, ReportState.oneBusy, ne_eq, hbusy]
    exact h
  | header consumer hfill channel hchannel =>
    obtain rfl | ⟨hhalted, rfl⟩ := hchannel
    · exact h
    · exact channelOk_of_idle (idle_of_halted (r := s.report) h hhalted) (.inr (.inl rfl))
  | armed => exact channelOk_of_idle (idle_of_tags rfl) (.inr (.inl rfl))

theorem channelOk_of_choice {r r' : ReportState} (h : r.channelOk) (hchoice : ReportChoice r r') :
    r'.channelOk := by
  cases hchoice with
  | nothing => exact h
  | @header area k hready => exact oneBusy_setTag (idle_of_ready h hready) k rfl
  | @record area k n w hready harea howed hroom =>
    exact ⟨oneBusy_setTag (idle_of_ready h hready) k ⟨n, rfl⟩, howed⟩

/-! ### The ring -/

/-- The parse checks passed one by one (R113 to R117). -/
theorem checkContents_eq_none {c : Contents} {w : Addr} : checkContents c w = none ↔
    badSegmentLists c = false ∧ c.segments.any badSegmentRecord = false ∧ badReportArea c.header = false ∧
      anyPair rangesMeet (placedRanges c w) = false ∧ badPredecessors c = false ∧ badPins c = false ∧
        badReleaseSet c c.header.set0 = false ∧ badReleaseSet c c.header.set1 = false := by
  unfold checkContents
  rw [← Bool.or_eq_false_iff (x := badReleaseSet c c.header.set0)]
  (repeat' split) <;> simp_all only [Bool.not_eq_true, and_true, and_false, false_and, Bool.true_eq_false,
    reduceCtorEq]

theorem parseManifest_eq_ok {b : List (Nat × Beat)} {n : Nat} {w : Addr} {c : Contents} :
    parseManifest b n w = .ok c ↔
      checkCounts (readHeader b) n = none ∧ checkContents c w = none ∧ c = readContents b := by
  unfold parseManifest
  constructor
  · intro h
    split at h
    · cases h
    · split at h
      · cases h
      · cases h
        exact ⟨‹_›, ‹_›, rfl⟩
  · rintro ⟨hcounts, hcontents, rfl⟩
    rw [hcounts]
    simp only
    rw [hcontents]

theorem parsed_recordCount {b : List (Nat × Beat)} {n : Nat} {w : Addr} {c : Contents}
    (h : parseManifest b n w = .ok c) : c.header.recordCount ∈ [8, 16, 32, 64, 128, 256] := by
  obtain ⟨-, hcontents, -⟩ := parseManifest_eq_ok.1 h
  obtain ⟨-, -, harea, -⟩ := checkContents_eq_none.1 hcontents
  unfold badReportArea at harea
  obtain ⟨hcount, -⟩ := Bool.or_eq_false_iff.1 harea
  exact List.contains_iff_mem.1 (by simpa only [Bool.not_eq_false'] using (Bool.or_eq_false_iff.1 hcount).2)

/-- The ring after an event that leaves the area and both indices, with no new claim to a slot. -/
theorem ringOk_congr {r r' : ReportState} (h : r.ringOk) (harea : r'.area = r.area)
    (hproducer : r'.producer = r.producer) (hfill : r'.fill ≤ r.fill)
    (hclaim : r'.advanceOwed = true ∨ r'.channel = .writingRecord →
      r.advanceOwed = true ∨ r.channel = .writingRecord) : r'.ringOk := by
  intro area ha
  obtain ⟨hslots, hle, hroom, hnext⟩ := h area (harea.symm.trans ha)
  exact ⟨hslots, Nat.le_trans hfill hle, fun hc => Nat.lt_of_le_of_lt hfill (hroom (hclaim hc)),
    by rw [hproducer]; exact hnext⟩

theorem ringOk_reset : ReportState.reset.ringOk := nofun

/-- A published record takes the slot that was kept for it (R148). -/
theorem ringOk_published {r : ReportState} (h : r.ringOk) (howed : r.advanceOwed = true) {r' : ReportState}
    (harea : r'.area = r.area.map (fun a => { a with nextRecord := a.nextRecord + 1 }))
    (hproducer : r'.producer = r.producer + 1) (hconsumer : r'.consumer = r.consumer)
    (howed' : r'.advanceOwed = false) (hchannel : r'.channel = .ready) : r'.ringOk := by
  intro area ha
  rw [harea, Option.map_eq_some_iff] at ha
  obtain ⟨a, ha, rfl⟩ := ha
  obtain ⟨hslots, -, hroom, hnext⟩ := h a ha
  have hroom := hroom (.inl howed)
  have hfill : r'.fill ≤ r.fill + 1 := by
    unfold ReportState.fill
    rw [hproducer, hconsumer]
    bv_omega
  refine ⟨hslots, Nat.le_trans hfill hroom, fun hc => ?_, ?_⟩
  · rw [howed', hchannel] at hc
    exact absurd hc (by decide)
  · rw [hproducer, ← hnext]
    simp only
    bv_omega

theorem ringOk_of_effect {s : State} {c : Instr} {r : ReportState} (hchannel : s.report.channelOk)
    (h : s.report.ringOk) (heffect : ReportEffect s c r) : r.ringOk := by
  cases heffect with
  | same => exact h
  | reset => exact ringOk_reset
  | @acknowledged k target hbusy =>
    obtain ⟨-, ⟨⟨n, rfl⟩, hwriting, -⟩ | ⟨rfl, hwriting⟩⟩ := busy_cases hchannel hbusy
    · exact ringOk_congr h rfl rfl (Nat.le_refl _) (fun _ => .inr hwriting)
    · by_cases howed : s.report.advanceOwed = true
      · refine ringOk_published h howed ?_ ?_ ?_ ?_ ?_ <;>
          simp [ReportState.acknowledged, ReportState.setTag, howed]
      · refine ringOk_congr h ?_ ?_ (Nat.le_of_eq ?_) ?_ <;>
          simp [ReportState.acknowledged, ReportState.setTag, ReportState.fill, howed]
  | @failed k target hbusy tag htag =>
    obtain ⟨-, ⟨⟨n, rfl⟩, hwriting, -⟩ | ⟨rfl, hwriting⟩⟩ := busy_cases hchannel hbusy
    · exact ringOk_congr h rfl rfl (Nat.le_refl _) (fun _ => .inr hwriting)
    · exact ringOk_congr h rfl rfl (Nat.le_refl _) (fun hc => .inl (hc.resolve_right (by simp [ReportState.failed])))
  | freed => exact ringOk_congr h rfl rfl (Nat.le_refl _) id
  | header consumer hfill channel hchange =>
    refine ringOk_congr h rfl rfl hfill (fun hc => ?_)
    obtain rfl | ⟨hhalted, rfl⟩ := hchange
    · exact hc
    · exact .inl (hc.resolve_right nofun)
  | @armed hphase contents n hparse =>
    rintro _ ⟨⟩
    have hfill : (s.report.armed contents.header.reportBase contents.header.recordCount).fill = 0 := by
      simp [ReportState.fill, ReportState.armed]
    exact ⟨parsed_recordCount hparse, hfill ▸ Nat.zero_le _, fun hc => absurd hc nofun, rfl⟩

theorem ringOk_of_choice {r r' : ReportState} (h : r.ringOk) (hchoice : ReportChoice r r') : r'.ringOk := by
  cases hchoice with
  | nothing => exact h
  | header hready => exact ringOk_congr h rfl rfl (Nat.le_refl _) (fun hc => .inl (hc.resolve_right nofun))
  | record hready harea howed hroom =>
    intro area' harea'
    obtain ⟨hslots, hle, -, hnext⟩ := h area' harea'
    obtain rfl := Option.some.inj (harea.symm.trans harea')
    exact ⟨hslots, hle, fun _ => hroom, hnext⟩

theorem reportOk_of_effect {s t : State} {c : Instr} (hchannel : s.report.channelOk) (hring : s.report.ringOk)
    (heffect : Effect s c t) : t.report.channelOk ∧ t.report.ringOk := by
  cases reportAfter_of_effect heffect with
  | plain h => exact ⟨channelOk_of_effect hchannel h, ringOk_of_effect hchannel hring h⟩
  | @settled u h =>
    exact ⟨channelOk_of_choice (channelOk_of_effect hchannel h) (reportChoice_settle u),
      ringOk_of_choice (ringOk_of_effect hchannel hring h) (reportChoice_settle u)⟩

/-- Settles O58: what an event brings to the report unit, then the choice at its end. -/
theorem reportRingKept : Obligations.ReportRingKept := by
  intro s t hchannel hring hstep
  exact step_keeps (P := fun s => s.report.channelOk ∧ s.report.ringOk) (fun _ _ h => h)
    (fun h heffect => reportOk_of_effect h.1 h.2 heffect) ⟨hchannel, hring⟩ hstep

end Sys2Proof.Proofs

/-! The tables, the report area, the release sets and the record outside ARMED (R1, R118, R133, R139). -/

namespace Sys2Proof.Proofs
open Sys2Proof.Machine Sys2Proof.Laws

/-! ### The measuring blocks without images and subjects -/

/-- No image and no report subject. -/
def Bare (m : MeasureState) : Prop := m.images = [] ∧ m.subjects = []

theorem bare_of_same {m m' : MeasureState} (h : Bare m)
    (hsame : (m'.images, m'.subjects) = (m.images, m.subjects)) : Bare m' := by
  obtain ⟨himages, hsubjects⟩ := Prod.mk.inj hsame
  exact ⟨himages.trans h.1, hsubjects.trans h.2⟩

theorem bare_modImage {m : MeasureState} (h : Bare m) (i : Nat) (f : Image → Image) : Bare (m.modImage i f) :=
  ⟨images_modImage_of_images_nil h.1 i f, h.2⟩

theorem bare_modEngine {m : MeasureState} (h : Bare m) (e : EngineId) (f : Engine → Engine) :
    Bare (m.modEngine e f) := bare_of_same h rfl

theorem choose_of_bare {m : MeasureState} (h : Bare m) (e : EngineId) : m.choose e = m := by
  unfold MeasureState.choose
  split
  · rfl
  · rw [image?_of_images_nil h.1]

theorem grant_of_bare {m : MeasureState} (h : Bare m) (e : EngineId) (i : Nat) : m.grant e i = m := by
  unfold MeasureState.grant
  rw [image?_of_images_nil h.1]

theorem bare_arbitrate (n : Nat) {m : MeasureState} (h : Bare m) : Bare (m.arbitrate n) := by
  induction n generalizing m with
  | zero => exact h
  | succ n ih =>
    unfold MeasureState.arbitrate
    split
    · rename_i m' hm
      refine ih ?_
      unfold MeasureState.arbitrateOne at hm
      split at hm
      · cases hm
      · rename_i i rest _
        have hrest : Bare { m with waitList := rest } := bare_of_same h rfl
        split at hm
        · obtain rfl := Option.some.inj hm
          rwa [grant_of_bare hrest]
        · split at hm
          · obtain rfl := Option.some.inj hm
            exact bare_modEngine hrest _ _
          · cases hm
    · exact h

theorem bare_withdrawUnready {m : MeasureState} (h : Bare m) : Bare m.withdrawUnready := by
  unfold MeasureState.withdrawUnready
  exact foldl_inv Bare _ _ (fun _ _ _ hb => bare_modEngine hb _ _) _ (bare_of_same h rfl)

theorem bare_dropUnready {m : MeasureState} (h : Bare m) : Bare m.dropUnready := h

theorem bare_joinWaiting {m : MeasureState} (h : Bare m) : Bare m.joinWaiting := h

theorem bare_settlePool {m : MeasureState} (h : Bare m) : Bare m.settlePool := by
  have hfold : ∀ f : MeasureState → EngineId → MeasureState, (∀ b e, Bare b → Bare (f b e)) →
      ∀ b, Bare b → Bare (engineIds.foldl f b) := fun f hf b hb =>
    foldl_inv Bare f engineIds (fun b e _ hb => hf b e hb) b hb
  have hresumed := hfold MeasureState.resumeHolding (fun b e hb => by rwa [resumeHolding_of_images_nil hb.1])
    _ (bare_dropUnready (bare_withdrawUnready h))
  have hgranted := hfold MeasureState.grantPinned (fun b e hb => by rwa [grantPinned_of_images_nil hb.1])
    _ hresumed
  unfold MeasureState.settlePool
  exact bare_arbitrate _ (bare_joinWaiting hgranted)

theorem bare_serveFrom (l : List RefillRequest) {m : MeasureState} (h : Bare m) : Bare (m.serveFrom l).1 := by
  induction l generalizing m with
  | nil => exact h
  | cons r rest ih =>
    unfold MeasureState.serveFrom
    split
    · exact ih h
    · rename_i issued hissued
      refine ih ?_
      unfold MeasureState.issueRefill at hissued
      split at hissued
      · obtain rfl := Option.some.inj hissued
        exact bare_of_same h rfl
      · cases hissued

theorem bare_serveRefills {m : MeasureState} (h : Bare m) : Bare m.serveRefills.1 :=
  bare_of_same (bare_serveFrom _ (m := m.requestRefills) (bare_of_same h rfl)) rfl

/-- The report unit's choice takes the head subject for its record, or leaves the measuring blocks alone
(R144, R147). -/
theorem measure_chooseReport (man : ManifestState) (m : MeasureState) (r : ReportState) :
    (chooseReport man m r).2.1 = m ∨ ∃ subject rest, m.subjects = subject :: rest ∧
      (chooseReport man m r).2.1 =
        { m.modImage subject (fun g => { g with transitions := 0 }) with subjects := rest } := by
  unfold chooseReport
  split
  · simp only
    split
    · exact .inl (by split <;> rfl)
    · split
      · rename_i subject rest hsubjects _
        split
        · exact .inr ⟨subject, rest, hsubjects, by rw [issueRecord, hsubjects]; rfl⟩
        · exact .inl rfl
      · split
        · exact .inl (by split <;> rfl)
        · exact .inl rfl
  · exact .inl rfl

theorem measure_chooseReport_of_bare {m : MeasureState} (h : Bare m) (man : ManifestState) (r : ReportState) :
    (chooseReport man m r).2.1 = m :=
  (measure_chooseReport man m r).resolve_right (fun ⟨_, _, hsubjects, _⟩ => nomatch h.2.symm.trans hsubjects)

theorem bare_settle {s : State} (h : Bare s.measure) : Bare s.settle.measure := by
  have hserved := bare_serveRefills (bare_settlePool h)
  refine bare_of_same hserved ?_
  show ((chooseReport _ _ _).2.1.images, (chooseReport _ _ _).2.1.subjects) = _
  rw [measure_chooseReport_of_bare hserved]

theorem bare_passOn {m : MeasureState} (h : Bare m) (e : EngineId) : Bare (m.passOn e) := by
  unfold MeasureState.passOn
  split
  · rw [grant_of_bare (bare_modEngine h e _)]
    exact bare_modEngine h e _
  · exact h

theorem bare_stepEnd {m m' : MeasureState} (h : Bare m) (hend : StepEnd m m') : Bare m' := by
  have hdiscarded : ∀ e, Bare (m.endDiscarded e) := fun e => bare_modEngine h e _
  cases hend with
  | restored e =>
    unfold restoreDone
    split
    · exact hdiscarded e
    · split
      · exact h
      · have hrestored := bare_modEngine (bare_modImage h ‹_› (fun g => { g with slot := none })) e
          (fun x => { x with context := (m.image? ‹_›).bind (·.slot) })
        rw [choose_of_bare hrestored]
        exact hrestored
  | absorbed e =>
    unfold absorbDone
    split
    · exact hdiscarded e
    · rw [choose_of_bare (bare_modEngine h e _)]
      exact bare_modEngine h e _
  | finalised e =>
    unfold finalisationDone
    split
    · exact hdiscarded e
    · split
      · rw [image?_of_images_nil h.1]
        exact bare_modEngine h e _
      · exact h
  | parked e =>
    unfold parkDone
    split
    · exact bare_passOn (hdiscarded e) e
    · split
      · exact h
      · exact bare_passOn (bare_modEngine (bare_modImage h _ _) e _) e

theorem bare_deliverChunk {m : MeasureState} (h : Bare m) (e : EngineId) (i n : Nat) (beats : List Beat) :
    Bare (m.deliverChunk e i n beats) := by
  have hdelivered := bare_modEngine (bare_modImage h i (fun g =>
    { g with runs := dropChunk n g.runs, handOff := g.handOff + n })) e
    (fun x => { x with delivered := x.delivered ++ beats })
  unfold MeasureState.deliverChunk
  rwa [choose_of_bare hdelivered]

theorem subjects_writeAnswered_of_images_nil {m : MeasureState} (h : m.images = []) (tag : Nat)
    (status : LinkStatus) : (m.writeAnswered tag status).subjects = m.subjects := by
  have hcurrent : ∀ (entries : List WriteEntry) (recorded : List (Nat × BitVec 8)),
      MeasureState.current { m with entries := entries } recorded = [] :=
    fun entries recorded => current_of_images_nil (m := { m with entries := entries }) h recorded
  unfold MeasureState.writeAnswered
  split
  · rfl
  · simp only [hcurrent, List.foldl_nil, ite_self]
    rfl

/-! ### What ARMED alone brings -/

/-- No table, no report area, no release set and no record exists. -/
structure TablesGone (s : State) : Prop where
  bare : Bare s.measure
  segments : s.measure.segments = []
  verified : s.measure.verified = []
  area : s.report.area = none
  channel : s.report.channel = .dormant
  sets : s.lines.sets = none
  record : s.manifest.record = none
  revocation : s.manifest.revocation = none

theorem tablesOk_iff (s : State) : s.tablesOk ↔ (s.manifest.phase ≠ .armed → TablesGone s) := by
  refine forall_congr' fun _ => ⟨?_, ?_⟩
  · rintro ⟨himages, hsegments, hverified, hsubjects, harea, hchannel, hsets, hrecord, hrevocation⟩
    exact ⟨⟨himages, hsubjects⟩, hsegments, hverified, harea, hchannel, hsets, hrecord, hrevocation⟩
  · rintro ⟨⟨himages, hsubjects⟩, hsegments, hverified, harea, hchannel, hsets, hrecord, hrevocation⟩
    exact ⟨himages, hsegments, hverified, hsubjects, harea, hchannel, hsets, hrecord, hrevocation⟩

/-- What an event keeps when it brings no image or subject and leaves the other blocks' part of the
tables. -/
theorem tablesGone_of_moves {s t : State} (h : TablesGone s) (hmoves : Moves s.measure t.measure)
    (hbare : Bare t.measure) (hreport : (t.report.area, t.report.channel) = (s.report.area, s.report.channel))
    (hsets : t.lines.sets = s.lines.sets)
    (hmanifest : (t.manifest.record, t.manifest.revocation) = (s.manifest.record, s.manifest.revocation)) :
    TablesGone t where
  bare := hbare
  segments := hmoves.segments.trans h.segments
  verified := by
    rw [List.eq_nil_iff_forall_not_mem]
    intro i hi
    obtain hold | ⟨g, d, hg, -⟩ := hmoves.newVerified i hi
    · simp [h.verified] at hold
    · simp [image?_of_images_nil hbare.1] at hg
  area := (Prod.mk.inj hreport).1.trans h.area
  channel := (Prod.mk.inj hreport).2.trans h.channel
  sets := hsets.trans h.sets
  record := (Prod.mk.inj hmanifest).1.trans h.record
  revocation := (Prod.mk.inj hmanifest).2.trans h.revocation

theorem tablesGone_settle {s : State} (h : TablesGone s) : TablesGone s.settle := by
  have hreport : s.settle.report = s.report := by
    obtain hready := reportChoice_settle s
    generalize s.settle.report = r at hready ⊢
    cases hready with
    | nothing => rfl
    | header _ _ hready | record hready => exact nomatch h.channel.symm.trans hready
  have hbare := bare_settle h.bare
  have hmoves := (evolves_settle s).moves
  have hkept := tablesGone_of_moves (t := { s.settle with measure := { s.settle.measure with now := s.measure.now } })
    h hmoves (bare_of_same hbare rfl) (by rw [hreport]) rfl rfl
  exact ⟨hbare, hkept.segments, hkept.verified, hkept.area, hkept.channel, hkept.sets, hkept.record,
    hkept.revocation⟩

theorem tablesGone_of_work {s t : State} (h : TablesGone s) (hwork : ManifestWork s t) : TablesGone t := by
  obtain ⟨hrecord, hrevocation⟩ := Prod.mk.inj (Prod.mk.inj (Prod.mk.inj hwork.fixed).2).2
  refine tablesGone_of_moves h hwork.evolves.moves (bare_of_same h.bare ?_) ?_ ?_ ?_
  · rw [hwork.measure]
  · rw [report_of_work hwork]
  · rw [(Prod.mk.inj (Prod.mk.inj (Prod.mk.inj hwork.others).2).2).1]
  · rw [hrecord, hrevocation]

/-- Only a reset leaves ARMED and UNPROVISIONED (R101). -/
theorem fixed_or_reset {s t : State} {c : Instr} (hok : s.manifest.attemptsOk)
    (hfixed : s.manifest.phase = .armed ∨ s.manifest.phase = .unprovisioned) (heffect : Effect s c t) :
    t.manifest.phase = s.manifest.phase ∨ ∃ line attempts reason, t = resetTo s line attempts reason := by
  have hnot : ∀ {p : Phase}, s.manifest.phase = p → p ≠ .armed → p ≠ .unprovisioned → False :=
    fun hp ha hu => hfixed.elim (fun h => ha (hp.symm.trans h)) fun h => hu (hp.symm.trans h)
  have hwrites : s.manifest.windowWrites = [] := by
    refine Classical.byContradiction fun hsome => ?_
    exact hnot (hok.2.2 hsome) nofun nofun
  have hadvance : ∀ u : State, u.manifest.phase = s.manifest.phase →
      u.advanceManifest.manifest.phase = s.manifest.phase := fun u hu => by
    rwa [advanceManifest_of_not_loading (fun hloading => hnot (hu.symm.trans hloading) nofun nofun)]
  cases heffect with
  | cold | warm => exact .inr ⟨_, _, _, rfl⟩
  | nothing | straps | malformed | readForwarded | hostOffered | delivered | memOffered | sent | readAnswered
  | supply | refillExpired | reportExpired | consumer | engine | burnt => exact .inl rfl
  | refused _ kind => cases kind <;> exact .inl rfl
  | sensed _ _ hphase | checked _ _ hphase | unmatched hphase | rejected _ hphase
  | accepted _ _ _ _ _ hphase => exact (hnot hphase nofun nofun).elim
  | wrote tag addr beats =>
    obtain hsame | ⟨hphase, -⟩ := manifest_handOff (enteredWrite s tag addr beats) tag addr beats
    · exact .inl (congrArg ManifestState.phase hsame)
    · rcases hphase with hphase | hphase <;> exact (hnot hphase nofun nofun).elim
  | writeAnswered c tag status =>
    have hanswered := windowAnswered_of_no_writes (s := { s with
      link := s.link.relayResponse { kind := .write, tag := tag, status := status, data := [] }
      measure := s.measure.writeAnswered tag status }) hwrites tag status
    exact .inl (hadvance _ (congrArg (·.manifest.phase) hanswered))
  | refill c k status data =>
    refine .inl ?_
    unfold answerRefill
    repeat' split
    all_goals rfl
  | report c k status =>
    refine .inl ?_
    unfold answerReport
    repeat' split
    all_goals rfl
  | command c seq image kind =>
    exact .inl (congrArg ManifestState.phase (manifest_takeCommand s seq _ _))
  | manifestBeat => exact .inl (hadvance _ rfl)

theorem tablesGone_handOff {s : State} (h : TablesGone s) (hphase : s.manifest.phase ≠ .armed) (tag : Nat)
    (addr : Addr) (beats : List WriteBeat) : TablesGone (handOff s tag addr beats) := by
  have hadded : TablesGone { s with measure := s.measure.addEntry tag } :=
    tablesGone_of_moves h (moves_addEntry _ tag) (bare_of_same h.bare rfl) rfl rfl rfl
  have hwritten : ∀ u, TablesGone u →
      TablesGone (u.startAttempt.windowWrite tag addr beats).advanceManifest := fun u hu =>
    tablesGone_of_work hu ((work_startAttempt u).trans ((work_windowWrite _ tag addr beats).trans
      (work_advanceManifest _)))
  unfold handOff
  split
  · contradiction
  · simp only
    split
    · exact hwritten _ hadded
    · exact hadded
  · simp only
    split
    · exact hwritten _ hadded
    · exact hadded
  · exact hadded

/-- What an event that does not reset the part brings outside ARMED: no table, except by the acceptance of a
manifest. -/
theorem tablesGone_of_effect {s t : State} {c : Instr} (h : TablesGone s) (hchannel : s.report.channelOk)
    (hphase : s.manifest.phase ≠ .armed) (hafter : t.manifest.phase ≠ .armed) (heffect : Effect s c t) :
    TablesGone t := by
  have hidle : s.report.idle := by
    unfold ReportState.channelOk at hchannel
    rwa [h.channel] at hchannel
  have hpool : ∀ m, Moves s.measure m → Bare m → TablesGone { s with measure := m } := fun m hmoves hbare =>
    tablesGone_of_moves h hmoves hbare rfl rfl rfl
  have hsame : ∀ u : State, u.measure = s.measure → u.report = s.report → u.lines = s.lines →
      u.manifest = s.manifest → TablesGone u := fun u hm hr hl hu =>
    tablesGone_of_moves h (hm ▸ .refl _) (hm ▸ h.bare) (by rw [hr]) (by rw [hl]) (by rw [hu])
  have htag : ∀ k r, Bare (s.measure.setRefillTag k r) := fun k r => bare_of_same h.bare rfl
  have hbreak : ∀ k r i why, TablesGone { s with measure := (s.measure.setRefillTag k r).breakImage i why } :=
    fun k r i why => hpool _ ((evolves_setRefillTag _ _ _).trans (evolves_breakImage _ _ _)).moves
      (by rw [breakImage_of_images_nil (htag k r).1]; exact htag k r)
  cases heffect with
  | nothing => exact h
  | cold | warm => exact ⟨⟨rfl, rfl⟩, rfl, rfl, rfl, rfl, rfl, rfl, rfl⟩
  | refused _ kind => cases kind <;> exact hsame _ rfl rfl rfl rfl
  | malformed | readForwarded | hostOffered | delivered | memOffered | sent | readAnswered | supply =>
    exact hsame _ rfl rfl rfl rfl
  | straps => exact tablesGone_of_moves h (.refl _) h.bare rfl rfl rfl
  | sensed => exact tablesGone_settle (tablesGone_of_moves h (.refl _) h.bare rfl rfl rfl)
  | wrote tag addr beats =>
    exact tablesGone_settle (tablesGone_handOff (s := enteredWrite s tag addr beats)
      (hsame _ rfl rfl rfl rfl) hphase tag addr beats)
  | writeAnswered c tag status =>
    have hanswered : TablesGone { s with
        link := s.link.relayResponse { kind := .write, tag := tag, status := status, data := [] }
        measure := s.measure.writeAnswered tag status } := by
      refine tablesGone_of_moves h (moves_writeAnswered _ _ _) ⟨?_, ?_⟩ rfl rfl rfl
      · exact (Prod.mk.inj (writeAnswered_of_images_nil h.bare.1 tag status)).1.trans h.bare.1
      · exact (subjects_writeAnswered_of_images_nil h.bare.1 tag status).trans h.bare.2
    exact tablesGone_settle (tablesGone_of_work hanswered ((work_windowAnswered _ _ _).trans
      (work_advanceManifest _)))
  | refill c k status data =>
    have hfree := tablesGone_settle (hpool _ (evolves_setRefillTag s.measure k .free).moves (htag k .free))
    unfold answerRefill
    split
    · exact h
    · exact hfree
    · exact hfree
    · split
      · exact tablesGone_settle (tablesGone_of_moves h
          ((evolves_setRefillTag _ _ _).trans (evolves_deliverChunk _ _ _ _ _)).moves
          (bare_deliverChunk (htag k .free) _ _ _ _) rfl rfl rfl)
      · exact tablesGone_settle (hbreak k _ _ _)
  | report c k status =>
    unfold answerReport
    split
    · exact h
    · exact tablesGone_settle (tablesGone_of_moves h (.refl _) h.bare rfl rfl rfl)
    · exact absurd ‹_› (hidle k _)
  | refillExpired tag k m hevolves hm =>
    obtain rfl | ⟨i, rfl⟩ := hm
    · exact tablesGone_settle (hpool _ hevolves.moves (htag k _))
    · exact tablesGone_settle (hbreak k _ i _)
  | reportExpired tag k target hbusy => exact absurd hbusy (hidle k target)
  | consumer v hlive => exact absurd h.channel hlive
  | command c seq image kind hlive => exact absurd h.channel hlive
  | engine c m hend => exact tablesGone_settle (hpool m hend.evolves.moves (bare_stepEnd h.bare hend))
  | manifestBeat =>
    have hbeat := hpool _ (evolves_modEngine s.measure 0 (Engine.manifestBeatDone s.measure.now)).moves
      (bare_modEngine h.bare _ _)
    exact tablesGone_settle (tablesGone_of_work hbeat (work_advanceManifest _))
  | checked =>
    exact tablesGone_settle (tablesGone_of_moves h (evolves_modEngine s.measure 0 Engine.endCheck).moves
      (bare_modEngine h.bare _ _) rfl rfl rfl)
  | unmatched =>
    have hended := hpool _ (evolves_modEngine s.measure 0 Engine.endCheck).moves (bare_modEngine h.bare _ _)
    exact tablesGone_settle (tablesGone_of_work hended (work_failAttempt _ _))
  | rejected why => exact tablesGone_settle (tablesGone_of_work h (work_failAttempt s why))
  | accepted => exact absurd rfl hafter
  | burnt c outcome fuses hburning => exact nomatch h.revocation.symm.trans hburning

theorem tablesOk_of_effect {s t : State} {c : Instr} (h : s.tablesOk) (hok : s.manifest.attemptsOk)
    (hchannel : s.report.channelOk) (heffect : Effect s c t) : t.tablesOk := by
  rw [tablesOk_iff] at h ⊢
  intro hafter
  by_cases hphase : s.manifest.phase = .armed
  · obtain hkept | ⟨line, attempts, reason, rfl⟩ := fixed_or_reset hok (.inl hphase) heffect
    · exact absurd (hkept.trans hphase) hafter
    · exact ⟨⟨rfl, rfl⟩, rfl, rfl, rfl, rfl, rfl, rfl, rfl⟩
  · exact tablesGone_of_effect (h hphase) hchannel hphase hafter heffect

theorem channelOk_of_event {s t : State} {c : Instr} (h : s.report.channelOk) (heffect : Effect s c t) :
    t.report.channelOk := by
  cases reportAfter_of_effect heffect with
  | plain hreport => exact channelOk_of_effect h hreport
  | @settled u hreport => exact channelOk_of_choice (channelOk_of_effect h hreport) (reportChoice_settle u)

/-- Settles O55: the tables come with the acceptance of a manifest and go with a reset, and what they declare
stays as the parse checks found it. -/
theorem tablesInArmedAlone : Obligations.TablesInArmedAlone := by
  refine ⟨fun s t htables hok hchannel hstep => ?tables, fun s t => ?lower, fun s t => ?cover⟩
  case tables =>
    exact (step_keeps (P := fun s => s.tablesOk ∧ s.manifest.attemptsOk ∧ s.report.channelOk) (fun _ _ h => h)
      (fun ⟨htables, hok, hchannel⟩ heffect => ⟨tablesOk_of_effect htables hok hchannel heffect,
        attemptsOk_of_effect hok (manifestEffect_of_effect heffect), channelOk_of_event hchannel heffect⟩)
      ⟨htables, hok, hchannel⟩ hstep).1
  case lower =>
    exact step_keeps (P := fun s => s.measure.predecessorsLower) (fun _ _ h => h) predecessorsLower_of_effect
  case cover =>
    exact step_keeps (P := fun s => s.measure.segmentsCover) (fun _ _ h => h) segmentsCover_of_effect

end Sys2Proof.Proofs

/-! The output lines follow the state at every step (R134, R135, R136). -/

namespace Sys2Proof.Proofs
open Sys2Proof.Machine Sys2Proof.Laws

/-! ### The conditions of the lines -/

theorem failedCount_pos_iff (m : MeasureState) :
    0 < m.failedCount ↔ ∃ i g, m.image? i = some g ∧ g.state.isFailed = true := by
  rw [MeasureState.failedCount, List.length_pos_iff_exists_mem]
  constructor
  · rintro ⟨g, hg⟩
    obtain ⟨hmem, hfailed⟩ := List.mem_filter.1 hg
    obtain ⟨k, hk⟩ := List.mem_iff_getElem?.1 hmem
    exact ⟨k + 1, g, hk, hfailed⟩
  · rintro ⟨i, g, hg, hfailed⟩
    exact ⟨g, List.mem_filter.2 ⟨mem_images hg, hfailed⟩⟩

theorem faultCondition_iff (s : State) : faultCondition s = true ↔
    (∃ i g, s.measure.image? i = some g ∧ g.state.isFailed = true) ∨
      s.manifest.phase = .rejected ∨ s.manifest.phase = .lockout ∨ s.report.channel = .halted ∨
      s.manifest.revocation = some .failed := by
  rw [← failedCount_pos_iff]
  simp [faultCondition, or_assoc]

theorem allVerified_iff (verified : List Nat) (set : BitVec 32) :
    allVerified verified set = true ↔ membersVerified verified set := by
  simp only [allVerified, membersVerified, List.all_eq_true, List.mem_range, Bool.or_eq_true, Bool.not_eq_true',
    List.contains_iff_mem]
  refine forall₂_congr fun i _ => ?_
  cases set.getLsbD i <;> simp

theorem membersVerified_mono {verified verified' : List Nat} (h : ∀ i ∈ verified, i ∈ verified')
    {set : BitVec 32} (hset : membersVerified verified set) : membersVerified verified' set :=
  fun i hi hmem => h i (hset i hi hmem)

theorem faultOk_iff (s : State) : s.faultOk ↔ s.lines.fault = faultCondition s := by
  rw [Bool.eq_iff_iff, faultCondition_iff]
  rfl

/-! ### The lines after an event -/

/-- The end of an event asserts a release line whose condition holds, keeps one that stands, and gives FAULT
its conditions (R134 to R136). -/
theorem settle_lines (u : State) : u.settle.lines = { u.lines with
    rls0 := u.lines.rls0 || (releaseCondition u.settle).1, rls1 := u.lines.rls1 || (releaseCondition u.settle).2,
    fault := faultCondition u.settle } := rfl

/-- The lines after command `c` on state `s`. -/
inductive LinesAfter (s : State) (c : Instr) : State → Prop where
  | unseen {t : State} (hlines : t.lines = s.lines) (hmeasure : t.measure = s.measure)
      (hreport : t.report = s.report)
      (hmanifest : (t.manifest.phase, t.manifest.revocation) = (s.manifest.phase, s.manifest.revocation)) :
      LinesAfter s c t
  | reset (hc : c = .coldReset ∨ c = .warmReset) (line : ResetLine) (attempts : Nat)
      (reason : Option RejectReason) : LinesAfter s c (resetTo s line attempts reason)
  | settled {u : State} (hlines : u.lines = s.lines)
      (hother : s.manifest.phase = .parsing → c = .parsingDone → u.manifest.phase ≠ .armed) :
      LinesAfter s c u.settle
  | accepted {contents : Contents} (hphase : s.manifest.phase = .parsing) (slot : AnchorSlot) (digest : Digest)
      (p : SlotReading) (n : Nat) : LinesAfter s c (s.arm contents slot digest p n).settle

theorem lines_of_work {s t : State} (h : ManifestWork s t) : t.lines = s.lines :=
  (Prod.mk.inj (Prod.mk.inj (Prod.mk.inj h.others).2).2).1

theorem lines_takeCommand (s : State) (seq : BitVec 8) (kind : Option CommandKind) (i : Nat) :
    (takeCommand s seq kind i).lines = s.lines := by
  unfold takeCommand
  split
  · rfl
  · simp only
    split
    · rename_i k _
      cases k <;> rfl
    · rfl

theorem lines_handOff (s : State) (tag : Nat) (addr : Addr) (beats : List WriteBeat) :
    (handOff s tag addr beats).lines = s.lines := by
  have hwindow : ∀ u : State, (u.startAttempt.windowWrite tag addr beats).advanceManifest.lines = u.lines :=
    fun u => lines_of_work ((work_startAttempt u).trans ((work_windowWrite _ tag addr beats).trans
      (work_advanceManifest _)))
  unfold handOff
  split
  · obtain ⟨b, -, -, heq⟩ | heq := handOffArmed_cases s tag addr beats
    · rw [heq, snoopHeader_eq]
      obtain ⟨consumer, hconsumer⟩ := takeConsumerField_eq { s with measure := s.measure.addEntry tag } b
      rw [hconsumer]
      split
      · exact lines_takeCommand _ _ _ _
      · rfl
    · rw [heq]
  · simp only
    split
    · exact hwindow _
    · rfl
  · simp only
    split
    · exact hwindow _
    · rfl
  · rfl

theorem linesAfter_of_effect {s t : State} {c : Instr} (heffect : Effect s c t) : LinesAfter s c t := by
  have hwork : ∀ {u v : State}, u.lines = s.lines → ManifestWork u v →
      (s.manifest.phase = .parsing → c = .parsingDone → v.manifest.phase ≠ .armed) → LinesAfter s c v.settle :=
    fun hu hv => .settled ((lines_of_work hv).trans hu)
  have hkept : ∀ {u : State}, u.lines = s.lines → u.manifest.phase = s.manifest.phase → LinesAfter s c u.settle :=
    fun hu hphase => .settled hu fun hparsing _ harmed => nomatch hparsing.symm.trans (hphase.symm.trans harmed)
  cases heffect with
  | cold => exact .reset (.inl rfl) _ _ _
  | warm => exact .reset (.inr rfl) _ _ _
  | refused _ kind => cases kind <;> exact .unseen rfl rfl rfl rfl
  | nothing | straps | malformed | readForwarded | hostOffered | delivered | memOffered | sent
  | readAnswered | supply => exact .unseen rfl rfl rfl rfl
  | sensed | checked => exact .settled rfl (fun _ => nofun)
  | refillExpired | reportExpired | consumer | engine | burnt => exact hkept rfl rfl
  | wrote tag addr beats => exact .settled (lines_handOff _ tag addr beats) (fun _ => nofun)
  | writeAnswered c tag status hmem hlt hresponse =>
    exact hwork (u := { s with
      link := s.link.relayResponse { kind := .write, tag := tag, status := status, data := [] }
      measure := s.measure.writeAnswered tag status }) rfl
      ((work_windowAnswered _ tag status).trans (work_advanceManifest _))
      (fun _ hc => nomatch hc ▸ hresponse)
  | refill c k status data =>
    unfold answerRefill
    split
    · exact .unseen rfl rfl rfl rfl
    · exact hkept rfl rfl
    · exact hkept rfl rfl
    · split
      · exact hkept rfl rfl
      · exact hkept rfl rfl
  | report c k status =>
    unfold answerReport
    split
    · exact .unseen rfl rfl rfl rfl
    · exact hkept rfl rfl
    · split
      · exact hkept rfl rfl
      · exact hkept rfl rfl
  | command c seq image kind => 
    exact hkept (lines_takeCommand _ _ _ _) (congrArg ManifestState.phase (manifest_takeCommand s seq _ _))
  | manifestBeat => 
    exact hwork (u := { s with measure := s.measure.modEngine 0 (Engine.manifestBeatDone s.measure.now) })
      rfl (work_advanceManifest _) (fun _ => nofun)
  | unmatched =>
    exact hwork (u := { s with measure := s.measure.modEngine 0 Engine.endCheck }) rfl (work_failAttempt _ _)
      (fun _ => nofun)
  | rejected why => 
    refine hwork rfl (work_failAttempt s why) fun _ _ harmed => ?_
    rcases (failedFrom_failAttempt s why).cases with h | h <;> exact nomatch h.symm.trans harmed
  | accepted contents slot digest p n hphase => exact .accepted hphase slot digest p n

theorem release_kept {s t : State} {c : Instr} (h : LinesAfter s c t) (hcold : c ≠ .coldReset)
    (hwarm : c ≠ .warmReset) :
    (s.lines.rls0 = true → t.lines.rls0 = true) ∧ (s.lines.rls1 = true → t.lines.rls1 = true) := by
  have hsettled : ∀ u : State, (u.lines.rls0 = true → u.settle.lines.rls0 = true) ∧
      (u.lines.rls1 = true → u.settle.lines.rls1 = true) := fun u => by
    rw [settle_lines]
    exact ⟨fun h => by simp [h], fun h => by simp [h]⟩
  cases h with
  | unseen hlines => rw [hlines]; exact ⟨id, id⟩
  | reset hc => exact (hc.elim hcold hwarm).elim
  | settled hlines => rw [← hlines]; exact hsettled _
  | accepted _ slot digest p n => exact hsettled (s.arm _ slot digest p n)

/-! ### FAULT -/

theorem faultOk_of_linesAfter {s t : State} {c : Instr} (hs : s.faultOk) (h : LinesAfter s c t) : t.faultOk := by
  cases h with
  | unseen hlines hmeasure hreport hmanifest =>
    obtain ⟨hphase, hrevocation⟩ := Prod.mk.inj hmanifest
    unfold State.faultOk
    rw [hlines, hmeasure, hreport, hphase, hrevocation]
    exact hs
  | reset =>
    rw [faultOk_iff]
    rfl
  | settled =>
    rw [faultOk_iff, settle_lines]
  | accepted =>
    rw [faultOk_iff, settle_lines]

/-! ### The release lines -/

theorem verified_of_effect {s t : State} {c : Instr} (hphase : s.manifest.phase = .armed)
    (harmed : t.manifest.phase = .armed) (heffect : Effect s c t) :
    ∀ i ∈ s.measure.verified, i ∈ t.measure.verified := by
  cases poolAfter_of_effect heffect with
  | same hsame => exact fun i hi => hsame ▸ hi
  | reset _ hsensing => exact nomatch harmed.symm.trans hsensing
  | @settled u hpool =>
    rw [settle_verified]
    cases poolChange_of_effect hpool with
    | moves hmoves => exact hmoves.verified
    | reopened hmoves _ hm =>
      intro i hi
      rw [hm, (reopens_closure _ _).verified]
      exact hmoves.verified i hi
    | armed hparsing => exact nomatch hphase.symm.trans hparsing

/-- The release lines outside ARMED and UNPROVISIONED stand low, and in ARMED none stands whose members are
not all recorded: what the end of an event makes of them. -/
theorem releaseOk_settle {u : State}
    (hlow : u.manifest.phase ≠ .unprovisioned → u.manifest.phase ≠ .armed →
      u.lines.rls0 = false ∧ u.lines.rls1 = false)
    (harmed : u.manifest.phase = .armed → ∃ set0 set1, u.lines.sets = some (set0, set1) ∧
      (u.lines.rls0 = true → membersVerified u.settle.measure.verified set0) ∧
      (u.lines.rls1 = true → membersVerified u.settle.measure.verified set1)) : u.settle.releaseOk := by
  refine ⟨fun hphase => ?_, fun hne hne' => ?_, fun hphase => ?_⟩
  · have hcondition : releaseCondition u.settle = (true, true) := by rw [releaseCondition, hphase]
    simp [settle_lines, hcondition]
  · have hcondition : releaseCondition u.settle = (false, false) := by
      unfold releaseCondition
      split <;> simp_all
    obtain ⟨h0, h1⟩ := hlow hne hne'
    simp [settle_lines, hcondition, h0, h1]
  · obtain ⟨set0, set1, hsets, h0, h1⟩ := harmed hphase
    have hcondition : releaseCondition u.settle =
        (allVerified u.settle.measure.verified set0, allVerified u.settle.measure.verified set1) := by
      rw [releaseCondition, hphase, settle_sets, hsets]
    refine ⟨set0, set1, hsets, ?_, ?_⟩
    · rw [settle_lines, hcondition, ← allVerified_iff, Bool.or_eq_true, or_iff_right_iff_imp]
      exact fun h => (allVerified_iff _ _).2 (h0 h)
    · rw [settle_lines, hcondition, ← allVerified_iff, Bool.or_eq_true, or_iff_right_iff_imp]
      exact fun h => (allVerified_iff _ _).2 (h1 h)

theorem releaseOk_resetTo (s : State) (line : ResetLine) (attempts : Nat) (reason : Option RejectReason) :
    (resetTo s line attempts reason).releaseOk := ⟨nofun, fun _ _ => ⟨rfl, rfl⟩, nofun⟩

theorem armed_of_effect {s t : State} {c : Instr} (hok : s.manifest.attemptsOk) (heffect : Effect s c t)
    (harmed : t.manifest.phase = .armed) :
    s.manifest.phase = .armed ∨ s.manifest.phase = .parsing ∧ c = .parsingDone := by
  have hstep := phaseStep_of_effect hok (manifestEffect_of_effect heffect)
  rw [harmed] at hstep
  generalize hphase : Phase.armed = phase at hstep
  cases hstep with
  | stays => exact .inl rfl
  | reset | lastBeat | lastResponse => cases hphase
  | sensed _ _ hafter | checked _ _ hafter => subst hphase; simp at hafter
  | beatFails _ _ hafter | responseFails _ _ _ _ hafter | retried _ _ hafter => subst hphase; simp at hafter
  | parsed hparsing hc => exact .inr ⟨hparsing, hc⟩

theorem releaseOk_of_effect {s t : State} {c : Instr} (hok : s.manifest.attemptsOk) (hs : s.releaseOk)
    (heffect : Effect s c t) : t.releaseOk := by
  obtain ⟨hboth, hlow, harmed⟩ := hs
  have hkept := fun h => fixed_or_reset hok h heffect
  have hverified := fun h h' => verified_of_effect h h' heffect
  cases linesAfter_of_effect heffect with
  | unseen hlines hmeasure hreport hmanifest =>
    unfold State.releaseOk
    rw [hlines, hmeasure, (Prod.mk.inj hmanifest).1]
    exact ⟨hboth, hlow, harmed⟩
  | reset => exact releaseOk_resetTo s _ _ _
  | @settled u hlines hother =>
    by_cases hfixed : s.manifest.phase = .armed ∨ s.manifest.phase = .unprovisioned
    · obtain hsame | ⟨line, attempts, reason, hreset⟩ := hkept hfixed
      · have hphase : u.manifest.phase = s.manifest.phase := hsame
        refine releaseOk_settle (fun hne hne' => ?_) fun harmed' => ?_
        · exact absurd (hphase ▸ hfixed) (fun h => h.elim hne' hne)
        · obtain ⟨set0, set1, hsets, h0, h1⟩ := harmed (hphase.symm.trans harmed')
          have hmono := hverified (hphase.symm.trans harmed') harmed'
          rw [hlines]
          exact ⟨set0, set1, hsets, fun h => membersVerified_mono hmono (h0.1 h),
            fun h => membersVerified_mono hmono (h1.1 h)⟩
      · exact hreset ▸ releaseOk_resetTo s line attempts reason
    · obtain ⟨hne, hne'⟩ := not_or.1 hfixed
      refine releaseOk_settle (fun _ _ => hlines ▸ hlow hne' hne) fun harmed' => ?_
      obtain harmed'' | ⟨hparsing, hc⟩ := armed_of_effect hok heffect harmed'
      · exact absurd harmed'' hne
      · exact absurd harmed' (hother hparsing hc)
  | @accepted contents hphase slot digest p n =>
    obtain ⟨h0, h1⟩ := hlow (by simp [hphase]) (by simp [hphase])
    refine releaseOk_settle (fun _ hne => absurd rfl hne) fun _ => ⟨_, _, rfl, fun h => ?_, fun h => ?_⟩
    · exact nomatch h0.symm.trans h
    · exact nomatch h1.symm.trans h

/-- Settles O57: the lines are worked out at the end of each event that can change what they follow. -/
theorem linesFollowTheState : Obligations.LinesFollowTheState := by
  refine ⟨fun s t hok hfault hrelease hstep => ?_, fun c s t hexec hcold hwarm =>
    release_kept (linesAfter_of_effect (exec_effect hexec)) hcold hwarm⟩
  exact (step_keeps (P := fun s => s.manifest.attemptsOk ∧ s.faultOk ∧ s.releaseOk) (fun _ _ h => h)
    (fun ⟨hok, hfault, hrelease⟩ heffect => ⟨attemptsOk_of_effect hok (manifestEffect_of_effect heffect),
      faultOk_of_linesAfter hfault (linesAfter_of_effect heffect), releaseOk_of_effect hok hrelease heffect⟩)
    ⟨hok, hfault, hrelease⟩ hstep).2

end Sys2Proof.Proofs

/-! The dependents of an image (R125). -/

namespace Sys2Proof.Proofs
open Sys2Proof.Machine Sys2Proof.Laws

theorem dependsOn_iff (m : MeasureState) (x d : Nat) : dependsOn m x d ↔
    ∃ p, (m.image? d).bind (·.declared.predecessor) = some p ∧ (p = x ∨ dependsOn m x p) := by
  constructor
  · intro h
    cases h with
    | direct hd hp => exact ⟨x, by rw [hd]; exact hp, .inl rfl⟩
    | through hd hp h => exact ⟨_, by rw [hd]; exact hp, .inr h⟩
  · rintro ⟨p, hp, h⟩
    obtain ⟨g, hg, hp⟩ := Option.bind_eq_some_iff.1 hp
    obtain rfl | h := h
    · exact .direct hg hp
    · exact .through hg hp h

theorem lt_of_dependsOn {m : MeasureState} (hlower : m.predecessorsLower) {x d : Nat} (h : dependsOn m x d) :
    x < d := by
  induction h with
  | direct hd hp => exact hlower _ _ _ hd hp
  | through hd hp _ ih => exact Nat.lt_trans ih (hlower _ _ _ hd hp)

theorem image_of_dependsOn {m : MeasureState} {x d : Nat} (h : dependsOn m x d) :
    1 ≤ d ∧ d ≤ m.images.length := by
  cases h with
  | direct hd => exact (image?_isSome m d).1 (by rw [hd]; rfl)
  | through hd => exact (image?_isSome m d).1 (by rw [hd]; rfl)

/-- One image of the pass: it joins exactly when its predecessor is x or was found before. -/
theorem mem_dependentStep (m : MeasureState) (x : Nat) (found : List Nat) (d j : Nat) :
    j ∈ dependentStep m x found d ↔ j ∈ found ∨ j = d ∧
      ∃ p, (m.image? d).bind (·.declared.predecessor) = some p ∧ (p = x ∨ p ∈ found) := by
  unfold dependentStep
  split
  · rename_i p hp
    simp only [hp, Option.some.injEq, exists_eq_left']
    split
    · rename_i hfound
      simp [hfound]
    · rename_i hfound
      simp [hfound]
  · rename_i hp
    simp [hp]

theorem dependentStep_eq (m : MeasureState) (x : Nat) (found : List Nat) (d : Nat) :
    dependentStep m x found d = found ∨ dependentStep m x found d = found ++ [d] := by
  unfold dependentStep
  split
  · split
    · exact .inr rfl
    · exact .inl rfl
  · exact .inl rfl

/-- The pass over the first k images finds the dependents among them, in increasing order. -/
theorem dependents_pass {m : MeasureState} (hlower : m.predecessorsLower) (x k : Nat) :
    (∀ d, d ∈ ((List.range k).map (· + 1)).foldl (dependentStep m x) [] ↔ d ≤ k ∧ dependsOn m x d) ∧
      (((List.range k).map (· + 1)).foldl (dependentStep m x) []).Pairwise (· < ·) := by
  induction k with
  | zero =>
    refine ⟨fun d => ⟨nofun, fun ⟨hd, hdep⟩ => ?_⟩, .nil⟩
    have := (image_of_dependsOn hdep).1
    omega
  | succ k ih =>
    obtain ⟨hmem, hsorted⟩ := ih
    rw [List.range_succ, List.map_append, List.foldl_append]
    generalize ((List.range k).map (· + 1)).foldl (dependentStep m x) [] = found at hmem hsorted ⊢
    refine ⟨fun d => ?_, ?_⟩
    · show d ∈ dependentStep m x found (k + 1) ↔ _
      rw [mem_dependentStep, hmem]
      have hpred : ∀ p, (m.image? (k + 1)).bind (·.declared.predecessor) = some p → p ≤ k := fun p hp => by
        obtain ⟨g, hg, hp⟩ := Option.bind_eq_some_iff.1 hp
        exact Nat.lt_succ_iff.1 (hlower _ _ _ hg hp)
      constructor
      · rintro (⟨hd, hdep⟩ | ⟨rfl, p, hp, hfound⟩)
        · exact ⟨Nat.le_succ_of_le hd, hdep⟩
        · exact ⟨(Nat.le_refl _), (dependsOn_iff m x _).2 ⟨p, hp, hfound.imp_right fun h => ((hmem p).1 h).2⟩⟩
      · rintro ⟨hd, hdep⟩
        obtain hlt | rfl := Nat.lt_or_eq_of_le hd
        · exact .inl ⟨Nat.lt_succ_iff.1 hlt, hdep⟩
        · obtain ⟨p, hp, hfound⟩ := (dependsOn_iff m x _).1 hdep
          exact .inr ⟨rfl, p, hp, hfound.imp_right fun h => (hmem p).2 ⟨hpred p hp, h⟩⟩
    · show (dependentStep m x found (k + 1)).Pairwise (· < ·)
      obtain heq | heq := dependentStep_eq m x found (k + 1)
      · rwa [heq]
      · rw [heq, List.pairwise_append]
        refine ⟨hsorted, List.pairwise_singleton _ _, fun d hd j hj => ?_⟩
        rw [List.mem_singleton.1 hj]
        exact Nat.lt_succ_of_le ((hmem d).1 hd).1

theorem mem_dependents {m : MeasureState} (hlower : m.predecessorsLower) (x d : Nat) :
    d ∈ m.dependents x ↔ dependsOn m x d := by
  rw [MeasureState.dependents, MeasureState.indices, (dependents_pass hlower x _).1, and_iff_right_iff_imp]
  exact fun h => (image_of_dependsOn h).2

theorem lt_of_mem_dependents {m : MeasureState} (hlower : m.predecessorsLower) {x d : Nat}
    (h : d ∈ m.dependents x) : x < d := lt_of_dependsOn hlower ((mem_dependents hlower x d).1 h)

theorem closure_nodup {m : MeasureState} (hlower : m.predecessorsLower) (x : Nat) :
    (x :: m.dependents x).Nodup :=
  List.nodup_cons.2 ⟨fun h => Nat.lt_irrefl x (lt_of_mem_dependents hlower h),
    (dependents_pass hlower x _).2.imp Nat.ne_of_lt⟩

/-- Settles O34: the pass of R125 finds each dependent after its predecessor. -/
theorem dependentsAreTheClosure : Obligations.DependentsAreTheClosure := by
  intro m x hlower
  exact ⟨mem_dependents hlower x, (dependents_pass hlower x _).2, fun d => lt_of_mem_dependents hlower⟩

end Sys2Proof.Proofs

/-! The reopen of a closure (R14, R131), and how every image moves (R6, R9). -/

namespace Sys2Proof.Proofs
open Sys2Proof.Machine Sys2Proof.Laws

/-! ### The images of a closure -/

theorem image?_reopenAll {L : List Nat} (hnodup : L.Nodup) (m : MeasureState) (j : Nat) :
    (L.foldl (fun m d => m.reopenOne d) m).image? j =
      if j ∈ L then (m.image? j).map reopened else m.image? j := by
  induction L generalizing m with
  | nil => simp
  | cons d L ih =>
    obtain ⟨hd, hL⟩ := List.nodup_cons.1 hnodup
    rw [List.foldl_cons, ih hL, image?_reopenOne]
    by_cases hdj : d = j
    · subst hdj
      simp [hd]
    · simp [hdj, Ne.symm hdj]

theorem image?_reopenClosure {m : MeasureState} (hlower : m.predecessorsLower) (x j : Nat) :
    (m.reopenClosure x).image? j =
      if j ∈ x :: m.dependents x then (m.image? j).map reopened else m.image? j :=
  image?_reopenAll (closure_nodup hlower x) m j

/-! ### Every image moves forwards or is reopened -/

/-- What becomes of one image record of s in t. -/
theorem image_moves_settle {u : State} {i : Nat} {g : Image} (hg : u.measure.image? i = some g) :
    ∃ g', u.settle.measure.image? i = some g' ∧ g'.declared = g.declared ∧ g'.epoch = g.epoch ∧
      g.state.movesTo g'.state := (evolves_settle u).moves.images i g hg

theorem image_moves {s u : State} (hmoves : Moves s.measure u.measure) {i : Nat} {g : Image}
    (hg : s.measure.image? i = some g) : ∃ g', u.settle.measure.image? i = some g' ∧
      g'.declared = g.declared ∧ g'.epoch = g.epoch ∧ g.state.movesTo g'.state :=
  (hmoves.trans ((evolves_settle u).moves (m := u.measure))).images i g hg

theorem tables_of_change {s : State} {c : Instr} {m : MeasureState} (h : PoolChange s c m)
    (harmed : s.manifest.phase = .armed) : SameTables s.measure m := by
  cases h with
  | moves hmoves => exact hmoves.tables
  | reopened hmoves _ hm => exact hm ▸ hmoves.tables.trans (tables_reopenClosure _ _)
  | armed hparsing => exact nomatch harmed.symm.trans hparsing

/-- A member of a reopened closure stands at its next epoch, at the event's end too. -/
theorem image_reopened {s u : State} {entered : MeasureState} {x : Nat} (himages : entered.images = s.measure.images)
    (hm : u.measure = entered.reopenClosure x) (hlower : s.measure.predecessorsLower) {i : Nat} {g : Image}
    (hg : s.measure.image? i = some g) : ∃ g', u.settle.measure.image? i = some g' ∧
      g'.declared = g.declared ∧ ((g'.epoch = g.epoch ∧ g.state.movesTo g'.state) ∨
        g'.state = .declared ∧ g'.cursor = 0 ∧ g'.epoch = g.epoch + 1 ∧
          (i = x ∨ i ∈ s.measure.dependents x)) := by
  have hsame : ∀ j, entered.image? j = s.measure.image? j := image?_congr himages
  have hdependents : entered.dependents x = s.measure.dependents x :=
    dependents_congr (by rw [himages]) (fun d => by rw [hsame]) x
  have hlower' : entered.predecessorsLower := fun j g p hj => hlower j g p (hsame j ▸ hj)
  have hu := image?_reopenClosure hlower' x i
  rw [← hm, hsame, hg, hdependents] at hu
  split at hu
  · rename_i hmember
    obtain ⟨g', hg', hstill, -⟩ := settle_image hu
    obtain ⟨heq, -⟩ := hstill nofun
    rw [heq] at hg'
    exact ⟨_, hg', rfl, .inr ⟨rfl, rfl, rfl, List.mem_cons.1 hmember⟩⟩
  · obtain ⟨g', hg', hdeclared, hepoch, hstate⟩ := image_moves_settle hu
    exact ⟨g', hg', hdeclared, .inl ⟨hepoch, hstate⟩⟩

/-- Settles O52: what each event brings to the images, and a DECLARED image stands still at the event's
end. -/
theorem imagesMoveForwardOrReopen : Obligations.ImagesMoveForwardOrReopen := by
  intro c s t hexec hs ht _ hlower
  cases poolAfter_of_effect (exec_effect hexec) with
  | same hsame =>
    rw [hsame]
    exact ⟨rfl, rfl, fun i g hg => ⟨g, hg, rfl, .inl ⟨rfl, .inl rfl⟩⟩⟩
  | reset _ hsensing => exact nomatch ht.symm.trans hsensing
  | @settled u hpool =>
    have hchange := poolChange_of_effect hpool
    have htables := (tables_of_change hchange hs).trans (tables_settle u)
    refine ⟨htables.segments, htables.length, fun i g hg => ?_⟩
    cases hchange with
    | moves hmoves =>
      obtain ⟨g', hg', hdeclared, hepoch, hstate⟩ := image_moves hmoves hg
      exact ⟨g', hg', hdeclared, .inl ⟨hepoch, hstate⟩⟩
    | armed hparsing => exact nomatch hs.symm.trans hparsing
    | @reopened entered x hmoves himages hm htaken =>
      obtain ⟨g', hg', hdeclared, hstays | ⟨hstate, hcursor, hepoch, hmember⟩⟩ :=
        image_reopened himages hm hlower hg
      · exact ⟨g', hg', hdeclared, .inl hstays⟩
      · obtain ⟨seq, image, hcommand, hseq, hdone, rfl⟩ := htaken
        exact ⟨g', hg', hdeclared, .inr ⟨hstate, hcursor, hepoch, seq, image, hcommand, hseq, hdone, hmember⟩⟩

end Sys2Proof.Proofs

/-! The reopen action: each member of the closure by itself, its pinned engine, and the closure as a whole
(R14, R64, R131). -/

namespace Sys2Proof.Proofs
open Sys2Proof.Machine Sys2Proof.Laws

/-! ### Two changes of one engine -/

theorem modEngine_modEngine (m : MeasureState) (e : EngineId) (f f' : Engine → Engine) :
    (m.modEngine e f).modEngine e f' = m.modEngine e (fun x => f' (f x)) := by
  unfold MeasureState.modEngine
  simp

theorem modEngine_congr {m : MeasureState} {e : EngineId} {f f' : Engine → Engine}
    (h : f m.engines[e] = f' m.engines[e]) : m.modEngine e f = m.modEngine e f' := by
  unfold MeasureState.modEngine
  rw [h]

/-! ### The displacement table (R64) -/

section displacement
variable {m : MeasureState} {e : EngineId} {i : Nat} {g : Image}

/-- The reservation of R14 step 9, with what the displacement adds to the engine. -/
def reservedFor (m : MeasureState) (e : EngineId) (i : Nat) (f : Engine → Engine) : MeasureState :=
  m.modEngine e (fun x => f { x with reservation := some i })

theorem retake_unpinned (hg : m.image? i = some g) (hpin : g.declared.pin = none) : m.retake i = m := by
  rw [MeasureState.retake, hg, Option.bind_some, hpin]

theorem retake_pinned (hg : m.image? i = some g) (hpin : g.declared.pin = some e) :
    m.retake i = (reservedFor m e i id).displace e := by
  rw [MeasureState.retake, hg, Option.bind_some, hpin]
  rfl

theorem engine_reservedFor (m : MeasureState) (e : EngineId) (i : Nat) (f : Engine → Engine) :
    (reservedFor m e i f).engines[e] = f { m.engines[e] with reservation := some i } :=
  engines_modEngine_self m e _

theorem reservedFor_modEngine (m : MeasureState) (e : EngineId) (i : Nat) (f : Engine → Engine) :
    (reservedFor m e i id).modEngine e f = reservedFor m e i f := modEngine_modEngine m e _ f

theorem displace_still (h : m.engines[e].state = .free ∨ m.engines[e].state = .finalizing) :
    (reservedFor m e i id).displace e = reservedFor m e i id := by
  unfold MeasureState.displace
  rw [engine_reservedFor]
  rcases h with h | h <;> simp only [id, h]

theorem displace_holding (h : m.engines[e].state = .holding) :
    (reservedFor m e i id).displace e = reservedFor m e i (fun x => { x with state := .parking }) := by
  unfold MeasureState.displace
  rw [engine_reservedFor]
  simp only [id, h]
  exact reservedFor_modEngine m e i _

theorem displace_working (h : m.engines[e].state = .restoring ∨ ∃ step, m.engines[e].state = .absorbing step) :
    (reservedFor m e i id).displace e = if m.engines[e].discard = true then reservedFor m e i id
      else reservedFor m e i (fun x => { x with parkOrder := true }) := by
  unfold MeasureState.displace
  rw [engine_reservedFor]
  rcases h with h | ⟨step, h⟩ <;> simp only [id, h, reservedFor_modEngine]

theorem displace_awaiting (h : m.engines[e].state = .awaitingRefill) :
    (reservedFor m e i id).displace e = if m.refillPending.any (·.engine == e) = true then
        { reservedFor m e i (fun x => { x with state := .parking }) with
          refillPending := m.refillPending.filter (·.engine != e) }
      else reservedFor m e i (fun x => { x with parkOrder := true }) := by
  unfold MeasureState.displace
  rw [engine_reservedFor]
  have hparks : ∀ requests : List RefillRequest, MeasureState.modEngine
      { reservedFor m e i id with refillPending := requests } e (fun x => { x with state := .parking }) =
      { reservedFor m e i (fun x => { x with state := .parking }) with refillPending := requests } :=
    fun requests => congrArg (fun n : MeasureState => { n with refillPending := requests })
      (reservedFor_modEngine m e i (fun x => { x with state := .parking }))
  simp only [id, h, reservedFor_modEngine, hparks]
  rfl

theorem displace_parking_unclaimed (h : m.engines[e].state = .parking) (hclaimant : m.engines[e].claimant = none) :
    (reservedFor m e i id).displace e = reservedFor m e i id := by
  unfold MeasureState.displace
  rw [engine_reservedFor]
  simp only [id, h, hclaimant]

theorem displace_parking_claimed {y : Nat} (h : m.engines[e].state = .parking)
    (hclaimant : m.engines[e].claimant = some y) :
    (reservedFor m e i id).displace e = if m.ready y = true then
        { reservedFor m e i (fun x => { x with claimant := none }) with waitList := joinHead m.waitList y }
      else reservedFor m e i (fun x => { x with claimant := none }) := by
  unfold MeasureState.displace
  rw [engine_reservedFor]
  simp only [id, h, hclaimant, reservedFor_modEngine]
  rfl

/-- The displacement keeps what the engine is bound to and its reservation. -/
theorem engine_displace (m : MeasureState) (e e' : EngineId) :
    (m.displace e).engines[e'].bound = m.engines[e'].bound ∧
      (m.displace e).engines[e'].reservation = m.engines[e'].reservation := by
  have hmod : ∀ (n : MeasureState) (f : Engine → Engine), n.engines = m.engines →
      (∀ x, (f x).bound = x.bound ∧ (f x).reservation = x.reservation) →
      (n.modEngine e f).engines[e'].bound = m.engines[e'].bound ∧
        (n.modEngine e f).engines[e'].reservation = m.engines[e'].reservation := by
    intro n f hn hf
    rw [engines_modEngine, hn]
    split
    · exact hf _
    · exact ⟨rfl, rfl⟩
  have hpark := hmod m (fun g => { g with state := .parking }) rfl (fun _ => ⟨rfl, rfl⟩)
  have horder := hmod m (fun g => { g with parkOrder := true }) rfl (fun _ => ⟨rfl, rfl⟩)
  have hunclaim := hmod m (fun g => { g with claimant := none }) rfl (fun _ => ⟨rfl, rfl⟩)
  unfold MeasureState.displace
  simp only
  split
  case h_1 => exact hpark
  case h_2 =>
    split
    · exact ⟨rfl, rfl⟩
    · exact horder
  case h_3 =>
    split
    · exact ⟨rfl, rfl⟩
    · exact horder
  case h_4 =>
    split
    · exact hpark
    · exact horder
  case h_5 =>
    split
    · exact ⟨rfl, rfl⟩
    · split
      · exact hunclaim
      · exact hunclaim
  case h_6 => exact ⟨rfl, rfl⟩
  case h_7 => exact ⟨rfl, rfl⟩

end displacement

/-! ### One member -/

theorem engine_retake (m : MeasureState) (i : Nat) (e : EngineId) :
    (m.retake i).engines[e].bound = m.engines[e].bound ∧
      (m.retake i).engines[e].reservation =
        if (m.image? i).bind (·.declared.pin) = some e then some i else m.engines[e].reservation := by
  unfold MeasureState.retake
  split
  · rename_i hpin
    rw [hpin]
    exact ⟨rfl, rfl⟩
  · rename_i e' hpin
    obtain ⟨hbound, hreservation⟩ :=
      engine_displace (m.modEngine e' (fun g => { g with reservation := some i })) e' e
    rw [hbound, hreservation, hpin, engines_modEngine]
    by_cases he : e' = e
    · simp [he]
    · simp [he]

/-- The reopen of image i but for its reservation (R14 steps 1 to 8). -/
def reopenedBefore (m : MeasureState) (i : Nat) : MeasureState :=
  (MeasureState.modImage { m.dropWork i with entries := forgetWrites i m.entries } i
    (fun g => { g with cursor := 0, epoch := g.epoch + 1, inFlight := 0 })).enter i .declared

theorem reopenOne_eq (m : MeasureState) (i : Nat) : m.reopenOne i = (reopenedBefore m i).retake i := rfl

theorem image?_reopenedBefore (m : MeasureState) (i j : Nat) :
    (reopenedBefore m i).image? j = if i = j then (m.image? j).map reopened else m.image? j := by
  rw [← image?_reopenOne, reopenOne_eq]
  exact (image?_congr (Prod.mk.inj (Prod.mk.inj (retake_same (reopenedBefore m i) i).1).2).1 j).symm

theorem engines_reopenedBefore (m : MeasureState) (i : Nat) (e : EngineId) :
    (reopenedBefore m i).engines[e] = (m.engines[e].tearFrom i).dropClaim i :=
  engines_mapEngines m e (fun x => (x.tearFrom i).dropClaim i)

theorem bound_reopenOne (m : MeasureState) (i : Nat) (e : EngineId) :
    (m.reopenOne i).engines[e].bound = if m.engines[e].bound = some i then none else m.engines[e].bound := by
  rw [reopenOne_eq, (engine_retake _ i e).1, engines_reopenedBefore]
  unfold Engine.dropClaim Engine.tearFrom Engine.teardown
  repeat' split
  all_goals simp_all

theorem reservation_reopenOne (m : MeasureState) (i : Nat) (e : EngineId) :
    (m.reopenOne i).engines[e].reservation =
      if (m.image? i).bind (·.declared.pin) = some e then some i else m.engines[e].reservation := by
  have hpin : ((reopenedBefore m i).image? i).bind (·.declared.pin) = (m.image? i).bind (·.declared.pin) := by
    rw [image?_reopenedBefore, if_pos rfl, Option.bind_map]
    rfl
  have hkept : ∀ x : Engine, ((x.tearFrom i).dropClaim i).reservation = x.reservation := fun x => by
    unfold Engine.dropClaim Engine.tearFrom Engine.teardown
    repeat' split
    all_goals rfl
  rw [reopenOne_eq, (engine_retake _ i e).2, hpin, engines_reopenedBefore, hkept]

/-! ### The members one after another -/

theorem joinTail_eq (l : List Nat) (x : Nat) : joinTail l x = if x ∈ l then l else l ++ [x] := by
  unfold joinTail
  simp

theorem subjects_reopenAll (L : List Nat) (m : MeasureState) :
    (L.foldl (fun m d => m.reopenOne d) m).subjects = L.foldl joinTail m.subjects := by
  induction L generalizing m with
  | nil => rfl
  | cons d L ih =>
    obtain ⟨-, -, -, -, -, -, hsubjects, -⟩ := reopenOne_same m d
    rw [List.foldl_cons, ih, hsubjects]
    rfl

/-- No write entry that is left records a member (R9). -/
theorem entries_reopenAll (L : List Nat) (m : MeasureState) :
    ∀ w ∈ (L.foldl (fun m d => m.reopenOne d) m).entries, ∃ w' ∈ m.entries,
      w'.tag = w.tag ∧ w'.seq = w.seq ∧ ∀ p ∈ w.recorded, p ∈ w'.recorded ∧ p.1 ∉ L := by
  induction L generalizing m with
  | nil => exact fun w hw => ⟨w, hw, rfl, rfl, fun p hp => ⟨hp, by simp⟩⟩
  | cons d L ih =>
    intro w hw
    obtain ⟨w₁, hw₁, htag, hseq, hrecorded⟩ := ih (m.reopenOne d) w hw
    obtain ⟨-, -, -, -, -, hentries, -⟩ := reopenOne_same m d
    rw [hentries, forgetWrites, List.mem_map] at hw₁
    obtain ⟨w₀, hw₀, rfl⟩ := hw₁
    refine ⟨w₀, hw₀, htag, hseq, fun p hp => ?_⟩
    obtain ⟨hp₁, hpL⟩ := hrecorded p hp
    obtain ⟨hp₀, hne⟩ := List.mem_filter.1 hp₁
    exact ⟨hp₀, by simp_all⟩

theorem bound_reopenAll {L : List Nat} {m : MeasureState} {e : EngineId} {d : Nat}
    (h : d ∈ L ∨ m.engines[e].bound ≠ some d) :
    (L.foldl (fun m d => m.reopenOne d) m).engines[e].bound ≠ some d := by
  induction L generalizing m with
  | nil => exact h.resolve_left (by simp)
  | cons d' L ih =>
    refine ih ?_
    by_cases hL : d ∈ L
    · exact .inl hL
    · refine .inr ?_
      rw [bound_reopenOne]
      split
      · nofun
      · rename_i hbound
        obtain hd | hother := h
        · obtain rfl := (List.mem_cons.1 hd).resolve_right hL
          exact hbound
        · exact hother

theorem pin_reopenOne (m : MeasureState) (i j : Nat) :
    ((m.reopenOne i).image? j).bind (·.declared.pin) = (m.image? j).bind (·.declared.pin) := by
  rw [image?_reopenOne]
  split
  · rw [Option.bind_map]
    rfl
  · rfl

theorem reservation_reopenAll_same {L : List Nat} {m : MeasureState} {e : EngineId}
    (h : ∀ d ∈ L, (m.image? d).bind (·.declared.pin) ≠ some e) :
    (L.foldl (fun m d => m.reopenOne d) m).engines[e].reservation = m.engines[e].reservation := by
  induction L generalizing m with
  | nil => rfl
  | cons d L ih =>
    rw [List.foldl_cons, ih (fun d' hd' => by rw [pin_reopenOne]; exact h d' (List.mem_cons_of_mem _ hd')),
      reservation_reopenOne, if_neg (h d List.mem_cons_self)]

theorem reservation_reopenAll {L : List Nat} {m : MeasureState} {e : EngineId} {d : Nat}
    (honly : ∀ d' ∈ L, (m.image? d').bind (·.declared.pin) = some e → d' = d)
    (h : d ∈ L ∧ (m.image? d).bind (·.declared.pin) = some e ∨ m.engines[e].reservation = some d) :
    (L.foldl (fun m d => m.reopenOne d) m).engines[e].reservation = some d := by
  induction L generalizing m with
  | nil => exact h.resolve_left (by simp)
  | cons d' L ih =>
    refine ih (fun x hx hpin => honly x (List.mem_cons_of_mem _ hx) (pin_reopenOne m d' x ▸ hpin)) ?_
    rw [pin_reopenOne, reservation_reopenOne]
    by_cases hd' : (m.image? d').bind (·.declared.pin) = some e
    · rw [if_pos hd']
      exact .inr (congrArg some (honly d' List.mem_cons_self hd'))
    · rw [if_neg hd']
      refine h.imp (fun ⟨hd, hpin⟩ => ⟨(List.mem_cons.1 hd).resolve_left ?_, hpin⟩) id
      rintro rfl
      exact hd' hpin

/-! ### The closure -/

theorem pin_ne_iff {m : MeasureState} {d : Nat} {e : EngineId} :
    (m.image? d).bind (·.declared.pin) = some e ↔ ∃ g, m.image? d = some g ∧ g.declared.pin = some e :=
  Option.bind_eq_some_iff

/-- The engines that a reopen of image i does not touch. -/
theorem engines_reopenedBefore_other {m : MeasureState} {i : Nat} {e : EngineId}
    (hbound : m.engines[e].bound ≠ some i) (hclaimant : m.engines[e].claimant ≠ some i) :
    (reopenedBefore m i).engines[e] = m.engines[e] := by
  rw [engines_reopenedBefore, Engine.tearFrom, if_neg hbound, Engine.dropClaim, if_neg hclaimant]

/-- The rows of the displacement table, for the reopen of an image that is pinned to engine e (R64). -/
theorem retake_rows {m : MeasureState} {i : Nat} {g : Image} (hg : m.image? i = some g) {e : EngineId}
    (hpin : g.declared.pin = some e) :
    (m.engines[e].state = .free ∨ m.engines[e].state = .finalizing → m.retake i = reservedFor m e i id) ∧
    (m.engines[e].state = .holding →
      m.retake i = reservedFor m e i (fun x => { x with state := .parking })) ∧
    (m.engines[e].state = .restoring ∨ (∃ step, m.engines[e].state = .absorbing step) →
      (m.engines[e].discard = true → m.retake i = reservedFor m e i id) ∧
      (m.engines[e].discard = false → m.retake i = reservedFor m e i (fun x => { x with parkOrder := true }))) ∧
    (m.engines[e].state = .awaitingRefill →
      ((∃ q ∈ m.refillPending, q.engine = e) → m.retake i =
        { reservedFor m e i (fun x => { x with state := .parking }) with
          refillPending := m.refillPending.filter (·.engine != e) }) ∧
      ((∀ q ∈ m.refillPending, q.engine ≠ e) →
        m.retake i = reservedFor m e i (fun x => { x with parkOrder := true }))) ∧
    (m.engines[e].state = .parking →
      (m.engines[e].claimant = none → m.retake i = reservedFor m e i id) ∧
      (∀ y, m.engines[e].claimant = some y →
        (m.ready y = true → m.retake i = { reservedFor m e i (fun x => { x with claimant := none }) with
          waitList := joinHead m.waitList y }) ∧
        (m.ready y = false → m.retake i = reservedFor m e i (fun x => { x with claimant := none })))) := by
  rw [retake_pinned hg hpin]
  refine ⟨displace_still, displace_holding, fun h => ?_, fun h => ?_, fun h => ?_⟩
  · rw [displace_working h]
    exact ⟨fun hd => if_pos hd, fun hd => if_neg (Bool.not_eq_true _ ▸ hd)⟩
  · rw [displace_awaiting h]
    exact ⟨fun hq => if_pos (by simpa using hq), fun hq => if_neg (by simpa using hq)⟩
  · refine ⟨displace_parking_unclaimed h, fun y hy => ?_⟩
    rw [displace_parking_claimed h hy]
    exact ⟨fun hready => if_pos hready, fun hready => if_neg (by simp [hready])⟩

/-- Settles O33: the members in order, each by `reopenOne`, which ends with the displacement table. -/
theorem reopenTakesTheClosure : Obligations.ReopenTakesTheClosure := by
  refine ⟨?closure, ?member, ?rows⟩
  case closure =>
    rintro m m' x hlower rfl
    have hclosure := reopens_closure m x
    have himage := image?_reopenClosure hlower x
    have hmem : ∀ d, d = x ∨ d ∈ m.dependents x ↔ d ∈ x :: m.dependents x := fun d => List.mem_cons.symm
    have hsubjects := subjects_reopenAll (x :: m.dependents x) m
    refine ⟨fun d g hg hd => ?_, fun d g hg hne hnot => ?_, fun d hd => ⟨fun w hw n hn => ?_, ?_, fun e => ?_⟩,
      fun w hw => ?_, ?_, hclosure.segments, hclosure.verified, hclosure.nextSeq, ?_, fun e => ⟨fun h => ?_,
        fun d g hd hg hpin honly => ?_⟩⟩
    · rw [himage, if_pos ((hmem d).1 hd), hg]
      rfl
    · rw [himage, if_neg (fun h => (List.mem_cons.1 h).elim hne hnot), hg]
    · obtain ⟨w', -, -, -, hrecorded⟩ := entries_reopenAll _ m w hw
      exact (hrecorded _ hn).2 ((hmem d).1 hd)
    · exact hsubjects ▸ (mem_foldl_joinTail _ _ d).2 (.inr ((hmem d).1 hd))
    · exact bound_reopenAll (.inl ((hmem d).1 hd))
    · obtain ⟨w', hw', htag, hseq, -⟩ := entries_reopenAll _ m w hw
      exact ⟨w', hw', htag, hseq⟩
    · simpa [entryKeys] using congrArg List.length hclosure.keys
    · exact hsubjects.trans (congrArg (fun f => List.foldl f m.subjects (x :: m.dependents x))
        (funext fun l => funext (joinTail_eq l)))
    · refine reservation_reopenAll_same fun d hd hpin => ?_
      obtain ⟨g, hg, hpin⟩ := pin_ne_iff.1 hpin
      exact h d g ((hmem d).2 hd) hg hpin
    · refine reservation_reopenAll (fun d' hd' hpin' => ?_) (.inl ⟨(hmem d).1 hd, pin_ne_iff.2 ⟨g, hg, hpin⟩⟩)
      obtain ⟨g', hg', hpin'⟩ := pin_ne_iff.1 hpin'
      exact honly d' g' ((hmem d').2 hd') hg' hpin'
  case member =>
    refine fun m x => ⟨rfl, fun g hg => ⟨reopenedBefore m x, rfl, fun j hj => ?_, ?_, rfl, rfl, fun e =>
      engines_reopenedBefore_other⟩⟩
    · rw [image?_reopenedBefore, if_neg hj.symm]
    · rw [image?_reopenedBefore, if_pos rfl, hg]
      rfl
  case rows =>
    exact fun m i g hg => ⟨retake_unpinned hg, fun e hpin => retake_rows hg hpin⟩

end Sys2Proof.Proofs

/-! The break action with its cascade (R12, R13, R128, R129). -/

namespace Sys2Proof.Proofs
open Sys2Proof.Machine Sys2Proof.Laws

/-! ### An engine after breaks -/

/-- What a break of image d leaves of an engine that has no image. -/
theorem freedFrom_unbound {x : Engine} (h : x.bound = none) (d : Nat) :
    (freedFrom d x).bound = none ∧ (freedFrom d x).state = x.state ∧
      (freedFrom d x).parkOrder = x.parkOrder ∧ (freedFrom d x).discard = x.discard := by
  have htear : x.tearFrom d = x := by rw [Engine.tearFrom, h, if_neg nofun]
  unfold freedFrom Engine.lapse Engine.dropClaim
  rw [htear]
  (repeat' split) <;> exact ⟨h, rfl, rfl, rfl⟩

theorem teardown_bound (x : Engine) : x.teardown.bound = none ∧ x.teardown.parkOrder = false ∧
    x.teardown.claimant = x.claimant ∧ x.teardown.reservation = x.reservation := by
  unfold Engine.teardown
  split <;> exact ⟨rfl, rfl, rfl, rfl⟩

/-- The engine knows nothing of image i. -/
def Forgets (i : Nat) (x : Engine) : Prop :=
  x.bound ≠ some i ∧ x.claimant ≠ some i ∧ x.reservation ≠ some i

theorem forgets_freedFrom_self (i : Nat) (x : Engine) : Forgets i (freedFrom i x) := by
  obtain ⟨hbound, -, -, -⟩ := teardown_bound x
  unfold Forgets freedFrom Engine.lapse Engine.dropClaim Engine.tearFrom
  (repeat' split) <;> simp_all

theorem forgets_freedFrom {i : Nat} {x : Engine} (h : Forgets i x) (d : Nat) :
    Forgets i (freedFrom d x) := by
  obtain ⟨hbound, -, hclaimant, hreservation⟩ := teardown_bound x
  unfold Forgets at h ⊢
  unfold freedFrom Engine.lapse Engine.dropClaim Engine.tearFrom
  (repeat' split) <;> simp_all

theorem freedFrom_bound {i : Nat} {x : Engine} (h : x.bound = some i) :
    (freedFrom i x).bound = none ∧ (freedFrom i x).state = x.teardown.state ∧
      (freedFrom i x).parkOrder = false ∧ (freedFrom i x).discard = x.teardown.discard := by
  obtain ⟨hbound, hpark, -, -⟩ := teardown_bound x
  unfold freedFrom Engine.lapse Engine.dropClaim
  rw [Engine.tearFrom, if_pos h]
  (repeat' split) <;> exact ⟨hbound, rfl, hpark, rfl⟩

/-! ### A cascade -/

section cascade
variable (why : BreakReason)

theorem engine_breakAll {P : Engine → Prop} (hP : ∀ x d, P x → P (freedFrom d x)) (L : List Nat)
    {m : MeasureState} {e : EngineId} (h : P m.engines[e]) :
    P (L.foldl (fun m d => m.breakOne d why) m).engines[e] := by
  induction L generalizing m with
  | nil => exact h
  | cons d L ih =>
    refine ih ?_
    rw [engines_breakOne]
    split
    · exact hP _ d h
    · exact h

theorem isMeasuring_breakOne {m : MeasureState} {d j : Nat} (h : d ≠ j) :
    (m.breakOne d why).isMeasuring j = m.isMeasuring j := by
  rw [MeasureState.isMeasuring, image?_breakOne, if_neg h]
  rfl

theorem subjects_breakAll {L : List Nat} (hnodup : L.Nodup) (m : MeasureState) :
    (L.foldl (fun m d => m.breakOne d why) m).subjects = (L.filter m.isMeasuring).foldl joinTail m.subjects := by
  induction L generalizing m with
  | nil => rfl
  | cons d L ih =>
    obtain ⟨hd, hL⟩ := List.nodup_cons.1 hnodup
    have hsame : L.filter (m.breakOne d why).isMeasuring = L.filter m.isMeasuring :=
      List.filter_congr fun j hj => isMeasuring_breakOne why (fun h => hd (h ▸ hj))
    rw [List.foldl_cons, ih hL, hsame, subjects_breakOne, List.filter_cons]
    (repeat' split) <;> rfl

theorem subjects_subset_breakAll (L : List Nat) {m : MeasureState} {i : Nat} (h : i ∈ m.subjects) :
    i ∈ (L.foldl (fun m d => m.breakOne d why) m).subjects := by
  induction L generalizing m with
  | nil => exact h
  | cons d L ih =>
    refine ih ?_
    rw [subjects_breakOne]
    split
    · exact (mem_joinTail _ _ _).2 (.inl h)
    · exact h

theorem tag_breakAll {i n start : Nat} {addr : Nat} {k : Fin 8} (L : List Nat) {m : MeasureState}
    (h : m.refillTags[k] = .busy i none start n addr) :
    (L.foldl (fun m d => m.breakOne d why) m).refillTags[k] = .busy i none start n addr := by
  induction L generalizing m with
  | nil => exact h
  | cons d L ih =>
    refine ih ?_
    rw [refillTags_breakOne, h]
    simp [RefillTag.detach]

theorem waitList_breakAll {i : Nat} (L : List Nat) {m : MeasureState} (h : i ∉ m.waitList) :
    i ∉ (L.foldl (fun m d => m.breakOne d why) m).waitList := by
  induction L generalizing m with
  | nil => exact h
  | cons d L ih =>
    refine ih ?_
    rw [waitList_breakOne]
    split
    · exact fun hi => h ((mem_leave _ _ _).1 hi).1
    · exact h

theorem requests_breakAll {i : Nat} (L : List Nat) {m : MeasureState} (h : ∀ q ∈ m.refillPending, q.image ≠ i) :
    ∀ q ∈ (L.foldl (fun m d => m.breakOne d why) m).refillPending, q.image ≠ i := by
  induction L generalizing m with
  | nil => exact h
  | cons d L ih =>
    refine ih ?_
    rw [refillPending_breakOne]
    split
    · exact fun q hq => h q (List.mem_filter.1 hq).1
    · exact h

end cascade

/-! ### The break action -/

section breakImage
variable {m : MeasureState} {i : Nat} (hmeasuring : m.isMeasuring i = true) (why : BreakReason)
include hmeasuring

theorem breakImage_eq : m.breakImage i why =
    (m.dependents i).foldl (fun m d => m.breakOne d .predecessorFailed) (m.breakOne i why) := by
  rw [MeasureState.breakImage, if_pos hmeasuring, MeasureState.failDependents, dependents_breakOne]

theorem subjects_breakImage (hlower : m.predecessorsLower) : (m.breakImage i why).subjects =
    (i :: (m.dependents i).filter m.isMeasuring).foldl joinTail m.subjects := by
  obtain ⟨hi, hnodup⟩ := List.nodup_cons.1 (closure_nodup hlower i)
  have hsame : (m.dependents i).filter (m.breakOne i why).isMeasuring = (m.dependents i).filter m.isMeasuring :=
    List.filter_congr fun j hj => isMeasuring_breakOne why (fun h => hi (h ▸ hj))
  rw [breakImage_eq hmeasuring, subjects_breakAll _ hnodup, hsame, subjects_breakOne, if_pos hmeasuring]
  rfl

theorem engine_breakImage (e : EngineId) : Forgets i (m.breakImage i why).engines[e] ∧
    (m.engines[e].bound = some i → (m.breakImage i why).engines[e].state = m.engines[e].teardown.state ∧
      (m.breakImage i why).engines[e].parkOrder = false ∧
      (m.breakImage i why).engines[e].discard = m.engines[e].teardown.discard) := by
  have hone : (m.breakOne i why).engines[e] = freedFrom i m.engines[e] := by
    rw [engines_breakOne, if_pos hmeasuring]
  rw [breakImage_eq hmeasuring]
  refine ⟨engine_breakAll (P := Forgets i) _ (fun x d hx => forgets_freedFrom hx d) _
    (hone ▸ forgets_freedFrom_self i _), fun hbound => ?_⟩
  exact (engine_breakAll (P := fun x => x.bound = none ∧ x.state = m.engines[e].teardown.state ∧
      x.parkOrder = false ∧ x.discard = m.engines[e].teardown.discard) _
    (fun x d ⟨hx, hstate, hpark, hdiscard⟩ => by
      obtain ⟨hx', hstate', hpark', hdiscard'⟩ := freedFrom_unbound hx d
      exact ⟨hx', hstate'.trans hstate, hpark'.trans hpark, hdiscard'.trans hdiscard⟩)
    _ (hone ▸ freedFrom_bound hbound)).2

end breakImage

theorem isMeasuring_of_image {m : MeasureState} {i : Nat} {g : Image} (hg : m.image? i = some g) :
    m.isMeasuring i = g.state.isMeasuring := by
  rw [MeasureState.isMeasuring, hg, Option.any_some]

/-- Settles O32: the break of one image, then the fold of the cascade over its dependents. -/
theorem breakActionTakesAll : Obligations.BreakActionTakesAll := by
  refine ⟨?action, fun m i why hmeasuring hlower => ?queue⟩
  case queue =>
    rw [subjects_breakImage hmeasuring why hlower]
    exact congrArg (fun f => List.foldl f m.subjects _) (funext fun l => funext (joinTail_eq l))
  case action =>
    rintro m m' i why rfl
    refine ⟨fun h => breakImage_of_not_measuring h why, fun g hg hstate => ?_⟩
    have hmeasuring : m.isMeasuring i = true := (isMeasuring_of_image hg).trans hstate
    have himage := fun j => image?_breakImage hmeasuring j why
    have hevolves := evolves_breakImage m i why
    refine ⟨?_, fun d h hd hne hdep hopen => ?_, fun d h hd hne hstill => ?_, ?_, ?_, fun e => ?_,
      fun k eng start n addr hk => ?_, ?_, hevolves.segments, hevolves.entries, verified_breakImage m i why,
      hevolves.nextSeq⟩
    · rw [himage, if_pos rfl, hg]
      rfl
    · rw [himage, if_neg hne, if_pos hdep, hd, Option.map_some, breakIfMeasuring, if_pos hopen]
      rfl
    · rw [himage, if_neg hne]
      split
      · rename_i hdep
        rw [hd, Option.map_some, breakIfMeasuring, if_neg (Bool.not_eq_true _ ▸ hstill hdep)]
      · exact hd
    · rw [breakImage_eq hmeasuring]
      refine waitList_breakAll _ _ ?_
      rw [waitList_breakOne, if_pos hmeasuring]
      simp
    · rw [breakImage_eq hmeasuring]
      refine requests_breakAll _ _ ?_
      rw [refillPending_breakOne, if_pos hmeasuring]
      simp
    · obtain ⟨⟨hbound, hclaimant, hreservation⟩, htorn⟩ := engine_breakImage hmeasuring why e
      refine ⟨hbound, hclaimant, hreservation, fun hb => ?_⟩
      obtain ⟨hstate', hpark, hdiscard⟩ := htorn hb
      refine ⟨hpark, fun hidle => ?_, fun hh ha hf => ?_⟩
      · rw [hstate', Engine.teardown]
        rcases hidle with hidle | hidle <;> rw [hidle]
      · rw [hstate', hdiscard, Engine.teardown]
        split
        · exact absurd ‹_› ha
        · exact absurd ‹_› hh
        · exact absurd ‹_› hf
        all_goals exact ⟨rfl, rfl⟩
    · rw [breakImage_eq hmeasuring]
      refine tag_breakAll _ _ ?_
      rw [refillTags_breakOne, if_pos hmeasuring, hk]
      simp [RefillTag.detach]
    · rw [breakImage_eq hmeasuring]
      refine subjects_subset_breakAll _ _ ?_
      rw [subjects_breakOne, if_pos hmeasuring]
      simp

end Sys2Proof.Proofs

/-! Header beat 1 and the commands (R98, R151 to R156). -/

namespace Sys2Proof.Proofs
open Sys2Proof.Machine Sys2Proof.Laws

/-! ### A command that is taken -/

theorem takeCommand_done {s : State} {seq : BitVec 8} {kind : CommandKind} {i : Nat}
    (hchannel : s.report.channel ≠ .dormant) (hseq : seq ≠ s.report.lastSeq)
    (hdone : commandResult s (some kind) i = .done) :
    takeCommand s seq (some kind) i = { carryOut s kind i with report := { (carryOut s kind i).report with
      lastSeq := seq, lastResult := .done, headerDirty := true } } := by
  unfold takeCommand
  rw [if_neg (fun h => h.elim hchannel hseq)]
  simp only [hdone]

theorem enqueue_eq (m : MeasureState) (i : Nat) : m.enqueue i =
    { m with subjects := if i ∈ m.subjects then m.subjects else m.subjects ++ [i] } := by
  rw [← joinTail_eq]
  rfl

/-- What each command carries out, with the values that it leaves (R155, R156). -/
theorem takeCommand_carriedOut {s : State} {seq : BitVec 8} (i : Nat) (hchannel : s.report.channel ≠ .dormant)
    (hseq : seq ≠ s.report.lastSeq) :
    let held : ReportState := { s.report with lastSeq := seq, lastResult := .done, headerDirty := true }
    (commandResult s (some .reopen) i = .done → takeCommand s seq (some .reopen) i =
      { s with measure := s.measure.reopenClosure i, report := held }) ∧
    (commandResult s (some .abandon) i = .done → takeCommand s seq (some .abandon) i =
      { s with measure := s.measure.breakImage i .abandoned, report := held }) ∧
    (commandResult s (some .resend) i = .done → takeCommand s seq (some .resend) i = { s with
      measure := { s.measure with subjects :=
        if i ∈ s.measure.subjects then s.measure.subjects else s.measure.subjects ++ [i] }
      report := held }) ∧
    (commandResult s (some .resume) i = .done → takeCommand s seq (some .resume) i =
      { s with report := { held with channel := .ready } }) := by
  refine ⟨fun h => ?_, fun h => ?_, fun h => ?_, fun h => ?_⟩
  · exact takeCommand_done hchannel hseq h
  · exact takeCommand_done hchannel hseq h
  · rw [takeCommand_done hchannel hseq h, ← enqueue_eq]
    rfl
  · exact takeCommand_done hchannel hseq h

/-! ### The consumer field -/

theorem takeConsumer_dormant {r : ReportState} (h : r.channel = .dormant) (v : BitVec 16) :
    r.takeConsumer v = r := by rw [ReportState.takeConsumer, if_pos h]

theorem takeConsumer_inside {r : ReportState} {v : BitVec 16} (h : r.channel ≠ .dormant)
    (hv : (v - r.consumer).toNat ≤ (r.producer - r.consumer).toNat) :
    r.takeConsumer v = { r with consumer := v } := by
  rw [ReportState.takeConsumer, if_neg h, ReportState.fill, if_pos hv]

theorem takeConsumer_outside {r : ReportState} {v : BitVec 16} (h : r.channel ≠ .dormant)
    (hv : (r.producer - r.consumer).toNat < (v - r.consumer).toNat) : r.takeConsumer v = r := by
  rw [ReportState.takeConsumer, if_neg h, ReportState.fill, if_neg (Nat.not_le.2 hv)]

theorem exec_consumerUpdate {s : State} (h : s.report.channel ≠ .dormant) (v : BitVec 16) :
    exec (.consumerUpdate v) s = .next (State.settle { s with report := s.report.takeConsumer v }) := if_neg h

/-- Settles O37: the two ranges of the value. -/
theorem consumerUpdateTaken : Obligations.ConsumerUpdateTaken := by
  intro s v hchannel
  refine ⟨fun h => ?_, fun h => ?_⟩
  · rw [exec_consumerUpdate hchannel, takeConsumer_inside hchannel h]
  · rw [exec_consumerUpdate hchannel, takeConsumer_outside hchannel h]

/-! ### The command rows -/

theorem exec_commandRow_dormant {s : State} (h : s.report.channel = .dormant) (seq image : BitVec 8)
    (kind : CommandKind) : exec (commandRow seq image kind) s = .next s := by
  cases kind <;> exact if_pos h

/-- Settles O36: each row takes its command, which its checks let pass. -/
theorem commandsCarriedOut : Obligations.CommandsCarriedOut := by
  refine ⟨fun s seq image hchannel hseq => ?carried, fun s seq image c hc => ?untaken⟩
  case carried =>
    obtain ⟨hreopen, habandon, hresend, hresume⟩ := takeCommand_carriedOut image.toNat hchannel hseq
    have hrow := exec_commandRow hchannel seq image
    refine ⟨fun h => ?_, fun h => ?_, fun h => ?_, fun h => ?_⟩
    · exact (hrow .reopen).trans (by rw [hreopen h])
    · exact (hrow .abandon).trans (by rw [habandon h])
    · exact (hrow .resend).trans (by rw [hresend (if_pos h)])
    · exact (hrow .resume).trans (by rw [hresume (if_pos h)])
  case untaken =>
    obtain ⟨kind, rfl⟩ : ∃ kind, c = commandRow seq image kind := by
      rcases hc with rfl | rfl | rfl | rfl
      · exact ⟨.reopen, rfl⟩
      · exact ⟨.abandon, rfl⟩
      · exact ⟨.resend, rfl⟩
      · exact ⟨.resume, rfl⟩
    refine ⟨fun h => exec_commandRow_dormant h seq image kind, fun hchannel hseq => ?_⟩
    rw [exec_commandRow hchannel, takeCommand_idle _ _ (.inr hseq)]

/-! ### A write of header beat 1 -/

theorem exec_hostWriteAccept_forwarded {s : State} {tag : Nat} {addr : Addr} {beats : List WriteBeat}
    (htakes : s.takesRequests = true) (hform : malformed s.link .write tag addr beats.length = false)
    (hforwards : requestForwards s .write addr beats.length = true) :
    exec (.hostWriteAccept tag addr beats) s =
      .next (handOff (enteredWrite s tag addr beats) tag addr beats).settle := by
  simp [exec, execHostWriteAccept, htakes, hform, hforwards, enteredWrite]

theorem requestForwards_iff (s : State) (kind : LinkKind) (addr : Addr) (n : Nat) :
    requestForwards s kind addr n = true ↔
      ∀ k, k < n → beatForwards s kind (classify s (addr.toNat + 16 * k)) = true := by
  simp [requestForwards, classifyBeats, beatAddress]

theorem handOffArmed_header {s : State} {addr : Addr} (h : classify s addr.toNat = .header 1) (tag : Nat)
    (b : WriteBeat) :
    handOffArmed s tag addr [b] = snoopHeader { s with measure := s.measure.addEntry tag } b := by
  have hregions : classifyBeats s addr [b].length = [.header 1] := by
    simp [classifyBeats, beatAddress, h]
  unfold handOffArmed
  rw [hregions]
  rfl

theorem consumerField_eq (b : Beat) :
    BitVec.ofNat 16 (littleEndian [beatByte b 0, beatByte b 1]) = b.extractLsb' 0 16 := by
  apply BitVec.eq_of_toNat_eq
  simp only [littleEndian, beatByte, List.foldr, BitVec.toNat_ofNat, BitVec.extractLsb'_toNat,
    Nat.shiftRight_eq_div_pow]
  omega

theorem strobed_pair (b : WriteBeat) :
    strobed b [0, 1] = true ↔ b.strobes.getLsbD 0 = true ∧ b.strobes.getLsbD 1 = true := by
  simp [strobed]

theorem strobed_triple (b : WriteBeat) : strobed b [2, 3, 4] = true ↔
    b.strobes.getLsbD 2 = true ∧ b.strobes.getLsbD 3 = true ∧ b.strobes.getLsbD 4 = true := by
  simp [strobed]

/-- Settles O15: the write as it is handed off, then each operation of header beat 1 by itself. -/
theorem headerBeatOneIsSnooped : Obligations.HeaderBeatOneIsSnooped := by
  refine ⟨?write, ⟨rfl, rfl, rfl, rfl, ?_⟩, fun s seq kind i => ?command, fun r v => ?consumer,
    fun s seq image v hchannel => ⟨if_neg hchannel, if_neg hchannel, if_neg hchannel, if_neg hchannel,
      exec_consumerUpdate hchannel v⟩⟩
  case write =>
    intro s tag addr b hphase hroom hform hclass
    have htakes : s.takesRequests = true := (takesRequests_iff s).2 ⟨by simp [hphase], hroom⟩
    have hforwards : requestForwards s .write addr [b].length = true := by
      rw [requestForwards_iff]
      intro k hk
      obtain rfl : k = 0 := Nat.lt_one_iff.1 hk
      unfold beatForwards
      rw [hphase, Nat.mul_zero, Nat.add_zero, hclass]
      rfl
    rw [exec_hostWriteAccept_forwarded htakes hform hforwards]
    have hhandOff : handOff (enteredWrite s tag addr [b]) tag addr [b] =
        handOffArmed (enteredWrite s tag addr [b]) tag addr [b] := by
      unfold handOff
      rw [show (enteredWrite s tag addr [b]).manifest.phase = .armed from hphase]
    rw [hhandOff, handOffArmed_header (s := enteredWrite s tag addr [b]) hclass, snoopHeader_eq]
    simp only [takeConsumerField, consumerField_eq, strobed_pair, strobed_triple]
    rfl
  case command =>
    refine ⟨takeCommand_idle kind i, fun hchannel hseq => ⟨?_, takeCommand_refused hchannel hseq,
      takeCommand_carriedOut i hchannel hseq⟩⟩
    exact takeCommand_refused hchannel hseq nofun
  case consumer =>
    exact ⟨fun h => takeConsumer_dormant h v, fun h => ⟨takeConsumer_inside h, takeConsumer_outside h⟩⟩
  · intro code hcode
    simp only [List.mem_cons, List.not_mem_nil, or_false, not_or] at hcode
    obtain ⟨h1, h2, h3, h4⟩ := hcode
    exact (if_neg h1).trans ((if_neg h2).trans ((if_neg h3).trans (if_neg h4)))

end Sys2Proof.Proofs

/-! The host port and the gate (R86 to R97), and the numbers of forwarded writes (R23). -/

namespace Sys2Proof.Proofs
open Sys2Proof.Machine Sys2Proof.Laws

/-! ### Requests held, refused and forwarded -/

section host
variable {s : State} {tag n : Nat} {addr : Addr} {beats : List WriteBeat}

theorem exec_hostAccept_held (h : s.takesRequests = false) :
    exec (.hostReadAccept tag addr n) s = .next s ∧ exec (.hostWriteAccept tag addr beats) s = .next s := by
  simp [exec, execHostReadAccept, execHostWriteAccept, h]

theorem requestForwards_eq_false_iff (s : State) (kind : LinkKind) (addr : Addr) (n : Nat) :
    requestForwards s kind addr n = false ↔
      ∃ k, k < n ∧ beatForwards s kind (classify s (addr.toNat + 16 * k)) = false := by
  rw [← Bool.not_eq_true, requestForwards_iff]
  simp

theorem exec_hostWriteAccept_refused (htakes : s.takesRequests = true)
    (hform : malformed s.link .write tag addr beats.length = false)
    (hforwards : requestForwards s .write addr beats.length = false) :
    exec (.hostWriteAccept tag addr beats) s =
      .next { s with link := (s.link.enterHost .write tag).refuse .write tag .refused } := by
  simp [exec, execHostWriteAccept, htakes, hform, hforwards]

theorem exec_hostReadAccept_wellFormed (htakes : s.takesRequests = true)
    (hform : malformed s.link .read tag addr n = false) :
    exec (.hostReadAccept tag addr n) s = if requestForwards s .read addr n = true then
        .next { s with link := (s.link.enterHost .read tag).forwardRequest (.read tag addr n) }
      else .next { s with link := (s.link.enterHost .read tag).refuse .read tag .refused } := by
  simp [exec, execHostReadAccept, htakes, hform]

end host

/-- Settles O7: the port takes no request, or the gate refuses the write. -/
theorem requestsHeldOrRefused : Obligations.RequestsHeldOrRefused := by
  refine ⟨fun s tag n addr beats hheld => exec_hostAccept_held ?_,
    fun s tag addr beats hphase hroom hform hrefused => ?_⟩
  · rw [← Bool.not_eq_true, takesRequests_iff]
    rintro ⟨hphase, hroom⟩
    exact hheld.elim hphase (Nat.not_le.2 hroom)
  · exact exec_hostWriteAccept_refused ((takesRequests_iff s).2 ⟨hphase, hroom⟩) hform
      ((requestForwards_eq_false_iff ..).2 hrefused)

/-- Settles O8: the gate's decision over all beats. -/
theorem hostReadDecided : Obligations.HostReadDecided := by
  intro s tag n addr hphase hroom hform
  rw [exec_hostReadAccept_wellFormed ((takesRequests_iff s).2 ⟨hphase, hroom⟩) hform]
  refine ⟨fun h => if_pos ((requestForwards_iff ..).2 h), fun h => if_neg ?_⟩
  rw [Bool.not_eq_true]
  exact (requestForwards_eq_false_iff ..).2 h

/-! ### The gate -/

theorem imageForwards_write (g : Image) : imageForwards g .write = true ↔
    g.state = .declared ∨ g.state = .filling ∨ ∃ why, g.state = .broken why := by
  cases hstate : g.state <;> simp [imageForwards, hstate]

theorem imageForwards_read (g : Image) : imageForwards g .read = true ↔
    (∃ d, g.state = .verified d) ∨ (∃ d, g.state = .recorded d) ∨
      ((g.state = .declared ∨ g.state = .filling ∨ ∃ p, g.state = .finishing p) ∧
        g.declared.policy.readWhileLoading = true) ∨
      (((∃ d, g.state = .mismatched d) ∨ ∃ why, g.state = .broken why) ∧
        g.declared.policy.readAfterFail = true) := by
  cases hstate : g.state <;> simp [imageForwards, hstate]

theorem beatForwards_armed {s : State} (h : s.manifest.phase = .armed) (kind : LinkKind) (r : Region) :
    beatForwards s kind r = armedForwards s.measure kind r := by
  unfold beatForwards
  rw [h]

theorem beatForwards_loading {s : State} (h : s.manifest.phase = .unprovisioned ∨
    s.manifest.phase = .manifestLoading ∨ s.manifest.phase = .rejected) (kind : LinkKind) (r : Region) :
    beatForwards s kind r = true := by
  unfold beatForwards
  rcases h with h | h | h <;> rw [h]

theorem beatForwards_closed {s : State} (h : s.manifest.phase = .manifestCheck ∨
    s.manifest.phase = .parsing ∨ s.manifest.phase = .lockout) (kind : LinkKind) (r : Region) :
    beatForwards s kind r = true ↔ ¬ (kind = .write ∧ ∃ d, r = .window d) := by
  have hform : beatForwards s kind r =
      match kind, r with | .write, .window _ => false | _, _ => true := by
    unfold beatForwards
    rcases h with h | h | h <;> rw [h] <;> rfl
  rw [hform]
  cases kind with
  | read => simp
  | write => cases r <;> simp

/-- Settles O9: the table of R92 by phase, and in ARMED by region. -/
theorem gateTable : Obligations.GateTable := by
  intro s kind
  refine ⟨fun h => beatForwards_loading h kind, fun h => beatForwards_closed h kind, fun h => ?_⟩
  refine ⟨?_, fun d => ?_, fun b => ?_, fun k b => ?_, fun i x g hg => ⟨?_, ?_⟩⟩
  · exact beatForwards_armed h kind .none
  · simp [beatForwards_armed h, armedForwards]
  · simp [beatForwards_armed h, armedForwards]
  · simp [beatForwards_armed h, armedForwards]
  · rw [beatForwards_armed h, armedForwards, hg]
    exact imageForwards_write g
  · rw [beatForwards_armed h, armedForwards, hg]
    exact imageForwards_read g

/-! ### A write that is measured nowhere -/

theorem beats_pos_of_wellFormed {l : LinkState} {kind : LinkKind} {tag n : Nat} {addr : Addr}
    (h : malformed l kind tag addr n = false) : 0 < n := (not_malformed h).2.2.1

/-- Settles O10: each such write is forwarded, and no block but the order tracker sees it. -/
theorem unmeasuredWriteForwarded : Obligations.UnmeasuredWriteForwarded := by
  intro s tag addr beats hsensing harmed hroom hform hwindow _
  have hforwards : requestForwards s .write addr beats.length = true := by
    rw [requestForwards_iff]
    intro k hk
    by_cases hloading : s.manifest.phase = .unprovisioned ∨ s.manifest.phase = .manifestLoading ∨
        s.manifest.phase = .rejected
    · exact beatForwards_loading hloading _ _
    · rw [not_or, not_or] at hloading
      have hclosed : s.manifest.phase = .manifestCheck ∨ s.manifest.phase = .parsing ∨
          s.manifest.phase = .lockout := by
        cases hphase : s.manifest.phase <;> simp_all
      refine (beatForwards_closed hclosed _ _).2 fun ⟨_, d, hd⟩ => hwindow hloading.1 k hk d hd
  have hin : s.manifest.phase ≠ .unprovisioned → inWindow (enteredWrite s tag addr beats) addr = false := by
    intro hprovisioned
    rw [← Bool.not_eq_true]
    intro h
    obtain ⟨d, hd⟩ := classify_of_inWindow (s := s) h
    exact hwindow hprovisioned 0 (beats_pos_of_wellFormed hform) d hd
  have hhandOff : handOff (enteredWrite s tag addr beats) tag addr beats =
      { enteredWrite s tag addr beats with measure := s.measure.addEntry tag } := by
    unfold handOff
    split
    · contradiction
    · rename_i hphase
      exact if_neg (Bool.not_eq_true _ ▸ hin (fun h => nomatch h.symm.trans hphase))
    · rename_i hphase
      exact if_neg (Bool.not_eq_true _ ▸ hin (fun h => nomatch h.symm.trans hphase))
    · rfl
  rw [exec_hostWriteAccept_forwarded ((takesRequests_iff s).2 ⟨hsensing, hroom⟩) hform hforwards, hhandOff]
  rfl

/-! ### The number given -/

/-- The number k places after n (R23). -/
def numberAfter (n : BitVec 32) : Nat → BitVec 32
  | 0 => n
  | k + 1 => nextNumber (numberAfter n k)

theorem numberAfter_nextNumber (n : BitVec 32) (k : Nat) :
    numberAfter (nextNumber n) k = numberAfter n (k + 1) := by
  induction k with
  | zero => rfl
  | succ k ih => exact congrArg nextNumber ih

theorem passOver_eq (held : List (BitVec 32)) (tries : Nat) (n : BitVec 32) :
    ∃ k, k ≤ tries ∧ passOver held tries n = numberAfter n k ∧ (∀ j, j < k → numberAfter n j ∈ held) ∧
      (k < tries → numberAfter n k ∉ held) := by
  induction tries generalizing n with
  | zero => exact ⟨0, Nat.le_refl _, rfl, nofun, nofun⟩
  | succ tries ih =>
    unfold passOver
    split
    · rename_i hheld
      rw [List.contains_iff_mem] at hheld
      obtain ⟨k, hk, heq, hbefore, hfree⟩ := ih (nextNumber n)
      rw [numberAfter_nextNumber] at heq hfree
      refine ⟨k + 1, Nat.succ_le_succ hk, heq, fun j hj => ?_, fun hlt => hfree (Nat.lt_of_succ_lt_succ hlt)⟩
      cases j with
      | zero => exact hheld
      | succ j => exact numberAfter_nextNumber n j ▸ hbefore j (Nat.lt_of_succ_lt_succ hj)
    · rename_i hheld
      exact ⟨0, Nat.zero_le _, rfl, nofun, fun _ h => hheld (List.contains_iff_mem.2 h)⟩

theorem nextNumber_ne_zero (n : BitVec 32) : nextNumber n ≠ 0 := by
  unfold nextNumber
  split
  · decide
  · rename_i h
    intro hzero
    have hlast : (BitVec.allOnes 32).toNat = 4294967295 := rfl
    apply h
    bv_omega

/-- The numbers from a number other than 0 on, counted round 1 to FFFF_FFFFH. -/
theorem toNat_numberAfter {n : BitVec 32} (hn : n ≠ 0) (k : Nat) :
    (numberAfter n k).toNat = (n.toNat - 1 + k) % 4294967295 + 1 := by
  induction k with
  | zero =>
    have hpos : 0 < n.toNat := by bv_omega
    have hlt := n.isLt
    show n.toNat = _
    omega
  | succ k ih =>
    show (nextNumber (numberAfter n k)).toNat = _
    generalize numberAfter n k = v at ih
    unfold nextNumber
    split
    · rename_i hv
      have hlast : v.toNat = 4294967295 := by rw [hv]; rfl
      have hone : (1 : BitVec 32).toNat = 1 := rfl
      omega
    · rename_i hv
      have hlt : v.toNat ≠ 4294967295 := fun h => hv (BitVec.eq_of_toNat_eq (by rw [h]; rfl))
      rw [BitVec.toNat_add]
      show (v.toNat + 1) % 4294967296 = _
      omega

theorem numberAfter_ne {n : BitVec 32} {j k : Nat} (hjk : j < k) (hk : k < 4294967295) :
    numberAfter n j ≠ numberAfter n k := by
  intro heq
  by_cases hn : n = 0
  · obtain ⟨k, rfl⟩ := Nat.exists_eq_succ_of_ne_zero (Nat.ne_zero_of_lt hjk)
    cases j with
    | zero => exact nextNumber_ne_zero _ (heq.symm.trans hn)
    | succ j =>
      rw [← numberAfter_nextNumber, ← numberAfter_nextNumber] at heq
      have hnat := congrArg BitVec.toNat heq
      rw [toNat_numberAfter (nextNumber_ne_zero _), toNat_numberAfter (nextNumber_ne_zero _)] at hnat
      omega
  · have hnat := congrArg BitVec.toNat heq
    rw [toNat_numberAfter hn, toNat_numberAfter hn] at hnat
    omega

/-- Thirty-three numbers in a row are not all held by a set of at most 32. -/
theorem passOver_not_held {held : List (BitVec 32)} (h : held.length ≤ 32) (n : BitVec 32) :
    passOver held 33 n ∉ held := by
  obtain ⟨k, hk, heq, hbefore, hfree⟩ := passOver_eq held 33 n
  rw [heq]
  by_cases hlt : k < 33
  · exact hfree hlt
  · have hnodup : ((List.range 33).map (numberAfter n)).Nodup :=
      List.pairwise_map.2 (List.Pairwise.imp_of_mem
        (fun _ hj hij => numberAfter_ne hij (by have := List.mem_range.1 hj; omega)) List.pairwise_lt_range)
    have hsubset : (List.range 33).map (numberAfter n) ⊆ held := by
      intro x hx
      obtain ⟨j, hj, rfl⟩ := List.mem_map.1 hx
      exact hbefore j (Nat.lt_of_lt_of_le (List.mem_range.1 hj) (Nat.not_lt.1 hlt))
    have hlength := hnodup.length_le_of_subset hsubset
    simp only [List.length_map, List.length_range] at hlength
    omega

/-- Settles O11: what is passed over is held, and 33 numbers in a row are not all held. -/
theorem numberGivenIsNotHeld : Obligations.NumberGivenIsNotHeld := by
  intro m hlength
  refine ⟨fun w hw heq => ?_, fun hfree => ?_, fun hne => ?_⟩
  · refine passOver_not_held (held := m.unanswered) (by simpa [MeasureState.unanswered] using hlength) m.nextSeq ?_
    exact List.mem_map.2 ⟨w, hw, heq⟩
  · have hnot : m.nextSeq ∉ m.unanswered := fun h => by
      obtain ⟨w, hw, heq⟩ := List.mem_map.1 h
      exact hfree w hw heq
    show passOver m.unanswered (32 + 1) m.nextSeq = m.nextSeq
    rw [passOver, if_neg (fun h => hnot (List.contains_iff_mem.1 h))]
  · obtain ⟨k, -, heq, -⟩ := passOver_eq m.unanswered 33 m.nextSeq
    show passOver m.unanswered 33 m.nextSeq ≠ 0
    rw [heq]
    cases k with
    | zero => exact hne
    | succ k => exact nextNumber_ne_zero _

/-! ### A relayed read response -/

/-- Settles O19: the response is routed to the relay queue by its tag. -/
theorem readResponseRelayed : Obligations.ReadResponseRelayed := by
  intro s tag status data hlt hmem
  have hroute : exec (.fwdReadResponse tag status data) s = .next (answerRead s tag status data) := by
    simp [exec, execFwdReadResponse, routeResponse, hlt, hmem]
  rw [hroute]
  rfl

end Sys2Proof.Proofs

/-! One step, the resets, the straps, and what the end of an event leaves alone (R102, R120, R124). -/

namespace Sys2Proof.Proofs
open Sys2Proof.Machine Sys2Proof.Laws

/-! ### One step -/

theorem exec_total (c : Instr) (s : State) : ∃ t, exec c s = .next t := by
  cases c
  case coldReset | warmReset => exact ⟨_, rfl⟩
  all_goals
    simp only [exec, execResetEnd, execSensingDone, execHostReadAccept, execHostWriteAccept, execConsumerUpdate,
      execReopen, execAbandon, execResend, execResume, execMemoryTakesRequest, execFwdWriteResponse,
      execFwdReadResponse, execRefillResponse, execReportWriteResponse, execUnknownTagResponse,
      execHostResponseDelivery, execRefillLimitExpiry, execReportLimitExpiry, execRestoreDone, execSeedStepDone,
      execBeatStepDone, execFinalisationDone, execParkDone, execManifestBeatStepDone, execManifestCheckDone,
      execParsingDone, execFuseBlown, execBurnLimitExpiry, execVprogSupplyChange]
    repeat' split
    all_goals exact ⟨_, rfl⟩

theorem pending_of_work {s t : State} (h : ManifestWork s t) : t.pending = s.pending := by
  obtain ⟨-, hothers⟩ := Prod.mk.inj (Prod.mk.inj (Prod.mk.inj (Prod.mk.inj h.others).2).2).2
  exact (Prod.mk.inj (Prod.mk.inj (Prod.mk.inj hothers).2).2).2

theorem pending_takeCommand (s : State) (seq : BitVec 8) (kind : Option CommandKind) (i : Nat) :
    (takeCommand s seq kind i).pending = s.pending := by
  unfold takeCommand
  split
  · rfl
  · simp only
    split
    · rename_i k _
      cases k <;> rfl
    · rfl

theorem pending_handOff (s : State) (tag : Nat) (addr : Addr) (beats : List WriteBeat) :
    (handOff s tag addr beats).pending = s.pending := by
  have hwindow : ∀ u : State, (u.startAttempt.windowWrite tag addr beats).advanceManifest.pending = u.pending :=
    fun u => pending_of_work ((work_startAttempt u).trans ((work_windowWrite _ tag addr beats).trans
      (work_advanceManifest _)))
  unfold handOff
  split
  · obtain ⟨b, -, -, heq⟩ | heq := handOffArmed_cases s tag addr beats
    · rw [heq, snoopHeader_eq]
      obtain ⟨consumer, hconsumer⟩ := takeConsumerField_eq { s with measure := s.measure.addEntry tag } b
      rw [hconsumer]
      split
      · exact pending_takeCommand _ _ _ _
      · rfl
    · rw [heq]
  · simp only
    split
    · exact hwindow _
    · rfl
  · simp only
    split
    · exact hwindow _
    · rfl
  · rfl

/-- No event touches the queue of commands (log 1). -/
theorem pending_of_effect {s t : State} {c : Instr} (heffect : Effect s c t) : t.pending = s.pending := by
  have hwork : ∀ {u v : State}, u.pending = s.pending → ManifestWork u v → v.settle.pending = s.pending :=
    fun hu hv => (pending_of_work hv).trans hu
  cases heffect with
  | refused _ kind => cases kind <;> rfl
  | nothing | cold | warm | straps | sensed | malformed | readForwarded | hostOffered | delivered | memOffered
  | sent | readAnswered | refillExpired | reportExpired | consumer | engine | checked | accepted | burnt
  | supply => rfl
  | wrote tag addr beats => exact pending_handOff (enteredWrite s tag addr beats) tag addr beats
  | writeAnswered c tag status =>
    exact hwork (u := { s with
      link := s.link.relayResponse { kind := .write, tag := tag, status := status, data := [] }
      measure := s.measure.writeAnswered tag status }) rfl
      ((work_windowAnswered _ tag status).trans (work_advanceManifest _))
  | refill c k status data =>
    unfold answerRefill
    repeat' split
    all_goals rfl
  | report c k status =>
    unfold answerReport
    repeat' split
    all_goals rfl
  | command c seq image kind => exact pending_takeCommand s seq _ _
  | manifestBeat =>
    exact hwork (u := { s with measure := s.measure.modEngine 0 (Engine.manifestBeatDone s.measure.now) }) rfl
      (work_advanceManifest _)
  | unmatched =>
    exact hwork (u := { s with measure := s.measure.modEngine 0 Engine.endCheck }) rfl (work_failAttempt _ _)
  | rejected why => exact hwork rfl (work_failAttempt s why)

/-- Settles O1: `step` by the queue, and every row by its cases. -/
theorem stepRunsFrontCommand : Obligations.StepRunsFrontCommand := by
  refine ⟨fun c s => rfl, fun s h => ?_, fun c s => ?_⟩
  · unfold step
    rw [h]
  · obtain ⟨t, ht⟩ := exec_total c s
    exact ⟨t, ht, pending_of_effect (exec_effect ht)⟩

/-! ### Resets -/

theorem reportTag_reset (k : Fin 2) : ReportState.reset.tags[k] = .free := by
  revert k
  decide

theorem cleared_resetTo (s : State) (line : ResetLine) (attempts : Nat) (reason : Option RejectReason) :
    (resetTo s line attempts reason).clearedByReset where
  tables := ⟨rfl, rfl⟩
  tracker := ⟨rfl, rfl⟩
  engines e := by
    have hidle : (resetTo s line attempts reason).measure.engines[e] = idleEngine := engine_reset e
    rw [hidle]
    exact ⟨rfl, rfl, rfl, rfl, rfl, rfl, rfl⟩
  waitList := rfl
  refills := ⟨refillTag_reset, rfl⟩
  loading := ⟨rfl, rfl, rfl, rfl⟩
  manifest := ⟨rfl, rfl, rfl, rfl⟩
  lines := ⟨rfl, rfl, rfl, rfl, rfl⟩
  channel := ⟨rfl, rfl, rfl, rfl, rfl, rfl, rfl⟩
  command := ⟨rfl, rfl⟩
  queue := ⟨rfl, rfl, reportTag_reset⟩
  hostSide := ⟨rfl, rfl, rfl, rfl, rfl, rfl⟩
  memorySide := ⟨rfl, rfl, rfl, rfl, rfl, rfl⟩

/-- Settles O3: both resets are `resetTo` with their line, attempt counter and reason. -/
theorem resetsClear : Obligations.ResetsClear := by
  refine ⟨fun s => ⟨_, rfl, cleared_resetTo s _ _ _, rfl, rfl, rfl, rfl, rfl⟩,
    fun s => ⟨_, rfl, cleared_resetTo s _ _ _, rfl, rfl, ?_, ?_, rfl, rfl⟩⟩
  · show (if s.resetLine = .cold then ResetLine.cold else .warm) = .cold ↔ _
    split <;> simp [*]
  · show (if s.resetLine = .cold then ResetLine.cold else .warm) ≠ .inactive
    split <;> nofun

/-- Settles O60: each invariant at the reset values. -/
theorem resetMeetsEveryInvariant : Obligations.ResetMeetsEveryInvariant := by
  have hno : ∀ i, MeasureState.reset.image? i = none := image?_of_images_nil rfl
  refine ⟨?_, workKept_reset.1, ⟨by decide, by decide, nofun⟩, ⟨rfl, nofun⟩, ?_, tagsOk_reset, rfl, Nat.zero_le _,
    ⟨Nat.zero_le _, nofun⟩, ?_, ⟨nofun, fun _ _ => ⟨rfl, rfl⟩, nofun⟩, channelOk_reset, ringOk_reset, .nil, .nil,
    fun i g p hg => ?_, workKept_reset.2.1.2, poolOk_reset, fun i g x hg => ?_, poolSettled_reset⟩
  · exact cleared_resetTo State.reset .cold 0 none
  · exact fun _ => ⟨rfl, rfl, rfl, rfl, rfl, rfl, rfl, rfl, rfl⟩
  · rw [faultOk_iff]
    rfl
  · exact nomatch (hno i).symm.trans hg
  · exact nomatch (hno i).symm.trans hg

/-! ### The straps and the window -/

theorem windowBase_of_work {s t : State} (h : ManifestWork s t) :
    t.manifest.windowBase = s.manifest.windowBase := (Prod.mk.inj h.fixed).1

/-- The window base is set by the straps alone (R102). -/
theorem windowBase_of_effect {u u' : ManifestState} {c : Instr} (heffect : ManifestEffect u c u')
    (hc : ∀ msel1 msel0, c ≠ .resetEnd msel1 msel0) : u'.windowBase = u.windowBase := by
  cases heffect with
  | same | reset | sensed | checked | accepted | burnt => rfl
  | straps msel1 msel0 h => exact absurd h (hc msel1 msel0)
  | windowWritten v hv tag addr beats =>
    exact hv ▸ windowBase_of_work ((work_startAttempt v).trans ((work_windowWrite _ tag addr beats).trans
      (work_advanceManifest _)))
  | answered v hv tag status =>
    exact hv ▸ windowBase_of_work ((work_windowAnswered v tag status).trans (work_advanceManifest _))
  | beatDone v hv => exact hv ▸ windowBase_of_work (work_advanceManifest v)
  | failed v hv _ why => exact hv ▸ windowBase_of_work (work_failAttempt v why)

/-- Settles O4: the end of a reset reads the straps, and the window is the 4096 bytes from the base. -/
theorem strapsFixTheWindow : Obligations.StrapsFixTheWindow := by
  refine ⟨fun s h msel1 msel0 => ?_, fun s h msel1 msel0 => if_pos h, fun c s t hexec hc => ?_,
    fun s a hlow hhigh => ?_, fun s a d h => (classify_eq_window_iff s a d).1 h, fun s hbase => ?_,
    fun s t h => ?_, fun s t hcold h => ?_⟩
  · refine (if_neg h).trans ?_
    cases msel1 <;> cases msel0 <;> rfl
  · exact windowBase_of_effect (manifestEffect_of_effect (exec_effect hexec)) hc
  · exact (classify_eq_window_iff s a _).2 ⟨by omega, by omega⟩
  · exact ⟨strapped_base_aligned hbase, windowWhole_of_aligned (strapped_base_aligned hbase)⟩
  · cases h
    rfl
  · cases h
    exact if_pos hcold

/-! ### The end of an event -/

/-- What the report unit's choice keeps. -/
theorem reportChoice_kept {r r' : ReportState} (h : ReportChoice r r') : r'.lastSeq = r.lastSeq ∧
    r'.lastResult = r.lastResult ∧ r'.producer = r.producer ∧ r'.consumer = r.consumer ∧
      r'.advanceOwed = r.advanceOwed := by
  cases h with
  | nothing | header | record => exact ⟨rfl, rfl, rfl, rfl, rfl⟩

theorem joinOwn_headWait (l : LinkState) (new : List LinkRequest) :
    (l.own = [] → new ≠ [] → (l.joinOwn new).headWait = 0) ∧
      (l.own ≠ [] ∨ new = [] → (l.joinOwn new).headWait = l.headWait) := by
  unfold LinkState.joinOwn
  refine ⟨fun hown hnew => ?_, fun h => ?_⟩
  · simp [hown, hnew]
  · simp only [ite_eq_right_iff, Bool.and_eq_true, List.isEmpty_iff, Bool.not_eq_true', List.isEmpty_eq_false_iff]
    exact fun ⟨hown, hnew⟩ => absurd h (not_or.2 ⟨fun h => h hown, hnew⟩)

/-- Settles O2: the follow-ups act on the images, the pool, the refills and the report unit by the laws of
each. -/
theorem settleLeavesAlone : Obligations.SettleLeavesAlone := by
  rintro s t rfl
  obtain ⟨position, -, -, hlink⟩ := settle_chosen s
  have hevolves := evolves_settle s
  obtain ⟨hseq, hresult, hproducer, hconsumer, howed⟩ := reportChoice_kept (reportChoice_settle s)
  refine ⟨rfl, rfl, rfl, rfl, rfl, rfl, ⟨joinOrder position s.measure.settlePool.serveRefills.2
    (chooseReport s.manifest s.measure.settlePool.serveRefills.1 s.report).2.2, ?_, ?_, ?_⟩, hevolves.segments, hevolves.entries, hevolves.nextSeq,
    hevolves.length, settle_verified s, hseq, hresult, hproducer, hconsumer, howed, fun i g hg => ?_⟩
  · rw [hlink]
    rfl
  · rw [hlink]
    exact (joinOwn_headWait _ _).1
  · rw [hlink]
    exact (joinOwn_headWait _ _).2
  · obtain ⟨g', hg', hstill, hfilling⟩ := settle_image hg
    refine ⟨g', hg', ?_⟩
    by_cases hstate : g.state = .filling
    · obtain ⟨hstate', hcursor, hdeclared, hepoch, hflight⟩ := hfilling hstate
      exact ⟨hdeclared, hepoch, hflight, fun h => absurd hstate h, fun _ => ⟨hstate', hcursor⟩⟩
    · obtain ⟨heq, htransitions⟩ := hstill hstate
      refine ⟨?_, ?_, ?_, fun _ => ⟨heq, htransitions⟩, fun h => absurd h hstate⟩
      · rw [heq]
      · rw [heq]
      · rw [heq]

end Sys2Proof.Proofs

/-! The memory-port arbiter: what it offers, and how long an own request waits (R164, R165, R166). -/

namespace Sys2Proof.Proofs
open Sys2Proof.Machine Sys2Proof.Laws

/-! ### The choice -/

section choice
variable {l : LinkState}

theorem memChoice_none (hforward : l.forward = []) (hown : l.own = []) : l.memChoice = none := by
  rw [LinkState.memChoice, hforward, hown]

theorem memChoice_forward_alone (hforward : l.forward ≠ []) (hown : l.own = []) :
    l.memChoice = some .forward := by
  obtain ⟨r, rest, hforward⟩ := List.exists_cons_of_ne_nil hforward
  rw [LinkState.memChoice, hforward, hown]

theorem memChoice_own_alone (hforward : l.forward = []) (hown : l.own ≠ []) : l.memChoice = some .own := by
  obtain ⟨r, rest, hown⟩ := List.exists_cons_of_ne_nil hown
  rw [LinkState.memChoice, hforward, hown]

theorem memChoice_both (hforward : l.forward ≠ []) (hown : l.own ≠ []) :
    l.memChoice = if l.headWait < 4 then some .forward else some .own := by
  obtain ⟨r, rest, hforward⟩ := List.exists_cons_of_ne_nil hforward
  obtain ⟨r', rest', hown⟩ := List.exists_cons_of_ne_nil hown
  rw [LinkState.memChoice, hforward, hown]

end choice

/-! ### The two moments -/

theorem exec_memReady (s : State) : exec (.memoryTakesRequest .ready) s =
    .next { s with link := { s.link with memOffer := s.link.memOffer.or s.link.memChoice } } := rfl

/-- The state after memory has taken what is offered, or what the arbiter would offer. -/
def taken (s : State) : State :=
  { s with link := ((s.link.memOffer.or s.link.memChoice).map s.link.send).getD s.link }

theorem exec_memTaken (s : State) : exec (.memoryTakesRequest .taken) s = .next (taken s) := by
  simp only [exec, execMemoryTakesRequest, taken]
  cases s.link.memOffer.or s.link.memChoice <;> rfl

theorem taken_of_choice {s : State} {source : RequestSource}
    (h : s.link.memOffer.or s.link.memChoice = some source) : taken s = { s with link := s.link.send source } := by
  rw [taken, h]
  rfl

/-- Settles O17: the offer is the one that stands, or else the arbiter's choice; a taking is that of the source
offered. -/
theorem memoryArbiterOffers : Obligations.MemoryArbiterOffers := by
  refine ⟨fun s => ⟨s.link.memOffer.or s.link.memChoice, exec_memReady s, fun x hoffer => ?stands,
    fun hoffer => ?chosen⟩, fun s r rest hoffer hforward => ?forward, fun s r rest hoffer hown => ?own⟩
  case stands => rw [hoffer, Option.some_or]
  case chosen =>
    rw [hoffer, Option.none_or]
    refine ⟨memChoice_none, memChoice_forward_alone, memChoice_own_alone, fun hf ho hlt => ?_, fun hf ho heq => ?_⟩
    · rw [memChoice_both hf ho, if_pos hlt]
    · rw [memChoice_both hf ho, if_neg (by omega)]
  case forward =>
    rw [exec_memTaken, taken_of_choice (by rw [hoffer, Option.some_or]), send_forward hforward]
  case own => rw [exec_memTaken, taken_of_choice (by rw [hoffer, Option.some_or]), send_own hown]

/-! ### The bounded wait -/

/-- The state after n takings. -/
def takings : Nat → State → State
  | 0, s => s
  | n + 1, s => takings n (taken s)

theorem takings_succ (n : Nat) (s : State) : takings (n + 1) s = taken (takings n s) := by
  induction n generalizing s with
  | zero => rfl
  | succ n ih => exact ih (taken s)

/-- After j takings of forwarded requests, in order, memory takes the own head. -/
def TakesHeadAfter (s : State) (r : LinkRequest) (rest : List LinkRequest) (j : Nat) : Prop :=
  (∀ n, n < j → (takings (n + 1) s).link.memOut = s.link.forward[n]? ∧ (takings (n + 1) s).link.own = r :: rest) ∧
    (takings (j + 1) s).link.memOut = some r ∧ (takings (j + 1) s).link.own = rest ∧
      (takings (j + 1) s).link.headWait = 0

theorem takesHead_now {s : State} {r : LinkRequest} {rest : List LinkRequest} (hown : s.link.own = r :: rest)
    (hchoice : s.link.memOffer.or s.link.memChoice = some .own) : TakesHeadAfter s r rest 0 := by
  have htaken : takings (0 + 1) s = { s with link := { s.link with
      own := rest, memOffer := none, memOut := some r, headWait := 0 } } := by
    show taken s = _
    rw [taken_of_choice hchoice, send_own hown]
  refine ⟨nofun, ?_⟩
  rw [htaken]
  exact ⟨rfl, rfl, rfl⟩

theorem takesHead_step {s : State} {r f : LinkRequest} {rest forward : List LinkRequest} {j : Nat}
    (hown : s.link.own = r :: rest) (hforward : s.link.forward = f :: forward)
    (hchoice : s.link.memOffer.or s.link.memChoice = some .forward)
    (h : TakesHeadAfter (taken s) r rest j) : TakesHeadAfter s r rest (j + 1) := by
  obtain ⟨hbefore, hhead⟩ := h
  have hlink : (taken s).link = { s.link with
      forward := forward, memOffer := none, memOut := some f, headWait := s.link.headWait + 1 } := by
    rw [taken_of_choice hchoice, send_forward hforward, if_neg (by simp [hown])]
  refine ⟨fun n hn => ?_, hhead⟩
  cases n with
  | zero =>
    show (taken s).link.memOut = _ ∧ (taken s).link.own = _
    rw [hlink, hforward]
    exact ⟨rfl, hown⟩
  | succ n =>
    obtain ⟨hout, hown'⟩ := hbefore n (Nat.lt_of_succ_lt_succ hn)
    rw [hforward, List.getElem?_cons_succ]
    rw [hlink] at hout
    exact ⟨hout, hown'⟩

/-- With no offer standing, or a forwarded request offered while the count allows it, the own head is taken
after the forwarded requests that may go first. -/
theorem takesHead_within {s : State} {r : LinkRequest} {rest : List LinkRequest} (hown : s.link.own = r :: rest)
    {j : Nat} (hj : j = min (4 - s.link.headWait) s.link.forward.length)
    (hoffer : s.link.memOffer = none ∨ s.link.memOffer = some .forward ∧ 0 < j) : TakesHeadAfter s r rest j := by
  have hown' : s.link.own ≠ [] := by simp [hown]
  induction j generalizing s with
  | zero =>
    have hnone := hoffer.resolve_right fun h => absurd h.2 (Nat.lt_irrefl 0)
    refine takesHead_now hown ?_
    rw [hnone, Option.none_or]
    by_cases hforward : s.link.forward = []
    · exact memChoice_own_alone hforward hown'
    · rw [memChoice_both hforward hown', if_neg]
      have := List.length_pos_iff.2 hforward
      omega
  | succ j ih =>
    have hpos : 0 < s.link.forward.length := by omega
    obtain ⟨f, forward, hforward⟩ := List.exists_cons_of_length_pos hpos
    have hlength : s.link.forward.length = forward.length + 1 := by rw [hforward]; rfl
    have hchoice : s.link.memOffer.or s.link.memChoice = some .forward := by
      obtain hnone | ⟨hsome, -⟩ := hoffer
      · rw [hnone, Option.none_or, memChoice_both (by simp [hforward]) hown', if_pos (by omega)]
      · rw [hsome, Option.some_or]
    have htaken : taken s = { s with link := { s.link with
        forward := forward, memOffer := none, memOut := some f, headWait := s.link.headWait + 1 } } := by
      rw [taken_of_choice hchoice, send_forward hforward, if_neg hown']
    refine takesHead_step hown hforward hchoice (ih (by rw [htaken]; exact hown) ?_ ?_ (by rw [htaken]; exact hown'))
    · rw [htaken]
      show j = min (4 - (s.link.headWait + 1)) forward.length
      omega
    · rw [htaken]
      exact .inl rfl

/-- Settles O18: the takings one after another, by the number of forwarded requests that may go first. -/
theorem ownHeadWaitsAtMostFour : Obligations.OwnHeadWaitsAtMostFour := by
  intro s r rest hown hok
  have hrun : ∀ k : Nat, takings 0 s = s ∧
      ∀ n, n ≤ k → exec (.memoryTakesRequest .taken) (takings n s) = .next (takings (n + 1) s) := fun k =>
    ⟨rfl, fun n _ => by rw [exec_memTaken, takings_succ]⟩
  have hdone : ∀ j, j ≤ 4 → TakesHeadAfter s r rest j → ∃ k, k ≤ 4 ∧
      ∃ run : Nat → State, run 0 = s ∧
        (∀ n, n ≤ k → exec (.memoryTakesRequest .taken) (run n) = .next (run (n + 1))) ∧
        (∀ n, n < k → (run (n + 1)).link.memOut = s.link.forward[n]? ∧
          (run (n + 1)).link.own = r :: rest) ∧
        (s.link.memOffer ≠ some .forward ∨ s.link.forward ≠ [] →
          (run (k + 1)).link.memOut = some r ∧ (run (k + 1)).link.own = rest ∧
          (run (k + 1)).link.headWait = 0) := fun j hj h =>
    ⟨j, hj, fun n => takings n s, (hrun j).1, (hrun j).2, h.1, fun _ => h.2⟩
  have hj : min (4 - s.link.headWait) s.link.forward.length ≤ 4 := by omega
  cases hoffer : s.link.memOffer with
  | none => exact hoffer ▸ hdone _ hj (takesHead_within hown rfl (.inl hoffer))
  | some source =>
    cases source with
    | own => exact hoffer ▸ hdone 0 (by decide) (takesHead_now hown (by rw [hoffer, Option.some_or]))
    | forward =>
      by_cases hforward : s.link.forward = []
      · exact ⟨0, by decide, fun n => takings n s, (hrun 0).1, (hrun 0).2, nofun,
          fun h => (h.elim (fun h => h rfl) (fun h => h hforward)).elim⟩
      · have hlt := hok.2 hoffer (by simp [hown])
        have hpos := List.length_pos_iff.2 hforward
        exact hoffer ▸ hdone _ hj (takesHead_within hown rfl (.inr ⟨hoffer, by omega⟩))

end Sys2Proof.Proofs

/-! The report writes: their responses, their failures and the choice of the next one (R144 to R150). -/

namespace Sys2Proof.Proofs
open Sys2Proof.Machine Sys2Proof.Laws

/-! ### The rows of the report tags -/

theorem exec_reportWriteResponse (s : State) (k : Fin 2) (status : LinkStatus) :
    exec (.reportWriteResponse (32 + k.val) status) s = .next (answerReport s k status) := by
  have htag := (reportTagOf_eq_some_iff (32 + k.val) k).2 rfl
  have hspace : ¬ 32 + k.val < 32 := by omega
  simp only [exec, execReportWriteResponse, routeResponse, hspace, if_false, htag]

theorem exec_reportLimitExpiry (s : State) (k : Fin 2) : exec (.reportLimitExpiry (32 + k.val)) s =
    match s.report.tags[k] with
    | .busy target => .next (State.settle { s with
        measure := s.measure.reportFailed s.report target
        report := s.report.failed k target (.quarantined target) })
    | .free => .next s
    | .quarantined _ => .next s := by
  have htag := (reportTagOf_eq_some_iff (32 + k.val) k).2 rfl
  simp only [exec, execReportLimitExpiry, htag] <;> rfl

section responses
variable {s : State} {k : Fin 2} {target : ReportTarget}

theorem answerReport_ok (h : s.report.tags[k] = .busy target) : answerReport s k .ok =
    State.settle { s with report := s.report.acknowledged k target } := by
  simp only [answerReport, h, if_true]

theorem answerReport_failed (h : s.report.tags[k] = .busy target) {status : LinkStatus} (hstatus : status ≠ .ok) :
    answerReport s k status = State.settle { s with
      measure := s.measure.reportFailed s.report target
      report := s.report.failed k target .free } := by
  simp only [answerReport, h, if_neg hstatus]

theorem answerReport_quarantined (h : s.report.tags[k] = .quarantined target) (status : LinkStatus) :
    answerReport s k status = State.settle { s with report := s.report.setTag k .free } := by
  simp only [answerReport, h]

end responses

/-- Settles O38: the acknowledgement by the target of the write. -/
theorem reportWriteAcknowledged : Obligations.ReportWriteAcknowledged := by
  intro s k
  refine ⟨fun j h => ?_, fun h howed => ?_, fun h howed => ?_⟩
  · rw [exec_reportWriteResponse, answerReport_ok h]
    rfl
  · rw [exec_reportWriteResponse, answerReport_ok h]
    simp [ReportState.acknowledged, ReportState.setTag, howed]
  · rw [exec_reportWriteResponse, answerReport_ok h]
    simp [ReportState.acknowledged, ReportState.setTag, howed]

/-- Both ways in which a report write fails. -/
theorem exec_reportFails {s : State} {k : Fin 2} {c : Instr} {tag : ReportTag} {target : ReportTarget}
    (hbusy : s.report.tags[k] = .busy target)
    (hc : (∃ status, status ≠ .ok ∧ c = .reportWriteResponse (32 + k.val) status ∧ tag = .free) ∨
      (c = .reportLimitExpiry (32 + k.val) ∧ tag = .quarantined target)) :
    exec c s = .next (State.settle { s with
      measure := s.measure.reportFailed s.report target
      report := s.report.failed k target tag }) := by
  obtain ⟨status, hstatus, rfl, rfl⟩ | ⟨rfl, rfl⟩ := hc
  · rw [exec_reportWriteResponse, answerReport_failed hbusy hstatus]
  · rw [exec_reportLimitExpiry, hbusy]

theorem reportFailed_header (m : MeasureState) (r : ReportState) : m.reportFailed r .header = m := rfl

theorem reportFailed_slot (m : MeasureState) {r : ReportState} {w : RecordInFlight} (h : r.inFlight = some w)
    (j : Nat) : m.reportFailed r (.slot j) = m.returnSubject w := by
  unfold MeasureState.reportFailed
  rw [h]

/-- Settles O39: one failure for the response and the limit, by the target of the write. -/
theorem failedReportWriteHalts : Obligations.FailedReportWriteHalts := by
  intro s k
  refine ⟨fun c tag target hbusy hc => ⟨?_, ?_⟩, fun target status h => ?_, fun h => ?_⟩
  · rintro rfl
    rw [exec_reportFails hbusy hc, reportFailed_header]
    rfl
  · rintro j w rfl hw
    rw [exec_reportFails hbusy hc, reportFailed_slot _ hw]
    rfl
  · rw [exec_reportWriteResponse, answerReport_quarantined h]
    rfl
  · obtain h | ⟨target, h⟩ := h
    · rw [exec_reportLimitExpiry, h]
    · rw [exec_reportLimitExpiry, h]

/-! ### The tag of the next write -/

theorem freeTag_eq_some_iff (r : ReportState) (t : Fin 2) :
    r.freeTag = some t ↔ r.tags[t] = .free ∧ ∀ t', t' < t → r.tags[t'] ≠ .free := by
  unfold ReportState.freeTag reportTagIds
  by_cases h0 : r.tags[(0 : Fin 2)] = .free
  · rw [List.find?_cons_of_pos (by rw [h0]; rfl)]
    constructor
    · rintro ⟨⟩
      exact ⟨h0, fun t' ht' => absurd ht' (by simp)⟩
    · rintro ⟨-, hlow⟩
      match t with
      | 0 => rfl
      | 1 => exact absurd h0 (hlow 0 (by decide))
  · rw [List.find?_cons_of_neg (by simpa using h0)]
    by_cases h1 : r.tags[(1 : Fin 2)] = .free
    · rw [List.find?_cons_of_pos (by rw [h1]; rfl)]
      constructor
      · rintro ⟨⟩
        exact ⟨h1, fun t' ht' => by match t', ht' with | 0, _ => exact h0⟩
      · rintro ⟨ht, -⟩
        match t with
        | 0 => exact absurd ht h0
        | 1 => rfl
    · rw [List.find?_cons_of_neg (by simpa using h1)]
      constructor
      · rintro ⟨⟩
      · rintro ⟨ht, -⟩
        match t with
        | 0 => exact absurd ht h0
        | 1 => exact absurd ht h1

theorem targetHeld_iff (r : ReportState) (target : ReportTarget) :
    r.targetHeld target = true ↔ ∃ t : Fin 2, r.tags[t] = .quarantined target := by
  simp only [ReportState.targetHeld, reportTagIds, List.any_cons, List.any_nil, Bool.or_false, Bool.or_eq_true,
    beq_iff_eq]
  constructor
  · rintro (h | h)
    · exact ⟨0, h⟩
    · exact ⟨1, h⟩
  · rintro ⟨t, h⟩
    match t with
    | 0 => exact .inl h
    | 1 => exact .inr h

/-- No write to the target can be issued now (R144). -/
def Blocked (r : ReportState) (target : ReportTarget) : Prop :=
  (∀ t : Fin 2, r.tags[t] ≠ .free) ∨ ∃ t : Fin 2, r.tags[t] = .quarantined target

theorem tagFor_blocked {r : ReportState} {target : ReportTarget} (h : Blocked r target) :
    r.tagFor target = none := by
  unfold ReportState.tagFor
  split
  · rfl
  · rename_i hheld
    obtain hbusy | hquarantined := h
    · rw [Option.eq_none_iff_forall_ne_some]
      exact fun t ht => hbusy t ((freeTag_eq_some_iff r t).1 ht).1
    · exact absurd ((targetHeld_iff r target).2 hquarantined) hheld

theorem tagFor_lowest {r : ReportState} {target : ReportTarget} (h : ¬ Blocked r target) {t : Fin 2}
    (hfree : r.tags[t] = .free) (hlow : ∀ t', t' < t → r.tags[t'] ≠ .free) : r.tagFor target = some t := by
  unfold ReportState.tagFor
  rw [if_neg (fun hheld => h (.inr ((targetHeld_iff r target).1 hheld)))]
  exact (freeTag_eq_some_iff r t).2 ⟨hfree, hlow⟩

/-! ### The three cases of the choice -/

section choice
variable {man : ManifestState} {m : MeasureState} {r : ReportState} {area : ReportArea}
  (hready : r.channel = .ready) (harea : r.area = some area)

/-- A header write, when a tag can carry it (R148). -/
def headerWrite (m : MeasureState) (r : ReportState) (area : ReportArea) :
    ReportState × MeasureState × Option LinkRequest :=
  match r.tagFor .header with
  | some t => ((r.issueHeader area t).1, m, some (r.issueHeader area t).2)
  | none => (r, m, none)

theorem chooseReport_not_ready (h : r.channel ≠ .ready) : chooseReport man m r = (r, m, none) := by
  unfold chooseReport
  split
  · contradiction
  · rfl

include hready harea

theorem chooseReport_headerDue (hdue : r.advanceOwed = true ∨ r.headerFirst = true) :
    chooseReport man m r = headerWrite m r area := by
  unfold chooseReport
  rw [hready, harea]
  exact if_pos (by simpa using hdue)

theorem chooseReport_recordDue (hdue : ¬ (r.advanceOwed = true ∨ r.headerFirst = true)) {x : Nat}
    {xs : List Nat} (hsubjects : m.subjects = x :: xs) (hroom : r.fill < area.slots) :
    chooseReport man m r =
      match r.tagFor (.slot (r.nextSlot area)), captureRecord man m area.nextRecord x with
      | some t, some (bytes, captured) => ((issueRecord m r area t x bytes captured).1,
          (issueRecord m r area t x bytes captured).2.1, some (issueRecord m r area t x bytes captured).2.2)
      | _, _ => (r, m, none) := by
  unfold chooseReport
  rw [hready, harea]
  refine (if_neg (by simpa using hdue)).trans ?_
  rw [hsubjects, decide_eq_true hroom] <;> rfl

theorem chooseReport_noRecord (hdue : ¬ (r.advanceOwed = true ∨ r.headerFirst = true))
    (hrecord : ¬ ∃ x xs, m.subjects = x :: xs ∧ r.fill < area.slots) :
    chooseReport man m r = if r.headerDirty = true then headerWrite m r area else (r, m, none) := by
  unfold chooseReport
  rw [hready, harea]
  refine (if_neg (by simpa using hdue)).trans ?_
  split
  · rename_i x xs hsubjects hroom
    exact absurd ⟨x, xs, hsubjects, of_decide_eq_true hroom⟩ hrecord
  · rfl

end choice

theorem captureRecord_image {man : ManifestState} {m : MeasureState} {number : BitVec 32} {x : Nat} {g : Image}
    (hx : x ≠ 0) (hg : m.image? x = some g) :
    captureRecord man m number x = some (imageRecordBytes number x g, g.transitions) := by
  rw [captureRecord, if_neg hx, hg]
  rfl

theorem captureRecord_manifest {man : ManifestState} {m : MeasureState} {number : BitVec 32}
    {record : ManifestRecord} (hrecord : man.record = some record) :
    captureRecord man m number 0 =
      some (manifestRecordBytes number record (man.revocation.getD .none), 0) := by
  rw [captureRecord, if_pos rfl, hrecord]
  rfl

theorem joinOrder_of_none (position : Nat) {reads : List LinkRequest} {write : Option LinkRequest}
    (h : write = none) : joinOrder position reads write = reads := by rw [h]; rfl

theorem joinOrder_of_some (position : Nat) {reads : List LinkRequest} {write : Option LinkRequest}
    (w : LinkRequest) (h : write = some w) : ∃ k, k ≤ reads.length ∧
      joinOrder position reads write = reads.take k ++ w :: reads.drop k := by
  rw [h]
  exact joinOrder_some position reads w

/-- Settles O40: the cases of the choice by what is due, then the end of an event. -/
theorem readyChoosesTheNextWrite : Obligations.ReadyChoosesTheNextWrite := by
  refine ⟨fun man m r area hready harea => ?ready, fun man m r h => chooseReport_not_ready h, ?settle⟩
  case ready =>
    refine ⟨fun hdue => ?header, fun hdue hrecord => ?record, fun hdue hrecord hclean => ?nothing⟩
    case header =>
      have hchoice : chooseReport man m r = headerWrite m r area := by
        by_cases hfirst : r.advanceOwed = true ∨ r.headerFirst = true
        · exact chooseReport_headerDue hready harea hfirst
        · obtain ⟨hnone, hdirty⟩ := hdue.resolve_left hfirst
          rw [chooseReport_noRecord hready harea hfirst hnone, if_pos hdirty]
      rw [hchoice, headerWrite]
      refine ⟨fun hblocked => ?_, fun t hblocked hfree hlow => ?_⟩
      · rw [tagFor_blocked hblocked]
      · rw [tagFor_lowest hblocked hfree hlow]
        rfl
    case record =>
      obtain ⟨x, xs, hsubjects, hroom⟩ := hrecord
      rw [chooseReport_recordDue hready harea hdue hsubjects hroom]
      refine ⟨fun hblocked => ?_, fun t x' xs' bytes captured hblocked hfree hlow hsubjects' hcapture => ?_⟩
      · rw [tagFor_blocked (target := .slot (r.nextSlot area)) hblocked]
      · obtain ⟨rfl, rfl⟩ := List.cons.inj (hsubjects.symm.trans hsubjects')
        have hcaptured : captureRecord man m area.nextRecord x = some (bytes, captured) := by
          obtain ⟨g, hx, hg, rfl, rfl⟩ | ⟨record, rfl, hrecord, rfl, rfl⟩ := hcapture
          · exact captureRecord_image hx hg
          · exact captureRecord_manifest hrecord
        rw [tagFor_lowest (target := .slot (r.nextSlot area)) hblocked hfree hlow, hcaptured]
        simp only [issueRecord, hsubjects, List.tail_cons]
        rfl
    case nothing =>
      rw [chooseReport_noRecord hready harea hdue hrecord, if_neg (by simp [hclean])]
  case settle =>
    rintro s t rfl
    obtain ⟨position, hreport, hmeasure, hlink⟩ := settle_chosen s
    generalize s.measure.settlePool = m at hreport hmeasure hlink ⊢
    exact ⟨hreport, congrArg (·.subjects) hmeasure, congrArg (·.images) hmeasure, _, congrArg (·.own) hlink,
      joinOrder_of_none position, joinOrder_of_some position⟩

end Sys2Proof.Proofs

/-! Refill reads: their responses, their limit, the chunk and the pending list (R72 to R81). -/

namespace Sys2Proof.Proofs
open Sys2Proof.Machine Sys2Proof.Laws

/-! ### The rows of the refill tags -/

theorem exec_refillResponse (s : State) (k : Fin 8) (status : LinkStatus) (data : List Beat) :
    exec (.refillResponse (32 + k.val) status data) s = .next (answerRefill s k status data) := by
  have htag := (refillTagOf_eq_some_iff (32 + k.val) k).2 rfl
  have hspace : ¬ 32 + k.val < 32 := by omega
  simp only [exec, execRefillResponse, routeResponse, hspace, if_false, htag]

theorem exec_refillLimitExpiry (s : State) (k : Fin 8) : exec (.refillLimitExpiry (32 + k.val)) s =
    match s.measure.refillTags[k] with
    | .busy i (some _) _ _ _ => .next (State.settle { s with
        measure := (s.measure.setRefillTag k .quarantined).breakImage i .refillTimeout })
    | .busy _ none _ _ _ => .next (State.settle { s with measure := s.measure.setRefillTag k .quarantined })
    | .free => .next s
    | .quarantined => .next s := by
  have htag := (refillTagOf_eq_some_iff (32 + k.val) k).2 rfl
  simp only [exec, execRefillLimitExpiry, htag] <;> rfl

/-- Settles O23: the expiry by the tag's state and attachment. -/
theorem refillLimitQuarantines : Obligations.RefillLimitQuarantines := by
  intro s k
  refine ⟨fun i e start n addr h => ?_, fun i start n addr h => ?_, fun h => ?_⟩
  · rw [exec_refillLimitExpiry, h]
  · rw [exec_refillLimitExpiry, h]
  · obtain h | h := h
    · rw [exec_refillLimitExpiry, h]
    · rw [exec_refillLimitExpiry, h]

section responses
variable {s : State} {k : Fin 8} {i start n addr : Nat} {status : LinkStatus} {data : List Beat}

theorem answerRefill_attached {e : EngineId} (h : s.measure.refillTags[k] = .busy i (some e) start n addr)
    (hstatus : status = .ok) : answerRefill s k status data = State.settle { s with
      measure := (s.measure.setRefillTag k .free).deliverChunk e i n (returnedBeats s.freeCount n data)
      freeCount := if data.length < n then s.freeCount + 1 else s.freeCount } := by
  simp only [answerRefill, h, if_pos hstatus]

theorem answerRefill_fault {e : EngineId} (h : s.measure.refillTags[k] = .busy i (some e) start n addr)
    (hstatus : status ≠ .ok) : answerRefill s k status data = State.settle { s with
      measure := (s.measure.setRefillTag k .free).breakImage i .refillFault } := by
  simp only [answerRefill, h, if_neg hstatus]

theorem answerRefill_discarded (h : (∃ i start n addr, s.measure.refillTags[k] = .busy i none start n addr) ∨
    s.measure.refillTags[k] = .quarantined) :
    answerRefill s k status data = State.settle { s with measure := s.measure.setRefillTag k .free } := by
  obtain ⟨i, start, n, addr, h⟩ | h := h
  · simp only [answerRefill, h]
  · simp only [answerRefill, h]

end responses

/-! ### The beats of a response -/

theorem returnedBeats_long {n : Nat} {data : List Beat} (h : n ≤ data.length) (free : Nat) :
    returnedBeats free n data = data.take n := by
  refine List.ext_getElem (by simp [returnedBeats, h]) fun j hj hj' => ?_
  have hlt : j < data.length := by
    simp only [List.length_take] at hj'
    omega
  simp [returnedBeats, List.getD_eq_getElem?_getD, hlt]

theorem returnedBeats_short {n : Nat} {data : List Beat} (h : data.length < n) (free : Nat) :
    ∃ missing : List Beat, missing.length = n - data.length ∧ returnedBeats free n data = data ++ missing := by
  refine ⟨(returnedBeats free n data).drop data.length, by simp [returnedBeats], ?_⟩
  have htake : (returnedBeats free n data).take data.length = data := by
    refine List.ext_getElem (by simp [returnedBeats]; omega) fun j hj hj' => ?_
    simp [returnedBeats, List.getD_eq_getElem?_getD, hj']
  conv => lhs; rw [← List.take_append_drop data.length (returnedBeats free n data), htake]

/-- Settles O22: the response by the tag's state and attachment, and the head run's low end. -/
theorem refillResponseHandled : Obligations.RefillResponseHandled := by
  refine ⟨fun s k status data => ⟨fun i e start n addr h => ⟨fun hok hlong => ?_, fun hok hshort => ?_,
    fun hfault => ?_⟩, fun h => ?_⟩, fun n start count newest settled rest => ⟨fun h => ?_, fun h => ?_⟩⟩
  · rw [exec_refillResponse, answerRefill_attached h hok, returnedBeats_long hlong,
      if_neg (Nat.not_lt.2 hlong)]
    rfl
  · obtain ⟨missing, hlength, heq⟩ := returnedBeats_short hshort s.freeCount
    refine ⟨missing, hlength, ?_⟩
    rw [exec_refillResponse, answerRefill_attached h hok, heq, if_pos hshort]
    rfl
  · rw [exec_refillResponse, answerRefill_fault h hfault]
  · rw [exec_refillResponse, answerRefill_discarded h]
  · exact if_neg (Nat.not_le.2 h)
  · exact if_pos h

/-! ### The chunk -/

theorem segmentOf_holds {segments : List Segment} {i x : Nat} {g : Segment} (h : segmentOf segments i x = some g) :
    g.imageOffset ≤ x ∧ x < g.imageOffset + g.length := by
  have := List.find?_some h
  simp only [Bool.and_eq_true, decide_eq_true_eq] at this
  exact ⟨this.1.2, this.2⟩

theorem chunkOf_eq {segments : List Segment} {i : Nat} {r : Run} {g : Segment}
    (h : segmentOf segments i r.start = some g) : chunkOf segments i r = some
      (g.base + (r.start - g.imageOffset), r.start, min (min 16 r.body.beatCount)
        (min ((g.imageOffset + g.length - r.start) / 16)
          ((4096 - (g.base + (r.start - g.imageOffset)) % 4096) / 16))) := by
  rw [chunkOf, h]
  rfl

theorem least_of_four (a b c d : Nat) : ∃ n, min (min a b) (min c d) = n ∧ n ≤ a ∧ n ≤ b ∧ n ≤ c ∧ n ≤ d ∧
    (n = a ∨ n = b ∨ n = c ∨ n = d) := by
  refine ⟨_, rfl, ?_⟩
  obtain ⟨x, hx⟩ : ∃ x, min a b = x := ⟨_, rfl⟩
  obtain ⟨y, hy⟩ : ∃ y, min c d = y := ⟨_, rfl⟩
  rw [hx, hy]
  omega

/-- The beats of a chunk, with the bytes left in the segment and in the page whole beats (R74). -/
theorem least_beats {count left page : Nat} (hcount : 1 ≤ count) (hleft : left % 16 = 0 ∧ 0 < left)
    (hpage : page % 16 = 0 ∧ 0 < page) : ∃ n, min (min 16 count) (min (left / 16) (page / 16)) = n ∧
      n ≤ 16 ∧ n ≤ count ∧ 16 * n ≤ left ∧ 16 * n ≤ page ∧
      (n = 16 ∨ n = count ∨ 16 * n = left ∨ 16 * n = page) ∧ 1 ≤ n := by
  obtain ⟨n, hn, hsixteen, hrun, hsegment, hrest, hone⟩ := least_of_four 16 count (left / 16) (page / 16)
  have hl : 16 * (left / 16) = left := Nat.mul_div_cancel' (Nat.dvd_of_mod_eq_zero hleft.1)
  have hp : 16 * (page / 16) = page := Nat.mul_div_cancel' (Nat.dvd_of_mod_eq_zero hpage.1)
  refine ⟨n, hn, hsixteen, hrun, hl ▸ Nat.mul_le_mul_left 16 hsegment, hp ▸ Nat.mul_le_mul_left 16 hrest,
    hone.imp id (Or.imp id (Or.imp (fun h => ?_) fun h => ?_)), ?_⟩
  · rw [h, hl]
  · rw [h, hp]
  · obtain rfl | rfl | rfl | rfl := hone <;> omega

/-- Bytes up to the end of a page are in one page (R74). -/
theorem same_page {addr bytes : Nat} (hpos : 0 < bytes) (h : bytes ≤ 4096 - addr % 4096) :
    addr / 4096 = (addr + bytes - 1) / 4096 := by omega

/-- The first of a rising list that has the property is the lowest that has it. -/
theorem find?_lowest {n : Nat} {l : List (Fin n)} (hsorted : l.Pairwise (· < ·)) {p : Fin n → Bool} {t : Fin n}
    (hmem : t ∈ l) (ht : p t = true) (hlow : ∀ t', t' < t → p t' = false) : l.find? p = some t := by
  induction l with
  | nil => cases hmem
  | cons a l ih =>
    obtain ⟨ha, hl⟩ := List.pairwise_cons.1 hsorted
    obtain rfl | hmem := List.mem_cons.1 hmem
    · exact List.find?_cons_of_pos ht
    · rw [List.find?_cons_of_neg (by simp [hlow a (ha t hmem)]), ih hl hmem]

theorem freeRefillTag_lowest {m : MeasureState} {t : Fin 8} (hfree : m.refillTags[t] = .free)
    (hlow : ∀ t' : Fin 8, t' < t → m.refillTags[t'] ≠ .free) : m.freeRefillTag = some t :=
  find?_lowest (by decide) (mem_refillTagIds t) (beq_iff_eq.2 hfree)
    fun t' ht' => beq_eq_false_iff_ne.2 (hlow t' ht')

theorem freeRefillTag_none {m : MeasureState} (h : ∀ k : Fin 8, m.refillTags[k] ≠ .free) :
    m.freeRefillTag = none :=
  List.find?_eq_none.2 fun k _ => by simpa using h k

/-! ### The requests -/

theorem newRequest_eq {m : MeasureState} {e : EngineId} {i : Nat} (hstate : m.engines[e].state = .awaitingRefill)
    (hbound : m.engines[e].bound = some i) (hpending : ∀ q ∈ m.refillPending, q.engine ≠ e)
    (hissued : ∀ (k : Fin 8) (i n : Nat), ¬ m.refillTags[k].attachedTo i e n) :
    m.newRequest e = some { engine := e, image := i } := by
  have hnot : m.hasIssued e = false := by
    rw [← Bool.not_eq_true, hasIssued_iff]
    rintro ⟨k, i, n, h⟩
    exact hissued k i n h
  have hnone : m.refillPending.any (·.engine == e) = false := by
    rw [List.any_eq_false]
    exact fun q hq h => hpending q hq (beq_iff_eq.1 h)
  unfold MeasureState.newRequest
  rw [hstate, hnone, hnot, hbound]
  rfl

theorem newRequests_sorted (m : MeasureState) :
    (engineIds.filterMap m.newRequest).Pairwise (fun q q' => q.engine < q'.engine) := by
  have hsorted : engineIds.Pairwise (· < ·) := by decide
  refine hsorted.filterMap _ fun e e' hlt q hq q' hq' => ?_
  rw [(newRequest_spec hq).1, (newRequest_spec hq').1]
  exact hlt

theorem mem_newRequests (m : MeasureState) (q : RefillRequest) : q ∈ engineIds.filterMap m.newRequest ↔
    m.engines[q.engine].state = .awaitingRefill ∧ m.engines[q.engine].bound = some q.image ∧
      (∀ q' ∈ m.refillPending, q'.engine ≠ q.engine) ∧
      ∀ (k : Fin 8) (i n : Nat), ¬ m.refillTags[k].attachedTo i q.engine n := by
  rw [List.mem_filterMap]
  constructor
  · rintro ⟨e, -, h⟩
    obtain ⟨rfl, hspec⟩ := newRequest_spec h
    exact hspec
  · rintro ⟨hstate, hbound, hpending, hissued⟩
    exact ⟨q.engine, mem_engineIds _, newRequest_eq hstate hbound hpending hissued⟩

/-! ### The end of an event -/

/-- The report unit's choice leaves the refill unit alone. -/
theorem refills_chooseReport (man : ManifestState) (m : MeasureState) (r : ReportState) :
    (chooseReport man m r).2.1.refillPending = m.refillPending ∧
      (chooseReport man m r).2.1.refillTags = m.refillTags := by
  obtain heq | ⟨x, xs, -, heq⟩ := measure_chooseReport man m r
  · rw [heq]
    exact ⟨rfl, rfl⟩
  · rw [heq]
    exact ⟨rfl, rfl⟩

/-- The reads keep their order among the own requests made at one event (R165). -/
theorem sublist_joinOrder (position : Nat) (reads : List LinkRequest) (write : Option LinkRequest) :
    reads.Sublist (joinOrder position reads write) ∧
      (joinOrder position reads write = reads ∨ ∃ w, (joinOrder position reads write).Perm (w :: reads)) := by
  cases hwrite : write with
  | none => exact ⟨.refl _, .inl rfl⟩
  | some w =>
    obtain ⟨k, -, heq⟩ := joinOrder_some position reads w
    rw [heq]
    have hsplit := List.take_append_drop k reads
    refine ⟨?_, .inr ⟨w, ?_⟩⟩
    · conv => lhs; rw [← hsplit]
      exact (List.Sublist.refl _).append (List.sublist_cons_self w _)
    · refine List.perm_middle.trans ?_
      rw [hsplit]

/-- Settles O24: the chunk's arithmetic, the issue, the requests made, their serving, and the end of an
event. -/
theorem chunkIsTheLeastOfFour : Obligations.ChunkIsTheLeastOfFour := by
  refine ⟨?chunk, ?issue, fun m => ⟨_, rfl, newRequests_sorted m, mem_newRequests m⟩, ?serve, ?settle⟩
  case chunk =>
    intro segments i r g hsegment hbase hlength hoffset hstart hcount hend
    obtain ⟨hlow, hhigh⟩ := segmentOf_holds hsegment
    refine ⟨_, _, chunkOf_eq hsegment, rfl, ?_⟩
    generalize r.start = x at hlow hhigh hstart ⊢
    have haddr : (g.base + (x - g.imageOffset)) % 16 = 0 := by omega
    have hbytes : g.base + (x - g.imageOffset) + (g.imageOffset + g.length - x) ≤ 2 ^ 40 := by omega
    have hleft : (g.imageOffset + g.length - x) % 16 = 0 ∧ 0 < g.imageOffset + g.length - x := by omega
    generalize g.base + (x - g.imageOffset) = addr at haddr hbytes ⊢
    generalize g.imageOffset + g.length - x = left at hbytes hleft ⊢
    have hpage : (4096 - addr % 4096) % 16 = 0 ∧ 0 < 4096 - addr % 4096 := by omega
    obtain ⟨n, hn, hsixteen, hrun, hwithin, hsame, hone, hsome⟩ := least_beats hcount hleft hpage
    rw [hn]
    exact ⟨hsixteen, hrun, hwithin, hsame, hone, hsome, haddr, same_page (by omega) hsame, by omega⟩
  case issue =>
    intro m q g r runs addr n t hg hruns hchunk hfree hlow
    rw [MeasureState.issueRefill, freeRefillTag_lowest hfree hlow, hg, Option.bind_some, hruns, List.head?_cons,
      Option.bind_some, hchunk]
  case serve =>
    refine fun m q rest => ⟨fun h => ?_, rfl, serveFrom_kept rest, fun m' read h => serveFrom_issued rest h⟩
    rw [MeasureState.issueRefill, freeRefillTag_none h]
  case settle =>
    rintro s t rfl
    obtain ⟨position, -, hmeasure, hlink⟩ := settle_chosen s
    generalize s.measure.settlePool = m at hmeasure hlink ⊢
    obtain ⟨hpending, htags⟩ := refills_chooseReport s.manifest m.serveRefills.1 s.report
    obtain ⟨hsub, hperm⟩ := sublist_joinOrder position m.serveRefills.2
      (chooseReport s.manifest m.serveRefills.1 s.report).2.2
    exact ⟨(congrArg (·.refillPending) hmeasure).trans hpending, (congrArg (·.refillTags) hmeasure).trans htags,
      _, congrArg (·.own) hlink, hsub, hperm⟩

end Sys2Proof.Proofs

/-! The ends of the engines' steps: restore, seed, beat, park (R46, R52, R54, R57, R61, R66). -/

namespace Sys2Proof.Proofs
open Sys2Proof.Machine Sys2Proof.Laws

theorem worksIn_of {x : Engine} {st : EngineState} (hmanifest : x.manifest = false) (h : x.state = st) :
    x.worksIn st = true := by
  simp [Engine.worksIn, hmanifest, h]

/-! ### The rows of an engine at work on an image -/

section rows
variable {s : State} {e : EngineId} (hmanifest : s.measure.engines[e].manifest = false)
include hmanifest

theorem exec_restoreDone (h : s.measure.engines[e].state = .restoring) :
    exec (.restoreDone e) s = .next (State.settle { s with measure := restoreDone s.measure e }) :=
  if_pos (worksIn_of hmanifest h)

theorem exec_seedStepDone (h : s.measure.engines[e].state = .absorbing .seed) :
    exec (.seedStepDone e) s = .next (State.settle { s with measure := absorbDone s.measure e }) :=
  if_pos (worksIn_of hmanifest h)

theorem exec_beatStepDone (h : s.measure.engines[e].state = .absorbing .beat) :
    exec (.beatStepDone e) s = .next (State.settle { s with measure := absorbDone s.measure e }) :=
  if_pos (worksIn_of hmanifest h)

theorem exec_finalisationDone (h : s.measure.engines[e].state = .finalizing) :
    exec (.finalisationDone e) s = .next (State.settle { s with measure := finalisationDone s.measure e }) :=
  if_pos (worksIn_of hmanifest h)

theorem exec_parkDone (h : s.measure.engines[e].state = .parking) :
    exec (.parkDone e) s = .next (State.settle { s with measure := parkDone s.measure e }) :=
  if_pos (worksIn_of hmanifest h)

end rows

/-! ### What each end does -/

section ends
variable {m : MeasureState} {e : EngineId}

theorem restoreDone_bound (hdiscard : m.engines[e].discard = false) {i : Nat} {g : Image}
    (hbound : m.engines[e].bound = some i) (hg : m.image? i = some g) :
    restoreDone m e = ((m.modImage i (fun g => { g with slot := none })).modEngine e
      (fun x => { x with context := g.slot })).choose e := by
  have hslot : (m.image? i).bind (·.slot) = g.slot := by rw [hg]; rfl
  rw [restoreDone, if_neg (Bool.not_eq_true _ ▸ hdiscard), hbound, ← hslot]

theorem absorbDone_kept (hdiscard : m.engines[e].discard = false) :
    absorbDone m e = (m.modEngine e (fun x => { x with context := x.context.map compressFull })).choose e :=
  if_neg (Bool.not_eq_true _ ▸ hdiscard)

theorem parkDone_bound (hdiscard : m.engines[e].discard = false) {i : Nat}
    (hbound : m.engines[e].bound = some i) :
    parkDone m e = ((m.modImage i (fun g => { g with slot := m.engines[e].context })).modEngine e
      Engine.release).passOn e := by
  rw [parkDone, if_neg (Bool.not_eq_true _ ▸ hdiscard), hbound]

theorem passOn_none (h : m.engines[e].claimant = none ∨ m.engines[e].reservation ≠ none) : m.passOn e = m := by
  unfold MeasureState.passOn
  split
  · next hclaimant hreservation => exact absurd h (by rw [hclaimant, hreservation]; simp)
  · rfl

theorem passOn_claimant {y : Nat} (hclaimant : m.engines[e].claimant = some y)
    (hreservation : m.engines[e].reservation = none) :
    m.passOn e = (m.modEngine e (fun x => { x with claimant := none })).grant e y := by
  rw [MeasureState.passOn, hclaimant, hreservation]

theorem released_claim (m : MeasureState) (e : EngineId) :
    (m.modEngine e Engine.release).engines[e].claimant = m.engines[e].claimant ∧
      (m.modEngine e Engine.release).engines[e].reservation = m.engines[e].reservation := by
  rw [engines_modEngine_self]
  exact ⟨rfl, rfl⟩

/-- A released engine is passed on as its claim and reservation say (R52). -/
theorem passOn_released (m : MeasureState) (e : EngineId) :
    (m.engines[e].claimant = none ∨ m.engines[e].reservation ≠ none →
      (m.modEngine e Engine.release).passOn e = m.modEngine e Engine.release) ∧
    ∀ y, m.engines[e].claimant = some y → m.engines[e].reservation = none →
      (m.modEngine e Engine.release).passOn e =
        ((m.modEngine e Engine.release).modEngine e (fun x => { x with claimant := none })).grant e y := by
  obtain ⟨hclaimant, hreservation⟩ := released_claim m e
  exact ⟨fun h => passOn_none (by rwa [hclaimant, hreservation]),
    fun y hy hr => passOn_claimant (hclaimant.trans hy) (hreservation.trans hr)⟩

section discarded
variable (hdiscard : m.engines[e].discard = true)
include hdiscard

theorem restoreDone_discarded : restoreDone m e = m.modEngine e Engine.release := if_pos hdiscard

theorem absorbDone_discarded : absorbDone m e = m.modEngine e Engine.release := if_pos hdiscard

theorem finalisationDone_discarded : finalisationDone m e = m.modEngine e Engine.release := if_pos hdiscard

theorem parkDone_discarded : parkDone m e = (m.modEngine e Engine.release).passOn e := if_pos hdiscard

end discarded

end ends

/-! ### The obligations -/

/-- Settles O28: each row's end, on an engine whose step is not discarded. -/
theorem stepsEndInAChoice : Obligations.StepsEndInAChoice := by
  intro s e i g hmanifest hdiscard hbound hg
  refine ⟨fun h => ?_, fun h => ?_, fun h => ?_⟩
  · rw [exec_restoreDone hmanifest h, restoreDone_bound hdiscard hbound hg]
  · rw [exec_seedStepDone hmanifest h, absorbDone_kept hdiscard]
    rfl
  · rw [exec_beatStepDone hmanifest h, absorbDone_kept hdiscard]
    rfl

/-- Settles O30: the park saves the context, and the released engine is passed on. -/
theorem parkSavesTheContext : Obligations.ParkSavesTheContext := by
  intro s e i c hstate hmanifest hdiscard hbound hcontext
  rw [exec_parkDone hmanifest hstate, parkDone_bound hdiscard hbound, hcontext]
  obtain ⟨hkept, hpassed⟩ := passOn_released (s.measure.modImage i (fun g => { g with slot := some c })) e
  refine ⟨fun h => ?_, fun y hy hr => ?_⟩
  · rw [hkept h]
    rfl
  · rw [hpassed y hy hr]
    rfl

/-- Settles O31: every discarded end releases the engine, and a park's passes it on. -/
theorem discardedStepEndsFree : Obligations.DiscardedStepEndsFree := by
  intro s e hmanifest hdiscard
  obtain ⟨hkept, hpassed⟩ := passOn_released s.measure e
  refine ⟨fun h => ?_, fun h => ?_, fun h => ?_, fun h => ?_, fun h => ⟨fun hclaim => ?_, fun y hy hr => ?_⟩⟩
  · rw [exec_restoreDone hmanifest h, restoreDone_discarded hdiscard]
    rfl
  · rw [exec_seedStepDone hmanifest h, absorbDone_discarded hdiscard]
    rfl
  · rw [exec_beatStepDone hmanifest h, absorbDone_discarded hdiscard]
    rfl
  · rw [exec_finalisationDone hmanifest h, finalisationDone_discarded hdiscard]
    rfl
  · rw [exec_parkDone hmanifest h, parkDone_discarded hdiscard, hkept hclaim]
    rfl
  · rw [exec_parkDone hmanifest h, parkDone_discarded hdiscard, hpassed y hy hr]
    rfl

end Sys2Proof.Proofs

/-! The verdict on an image and the end of a finalisation (R8, R59, R60, R128, R133). -/

namespace Sys2Proof.Proofs
open Sys2Proof.Machine Sys2Proof.Laws

/-! ### The verdict -/

theorem verified_failDependents (m : MeasureState) (i : Nat) : (m.failDependents i).verified = m.verified :=
  foldl_keeps (·.verified) _ (fun m d => verified_breakOne m d _) _ _

/-- The image enters its verdict state and its reservation lapses (R60, R64). -/
def enterVerdict (m : MeasureState) (i : Nat) (st : ImageState) : MeasureState :=
  (m.mapEngines (·.lapse i)).enter i st

section verdict
variable {m : MeasureState} {i : Nat} {g : Image}

theorem image?_enterVerdict (st : ImageState) (j : Nat) : (enterVerdict m i st).image? j =
    if i = j then (m.image? j).map (fun g => { g with state := st, transitions := saturate (g.transitions + 1) })
    else m.image? j := by
  rw [enterVerdict, image?_enter]
  rfl

theorem engines_enterVerdict (st : ImageState) (e : EngineId) :
    (enterVerdict m i st).engines[e] = m.engines[e].lapse i :=
  (engines_congr (enter_engines _ i st) e).trans (engines_mapEngines m e _)

theorem length_enterVerdict (st : ImageState) : (enterVerdict m i st).images.length = m.images.length := by
  rw [enterVerdict, MeasureState.enter, MeasureState.noteChange]
  exact (length_modImage _ i _).trans (length_modImage _ i _)

theorem dependents_enterVerdict (st : ImageState) (x : Nat) :
    (enterVerdict m i st).dependents x = m.dependents x := by
  refine dependents_congr (length_enterVerdict st) (fun d => ?_) x
  rw [image?_enterVerdict]
  split
  · rw [Option.map_map]
    rfl
  · rfl

variable (hg : m.image? i = some g) (hfinishing : g.state.isFinishing = true)
include hg hfinishing

theorem verdict_recorded (r : PendingResult) {d : Digest} (h : verdictState g r = .recorded d) :
    m.verdict i r = enterVerdict m i (.recorded d) := by
  unfold MeasureState.verdict
  rw [hg]
  simp only [hfinishing, if_true, h]
  rfl

theorem verdict_verified (r : PendingResult) {d : Digest} (h : verdictState g r = .verified d) :
    m.verdict i r = { enterVerdict m i (.verified d) with verified := joinTail m.verified i } := by
  unfold MeasureState.verdict
  rw [hg]
  simp only [hfinishing, if_true, h]
  rfl

theorem verdict_mismatched (r : PendingResult) {d : Digest} (h : verdictState g r = .mismatched d) :
    m.verdict i r = (enterVerdict m i (.mismatched d)).failDependents i := by
  unfold MeasureState.verdict
  rw [hg]
  simp only [hfinishing, if_true, h]
  rfl

/-- The image's own record after its verdict; the cascade leaves it, since it is not measuring any more. -/
theorem image?_verdict_self (r : PendingResult) : (m.verdict i r).image? i =
    some { g with state := verdictState g r, transitions := saturate (g.transitions + 1) } := by
  have henter (st : ImageState) : (enterVerdict m i st).image? i =
      some { g with state := st, transitions := saturate (g.transitions + 1) } := by
    rw [image?_enterVerdict, if_pos rfl, hg]
    rfl
  rcases verdictState_cases g r with h | h | h
  · rw [verdict_recorded hg hfinishing r h, henter, h]
  · rw [verdict_verified hg hfinishing r h, h]
    exact henter _
  · rw [verdict_mismatched hg hfinishing r h, image?_failDependents, henter, h]
    (repeat' split) <;> rfl

theorem image?_verdict_of_dependent (r : PendingResult) {d : Digest} (h : verdictState g r = .mismatched d)
    {j : Nat} (hj : j ≠ i) (hdependent : j ∈ m.dependents i) :
    (m.verdict i r).image? j = (m.image? j).map (breakIfMeasuring .predecessorFailed) := by
  rw [verdict_mismatched hg hfinishing r h, image?_failDependents, dependents_enterVerdict, if_pos hdependent,
    image?_enterVerdict, if_neg (Ne.symm hj)]

theorem image?_verdict_of_not (r : PendingResult) {j : Nat} (hj : j ≠ i)
    (h : ¬ ((∃ d, verdictState g r = .mismatched d) ∧ j ∈ m.dependents i)) :
    (m.verdict i r).image? j = m.image? j := by
  have henter (st : ImageState) : (enterVerdict m i st).image? j = m.image? j := by
    rw [image?_enterVerdict, if_neg (Ne.symm hj)]
  rcases verdictState_cases g r with hst | hst | hst
  · rw [verdict_recorded hg hfinishing r hst, henter]
  · rw [verdict_verified hg hfinishing r hst]
    exact henter _
  · rw [verdict_mismatched hg hfinishing r hst, image?_failDependents, dependents_enterVerdict,
      if_neg (fun hd => h ⟨⟨_, hst⟩, hd⟩), henter]

theorem engine_verdict (r : PendingResult) {P : Engine → Prop} (hP : ∀ x d, P x → P (freedFrom d x)) {e : EngineId}
    (h : P (m.engines[e].lapse i)) : P (m.verdict i r).engines[e] := by
  have henter (st : ImageState) : P (enterVerdict m i st).engines[e] := by rwa [engines_enterVerdict]
  rcases verdictState_cases g r with hst | hst | hst
  · rw [verdict_recorded hg hfinishing r hst]
    exact henter _
  · rw [verdict_verified hg hfinishing r hst]
    exact henter (.verified r.digest)
  · rw [verdict_mismatched hg hfinishing r hst]
    exact engine_breakAll _ hP _ (henter _)

theorem verified_verdict_verified (r : PendingResult) {d : Digest} (h : verdictState g r = .verified d) :
    (m.verdict i r).verified = joinTail m.verified i := by
  rw [verdict_verified hg hfinishing r h]

theorem verified_verdict_of_not (r : PendingResult) (h : ∀ d, verdictState g r ≠ .verified d) :
    (m.verdict i r).verified = m.verified := by
  rcases verdictState_cases g r with hst | hst | hst
  · rw [verdict_recorded hg hfinishing r hst]
    rfl
  · exact absurd hst (h _)
  · rw [verdict_mismatched hg hfinishing r hst, verified_failDependents]
    rfl

theorem subjects_verdict_of_not (r : PendingResult) (h : ∀ d, verdictState g r ≠ .mismatched d) :
    (m.verdict i r).subjects = joinTail m.subjects i := by
  rcases verdictState_cases g r with hst | hst | hst
  · rw [verdict_recorded hg hfinishing r hst]
    rfl
  · rw [verdict_verified hg hfinishing r hst]
    rfl
  · exact absurd hst (h _)

theorem subjects_verdict_mismatched (r : PendingResult) {d : Digest} (h : verdictState g r = .mismatched d)
    (hlower : m.predecessorsLower) : (m.verdict i r).subjects =
      (i :: (m.dependents i).filter m.isMeasuring).foldl joinTail m.subjects := by
  obtain ⟨hi, hnodup⟩ := List.nodup_cons.1 (closure_nodup hlower i)
  have hsame : (m.dependents i).filter (enterVerdict m i (.mismatched d)).isMeasuring =
      (m.dependents i).filter m.isMeasuring := by
    refine List.filter_congr fun j hj => ?_
    have hne : i ≠ j := fun h => hi (h ▸ hj)
    rw [MeasureState.isMeasuring, image?_enterVerdict, if_neg hne]
    rfl
  rw [verdict_mismatched hg hfinishing r h, MeasureState.failDependents, dependents_enterVerdict,
    subjects_breakAll _ hnodup, hsame]
  rfl

theorem mem_subjects_verdict (r : PendingResult) : i ∈ (m.verdict i r).subjects := by
  have hjoined : i ∈ joinTail m.subjects i := (mem_joinTail _ _ _).2 (.inr rfl)
  rcases verdictState_cases g r with hst | hst | hst
  · rw [verdict_recorded hg hfinishing r hst]
    exact hjoined
  · rw [verdict_verified hg hfinishing r hst]
    exact hjoined
  · rw [verdict_mismatched hg hfinishing r hst]
    exact subjects_subset_breakAll _ _ hjoined

end verdict

theorem reservation_lapse (i : Nat) (x : Engine) : (x.lapse i).reservation ≠ some i := by
  unfold Engine.lapse
  split
  · nofun
  · rename_i h
    exact h

/-- The engine is FREE, has no image and no context. -/
def Freed (x : Engine) : Prop := x.state = .free ∧ x.bound = none ∧ x.context = none

theorem freed_lapse {x : Engine} (h : Freed x) (i : Nat) : Freed (x.lapse i) := by
  unfold Engine.lapse
  (repeat' split) <;> exact h

theorem freed_freedFrom (x : Engine) (d : Nat) (h : Freed x) : Freed (freedFrom d x) := by
  obtain ⟨hstate, hbound, hcontext⟩ := h
  have htear : x.tearFrom d = x := by rw [Engine.tearFrom, hbound, if_neg nofun]
  rw [freedFrom, htear]
  refine freed_lapse ?_ d
  unfold Engine.dropClaim
  (repeat' split) <;> exact ⟨hstate, hbound, hcontext⟩

theorem reservation_freedFrom (i : Nat) (x : Engine) (d : Nat) (h : x.reservation ≠ some i) :
    (freedFrom d x).reservation ≠ some i := by
  obtain ⟨-, -, -, hreservation⟩ := teardown_bound x
  unfold freedFrom Engine.lapse Engine.dropClaim Engine.tearFrom
  (repeat' split) <;> simp_all

theorem unreserved_freedFrom (x : Engine) (d : Nat) (h : x.reservation = none) :
    (freedFrom d x).reservation = none := by
  obtain ⟨-, -, -, hreservation⟩ := teardown_bound x
  unfold freedFrom Engine.lapse Engine.dropClaim Engine.tearFrom
  (repeat' split) <;> simp_all

/-! ### The end of a finalisation -/

/-- The result of a finalisation, kept until the verdict (R59, R60). -/
def resultFor (g : Image) (c : Context) : PendingResult :=
  { digest := finalResult c, matched := finalResult c == g.declared.expected }

theorem verdictState_resultFor (g : Image) (c : Context) : verdictState g (resultFor g c) =
    if g.declared.policy.measureOnly then .recorded (finalResult c)
    else if finalResult c = g.declared.expected then .verified (finalResult c) else .mismatched (finalResult c) := by
  simp [verdictState, resultFor]

section finalisation
variable {m : MeasureState} {e : EngineId} {i : Nat} {g : Image} {c : Context}
  (hdiscard : m.engines[e].discard = false) (hbound : m.engines[e].bound = some i)
  (hcontext : m.engines[e].context = some c) (hg : m.image? i = some g)
include hdiscard hbound hcontext hg

theorem finalisationDone_verdict (h : g.inFlight = 0) :
    finalisationDone m e = (m.modEngine e Engine.release).verdict i (resultFor g c) := by
  unfold finalisationDone
  rw [if_neg (Bool.not_eq_true _ ▸ hdiscard), hbound, hcontext]
  simp only [hg, h, if_true]
  rfl

theorem finalisationDone_waits (h : 0 < g.inFlight) (hfinishing : g.state.isFinishing = true) :
    finalisationDone m e = (m.modEngine e Engine.release).modImage i
      (fun g' => { g' with state := .finishing (some (resultFor g c)) }) := by
  unfold finalisationDone
  rw [if_neg (Bool.not_eq_true _ ▸ hdiscard), hbound, hcontext]
  simp only [hg, Nat.ne_of_gt h, if_false, hfinishing, if_true]
  rfl

/-- What a released engine keeps through the verdict, or through the wait for the writes in flight. -/
theorem engine_finalisationDone (hfinishing : g.state.isFinishing = true) {P : Engine → Prop}
    (hP : ∀ x d, P x → P (freedFrom d x)) (hrelease : P m.engines[e].release)
    (hlapse : P (m.engines[e].release.lapse i)) : P (finalisationDone m e).engines[e] := by
  rcases Nat.eq_zero_or_pos g.inFlight with h | h
  · rw [finalisationDone_verdict hdiscard hbound hcontext hg h]
    refine engine_verdict ((image?_modEngine m i e _).trans hg) hfinishing _ hP ?_
    rwa [engines_modEngine_self]
  · rw [finalisationDone_waits hdiscard hbound hcontext hg h hfinishing, engines_congr (modImage_engines _ _ _),
      engines_modEngine_self]
    exact hrelease

end finalisation

theorem mismatched_iff (g : Image) (c : Context) : (∃ d, verdictState g (resultFor g c) = .mismatched d) ↔
    g.declared.policy.measureOnly = false ∧ finalResult c ≠ g.declared.expected := by
  rw [verdictState_resultFor]
  (repeat' split) <;> simp_all

theorem not_verified_of (g : Image) (c : Context)
    (h : g.declared.policy.measureOnly = true ∨ finalResult c ≠ g.declared.expected) (d : Digest) :
    verdictState g (resultFor g c) ≠ .verified d := by
  rw [verdictState_resultFor]
  (repeat' split) <;> simp_all

/-- Settles O29: the engine is released, and either the result waits or the verdict is taken at once. -/
theorem finalisationGivesTheVerdict : Obligations.FinalisationGivesTheVerdict := by
  intro s e i g p c hstate hmanifest hdiscard hbound hcontext hg hp
  have hfinishing : g.state.isFinishing = true := by rw [hp]; rfl
  have hreleased : (s.measure.modEngine e Engine.release).image? i = some g := hg
  have hevolves := evolves_finalisationDone s.measure e
  have hverdict := finalisationDone_verdict hdiscard hbound hcontext hg
  have hwaits (h : 0 < g.inFlight) := finalisationDone_waits hdiscard hbound hcontext hg h hfinishing
  obtain ⟨hfree, hunbound, hnone⟩ := engine_finalisationDone hdiscard hbound hcontext hg hfinishing
    freed_freedFrom ⟨rfl, rfl, rfl⟩ (freed_lapse ⟨rfl, rfl, rfl⟩ i)
  refine ⟨_, exec_finalisationDone hmanifest hstate, hfree, hunbound, hnone,
    ⟨fun h => ?_, fun h => ?_⟩, fun h hr => ?_, hevolves.entries, hevolves.segments, hevolves.nextSeq,
    fun h => ?_, fun h => ?_⟩
  · rw [hwaits h, image?_modImage, if_pos rfl]
    exact congrArg _ hg
  · rw [hverdict h]
    refine ⟨_, image?_verdict_self hreleased hfinishing _, verdictState_resultFor g c, rfl, rfl,
      mem_subjects_verdict hreleased hfinishing _, fun d hd => ?_, fun e' => ?_⟩
    · rw [verified_verdict_verified hreleased hfinishing _ hd]
      exact (mem_joinTail _ _ _).2 (.inr rfl)
    · exact engine_verdict hreleased hfinishing _ (reservation_freedFrom i) (reservation_lapse i _)
  · rw [hverdict h]
    refine engine_verdict hreleased hfinishing _ unreserved_freedFrom ?_
    rw [engines_modEngine_self]
    exact congrArg Engine.reservation (if_pos hr)
  · rw [hwaits h]
    refine ⟨rfl, rfl, fun j hj => ?_⟩
    rw [image?_modImage, if_neg (Ne.symm hj)]
    rfl
  · rw [hverdict h]
    refine ⟨fun j x hx hj => ⟨fun hmismatch hd hmeasuring => ?_, fun hnot => ?_⟩, fun hpolicy hexpected => ?_,
      fun hother => ?_, fun hmatch => ?_, fun hmismatch hlower => ?_⟩
    · obtain ⟨d, hst⟩ := (mismatched_iff g c).2 hmismatch
      rw [image?_verdict_of_dependent hreleased hfinishing _ hst hj hd]
      refine (congrArg _ hx).trans (congrArg some ?_)
      exact if_pos hmeasuring
    · by_cases hd : (∃ d, verdictState g (resultFor g c) = .mismatched d) ∧ j ∈ s.measure.dependents i
      · obtain ⟨⟨d, hst⟩, hd⟩ := hd
        rw [image?_verdict_of_dependent hreleased hfinishing _ hst hj hd]
        refine (congrArg _ hx).trans (congrArg some ?_)
        exact if_neg fun hmeasuring => hnot ⟨(mismatched_iff g c).1 ⟨d, hst⟩, hd, hmeasuring⟩
      · exact (image?_verdict_of_not hreleased hfinishing _ hj hd).trans hx
    · have hst : verdictState g (resultFor g c) = .verified (finalResult c) := by
        rw [verdictState_resultFor, if_neg (by simp [hpolicy]), if_pos (show finalResult c = _ from hexpected)]
      rw [verified_verdict_verified hreleased hfinishing _ hst, joinTail_eq]
      rfl
    · exact verified_verdict_of_not hreleased hfinishing _ (not_verified_of g c hother)
    · rw [subjects_verdict_of_not hreleased hfinishing _ fun d hd => hmatch ((mismatched_iff g c).1 ⟨d, hd⟩), joinTail_eq]
      rfl
    · obtain ⟨d, hst⟩ := (mismatched_iff g c).2 hmismatch
      exact (subjects_verdict_mismatched hreleased hfinishing _ hst hlower).trans
        (congrArg (fun f => List.foldl f s.measure.subjects _) (funext fun l => funext (joinTail_eq l)))

end Sys2Proof.Proofs

/-! The next-step choice of an engine with a bound image (R55, R57, R58). -/

namespace Sys2Proof.Proofs
open Sys2Proof.Machine Sys2Proof.Laws

section choice
variable {m : MeasureState} {e : EngineId} {i : Nat} {g : Image}

theorem ready_of_image (hg : m.image? i = some g) : m.ready i = m.readyImage g := by
  rw [MeasureState.ready, hg]
  rfl

variable (hbound : m.engines[e].bound = some i) (hg : m.image? i = some g)
include hbound hg

theorem choose_eq : m.choose e =
    if g.cursor = g.declared.length then m.modEngine e (fun x => { x with state := .finalizing })
    else if 0 < g.handOff then m.takeDelivered e i
    else if m.engines[e].parkOrder then m.modEngine e (fun x => { x with state := .parking, parkOrder := false })
    else if m.ready i then
      match g.runs with
      | { start := _, body := .staged _ } :: _ => m.takeStaged e i
      | _ => m.modEngine e (fun x => { x with state := .awaitingRefill })
    else m.hold e := by
  unfold MeasureState.choose
  rw [hbound]
  simp only [hg, ready_of_image hg] <;> rfl

theorem choose_whole (h : g.cursor = g.declared.length) :
    m.choose e = m.modEngine e (fun x => { x with state := .finalizing }) :=
  (choose_eq hbound hg).trans (if_pos h)

variable (hpart : g.cursor ≠ g.declared.length)
include hpart

theorem choose_delivered (h : 0 < g.handOff) : m.choose e = m.takeDelivered e i :=
  (choose_eq hbound hg).trans ((if_neg hpart).trans (if_pos h))

variable (hhandOff : g.handOff = 0)
include hhandOff

theorem choose_parks (h : m.engines[e].parkOrder = true) :
    m.choose e = m.modEngine e (fun x => { x with state := .parking, parkOrder := false }) :=
  (choose_eq hbound hg).trans ((if_neg hpart).trans ((if_neg (by omega)).trans (if_pos h)))

variable (horder : m.engines[e].parkOrder = false)
include horder

theorem choose_of_ready (h : m.ready i = true) : m.choose e =
    match g.runs with
    | { start := _, body := .staged _ } :: _ => m.takeStaged e i
    | _ => m.modEngine e (fun x => { x with state := .awaitingRefill }) := by
  rw [choose_eq hbound hg, if_neg hpart, if_neg (by omega), if_neg (Bool.not_eq_true _ ▸ horder), if_pos h]

theorem choose_holds (h : m.ready i = false) : m.choose e = m.hold e := by
  rw [choose_eq hbound hg, if_neg hpart, if_neg (by omega), if_neg (Bool.not_eq_true _ ▸ horder),
    if_neg (Bool.not_eq_true _ ▸ h)]

end choice

theorem dropStagedBeat_cons (start : Nat) (b : Beat) (beats : List Beat) (runs : List Run) :
    dropStagedBeat ({ start := start, body := .staged (b :: beats) } :: runs) =
      if beats = [] then runs else { start := start + 16, body := .staged beats } :: runs := by
  cases beats <;> rfl

/-- Settles O26: the first case that applies. -/
theorem nextStepChoice : Obligations.NextStepChoice := by
  intro m e i g hbound hg
  refine ⟨fun j hj => image?_choose_ne m e j fun h => hj (Option.some.inj (h.symm.trans hbound)),
    fun e' => engines_choose_ne m e e', choose_whole hbound hg, fun hpart hhandOff b rest hdelivered => ?_,
    choose_parks hbound hg, fun hpart hhandOff horder => ⟨fun hready start b beats runs hruns => ?_,
      fun hready start n q settled runs hruns => ?_, choose_holds hbound hg hpart hhandOff horder⟩⟩
  · rw [choose_delivered hbound hg hpart hhandOff]
    exact takeDelivered_cons hdelivered hg
  · obtain ⟨hengine, himage⟩ := takeStaged_cons (e := e) hg (by rw [hruns]; rfl)
    rw [hruns, dropStagedBeat_cons] at himage
    rw [choose_of_ready hbound hg hpart hhandOff horder hready, hruns]
    exact ⟨hengine, himage⟩
  · rw [choose_of_ready hbound hg hpart hhandOff horder hready, hruns]

end Sys2Proof.Proofs

/-! Grants, the arbiter, and the pool at the end of an event (R50 to R53, R56, R58, R63, R73). -/

namespace Sys2Proof.Proofs
open Sys2Proof.Machine Sys2Proof.Laws

/-! ### Grants -/

section grant
variable {m : MeasureState} {i : Nat} {g : Image} (hg : m.image? i = some g) (e : EngineId)
include hg

theorem grant_parked {c : Context} (h : g.slot = some c) : m.grant e i =
    MeasureState.modEngine { m with waitList := leave m.waitList i } e
      (fun x => { x with bound := some i, state := .restoring, claimant := none }) := by
  unfold MeasureState.grant
  simp only [hg, h]

theorem grant_seeded (h : g.slot = none) {d : Digest}
    (hseed : (g.declared.predecessor.bind m.image?).bind (·.state.goodResult) = some d) : m.grant e i =
    MeasureState.modEngine { m with waitList := leave m.waitList i } e
      (fun x => { x with bound := some i, state := .absorbing .seed, claimant := none,
                         context := some (takeSeed freshContext d) }) := by
  unfold MeasureState.grant
  simp only [hg, h]
  have hseed' : (g.declared.predecessor.bind
      (MeasureState.image? { m with waitList := leave m.waitList i })).bind (·.state.goodResult) = some d := hseed
  rw [hseed']

theorem grant_fresh (h : g.slot = none) (hpredecessor : g.declared.predecessor = none) : m.grant e i =
    (MeasureState.modEngine { m with waitList := leave m.waitList i } e
      (fun x => { x with bound := some i, claimant := none, context := some freshContext })).choose e := by
  unfold MeasureState.grant
  simp only [hg, h, hpredecessor]
  rfl

end grant

theorem takeSeed_fresh (d : Digest) : takeSeed freshContext d =
    { hash := initialHash, block := digestBytes d, total := 32, seeded := true } := by
  simp [takeSeed, takeBytes, freshContext, digestBytes]

theorem goodResult_of {st : ImageState} {d : Digest} (h : st = .verified d ∨ st = .recorded d) :
    st.goodResult = some d := by
  obtain rfl | rfl := h <;> rfl

/-! ### The arbiter -/

theorem unreserved_iff (x : Engine) :
    (x.state == .free && x.reservation.isNone) = true ↔ x.state = .free ∧ x.reservation = none := by
  simp [Option.isNone_iff_eq_none]

theorem freeEngine_lowest {m : MeasureState} {e : EngineId}
    (hfree : m.engines[e].state = .free ∧ m.engines[e].reservation = none)
    (hlow : ∀ e' : EngineId, e' < e → ¬ (m.engines[e'].state = .free ∧ m.engines[e'].reservation = none)) :
    m.freeEngine = some e :=
  find?_lowest (by decide) (mem_engineIds e) ((unreserved_iff _).2 hfree)
    fun e' he => Bool.eq_false_iff.2 (mt (unreserved_iff _).1 (hlow e' he))

theorem freeEngine_none {m : MeasureState}
    (h : ∀ e : EngineId, ¬ (m.engines[e].state = .free ∧ m.engines[e].reservation = none)) :
    m.freeEngine = none :=
  List.find?_eq_none.2 fun e _ => mt (unreserved_iff _).1 (h e)

theorem evictable_iff (x : Engine) :
    x.evictable = true ↔ x.state = .holding ∧ x.reservation = none ∧ x.claimant = none := by
  simp [Engine.evictable, Option.isNone_iff_eq_none, and_assoc]

/-- One engine looked at by the eviction choice (R51). -/
def keepEarlier (m : MeasureState) (best : Option EngineId) (e : EngineId) : Option EngineId :=
  if m.engines[e].evictable then
    match best with
    | none => some e
    | some b => if m.engines[e].holdingSince < m.engines[b].holdingSince then some e else best
  else best

theorem evictionChoice_eq (m : MeasureState) : m.evictionChoice = engineIds.foldl (keepEarlier m) none := rfl

theorem keepEarlier_of_not {m : MeasureState} {e : EngineId} (h : m.engines[e].evictable = false)
    (best : Option EngineId) : keepEarlier m best e = best :=
  if_neg (Bool.not_eq_true _ ▸ h)

theorem keepEarlier_earlier {m : MeasureState} {e : EngineId} (h : m.engines[e].evictable = true)
    {best : Option EngineId} (hbest : ∀ b ∈ best, m.engines[e].holdingSince < m.engines[b].holdingSince) :
    keepEarlier m best e = some e := by
  unfold keepEarlier
  rw [if_pos h]
  cases best with
  | none => rfl
  | some b => exact if_pos (hbest b rfl)

/-- An engine that has held as long as any that follows stays the choice. -/
theorem foldl_keepEarlier_kept {m : MeasureState} {e : EngineId} (l : List EngineId)
    (h : ∀ e' ∈ l, m.engines[e'].evictable = true → m.engines[e].holdingSince ≤ m.engines[e'].holdingSince) :
    l.foldl (keepEarlier m) (some e) = some e := by
  induction l with
  | nil => rfl
  | cons a l ih =>
    obtain ⟨ha, hl⟩ := List.forall_mem_cons.1 h
    have hkept : keepEarlier m (some e) a = some e := by
      by_cases hev : m.engines[a].evictable = true
      · exact (if_pos hev).trans (if_neg (Nat.not_lt.2 (ha hev)))
      · exact if_neg hev
    rw [List.foldl_cons, hkept, ih hl]

/-- The evictable engine that has held longest, the lowest of equals, is chosen from a rising list. -/
theorem foldl_keepEarlier {m : MeasureState} {e : EngineId} (hev : m.engines[e].evictable = true)
    (hbefore : ∀ e' : EngineId, e' < e → m.engines[e'].evictable = true →
      m.engines[e].holdingSince < m.engines[e'].holdingSince)
    (hafter : ∀ e' : EngineId, m.engines[e'].evictable = true →
      m.engines[e].holdingSince ≤ m.engines[e'].holdingSince)
    {l : List EngineId} (hsorted : l.Pairwise (· < ·)) (hmem : e ∈ l) {best : Option EngineId}
    (hbest : ∀ b ∈ best, m.engines[e].holdingSince < m.engines[b].holdingSince) :
    l.foldl (keepEarlier m) best = some e := by
  induction l generalizing best with
  | nil => cases hmem
  | cons a l ih =>
    obtain ⟨ha, hl⟩ := List.pairwise_cons.1 hsorted
    rw [List.foldl_cons]
    obtain rfl | hmem := List.mem_cons.1 hmem
    · rw [keepEarlier_earlier hev hbest]
      exact foldl_keepEarlier_kept l fun e' _ => hafter e'
    · refine ih hl hmem fun b hb => ?_
      unfold keepEarlier at hb
      split at hb
      · rename_i hea
        have hlt := hbefore a (ha e hmem) hea
        cases best with
        | none => cases hb; exact hlt
        | some b' =>
          simp only at hb
          split at hb
          · cases hb; exact hlt
          · exact hbest b hb
      · exact hbest b hb

theorem evictionChoice_earliest {m : MeasureState} {e : EngineId} (hev : m.engines[e].evictable = true)
    (h : ∀ e' : EngineId, m.engines[e'].evictable = true →
      m.engines[e].holdingSince < m.engines[e'].holdingSince ∨
        (m.engines[e].holdingSince = m.engines[e'].holdingSince ∧ e ≤ e')) :
    m.evictionChoice = some e := by
  refine foldl_keepEarlier hev (fun e' hlt hev' => ?_) (fun e' hev' => ?_) (by decide) (mem_engineIds e) nofun
  · exact (h e' hev').resolve_right fun hle => absurd hlt (Nat.not_lt.2 hle.2)
  · exact (h e' hev').elim Nat.le_of_lt fun heq => Nat.le_of_eq heq.1

theorem evictionChoice_of_none {m : MeasureState} (h : ∀ e : EngineId, m.engines[e].evictable = false) :
    m.evictionChoice = none := by
  rw [evictionChoice_eq, show keepEarlier m = fun best _ => best from
    funext fun best => funext fun e => keepEarlier_of_not (h e) best]
  rfl

section arbiter
variable {m : MeasureState} {i : Nat} {rest : List Nat} (hwait : m.waitList = i :: rest)
include hwait

theorem arbitrateOne_grants {e : EngineId} (h : m.freeEngine = some e) :
    m.arbitrateOne = some (MeasureState.grant { m with waitList := rest } e i) := by
  unfold MeasureState.arbitrateOne
  rw [hwait]
  simp only [h]

theorem arbitrateOne_evicts (hfree : m.freeEngine = none) {e : EngineId} (h : m.evictionChoice = some e) :
    m.arbitrateOne = some (MeasureState.modEngine { m with waitList := rest } e
      (fun x => { x with state := .parking, claimant := some i })) := by
  unfold MeasureState.arbitrateOne
  rw [hwait]
  simp only [hfree, h]

theorem arbitrateOne_waits (hfree : m.freeEngine = none) (h : m.evictionChoice = none) :
    m.arbitrateOne = none := by
  unfold MeasureState.arbitrateOne
  rw [hwait]
  simp only [hfree, h]

end arbiter

end Sys2Proof.Proofs

/-! The pool at the end of an event: readiness acted on, and the arbiter repeated (R42, R50 to R52, R56, R58,
R63, R73). -/

namespace Sys2Proof.Proofs
open Sys2Proof.Machine Sys2Proof.Laws

/-! ### Requests and claims for images that are no longer ready -/

theorem holdAll_eq (L : List RefillRequest) (m : MeasureState) : ∃ engines,
    L.foldl (fun m r => m.hold r.engine) m = { m with engines := engines } := by
  induction L generalizing m with
  | nil => exact ⟨_, rfl⟩
  | cons q L ih =>
    obtain ⟨engines, h⟩ := ih (m.hold q.engine)
    exact ⟨engines, h⟩

theorem engines_holdAll (L : List RefillRequest) (m : MeasureState) (e : EngineId) :
    (L.foldl (fun m r => m.hold r.engine) m).engines[e] =
      if ∃ q ∈ L, q.engine = e then { m.engines[e] with state := .holding, holdingSince := m.now }
      else m.engines[e] := by
  induction L generalizing m with
  | nil => simp
  | cons q L ih =>
    have hone : (m.hold q.engine).engines[e] =
        if q.engine = e then { m.engines[e] with state := .holding, holdingSince := m.now } else m.engines[e] :=
      engines_modEngine m q.engine e _
    rw [List.foldl_cons, ih, hone]
    by_cases hq : q.engine = e
    · rw [if_pos hq]
      refine Eq.trans ?_ (if_pos ⟨q, List.mem_cons_self, hq⟩).symm
      (repeat' split) <;> rfl
    · rw [if_neg hq]
      exact ite_congr (propext (by simp [hq])) (fun _ => rfl) fun _ => rfl

theorem withdrawUnready_eq (m : MeasureState) : ∃ engines, m.withdrawUnready =
    { m with engines := engines, refillPending := m.refillPending.filter (fun q => m.ready q.image) } :=
  holdAll_eq _ _

theorem engines_withdrawUnready (m : MeasureState) (e : EngineId) : m.withdrawUnready.engines[e] =
    if ∃ q ∈ m.refillPending, q.engine = e ∧ m.ready q.image = false then
      { m.engines[e] with state := .holding, holdingSince := m.now } else m.engines[e] := by
  refine (engines_holdAll _ _ e).trans (ite_congr (propext ?_) (fun _ => rfl) fun _ => rfl)
  constructor
  · rintro ⟨q, hq, he⟩
    obtain ⟨hmem, hnot⟩ := List.mem_filter.1 hq
    exact ⟨q, hmem, he, by simpa using hnot⟩
  · rintro ⟨q, hmem, he, hnot⟩
    exact ⟨q, List.mem_filter.2 ⟨hmem, by simpa using hnot⟩, he⟩

theorem engines_dropUnready (m : MeasureState) (e : EngineId) : m.dropUnready.engines[e] =
    if m.engines[e].claimant.any (fun i => !m.ready i) then { m.engines[e] with claimant := none }
    else m.engines[e] :=
  engines_mapEngines m e fun x => if x.claimant.any (fun i => !m.ready i) then { x with claimant := none } else x

theorem dropUnready_claim (m : MeasureState) (e : EngineId) :
    (∀ i, m.engines[e].claimant = some i → m.ready i = false →
      m.dropUnready.engines[e] = { m.engines[e] with claimant := none }) ∧
    ((∀ i, m.engines[e].claimant = some i → m.ready i = true) → m.dropUnready.engines[e] = m.engines[e]) := by
  refine ⟨fun i hi hready => ?_, fun h => ?_⟩
  · rw [engines_dropUnready, if_pos]
    rw [hi, Option.any_some, hready]
    rfl
  · rw [engines_dropUnready, if_neg]
    rw [Option.any_eq_true]
    rintro ⟨i, hi, hnot⟩
    rw [h i hi] at hnot
    exact absurd hnot (by decide)

/-! ### Engines that resume or are granted -/

theorem resumeHolding_rows (m : MeasureState) (e : EngineId) :
    (∀ i, m.engines[e].state = .holding → m.engines[e].bound = some i → m.ready i = true →
      m.resumeHolding e = m.choose e) ∧
    ((m.engines[e].state = .holding → ∀ i, m.engines[e].bound = some i → m.ready i = false) →
      m.resumeHolding e = m) := by
  have hcond : (m.engines[e].state == .holding && m.engines[e].bound.any m.ready) = true ↔
      m.engines[e].state = .holding ∧ ∃ i, m.engines[e].bound = some i ∧ m.ready i = true := by
    rw [Bool.and_eq_true, beq_iff_eq, Option.any_eq_true]
  refine ⟨fun i hstate hbound hready => if_pos (hcond.2 ⟨hstate, i, hbound, hready⟩), fun h => if_neg fun hc => ?_⟩
  obtain ⟨hstate, i, hbound, hready⟩ := hcond.1 hc
  rw [h hstate i hbound] at hready
  cases hready

theorem bindingOf_isNone_iff (m : MeasureState) (i : Nat) : (m.bindingOf i).isNone = true ↔ m.unbound i := by
  unfold MeasureState.bindingOf MeasureState.unbound
  rw [Option.isNone_iff_eq_none, List.find?_eq_none]
  exact ⟨fun h e he => h e (mem_engineIds e) (beq_iff_eq.2 he), fun h e _ he => h e (beq_iff_eq.1 he)⟩

theorem grantPinned_rows (m : MeasureState) (e : EngineId) :
    (∀ p, m.engines[e].reservation = some p → m.engines[e].state = .free → m.ready p = true →
      m.unbound p → m.grantPinned e = m.grant e p) ∧
    ((∀ p, m.engines[e].reservation = some p → m.engines[e].state = .free → m.ready p = true →
      ¬ m.unbound p) → m.grantPinned e = m) := by
  have hcond (p : Nat) : (m.engines[e].state == .free && m.ready p && (m.bindingOf p).isNone) = true ↔
      (m.engines[e].state = .free ∧ m.ready p = true) ∧ m.unbound p := by
    rw [Bool.and_eq_true, Bool.and_eq_true, beq_iff_eq, bindingOf_isNone_iff]
  refine ⟨fun p hp hfree hready hunbound => ?_, fun h => ?_⟩
  · unfold MeasureState.grantPinned
    rw [hp]
    exact if_pos ((hcond p).2 ⟨⟨hfree, hready⟩, hunbound⟩)
  · unfold MeasureState.grantPinned
    split
    · next p hp =>
      refine if_neg fun hc => ?_
      obtain ⟨⟨hfree, hready⟩, hunbound⟩ := (hcond p).1 hc
      exact h p hp hfree hready hunbound
    · rfl

/-! ### The wait list -/

theorem foldl_joinTail_eq {L : List Nat} (hnodup : L.Nodup) (l : List Nat) :
    L.foldl joinTail l = l ++ L.filter (fun x => decide (x ∉ l)) := by
  induction L generalizing l with
  | nil => simp
  | cons a L ih =>
    obtain ⟨ha, hL⟩ := List.nodup_cons.1 hnodup
    rw [List.foldl_cons, ih hL, joinTail_eq, List.filter_cons]
    by_cases hmem : a ∈ l
    · rw [if_pos hmem, if_neg (by simpa using hmem)]
    · have hsame : L.filter (fun x => decide (x ∉ l ++ [a])) = L.filter (fun x => decide (x ∉ l)) :=
        List.filter_congr fun x hx => by
          have hne : x ≠ a := fun h => ha (h ▸ hx)
          simp [hne]
      rw [if_neg hmem, if_pos (by simpa using hmem), hsame, List.append_assoc]
      rfl

theorem indices_increasing (m : MeasureState) : m.indices.Pairwise (· < ·) :=
  List.pairwise_map.2 (List.pairwise_lt_range.imp fun h => by omega)

theorem mem_indices_of_ready {m : MeasureState} {i : Nat} (h : m.ready i = true) : i ∈ m.indices := by
  obtain ⟨g, hg, -⟩ := ready_filling h
  have hbounds := (image?_isSome m i).1 (by rw [hg]; rfl)
  exact List.mem_map.2 ⟨i - 1, List.mem_range.2 (by omega), by omega⟩

theorem joinWaiting_rows (m : MeasureState) : ∃ new : List Nat,
    m.joinWaiting = { m with waitList := m.waitList ++ new } ∧ new.Pairwise (· < ·) ∧
      ∀ i, i ∈ new ↔ i ∉ m.waitList ∧ m.ready i = true ∧ m.unbound i ∧ m.unpinned i ∧
        ∀ e : EngineId, m.engines[e].claimant ≠ some i := by
  have hsorted := (indices_increasing m).filter m.mayWait
  have hnodup : (m.indices.filter m.mayWait).Nodup := hsorted.imp Nat.ne_of_lt
  refine ⟨_, congrArg (fun l => { m with waitList := l }) (foldl_joinTail_eq hnodup m.waitList),
    hsorted.filter _, fun i => ?_⟩
  rw [List.mem_filter, List.mem_filter, mayWait_iff, decide_eq_true_eq]
  constructor
  · rintro ⟨⟨-, hready, hunbound, hclaims, hunpinned⟩, hnot⟩
    exact ⟨hnot, hready, hunbound, hunpinned, hclaims⟩
  · rintro ⟨hnot, hready, hunbound, hunpinned, hclaims⟩
    exact ⟨⟨mem_indices_of_ready hready, hready, hunbound, hclaims, hunpinned⟩, hnot⟩

/-! ### The arbiter repeated -/

/-- The pool after n actions of the arbiter. -/
def arbiterRun (m : MeasureState) : Nat → MeasureState
  | 0 => m
  | n + 1 => (arbiterRun m n).arbitrateOne.getD (arbiterRun m n)

theorem arbitrateOne_of_empty {m : MeasureState} (h : m.waitList = []) : m.arbitrateOne = none := by
  unfold MeasureState.arbitrateOne
  rw [h]

theorem arbitrate_zero (m : MeasureState) : m.arbitrate 0 = m := rfl

theorem arbitrate_acts {m m' : MeasureState} (h : m.arbitrateOne = some m') (n : Nat) :
    m.arbitrate (n + 1) = m'.arbitrate n := by
  rw [MeasureState.arbitrate, h]

theorem arbitrate_waits {m : MeasureState} (h : m.arbitrateOne = none) (n : Nat) : m.arbitrate (n + 1) = m := by
  rw [MeasureState.arbitrate, h]

theorem arbiterRun_succ {m m' : MeasureState} (h : m.arbitrateOne = some m') (n : Nat) :
    arbiterRun m (n + 1) = arbiterRun m' n := by
  induction n with
  | zero => exact congrArg (·.getD m) h
  | succ n ih => rw [arbiterRun, ih]; rfl

/-- The arbiter acts until it cannot, when its wait list is at most n long (R51). -/
theorem arbitrate_runs (n : Nat) {m : MeasureState} (hlength : m.waitList.length ≤ n) : ∃ k,
    (∀ j, j < k → (arbiterRun m j).arbitrateOne = some (arbiterRun m (j + 1))) ∧
      (arbiterRun m k).arbitrateOne = none ∧ m.arbitrate n = arbiterRun m k := by
  induction n generalizing m with
  | zero =>
    have hempty : m.waitList = [] := List.eq_nil_of_length_eq_zero (Nat.le_zero.1 hlength)
    exact ⟨0, nofun, arbitrateOne_of_empty hempty, rfl⟩
  | succ n ih =>
    cases hone : m.arbitrateOne with
    | none => exact ⟨0, nofun, hone, arbitrate_waits hone n⟩
    | some m' =>
      obtain ⟨k, hacts, hstops, heq⟩ := ih (length_one hone n hlength)
      refine ⟨k + 1, fun j hj => ?_, ?_, ?_⟩
      · cases j with
        | zero => rw [arbiterRun_succ hone]; exact hone
        | succ j => rw [arbiterRun_succ hone, arbiterRun_succ hone]; exact hacts j (by omega)
      · rwa [arbiterRun_succ hone]
      · rw [arbitrate_acts hone, heq, arbiterRun_succ hone]

theorem foldl_engineIds (f : MeasureState → EngineId → MeasureState) (m : MeasureState) :
    engineIds.foldl f m = f (f (f (f m 0) 1) 2) 3 := rfl

/-- The pool's turn at the end of an event, up to the arbiter (R42, R50, R56, R63). -/
theorem settlePool_runs (m : MeasureState) : ∃ run : Nat → MeasureState,
    run 0 = ((((((((m.withdrawUnready.dropUnready.resumeHolding 0).resumeHolding 1).resumeHolding 2).resumeHolding
      3).grantPinned 0).grantPinned 1).grantPinned 2).grantPinned 3).joinWaiting ∧
    ∃ k, (∀ n, n < k → (run n).arbitrateOne = some (run (n + 1))) ∧ (run k).arbitrateOne = none ∧
      m.settlePool = run k := by
  rw [MeasureState.settlePool, foldl_engineIds, foldl_engineIds]
  exact ⟨arbiterRun _, rfl, arbitrate_runs _ (Nat.le_refl _)⟩

/-- Neither the refill unit nor the report unit acts on the engines or the wait list. -/
theorem settle_pool (s : State) : s.settle.measure.engines = s.measure.settlePool.engines ∧
    s.settle.measure.waitList = s.measure.settlePool.waitList := by
  obtain ⟨-, -, hmeasure, -⟩ := settle_chosen s
  generalize s.measure.settlePool = m at hmeasure ⊢
  obtain ⟨-, hengines, -, hwait, -⟩ := serveFrom_spec m.requestRefills.refillPending m.requestRefills
  rw [hmeasure]
  obtain heq | ⟨x, xs, -, heq⟩ := measure_chooseReport s.manifest m.serveRefills.1 s.report
  · rw [heq]
    exact ⟨hengines, hwait⟩
  · rw [heq]
    exact ⟨hengines, hwait⟩

/-- Settles O27: a grant, one action of the arbiter, each part of the pool's turn, and their order. -/
theorem grantsAndTheArbiter : Obligations.GrantsAndTheArbiter := by
  refine ⟨fun m e i g hg => ⟨fun c => grant_parked hg e, fun hslot p h d hp hh hd => ?_, grant_fresh hg e⟩,
    fun m i rest hwait => ⟨fun e hfree hlow => arbitrateOne_grants hwait (freeEngine_lowest hfree hlow),
      fun hfree e hholds hfirst => ?_, fun hfree hholds => ?_⟩,
    fun m => ⟨withdrawUnready_eq m, engines_withdrawUnready m, ⟨_, rfl⟩, dropUnready_claim m,
      resumeHolding_rows m, grantPinned_rows m, joinWaiting_rows m⟩,
    settlePool_runs, settle_pool⟩
  · have hseed : (g.declared.predecessor.bind m.image?).bind (·.state.goodResult) = some d := by
      rw [hp, Option.bind_some, hh]
      exact goodResult_of hd
    rw [grant_seeded hg e hslot hseed, takeSeed_fresh]
    rfl
  · exact arbitrateOne_evicts hwait (freeEngine_none hfree) (evictionChoice_earliest ((evictable_iff _).2 hholds)
      fun e' he' => hfirst e' ((evictable_iff _).1 he'))
  · exact arbitrateOne_waits hwait (freeEngine_none hfree)
      (evictionChoice_of_none fun e => Bool.eq_false_iff.2 (mt (evictable_iff _).1 (hholds e)))

end Sys2Proof.Proofs

/-! The end of parsing as a row, the revocation decision at ARMED, and the burn (R113, R121 to R123). -/

namespace Sys2Proof.Proofs
open Sys2Proof.Machine Sys2Proof.Laws

/-! ### The end of parsing -/

section parsingDone
variable {s : State} {slot : AnchorSlot} {digest : Digest} {an : Anchors} {n : Nat}
  (hphase : s.manifest.phase = .parsing) (hchecked : s.manifest.checked = some (slot, digest))
  (hanchors : s.manifest.anchors = some an) (hlength : s.manifest.length = some n)
include hphase hchecked hanchors hlength

theorem exec_parsingDone : exec .parsingDone s =
    match parseManifest s.manifest.buffer (64 * n) s.manifest.windowBase with
    | .error why => .next (s.failAttempt why).settle
    | .ok c => .next (s.arm c slot digest an.primary (64 * n)).settle := by
  have hbytes : s.manifest.lengthBytes = some (64 * n) := by rw [ManifestState.lengthBytes, hlength]; rfl
  simp only [exec, execParsingDone, hphase, hchecked, hanchors, hbytes] <;> rfl

theorem exec_parsingDone_ok {c : Contents}
    (h : parseManifest s.manifest.buffer (64 * n) s.manifest.windowBase = .ok c) :
    exec .parsingDone s = .next (s.arm c slot digest an.primary (64 * n)).settle := by
  rw [exec_parsingDone hphase hchecked hanchors hlength, h]

theorem exec_parsingDone_error {why : RejectReason}
    (h : parseManifest s.manifest.buffer (64 * n) s.manifest.windowBase = .error why) :
    exec .parsingDone s = .next (s.failAttempt why).settle := by
  rw [exec_parsingDone hphase hchecked hanchors hlength, h]

end parsingDone

/-- Settles O49: `revocationAtArmed`, row by row, with the flag read from byte 3 of the buffer. -/
theorem revocationDecidedAtArmed : Obligations.RevocationDecidedAtArmed := by
  intro s t slot digest an n c hphase hchecked hanchors hlength hparse hexec
  have ht := (exec_parsingDone_ok hphase hchecked hanchors hlength hparse).symm.trans hexec
  obtain rfl : (s.arm c slot digest an.primary (64 * n)).settle = t := Host.Outcome.next.inj ht
  obtain ⟨-, -, rfl⟩ := parseManifest_eq_ok.1 hparse
  have hdecided : (s.arm (readContents s.manifest.buffer) slot digest an.primary (64 * n)).settle.manifest.revocation =
      some (revocationAtArmed ((bufferByte s.manifest.buffer 3).getLsbD 0) slot an.primary s.vprog) := rfl
  refine ⟨hanchors, fun hflag => ?_, fun hflag hslot => ?_, fun hflag hslot hblank => ?_,
    fun hflag hslot hrevoked => ?_, fun d hflag hslot hprogrammed => ?_⟩
  · rw [hdecided, hflag]
    rfl
  · rw [hdecided, hflag, hslot]
    rfl
  · rw [hdecided, hflag, hslot, hblank]
    rfl
  · rw [hdecided, hflag, hslot, hrevoked]
    rfl
  · rw [hdecided, hflag, hslot, hprogrammed]
    rfl

/-! ### The burn -/

theorem burning_iff (s : State) : s.burning = true ↔ s.manifest.revocation = some .inProgress := beq_iff_eq

section burning
variable {s : State}

theorem exec_fuseBlown (h : s.manifest.revocation = some .inProgress) (hvprog : s.vprog = true) :
    exec .fuseBlown s = .next (s.endBurn .done (fusesBlown s.fuses)).settle :=
  if_pos (Bool.and_eq_true_iff.2 ⟨(burning_iff s).2 h, hvprog⟩)

theorem exec_fuseBlown_idle (h : s.manifest.revocation ≠ some .inProgress ∨ s.vprog = false) :
    exec .fuseBlown s = .next s := by
  refine if_neg fun hc => ?_
  obtain ⟨hburning, hvprog⟩ := Bool.and_eq_true_iff.1 hc
  obtain hidle | hno := h
  · exact hidle ((burning_iff s).1 hburning)
  · rw [hno] at hvprog
    cases hvprog

theorem exec_burnLimitExpiry (h : s.manifest.revocation = some .inProgress) :
    exec .burnLimitExpiry s = .next (s.endBurn .failed (fusesExpired s.fuses)).settle :=
  if_pos ((burning_iff s).2 h)

theorem exec_burnLimitExpiry_idle (h : s.manifest.revocation ≠ some .inProgress) :
    exec .burnLimitExpiry s = .next s :=
  if_neg (mt (burning_iff s).1 h)

end burning

theorem fusesExpired_of_not_whole {f : Fuses} (h : ∀ d a, f ≠ .read (.whole d) a) : fusesExpired f = f := by
  unfold fusesExpired
  split
  · next d a => exact absurd rfl (h d a)
  · rfl

theorem fusesAfterReset_burning {s : State} (h : s.manifest.revocation = some .inProgress) :
    fusesAfterReset s = fusesExpired s.fuses := by
  unfold fusesAfterReset fusesExpired
  rw [h]
  cases hf : s.fuses with
  | unread => rfl
  | read p a => cases p <;> rfl

theorem fusesAfterReset_idle {s : State} (h : s.manifest.revocation ≠ some .inProgress) :
    fusesAfterReset s = s.fuses := by
  unfold fusesAfterReset
  split
  · next hburning _ => exact absurd hburning h
  · rfl

theorem fuses_of_reset {c : Instr} {s t : State} (hc : c = .coldReset ∨ c = .warmReset) (h : exec c s = .next t) :
    t.fuses = fusesAfterReset s := by
  obtain rfl | rfl := hc
  · rw [← Host.Outcome.next.inj h]
    rfl
  · rw [← Host.Outcome.next.inj h]
    rfl

/-- Settles O50: the two ends of a burn, the fuses after a reset, and what the next sensing makes of them. -/
theorem burnEnds : Obligations.BurnEnds := by
  refine ⟨fun s present => ⟨rfl, fun hburning => ⟨fun hvprog => ?_, fun hvprog => exec_fuseBlown_idle (.inr hvprog), ?_⟩,
    fun hidle => ⟨exec_fuseBlown_idle (.inl hidle), exec_burnLimitExpiry_idle hidle⟩⟩,
    fun c s t hc h => ⟨fun hburning d a hwhole => ?_, fun hkept => ?_⟩,
    fun s t primary alternate held hphase hreset h => ?_⟩
  · refine ⟨fusesBlown s.fuses, exec_fuseBlown hburning hvprog, fun p a hread => ?_, fun hunread => ?_⟩
    · rw [hread]
      rfl
    · rw [hunread]
      rfl
  · refine ⟨fusesExpired s.fuses, exec_burnLimitExpiry hburning, fun d a hwhole => ?_, fusesExpired_of_not_whole⟩
    rw [hwhole]
    rfl
  · rw [fuses_of_reset hc h, fusesAfterReset_burning hburning, hwhole]
    rfl
  · rw [fuses_of_reset hc h]
    by_cases hburning : s.manifest.revocation = some .inProgress
    · rw [fusesAfterReset_burning hburning, fusesExpired_of_not_whole (hkept.resolve_left (not_not_intro hburning))]
    · exact fusesAfterReset_idle hburning
  · have hanchors : t.manifest.anchors = some (sensedAnchors s.fuses primary alternate) := by
      rw [← Host.Outcome.next.inj ((exec_sensingDone primary alternate hphase hreset).symm.trans h)]
      rfl
    refine ⟨fun hf => ?_, fun d hf => ?_, fun d hf => ?_, fun hf => ?_⟩ <;> rw [hanchors, hf] <;> rfl

end Sys2Proof.Proofs

/-! Numbers and digests as bytes (R175). -/

namespace Sys2Proof.Proofs
open Sys2Proof.Machine Sys2Proof.Laws

/-! ### Little-endian numbers -/

theorem littleEndian_cons (x : Byte) (bytes : List Byte) :
    littleEndian (x :: bytes) = littleEndian bytes * 256 + x.toNat := rfl

theorem littleEndian_lt (bytes : List Byte) : littleEndian bytes < 256 ^ bytes.length := by
  induction bytes with
  | nil => exact Nat.one_pos
  | cons x bytes ih =>
    have hx := x.isLt
    rw [littleEndian_cons, List.length_cons, Nat.pow_succ]
    omega

theorem littleEndian_single (x : Byte) : littleEndian [x] = x.toNat := Nat.zero_add _

theorem length_leBytes (n v : Nat) : (leBytes n v).length = n := by simp [leBytes]

theorem leBytes_succ (n v : Nat) : leBytes (n + 1) v = BitVec.ofNat 8 v :: leBytes n (v / 256) := by
  rw [leBytes, List.range_succ_eq_map, List.map_cons, List.map_map, Nat.pow_zero, Nat.div_one, leBytes]
  refine congrArg _ (List.map_congr_left fun k _ => ?_)
  rw [Function.comp_apply, Nat.succ_eq_add_one, Nat.pow_succ', Nat.div_div_eq_div_mul]

theorem littleEndian_leBytes {n v : Nat} (h : v < 256 ^ n) : littleEndian (leBytes n v) = v := by
  induction n generalizing v with
  | zero =>
    rw [Nat.pow_zero, Nat.lt_one_iff] at h
    rw [h]
    rfl
  | succ n ih =>
    have hrest : v / 256 < 256 ^ n := Nat.div_lt_of_lt_mul (by rwa [← Nat.pow_succ'])
    rw [leBytes_succ, littleEndian_cons, ih hrest, BitVec.toNat_ofNat]
    omega

/-! ### Digests -/

theorem length_digestBytes (d : Digest) : (digestBytes d).length = 32 := by simp [digestBytes]

theorem digestBytes_getElem? (d : Digest) {k : Nat} (h : k < 32) :
    (digestBytes d)[k]? = some (d.extractLsb' (8 * k) 8) := by
  rw [digestBytes, List.getElem?_map, List.getElem?_range h]
  rfl

theorem digestOfBytes_cons (x : Byte) (bytes : List Byte) :
    digestOfBytes (x :: bytes) = (digestOfBytes bytes <<< 8) ||| x.setWidth 256 := rfl

/-- Byte j of the digest built from bytes is the j-th of them. -/
theorem extract_digestOfBytes {bytes : List Byte} {j : Nat} {x : Byte} (hj : j < 32) (hx : bytes[j]? = some x) :
    (digestOfBytes bytes).extractLsb' (8 * j) 8 = x := by
  induction bytes generalizing j with
  | nil => cases hx
  | cons y bytes ih =>
    refine BitVec.eq_of_getLsbD_eq fun i hi => ?_
    rw [BitVec.getLsbD_extractLsb', digestOfBytes_cons, BitVec.getLsbD_or, BitVec.getLsbD_shiftLeft,
      BitVec.getLsbD_setWidth]
    cases j with
    | zero =>
      obtain rfl : y = x := Option.some.inj hx
      simp [hi, show i < 256 by omega]
    | succ j =>
      have hbyte := congrArg (·.getLsbD i) (ih (by omega) hx)
      simp only [BitVec.getLsbD_extractLsb', hi, decide_true, Bool.true_and] at hbyte
      have hhigh : y.getLsbD (8 * (j + 1) + i) = false := BitVec.getLsbD_of_ge _ _ (by omega)
      rw [hhigh, Bool.and_false, Bool.or_false, show 8 * (j + 1) + i - 8 = 8 * j + i by omega, hbyte]
      simp [hi, show 8 * (j + 1) + i < 256 by omega, show ¬ 8 * (j + 1) + i < 8 by omega]

end Sys2Proof.Proofs

/-! The parse checks and the contents they are made on (R113 to R117, R176, R177). -/

namespace Sys2Proof.Proofs
open Sys2Proof.Machine Sys2Proof.Laws

/-! ### Fields of the buffer -/

theorem bufferField_one (buffer : List (Nat × Beat)) (offset : Nat) :
    bufferField buffer offset 1 = (bufferByte buffer offset).toNat :=
  littleEndian_single _

theorem bufferField_lt (buffer : List (Nat × Beat)) (offset n : Nat) : bufferField buffer offset n < 256 ^ n := by
  have h := littleEndian_lt (bufferBytes buffer offset n)
  rwa [bufferBytes, List.length_map, List.length_range] at h

theorem set_of_field (buffer : List (Nat × Beat)) (offset : Nat) :
    (BitVec.ofNat 32 (bufferField buffer offset 4)).toNat = bufferField buffer offset 4 := by
  have h := bufferField_lt buffer offset 4
  rw [BitVec.toNat_ofNat, Nat.mod_eq_of_lt (by omega)]

theorem bufferBytes_getElem? (buffer : List (Nat × Beat)) (offset : Nat) {n j : Nat} (h : j < n) :
    (bufferBytes buffer offset n)[j]? = some (bufferByte buffer (offset + j)) := by
  rw [bufferBytes, List.getElem?_map, List.getElem?_range h]
  rfl

theorem images_length (buffer : List (Nat × Beat)) :
    (readContents buffer).images.length = (readContents buffer).header.imageCount := by
  simp [readContents]

theorem segments_length (buffer : List (Nat × Beat)) :
    (readContents buffer).segments.length = (readContents buffer).header.segmentCount := by
  simp [readContents]

theorem readContents_image {buffer : List (Nat × Beat)} {k : Nat} {f : ImageFields}
    (h : (readContents buffer).images[k]? = some f) : f = readImage buffer (k + 1) := by
  obtain ⟨j, hj, rfl⟩ := Option.map_eq_some_iff.1 ((List.getElem?_map ..).symm.trans h)
  rw [(List.getElem?_eq_some_iff.1 hj).2.symm, List.getElem_range]

theorem readContents_segment {buffer : List (Nat × Beat)} {e : Nat} {x : SegmentFields}
    (h : (readContents buffer).segments[e]? = some x) :
    x = readSegment buffer (readHeader buffer).imageCount e := by
  obtain ⟨j, hj, rfl⟩ := Option.map_eq_some_iff.1 ((List.getElem?_map ..).symm.trans h)
  rw [(List.getElem?_eq_some_iff.1 hj).2.symm, List.getElem_range]

/-! ### What each check says -/

theorem rangesMeet_eq_false (x y : Nat × Nat) : rangesMeet x y = false ↔ x.2 ≤ y.1 ∨ y.2 ≤ x.1 := by
  rw [rangesMeet, Bool.and_eq_false_iff, decide_eq_false_iff_not, decide_eq_false_iff_not, Nat.not_lt, Nat.not_lt]
  exact Or.comm

theorem noneMeet_iff (l : List (Nat × Nat)) :
    anyPair rangesMeet l = false ↔ l.Pairwise (fun x y => x.2 ≤ y.1 ∨ y.2 ≤ x.1) := by
  rw [anyPair_false]
  simp only [rangesMeet_eq_false]

section checks
variable (c : Contents) (w : Addr)

/-- Check 5 (R115). -/
theorem badSegmentLists_eq_false : badSegmentLists c = false ↔
    (∀ f ∈ c.images, 1 ≤ f.count ∧ f.count ≤ 8 ∧ f.first + f.count ≤ c.header.segmentCount) ∧
      c.images.Pairwise (fun f f' => f.first + f.count ≤ f'.first ∨ f'.first + f'.count ≤ f.first) := by
  have hone (f : ImageFields) :
      (f.count == 0 || 8 < f.count || c.header.segmentCount < f.first + f.count) = false ↔
        1 ≤ f.count ∧ f.count ≤ 8 ∧ f.first + f.count ≤ c.header.segmentCount := by
    simp [Nat.one_le_iff_ne_zero, and_assoc]
  rw [badSegmentLists, Bool.or_eq_false_iff, noneMeet_iff, List.pairwise_map, List.any_eq_false]
  simp only [Bool.not_eq_true, hone]
  rfl

/-- Check 6 (R115). -/
theorem badSegmentRecord_eq_false : c.segments.any badSegmentRecord = false ↔
    ∀ x ∈ c.segments, x.base % 16 = 0 ∧ x.length % 16 = 0 ∧ 16 ≤ x.length ∧ x.length ≤ 0x1000000 ∧
      x.base + x.length ≤ 2 ^ 40 := by
  have hone (x : SegmentFields) : badSegmentRecord x = false ↔
      x.base % 16 = 0 ∧ x.length % 16 = 0 ∧ 16 ≤ x.length ∧ x.length ≤ 0x1000000 ∧ x.base + x.length ≤ 2 ^ 40 := by
    simp only [badSegmentRecord, Bool.or_eq_false_iff, bne_eq_false_iff_eq, beq_eq_false_iff_ne,
      decide_eq_false_iff_not, ne_eq]
    rw [show Config.addressEnd = 2 ^ 40 from rfl]
    omega
  rw [List.any_eq_false]
  simp only [Bool.not_eq_true, hone]

/-- Check 7 (R116). -/
theorem badReportArea_eq_false (h : ManifestHeader) : badReportArea h = false ↔
    h.reportBase % 64 = 0 ∧ h.recordCount ∈ [8, 16, 32, 64, 128, 256] ∧
      h.reportBase + 64 + 64 * h.recordCount ≤ 2 ^ 40 := by
  rw [badReportArea, Bool.or_eq_false_iff, Bool.or_eq_false_iff, bne_eq_false_iff_eq, Bool.not_eq_false',
    List.contains_iff_mem, decide_eq_false_iff_not, Nat.not_lt, areaBytes, ← Nat.add_assoc, and_assoc]
  rfl

/-- Check 8 (R116). -/
theorem placedRanges_apart : anyPair rangesMeet (placedRanges c w) = false ↔
    c.segments.Pairwise (fun x y => x.base + x.length ≤ y.base ∨ y.base + y.length ≤ x.base) ∧
    (∀ x ∈ c.segments, (x.base + x.length ≤ w.toNat ∨ w.toNat + 4096 ≤ x.base) ∧
      (x.base + x.length ≤ c.header.reportBase ∨
        c.header.reportBase + 64 + 64 * c.header.recordCount ≤ x.base)) ∧
    (w.toNat + 4096 ≤ c.header.reportBase ∨ c.header.reportBase + 64 + 64 * c.header.recordCount ≤ w.toNat) := by
  rw [noneMeet_iff, placedRanges, List.pairwise_append, List.pairwise_map]
  simp only [List.mem_map, forall_exists_index, and_imp, forall_apply_eq_imp_iff₂, List.mem_cons, List.not_mem_nil,
    or_false, forall_eq_or_imp, forall_eq, List.pairwise_cons, Config.windowBytes, areaBytes, ← Nat.add_assoc,
    List.Pairwise.nil, and_true, false_implies, implies_true]
  exact ⟨fun ⟨hsegments, hwindow, hplaced⟩ => ⟨hsegments, hplaced, hwindow⟩,
    fun ⟨hsegments, hplaced, hwindow⟩ => ⟨hsegments, hwindow, hplaced⟩⟩

/-- Check 9 (R117). -/
theorem badPredecessors_eq_false : badPredecessors c = false ↔
    ∀ (k : Nat) (f : ImageFields), c.images[k]? = some f → f.predecessor ≤ k := by
  rw [badPredecessors, List.any_eq_false]
  constructor
  · intro h k f hf
    have hk := h k (List.mem_range.2 (List.getElem?_eq_some_iff.1 hf).1)
    rw [hf, Option.any_some, decide_eq_true_eq] at hk
    omega
  · intro h k _ hbad
    obtain ⟨f, hf, hlate⟩ := (Option.any_eq_true _ _).1 hbad
    have hk := h k f hf
    rw [decide_eq_true_eq] at hlate
    omega

/-- Check 10 (R117). -/
theorem badPins_eq_false : badPins c = false ↔
    (∀ f ∈ c.images, f.pin = 0xFF ∨ f.pin ≤ 3) ∧
    c.images.Pairwise (fun f f' => f.pin = 0xFF ∨ f.pin ≠ f'.pin) ∧
    (c.images.filter (fun f => f.pin != 0xFF)).length ≤ 2 := by
  have hgiven : (pinsGiven c).length = (c.images.filter (fun f => f.pin != 0xFF)).length := by
    rw [pinsGiven, List.filter_map, List.length_map]
    rfl
  rw [badPins, Bool.or_eq_false_iff, Bool.or_eq_false_iff, anyPair_false, decide_eq_false_iff_not, hgiven, Nat.not_lt,
    List.any_eq_false, and_assoc, pinsGiven]
  refine and_congr ?_ (and_congr ?_ Iff.rfl)
  · simp only [List.mem_filter, List.mem_map, bne_iff_ne, ne_eq, decide_eq_true_eq, Nat.not_lt, and_imp,
      forall_exists_index, forall_apply_eq_imp_iff₂, Classical.or_iff_not_imp_left]
  · simp only [List.pairwise_filter, List.pairwise_map, bne_iff_ne, ne_eq, beq_eq_false_iff_ne]
    refine ⟨List.Pairwise.imp fun {f f'} h => ?_, List.Pairwise.imp fun {f f'} h hf _ => ?_⟩
    · by_cases hf : f.pin = 0xFF
      · exact .inl hf
      · by_cases hf' : f'.pin = 0xFF
        · exact .inr fun heq => hf (heq.trans hf')
        · exact .inr (h hf hf')
    · exact h.resolve_left hf

/-- Check 11 of one release set (R117). -/
theorem badReleaseSet_eq_false (hcount : c.images.length = c.header.imageCount) (set : BitVec 32) :
    badReleaseSet c set = false ↔ ∀ i, i < 32 → set.getLsbD i = true →
      ∃ f, 1 ≤ i ∧ c.images[i - 1]? = some f ∧ f.policy.measureOnly = false := by
  rw [badReleaseSet, List.any_eq_false]
  simp only [List.mem_range, Bool.and_eq_true, not_and, Bool.not_eq_true, Bool.or_eq_false_iff,
    beq_eq_false_iff_ne, decide_eq_false_iff_not, Nat.not_lt]
  refine forall_congr' fun i => forall_congr' fun _ => forall_congr' fun _ => ?_
  constructor
  · rintro ⟨⟨hi, hle⟩, hpolicy⟩
    have hlt : i - 1 < c.images.length := by omega
    rw [List.getElem?_eq_getElem hlt, Option.any_some] at hpolicy
    exact ⟨_, by omega, List.getElem?_eq_getElem hlt, hpolicy⟩
  · rintro ⟨f, hi, hf, hpolicy⟩
    have hlt := (List.getElem?_eq_some_iff.1 hf).1
    rw [hf, Option.any_some]
    exact ⟨⟨by omega, by omega⟩, hpolicy⟩

/-- Check 11 (R117). -/
theorem badReleaseSets_eq_false (hcount : c.images.length = c.header.imageCount) :
    (badReleaseSet c c.header.set0 || badReleaseSet c c.header.set1) = false ↔
      ∀ i, i < 32 → c.header.set0.getLsbD i = true ∨ c.header.set1.getLsbD i = true →
        ∃ f, 1 ≤ i ∧ c.images[i - 1]? = some f ∧ f.policy.measureOnly = false := by
  rw [Bool.or_eq_false_iff, badReleaseSet_eq_false c hcount, badReleaseSet_eq_false c hcount]
  exact ⟨fun ⟨h0, h1⟩ i hi => Or.rec (h0 i hi) (h1 i hi),
    fun h => ⟨fun i hi hset => h i hi (.inl hset), fun i hi hset => h i hi (.inr hset)⟩⟩

end checks

end Sys2Proof.Proofs

/-! The order of the parse checks, and what an accepted manifest satisfies (R113 to R117). -/

namespace Sys2Proof.Proofs
open Sys2Proof.Machine Sys2Proof.Laws

/-! ### The checks in their order -/

section counts
variable {h : ManifestHeader} {n : Nat}

theorem checkCounts_version (hversion : h.version ≠ 1) : checkCounts h n = some .badVersion := if_pos hversion

variable (hversion : h.version = 1)
include hversion

theorem checkCounts_images (himages : 31 < h.imageCount) : checkCounts h n = some .tooManyImages := by
  rw [checkCounts, if_neg (not_not_intro hversion), if_pos himages]

theorem checkCounts_segments (himages : h.imageCount ≤ 31) (hsegments : 64 < h.segmentCount) :
    checkCounts h n = some .tooManySegments := by
  rw [checkCounts, if_neg (not_not_intro hversion), if_neg (Nat.not_lt.2 himages), if_pos hsegments]

theorem checkCounts_length (himages : h.imageCount ≤ 31) (hsegments : h.segmentCount ≤ 64)
    (hlength : n < 64 + 64 * h.imageCount + 16 * h.segmentCount) : checkCounts h n = some .badLength := by
  rw [checkCounts, if_neg (not_not_intro hversion), if_neg (Nat.not_lt.2 himages), if_neg (Nat.not_lt.2 hsegments),
    if_pos hlength]

end counts

theorem checkCounts_eq_none {h : ManifestHeader} {n : Nat} : checkCounts h n = none ↔
    h.version = 1 ∧ h.imageCount ≤ 31 ∧ h.segmentCount ≤ 64 ∧ 64 + 64 * h.imageCount + 16 * h.segmentCount ≤ n := by
  unfold checkCounts
  (repeat' split) <;> simp_all <;> (intros; omega)

section contents
variable {buffer : List (Nat × Beat)} {n : Nat} {w : Addr}

theorem parse_counts {why : RejectReason} (h : checkCounts (readHeader buffer) n = some why) :
    parseManifest buffer n w = .error why := by
  unfold parseManifest
  rw [h]

variable (hcounts : checkCounts (readHeader buffer) n = none)
include hcounts

theorem parse_contents {why : RejectReason} (h : checkContents (readContents buffer) w = some why) :
    parseManifest buffer n w = .error why := by
  unfold parseManifest
  rw [hcounts]
  simp only [h]

theorem parse_badSegmentLists (h : ¬ badSegmentLists (readContents buffer) = false) :
    parseManifest buffer n w = .error .tooManySegments :=
  parse_contents hcounts (if_pos (Bool.not_eq_false _ ▸ h))

variable (hlists : badSegmentLists (readContents buffer) = false)
include hlists

theorem parse_badSegmentRecord (h : ¬ (readContents buffer).segments.any badSegmentRecord = false) :
    parseManifest buffer n w = .error .badSegment := by
  refine parse_contents hcounts ?_
  rw [Bool.not_eq_false] at h
  simp only [checkContents, hlists, h, if_true, Bool.false_eq_true, if_false]

variable (hrecords : (readContents buffer).segments.any badSegmentRecord = false)
include hrecords

theorem parse_badReportArea (h : ¬ badReportArea (readContents buffer).header = false) :
    parseManifest buffer n w = .error .badReportArea := by
  refine parse_contents hcounts ?_
  rw [Bool.not_eq_false] at h
  simp only [checkContents, hlists, hrecords, h, if_true, Bool.false_eq_true, if_false]

variable (hreport : badReportArea (readContents buffer).header = false)
include hreport

theorem parse_overlap (h : ¬ anyPair rangesMeet (placedRanges (readContents buffer) w) = false) :
    parseManifest buffer n w = .error .overlap := by
  refine parse_contents hcounts ?_
  rw [Bool.not_eq_false] at h
  simp only [checkContents, hlists, hrecords, hreport, h, if_true, Bool.false_eq_true, if_false]

variable (hplaced : anyPair rangesMeet (placedRanges (readContents buffer) w) = false)
include hplaced

theorem parse_badPredecessors (h : ¬ badPredecessors (readContents buffer) = false) :
    parseManifest buffer n w = .error .badPredecessor := by
  refine parse_contents hcounts ?_
  rw [Bool.not_eq_false] at h
  simp only [checkContents, hlists, hrecords, hreport, hplaced, h, if_true, Bool.false_eq_true, if_false]

variable (hpredecessors : badPredecessors (readContents buffer) = false)
include hpredecessors

theorem parse_badPins (h : ¬ badPins (readContents buffer) = false) :
    parseManifest buffer n w = .error .badPin := by
  refine parse_contents hcounts ?_
  rw [Bool.not_eq_false] at h
  simp only [checkContents, hlists, hrecords, hreport, hplaced, hpredecessors, h, if_true, Bool.false_eq_true,
    if_false]

variable (hpins : badPins (readContents buffer) = false)
include hpins

theorem parse_badReleaseSets (h : ¬ (badReleaseSet (readContents buffer) (readContents buffer).header.set0 ||
      badReleaseSet (readContents buffer) (readContents buffer).header.set1) = false) :
    parseManifest buffer n w = .error .badReleaseSet := by
  refine parse_contents hcounts ?_
  rw [Bool.not_eq_false] at h
  simp only [checkContents, hlists, hrecords, hreport, hplaced, hpredecessors, hpins, h, if_true,
    Bool.false_eq_true, if_false]

theorem parse_accepted (h : (badReleaseSet (readContents buffer) (readContents buffer).header.set0 ||
      badReleaseSet (readContents buffer) (readContents buffer).header.set1) = false) :
    parseManifest buffer n w = .ok (readContents buffer) :=
  parseManifest_eq_ok.2 ⟨hcounts, checkContents_eq_none.2 ⟨hlists, hrecords, hreport, hplaced, hpredecessors, hpins,
    Bool.or_eq_false_iff.1 h⟩, rfl⟩

end contents

/-! ### The obligation -/

/-- The expected digest, byte by byte (R177). -/
theorem expected_byte (buffer : List (Nat × Beat)) (k j : Nat) (hj : j < 32) :
    (readImage buffer (k + 1)).expected.extractLsb' (8 * j) 8 = bufferByte buffer (64 + 64 * k + 32 + j) :=
  extract_digestOfBytes hj (bufferBytes_getElem? buffer _ hj)

/-- Settles O48: each check as an `↔`, in the order of `parseManifest`, and the fields where they are read. -/
theorem parseChecks : Obligations.ParseChecks := by
  refine ⟨fun buffer n w => ?_, fun buffer => ?_, fun buffer n w c h => ?_⟩
  · intro version images segments result c area window apart lists records report disjoint predecessors pins sets
    have hversion : (readHeader buffer).version = version := bufferField_one buffer 0
    have himages : (readHeader buffer).imageCount = images := bufferField_one buffer 1
    have hsegments : (readHeader buffer).segmentCount = segments := bufferField_one buffer 2
    have hlists : badSegmentLists c = false ↔ lists := by
      have h := badSegmentLists_eq_false c
      rwa [show c.header.segmentCount = segments from hsegments] at h
    have hrecords : c.segments.any badSegmentRecord = false ↔ records := badSegmentRecord_eq_false c
    have hreport : badReportArea c.header = false ↔ report := badReportArea_eq_false c.header
    have hdisjoint : anyPair rangesMeet (placedRanges c w) = false ↔ disjoint := placedRanges_apart c w
    have hpredecessors : badPredecessors c = false ↔ predecessors := badPredecessors_eq_false c
    have hpins : badPins c = false ↔ pins := badPins_eq_false c
    have hsets : (badReleaseSet c c.header.set0 || badReleaseSet c c.header.set1) = false ↔ sets :=
      badReleaseSets_eq_false c (images_length buffer)
    rw [← hlists, ← hrecords, ← hreport, ← hdisjoint, ← hpredecessors, ← hpins, ← hsets, ← hversion, ← himages,
      ← hsegments]
    refine ⟨fun h => parse_counts (checkCounts_version h), fun h h' => parse_counts (checkCounts_images h h'),
      fun h hi h' => parse_counts (checkCounts_segments h hi h'),
      fun h hi hs h' => parse_counts (checkCounts_length h hi hs h'), fun h hi hs hl => ?_⟩
    have hcounts : checkCounts (readHeader buffer) n = none := checkCounts_eq_none.2 ⟨h, hi, hs, hl⟩
    exact ⟨parse_badSegmentLists hcounts, parse_badSegmentRecord hcounts, parse_badReportArea hcounts,
      parse_overlap hcounts, parse_badPredecessors hcounts, parse_badPins hcounts, parse_badReleaseSets hcounts,
      parse_accepted hcounts⟩
  · refine ⟨bufferField_one buffer 0, bufferField_one buffer 1, bufferField_one buffer 2, rfl, rfl, rfl,
      set_of_field buffer 20, set_of_field buffer 24, (images_length buffer).trans (bufferField_one buffer 1),
      (segments_length buffer).trans (bufferField_one buffer 2), fun k f hf => ?_, fun e x hx => ?_⟩
    · rw [readContents_image hf]
      exact ⟨rfl, rfl, rfl, rfl, bufferField_one buffer _, bufferField_one buffer _, bufferField_one buffer _,
        bufferField_one buffer _, expected_byte buffer k⟩
    · rw [readContents_segment hx,
        show (readHeader buffer).imageCount = (bufferByte buffer 1).toNat from bufferField_one buffer 1]
      exact ⟨rfl, rfl⟩
  · obtain ⟨hcounts, hcontents, rfl⟩ := parseManifest_eq_ok.1 h
    obtain ⟨hversion, himages, hsegments, hlength⟩ := checkCounts_eq_none.1 hcounts
    obtain ⟨hlists, hrecords, hreport, hplaced, hpredecessors, hpins, hset0, hset1⟩ :=
      checkContents_eq_none.1 hcontents
    obtain ⟨hlist, hapart⟩ := (badSegmentLists_eq_false _).1 hlists
    obtain ⟨hbase, hcount, hend⟩ := (badReportArea_eq_false _).1 hreport
    obtain ⟨hsegmentsApart, hsegmentsPlaced, harea⟩ := (placedRanges_apart _ w).1 hplaced
    obtain ⟨hpin, hpinsApart, htwo⟩ := (badPins_eq_false _).1 hpins
    rw [images_length, segments_length]
    exact ⟨hversion, rfl, himages, rfl, hsegments, hlength, hlist, hapart, (badSegmentRecord_eq_false _).1 hrecords,
      hbase, hcount, hend, hsegmentsApart, hsegmentsPlaced, harea, (badPredecessors_eq_false _).1 hpredecessors, hpin,
      hpinsApart, htwo, (badReleaseSets_eq_false _ (images_length buffer)).1 (Bool.or_eq_false_iff.2 ⟨hset0, hset1⟩)⟩

end Sys2Proof.Proofs

/-! The end of parsing: a failed attempt, or ARMED with its tables (R2, R3, R5, R62, R113, R118, R140). -/

namespace Sys2Proof.Proofs
open Sys2Proof.Machine Sys2Proof.Laws

/-! ### The tables of an accepted manifest -/

theorem pinOf_eq_some_iff (p : Nat) (e : EngineId) : pinOf p = some e ↔ p = e.val := by
  unfold pinOf
  constructor
  · intro h
    split at h
    · rw [← Option.some.inj h]
    · cases h
  · rintro rfl
    exact dif_pos e.isLt

section tables
variable {c : Contents}

theorem image?_armed (m : MeasureState) {i : Nat} {f : ImageFields} (h : c.images[i]? = some f) :
    (m.armed c).image? (i + 1) = some (declaredImage (declaredOf c f)) := by
  rw [MeasureState.image?, if_neg (Nat.succ_ne_zero i), (armed_tables m c).2, imageTable, List.getElem?_map,
    Nat.add_sub_cancel, h]
  rfl

/-- Induction over a list from its end. -/
theorem concatInduction {α : Type} {motive : List α → Prop} (nil : motive [])
    (append_singleton : ∀ l a, motive l → motive (l ++ [a])) (l : List α) : motive l := by
  rw [← List.reverse_reverse l]
  induction l.reverse with
  | nil => exact nil
  | cons a l ih =>
    rw [List.reverse_cons]
    exact append_singleton _ a ih

theorem filterMap_eq_of_mem {α β : Type} {f g : α → Option β} {l : List α} (h : ∀ a ∈ l, f a = g a) :
    l.filterMap f = l.filterMap g := by
  induction l with
  | nil => rfl
  | cons a l ih =>
    rw [List.filterMap_cons, List.filterMap_cons, h a List.mem_cons_self,
      ih fun b hb => h b (List.mem_cons_of_mem _ hb)]

theorem filterMap_range {α β : Type} (l : List α) (F : Nat → α → β) :
    (List.range l.length).filterMap (fun k => (l[k]?).map (F k)) = l.mapIdx F := by
  induction l using concatInduction with
  | nil => rfl
  | append_singleton l a ih =>
    have hsame : (List.range l.length).filterMap (fun k => ((l ++ [a])[k]?).map (F k)) =
        (List.range l.length).filterMap (fun k => (l[k]?).map (F k)) :=
      filterMap_eq_of_mem fun k hk => by rw [List.getElem?_append_left (List.mem_range.1 hk)]
    rw [List.length_append, List.length_singleton, List.range_succ, List.filterMap_append, hsame, ih,
      List.mapIdx_concat]
    simp

theorem segmentTable_eq (c : Contents) : segmentTable c = c.segments.mapIdx (fun e x =>
    { base := x.base, length := x.length, owner := ownerOf c.images e, imageOffset := imageOffsetOf c e }) :=
  filterMap_range _ _

theorem segment_armed (m : MeasureState) {e : Nat} {x : SegmentFields} (h : c.segments[e]? = some x) :
    (m.armed c).segments[e]? = some { base := x.base, length := x.length, owner := ownerOf c.images e,
                                      imageOffset := imageOffsetOf c e } := by
  rw [(armed_tables m c).1, segmentTable_eq, List.getElem?_mapIdx, h]
  rfl

theorem imageOffsetOf_owned {e i : Nat} {f : ImageFields} (howner : ownerOf c.images e = some (i + 1))
    (hf : c.images[i]? = some f) :
    imageOffsetOf c e = (((c.segments.drop f.first).take (e - f.first)).map (·.length)).sum := by
  unfold imageOffsetOf
  rw [howner, Option.bind_some, Nat.add_sub_cancel, hf, ← List.drop_take]

theorem ownerOf_none {images : List ImageFields} {e : Nat}
    (h : ∀ f ∈ images, e < f.first ∨ f.first + f.count ≤ e) : ownerOf images e = none := by
  rw [ownerOf, Option.map_eq_none_iff, List.find?_eq_none]
  intro k _ hk
  obtain ⟨f, hf, hin⟩ := (Option.any_eq_true _ _).1 hk
  rw [decide_eq_true_eq] at hin
  have hout := h f (List.mem_of_getElem? hf)
  omega

theorem engines_armed (m : MeasureState) (c : Contents) (e : EngineId) :
    (m.armed c).engines[e] = { m.engines[e] with reservation := pinnedImage (imageTable c) e } :=
  engines_reserve (pinnedImage (imageTable c)) engineIds _ e (mem_engineIds e)

theorem pins_image (c : Contents) (e : EngineId) (k : Nat) :
    ((imageTable c)[k]?).any (fun g => g.declared.pin == some e) = true ↔
      ∃ f, c.images[k]? = some f ∧ f.pin = e.val := by
  rw [Option.any_eq_true, imageTable]
  constructor
  · rintro ⟨g, hg, hpin⟩
    obtain ⟨f, hf, rfl⟩ := Option.map_eq_some_iff.1 ((List.getElem?_map ..).symm.trans hg)
    exact ⟨f, hf, (pinOf_eq_some_iff _ e).1 (beq_iff_eq.1 hpin)⟩
  · rintro ⟨f, hf, hpin⟩
    exact ⟨_, by rw [List.getElem?_map, hf]; rfl, beq_iff_eq.2 ((pinOf_eq_some_iff _ e).2 hpin)⟩

theorem pinnedImage_some {e : EngineId} {i : Nat} {f : ImageFields}
    (hapart : c.images.Pairwise (fun f f' => f.pin = 0xFF ∨ f.pin ≠ f'.pin)) (hf : c.images[i]? = some f)
    (hpin : f.pin = e.val) : pinnedImage (imageTable c) e = some (i + 1) := by
  have he := e.isLt
  obtain ⟨hi, rfl⟩ := List.getElem?_eq_some_iff.1 hf
  rw [pinnedImage, find_range (k := i) (by rwa [imageTable, List.length_map]) ((pins_image c e i).2 ⟨_, hf, hpin⟩)]
  · rfl
  · intro j hj hk
    obtain ⟨f', hf', hpin'⟩ := (pins_image c e j).1 hk
    obtain ⟨hj, rfl⟩ := List.getElem?_eq_some_iff.1 hf'
    obtain hlt | heq | hlt := Nat.lt_trichotomy i j
    · have := List.pairwise_iff_getElem.1 hapart i j hi hj hlt
      omega
    · exact heq.symm
    · have := List.pairwise_iff_getElem.1 hapart j i hj hi hlt
      omega

theorem pinnedImage_none {e : EngineId} (h : ∀ f ∈ c.images, f.pin ≠ e.val) :
    pinnedImage (imageTable c) e = none := by
  rw [pinnedImage, Option.map_eq_none_iff, List.find?_eq_none]
  intro k _ hk
  obtain ⟨f, hf, hpin⟩ := (pins_image c e k).1 hk
  exact h f (List.mem_of_getElem? hf) hpin

end tables

/-- Settles O47: the first check that fails, or the step that arms. -/
theorem parsingDecides : Obligations.ParsingDecides := by
  intro s slot digest an n hphase hchecked hanchors hlength
  refine ⟨fun why => exec_parsingDone_error hphase hchecked hanchors hlength, fun c hc => ?_⟩
  obtain ⟨-, hcontents, -⟩ := parseManifest_eq_ok.1 hc
  obtain ⟨hlists, -, -, -, -, hpins, -, -⟩ := checkContents_eq_none.1 hcontents
  obtain ⟨-, hapart⟩ := (badSegmentLists_eq_false c).1 hlists
  obtain ⟨-, hpinsApart, -⟩ := (badPins_eq_false c).1 hpins
  have hm : (s.arm c slot digest an.primary (64 * n)).measure = s.measure.armed c := rfl
  refine ⟨_, exec_parsingDone_ok hphase hchecked hanchors hlength hc, rfl, rfl, rfl, rfl, ?_⟩
  rw [hm]
  obtain ⟨hsegments, himages⟩ := armed_tables s.measure c
  refine ⟨rfl, rfl, rfl, rfl, rfl, ?_, ?_, fun i f hf => ?_, fun e x hx => ?_, fun e => ⟨fun i f hf hpin => ?_, fun h => ?_⟩⟩
  · rw [himages, imageTable, List.length_map]
  · rw [hsegments, segmentTable_eq, List.length_mapIdx]
  · exact ⟨_, image?_armed s.measure hf, rfl, rfl, rfl, rfl, rfl, fun e => pinOf_eq_some_iff f.pin e, rfl, rfl, rfl,
      rfl, rfl, rfl, rfl, rfl, rfl⟩
  · refine ⟨_, segment_armed s.measure hx, rfl, rfl, fun i f hf hfirst hlast => ?_, ownerOf_none⟩
    have howner := ownerOf_some hapart hf hfirst hlast
    exact ⟨howner, imageOffsetOf_owned howner hf⟩
  · rw [engines_armed]
    exact pinnedImage_some hpinsApart hf hpin
  · rw [engines_armed]
    exact pinnedImage_none h

end Sys2Proof.Proofs

/-! The bytes of the records and of header beat 0 (R145, R146, R148, R178, R179). -/

namespace Sys2Proof.Proofs
open Sys2Proof.Machine Sys2Proof.Laws

/-- A record's digest stands behind its 32 bytes of fields (R179). -/
theorem digest_behind {fields : List Byte} (hfields : fields.length = 32) (d : Digest) :
    (fields ++ digestBytes d).length = 64 ∧
      ∀ k, k < 32 → (fields ++ digestBytes d)[32 + k]? = some (d.extractLsb' (8 * k) 8) := by
  refine ⟨by rw [List.length_append, hfields, length_digestBytes], fun k hk => ?_⟩
  rw [List.getElem?_append_right (by omega), hfields, Nat.add_sub_cancel_left, digestBytes_getElem? d hk]

theorem length_fields {a b c d e f : List Byte} (ha : a.length = 4) (hb : b.length = 4)
    (hcd : c.length + d.length = 8) (he : e.length = 4) (hf : f.length = 12) :
    (a ++ b ++ c ++ d ++ e ++ f).length = 32 := by
  simp only [List.length_append]
  omega

theorem toNat_ofNat_of_le {n : Nat} (h : n ≤ 255) : (BitVec.ofNat 8 n).toNat = n := by
  rw [BitVec.toNat_ofNat, Nat.mod_eq_of_lt (by omega)]

theorem littleEndian_four {v : Nat} (h : v < 2 ^ 32) : littleEndian (leBytes 4 v) = v :=
  littleEndian_leBytes h

/-- Settles O41: each format's fields are read back from its list of bytes. -/
theorem imageRecordLayout : Obligations.ImageRecordLayout := by
  refine ⟨fun number i g hi hi' htransitions hcursor => ?_, fun number record outcome hattempts hlength => ?_,
    fun producer seq result => ?_⟩
  · intro stateByte reasonByte bytes
    obtain ⟨htotal, hdigest⟩ := digest_behind (length_fields (a := [0x01, BitVec.ofNat 8 i, imageStateCode g.state,
      imageReasonCode g.state]) (b := leBytes 4 number.toNat) (c := [g.epoch, BitVec.ofNat 8 g.transitions])
      (d := List.replicate 6 0) (e := leBytes 4 g.cursor) (f := List.replicate 12 0) rfl rfl rfl rfl rfl)
      (reportedDigest g.state)
    refine ⟨htotal, rfl, congrArg some (toNat_ofNat_of_le (by omega)), ?_, ?_, littleEndian_four number.isLt, rfl,
      congrArg some (toNat_ofNat_of_le htransitions), rfl, littleEndian_four hcursor, rfl, fun k hk => ?_⟩
    · exact congrArg some (by cases g.state <;> rfl)
    · exact congrArg some (by cases g.state with | broken why => cases why <;> rfl | _ => rfl)
    · refine (hdigest k hk).trans (congrArg some ?_)
      cases g.state with
      | verified d => rfl
      | recorded d => rfl
      | mismatched d => rfl
      | _ => exact BitVec.extractLsb'_zero
  · intro reasonByte slotByte outcomeByte bytes
    obtain ⟨htotal, hdigest⟩ := digest_behind (length_fields (a := [0x02, 0x00, armedCode,
      (record.lastReason.map rejectReasonCode).getD 0x00]) (b := leBytes 4 number.toNat)
      (c := [0x00, 0x00, anchorSlotCode record.slot, BitVec.ofNat 8 record.failedAttempts, revocationCode outcome])
      (d := List.replicate 3 0) (e := leBytes 4 record.lengthBytes) (f := List.replicate 12 0) rfl rfl rfl rfl rfl)
      record.digest
    refine ⟨htotal, rfl, rfl, rfl, ?_, littleEndian_four number.isLt, rfl, ?_,
      congrArg some (toNat_ofNat_of_le hattempts), ?_, rfl, littleEndian_four hlength, rfl, hdigest⟩
    · exact congrArg some (by cases record.lastReason with | none => rfl | some why => cases why <;> rfl)
    · exact congrArg some (by cases record.slot <;> rfl)
    · exact congrArg some (by cases outcome <;> rfl)
  · intro resultByte bytes
    refine ⟨rfl, littleEndian_leBytes (n := 2) producer.isLt, rfl, ?_, rfl, rfl⟩
    exact congrArg some (by cases result <;> rfl)

end Sys2Proof.Proofs

/-! The manifest while it is loaded: window beats, failed attempts, window writes and absorption (R93, R106 to
R111, R119). -/

namespace Sys2Proof.Proofs
open Sys2Proof.Machine Sys2Proof.Laws

/-! ### Window beats -/

theorem lengthField_eq (b : Beat) : lengthField b = (b.extractLsb' 32 16).toNat := by
  simp only [lengthField, littleEndian, beatByte, List.foldr, BitVec.extractLsb'_toNat, Nat.shiftRight_eq_div_pow]
  omega

theorem lengthBytes_any (u : ManifestState) (offset : Nat) :
    u.lengthBytes.any (fun n => decide (n ≤ offset)) = true ↔ ∃ n, u.length = some n ∧ 64 * n ≤ offset := by
  rw [ManifestState.lengthBytes, Option.any_map, Option.any_eq_true]
  simp only [decide_eq_true_eq]

theorem bufferAt_isSome (buffer : List (Nat × Beat)) (offset : Nat) :
    (bufferAt buffer offset).isSome = true ↔ ∃ d, (offset, d) ∈ buffer := by
  rw [bufferAt, Option.isSome_map, List.find?_isSome]
  constructor
  · rintro ⟨⟨_, d⟩, hmem, hoffset⟩
    exact ⟨d, beq_iff_eq.1 hoffset ▸ hmem⟩
  · rintro ⟨d, hmem⟩
    exact ⟨_, hmem, beq_self_eq_true _⟩

theorem beatEmpty_iff (b : WriteBeat) : beatEmpty b = true ↔ b.strobes = 0 := beq_iff_eq

theorem beatFull_iff (b : WriteBeat) : beatFull b = true ↔ b.strobes = 0xFFFF := beq_iff_eq

theorem beatPartial_iff (b : WriteBeat) : beatPartial b = true ↔ b.strobes ≠ 0 ∧ b.strobes ≠ 0xFFFF := by
  rw [beatPartial, Bool.and_eq_true, Bool.not_eq_true', Bool.not_eq_true', ← Bool.not_eq_true, ← Bool.not_eq_true,
    beatFull_iff, beatEmpty_iff]
  exact And.comm

section beat
variable {s : State} (hphase : s.manifest.phase = .manifestLoading) {offset : Nat} {b : WriteBeat}
include hphase

theorem windowBeat_ignored (h : (∃ n, s.manifest.length = some n ∧ 64 * n ≤ offset) ∨ b.strobes = 0) :
    s.windowBeat offset b = s := by
  unfold State.windowBeat
  rw [if_neg (not_not_intro hphase), ite_eq_left_iff]
  intro hwithin
  exact if_pos ((beatEmpty_iff b).2 (h.resolve_left (mt (lengthBytes_any _ _).2 hwithin)))

variable (hwithin : ¬ ∃ n, s.manifest.length = some n ∧ 64 * n ≤ offset)
include hwithin

theorem windowBeat_partial (hempty : b.strobes ≠ 0) (hfull : b.strobes ≠ 0xFFFF) :
    s.windowBeat offset b = s.failAttempt .partialBeat := by
  unfold State.windowBeat
  rw [if_neg (not_not_intro hphase), if_neg (mt (lengthBytes_any _ _).1 hwithin),
    if_neg (mt (beatEmpty_iff b).1 hempty), if_pos ((beatPartial_iff b).2 ⟨hempty, hfull⟩)]

theorem windowBeat_full (hfull : b.strobes = 0xFFFF) : s.windowBeat offset b =
    if (bufferAt s.manifest.buffer offset).isSome then s.failAttempt .rewrite
    else s.presentBeat offset b.data := by
  have hempty : ¬ beatEmpty b = true := by
    rw [beatEmpty_iff, hfull]
    decide
  unfold State.windowBeat
  rw [if_neg (not_not_intro hphase), if_neg (mt (lengthBytes_any _ _).1 hwithin), if_neg hempty,
    if_neg fun h => ((beatPartial_iff b).1 h).2 hfull]

end beat

theorem presentBeat_other (s : State) {offset : Nat} (h : offset ≠ 0) (data : Beat) : s.presentBeat offset data =
    { s with manifest := { s.manifest with buffer := bufferPut offset data s.manifest.buffer } } :=
  if_neg h

theorem presentBeat_length (s : State) (data : Beat) (h : 1 ≤ lengthField data) (h' : lengthField data ≤ 64) :
    s.presentBeat 0 data = { s with manifest := { s.manifest with
      length := some (lengthField data)
      buffer := bufferDrop (64 * lengthField data) (bufferPut 0 data s.manifest.buffer) } } := by
  have hgood : ¬ (lengthField data = 0 ∨ 64 < lengthField data) := by omega
  unfold State.presentBeat
  rw [if_pos rfl]
  exact if_neg hgood

theorem presentBeat_badLength (s : State) (data : Beat) (h : lengthField data = 0 ∨ 64 < lengthField data) :
    s.presentBeat 0 data = State.failAttempt { s with manifest := { s.manifest with
      buffer := bufferPut 0 data s.manifest.buffer } } .badLength := by
  unfold State.presentBeat
  rw [if_pos rfl]
  exact if_pos h

/-- Settles O42: the first case that applies, and what a new beat brings. -/
theorem windowBeatHandled : Obligations.WindowBeatHandled := by
  intro s offset b hphase
  refine ⟨windowBeat_ignored hphase, fun hwithin => windowBeat_partial hphase hwithin,
    fun hwithin hfull hpresent => ?_, fun hwithin hfull hnew => ?_⟩
  · rw [windowBeat_full hphase hwithin hfull, if_pos ((bufferAt_isSome _ _).2 hpresent)]
  · rw [windowBeat_full hphase hwithin hfull, if_neg (mt (bufferAt_isSome _ _).1 hnew), ← lengthField_eq]
    refine ⟨fun hother => presentBeat_other s hother _, ?_, ?_⟩
    · rintro rfl hone hmany
      exact presentBeat_length s b.data hone hmany
    · rintro rfl hbad
      exact ⟨_, presentBeat_badLength s b.data hbad, rfl⟩

/-! ### Failed attempts -/

theorem releaseManifest_other {x : Engine} (h : x.manifest = false) : x.releaseManifest = x :=
  if_neg (Bool.not_eq_true _ ▸ h)

theorem releaseManifest_holding {x : Engine} (h : x.manifest = true) (hstate : x.state = .holding) :
    x.releaseManifest = { x with state := .free, context := none, manifest := false } := by
  rw [Engine.releaseManifest, if_pos h, hstate]

theorem releaseManifest_working {x : Engine} (h : x.manifest = true) (hstate : x.state ≠ .holding) :
    x.releaseManifest = { x with discard := true, context := none } := by
  unfold Engine.releaseManifest
  rw [if_pos h]
  split
  · contradiction
  · rfl

/-- Settles O43: the failure on the manifest unit and on engine 0. -/
theorem failedAttempt : Obligations.FailedAttempt := by
  intro s why hattempts
  have hphase : (if 3 ≤ s.manifest.attempts + 1 then Phase.lockout else .rejected) =
      if s.manifest.attempts = 2 then .lockout else .rejected := ite_congr (propext (by omega)) (fun _ => rfl) fun _ => rfl
  refine ⟨s.measure.engines[(0 : EngineId)].releaseManifest, ?_, releaseManifest_other, fun hmanifest =>
    ⟨?_, fun hstate => ?_, fun hstate => ?_⟩⟩
  · rw [← hphase]
    rfl
  · by_cases hstate : s.measure.engines[(0 : EngineId)].state = .holding
    · rw [releaseManifest_holding hmanifest hstate]
    · rw [releaseManifest_working hmanifest hstate]
  · rw [releaseManifest_holding hmanifest hstate]
    exact ⟨rfl, rfl⟩
  · rw [releaseManifest_working hmanifest hstate]
    exact ⟨rfl, rfl⟩

end Sys2Proof.Proofs

/-! A write into the manifest window, and the absorption of the manifest (R93, R97, R107, R109, R111). -/

namespace Sys2Proof.Proofs
open Sys2Proof.Machine Sys2Proof.Laws

/-! ### Window writes -/

theorem inWindow_of_range {s : State} {addr : Addr} (h : s.manifest.windowBase.toNat ≤ addr.toNat)
    (h' : addr.toNat < s.manifest.windowBase.toNat + 4096) : inWindow s addr = true :=
  Option.isSome_iff_exists.2 ⟨addr.toNat - s.manifest.windowBase.toNat,
    (windowOffset_eq_some_iff _ _ _).2 ⟨by omega, by omega⟩⟩

/-- The manifest unit at the start of handling a window write: the attempt under way, or a new one (R93). -/
theorem startAttempt_of {s : State} {u : ManifestState}
    (h : s.manifest.phase = .manifestLoading ∧ u = s.manifest ∨ s.manifest.phase = .rejected ∧
      u = { s.manifest.clearLoading with phase := .manifestLoading }) : s.startAttempt = { s with manifest := u } := by
  obtain ⟨hloading, rfl⟩ | ⟨hrejected, rfl⟩ := h
  · rw [State.startAttempt, if_neg (by rw [hloading]; nofun)]
  · exact if_pos hrejected

theorem windowWrite_new {s : State} {tag : Nat} (h : tag ∉ s.manifest.windowWrites) (addr : Addr)
    (beats : List WriteBeat) : s.windowWrite tag addr beats =
      State.windowBeats { s with manifest := { s.manifest with windowWrites := s.manifest.windowWrites ++ [tag] } }
        (addr.toNat - s.manifest.windowBase.toNat) beats := by
  rw [State.windowWrite, joinTail_eq, if_neg h]

theorem handOff_window {s : State} {addr : Addr} {u : ManifestState} {tag : Nat}
    (hu : s.manifest.phase = .manifestLoading ∧ u = s.manifest ∨ s.manifest.phase = .rejected ∧
      u = { s.manifest.clearLoading with phase := .manifestLoading })
    (hin : inWindow s addr = true) (hnew : tag ∉ u.windowWrites) (beats : List WriteBeat) :
    handOff s tag addr beats = (State.windowBeats { s with
      measure := s.measure.addEntry tag, manifest := { u with windowWrites := u.windowWrites ++ [tag] } }
      (addr.toNat - u.windowBase.toNat) beats).advanceManifest := by
  have hstart := startAttempt_of (s := { s with measure := s.measure.addEntry tag }) hu
  have hwrite := windowWrite_new (s := { s with measure := s.measure.addEntry tag, manifest := u }) hnew addr beats
  rw [← hwrite, ← hstart]
  unfold handOff
  obtain ⟨hphase, -⟩ | ⟨hphase, -⟩ := hu
  · rw [hphase]
    exact if_pos hin
  · rw [hphase]
    exact if_pos hin

/-- Settles O44: the write is forwarded, handed to the manifest unit, and its beats handled one by one. -/
theorem windowWriteAccepted : Obligations.WindowWriteAccepted := by
  refine ⟨fun s tag addr beats hroom hform hbase hend htag u hu => ?_, fun s offset b rest => ⟨rfl, rfl, fun hphase => ?_⟩⟩
  · have hphase : s.manifest.phase = .manifestLoading ∨ s.manifest.phase = .rejected :=
      hu.imp And.left And.left
    have htakes : s.takesRequests = true :=
      (takesRequests_iff s).2 ⟨by rcases hphase with h | h <;> rw [h] <;> nofun, hroom⟩
    have hforwards : requestForwards s .write addr beats.length = true :=
      (requestForwards_iff _ _ _ _).2 fun k _ => beatForwards_loading (.inr hphase) _ _
    have hnew : tag ∉ u.windowWrites := by
      obtain ⟨-, rfl⟩ | ⟨-, rfl⟩ := hu
      · exact htag
      · exact List.not_mem_nil
    have hwindow : u.windowBase = s.manifest.windowBase := by
      obtain ⟨-, rfl⟩ | ⟨-, rfl⟩ := hu <;> rfl
    rw [exec_hostWriteAccept_forwarded htakes hform hforwards,
      handOff_window (s := enteredWrite s tag addr beats) hu (inWindow_of_range hbase hend) hnew, hwindow]
    rfl
  · exact ⟨windowBeats_other hphase [b] offset, windowBeats_other hphase (b :: rest) offset⟩

/-! ### Absorption -/

section absorption
variable {s : State} {n : Nat} (hphase : s.manifest.phase = .manifestLoading)
  (hlength : s.manifest.length = some n) (hidle : s.measure.engines[(0 : EngineId)].idleForManifest = true)
include hphase hlength hidle

theorem advanceManifest_eq : s.advanceManifest =
    if s.manifest.absorbOffset < 64 * n then
      match bufferAt s.manifest.buffer s.manifest.absorbOffset with
      | some data =>
        { s with
          manifest := { s.manifest with absorbOffset := s.manifest.absorbOffset + 16 },
          measure := s.measure.modEngine 0 (·.absorbManifest data) }
      | none => s
    else if s.manifest.windowWrites = [] then
      { s with
        manifest := { s.manifest with phase := .manifestCheck },
        measure := s.measure.modEngine 0 (fun e => { e with state := .finalizing }) }
    else s := by
  have hbytes : s.manifest.lengthBytes = some (64 * n) := by rw [ManifestState.lengthBytes, hlength]; rfl
  unfold State.advanceManifest
  rw [hphase, hbytes]
  simp only [hidle, Bool.not_true, Bool.false_eq_true, if_false, List.isEmpty_iff] <;> rfl

end absorption

/-- Engine 0 at the beginning of a beat step, from either of its idle states (R109). -/
theorem absorbManifest_of {x : Engine} {c : Context}
    (h : x.state = .free ∧ c = freshContext ∨ x.state = .holding ∧ x.manifest = true ∧ x.context = some c)
    (b : Beat) : x.absorbManifest b =
      { x with state := .absorbing .beat, manifest := true, context := some (takeBytes c (beatBytes b)) } := by
  obtain ⟨hfree, rfl⟩ | ⟨hholding, -, hcontext⟩ := h
  · rw [Engine.absorbManifest, if_pos hfree]
  · rw [Engine.absorbManifest, if_neg (by rw [hholding]; nofun), hcontext]
    rfl

theorem idleForManifest_of {x : Engine} {p q : Prop} (h : x.state = .free ∧ p ∨ x.state = .holding ∧ x.manifest = true ∧ q) :
    x.idleForManifest = true := by
  obtain ⟨hfree, -⟩ | ⟨hholding, hmanifest, -⟩ := h
  · rw [Engine.idleForManifest, hfree]
    rfl
  · rw [Engine.idleForManifest, hholding, hmanifest]
    rfl

theorem manifestBeatDone_kept {x : Engine} (h : x.discard = false) (now : Nat) : x.manifestBeatDone now =
    { x with state := .holding, holdingSince := now, context := x.context.map compressFull } :=
  if_neg (Bool.not_eq_true _ ▸ h)

theorem manifestBeatDone_discarded {x : Engine} (h : x.discard = true) (now : Nat) :
    x.manifestBeatDone now = { x.release with manifest := false } :=
  if_pos h

theorem exec_manifestBeatStepDone {s : State} (hmanifest : s.measure.engines[(0 : EngineId)].manifest = true)
    (hstate : s.measure.engines[(0 : EngineId)].state = .absorbing .beat) :
    exec .manifestBeatStepDone s = .next (State.settle (State.advanceManifest { s with
      measure := s.measure.modEngine 0 (Engine.manifestBeatDone s.measure.now) })) :=
  if_pos (Bool.and_eq_true_iff.2 ⟨hmanifest, beq_iff_eq.2 hstate⟩)

/-- Settles O45: the manifest unit's turn by the absorb offset, and the end of a beat step. -/
theorem manifestAbsorbedInOrder : Obligations.ManifestAbsorbedInOrder := by
  refine ⟨fun s n c hphase hlength hengine => ?_, fun s hmanifest hstate => ⟨fun hdiscard => ?_, fun hdiscard => ?_⟩⟩
  · have hadvance := advanceManifest_eq hphase hlength (idleForManifest_of hengine)
    refine ⟨fun hmore b hb => ?_, fun hmore hb => ?_, fun hall hwrites => ?_, fun hall hwrites => ?_⟩
    · rw [hadvance, if_pos hmore, hb]
      have htaken : s.measure.modEngine 0 (·.absorbManifest b) = s.measure.modEngine 0 (fun x => { x with
          state := .absorbing .beat, manifest := true, context := some (takeBytes c (beatBytes b)) }) :=
        modEngine_congr (absorbManifest_of hengine b)
      rw [← htaken]
    · rw [hadvance, if_pos hmore, hb]
    · rw [hadvance, if_neg (Nat.not_lt.2 hall), if_pos hwrites]
    · rw [hadvance, if_neg (Nat.not_lt.2 hall), if_neg hwrites]
  · have hdone : s.measure.modEngine 0 (Engine.manifestBeatDone s.measure.now) = s.measure.modEngine 0 (fun x =>
        { x with state := .holding, holdingSince := s.measure.now, context := x.context.map compressFull }) :=
      modEngine_congr (manifestBeatDone_kept hdiscard _)
    rw [exec_manifestBeatStepDone hmanifest hstate, hdone]
    rfl
  · have hdone : s.measure.modEngine 0 (Engine.manifestBeatDone s.measure.now) =
        s.measure.modEngine 0 (fun x => { x.release with manifest := false }) :=
      modEngine_congr (manifestBeatDone_discarded hdiscard _)
    rw [exec_manifestBeatStepDone hmanifest hstate, hdone]
    rfl

end Sys2Proof.Proofs

/-! A deferred group and the DEFERRED runs that it touches (R30). -/

namespace Sys2Proof.Proofs
open Sys2Proof.Machine Sys2Proof.Laws

theorem follows_iff (x : Group) (r : Run) :
    x.follows r = true ↔ r.body.isDeferred = true ∧ r.stop = x.start := by
  rw [Group.follows, Bool.and_eq_true, beq_iff_eq]

theorem precedes_iff (x : Group) (r : Run) :
    x.precedes r = true ↔ r.body.isDeferred = true ∧ r.start = x.stop := by
  rw [Group.precedes, Bool.and_eq_true, beq_iff_eq]

theorem follows_or_precedes_iff (x : Group) (r : Run) : (x.follows r = true ∨ x.precedes r = true) ↔
    r.body.isDeferred = true ∧ (r.stop = x.start ∨ r.start = x.stop) := by
  rw [follows_iff, precedes_iff, and_or_left]

/-- Beats of a run that may not be there. -/
def beatsOf (r : Option Run) : Nat := (r.map (·.body.beatCount)).getD 0

/-- The run that a deferred group becomes (R30). -/
def mergedRun (x : Group) (q : SeqNo) (runs : List Run) : Run :=
  { start := ((runs.find? x.follows).map (·.start)).getD x.start
    body := .deferred (beatsOf (runs.find? x.follows) + x.data.length + beatsOf (runs.find? x.precedes)) q false }

section merge
variable (x : Group) (q : SeqNo) (runs : List Run)

theorem mem_deferRun (r : Run) : r ∈ deferRun x q runs ↔ r = mergedRun x q runs ∨
    r ∈ runs ∧ ¬ (r.body.isDeferred = true ∧ (r.stop = x.start ∨ r.start = x.stop)) := by
  rw [← follows_or_precedes_iff, not_or]
  refine (mem_insertRun _ _ _).trans (or_congr Iff.rfl ?_)
  rw [List.mem_filter, Bool.and_eq_true, Bool.not_eq_true', Bool.not_eq_true', Bool.not_eq_true, Bool.not_eq_true]

theorem mergedRun_start :
    ((mergedRun x q runs).start = x.start ∧ ∀ b ∈ runs, ¬ (b.body.isDeferred = true ∧ b.stop = x.start)) ∨
      ∃ b ∈ runs, b.body.isDeferred = true ∧ b.stop = x.start ∧ (mergedRun x q runs).start = b.start := by
  cases hbefore : runs.find? x.follows with
  | none =>
    refine .inl ⟨by rw [mergedRun, hbefore]; rfl, fun b hb => ?_⟩
    rw [← follows_iff]
    exact List.find?_eq_none.1 hbefore b hb
  | some b =>
    obtain ⟨hdeferred, hstop⟩ := (follows_iff x b).1 (List.find?_some hbefore)
    exact .inr ⟨b, List.mem_of_find?_eq_some hbefore, hdeferred, hstop, by rw [mergedRun, hbefore]; rfl⟩

/-- With or without a run before it, the merged run reaches past the group by the run after it. -/
theorem mergedRun_stop_eq : (mergedRun x q runs).stop = x.stop + 16 * beatsOf (runs.find? x.precedes) := by
  have hstart : (mergedRun x q runs).start + 16 * beatsOf (runs.find? x.follows) = x.start := by
    cases hbefore : runs.find? x.follows with
    | none =>
      rw [mergedRun, hbefore]
      rfl
    | some b =>
      rw [mergedRun, hbefore]
      exact ((follows_iff x b).1 (List.find?_some hbefore)).2
  have hcount : (mergedRun x q runs).stop = (mergedRun x q runs).start +
      16 * (beatsOf (runs.find? x.follows) + x.data.length + beatsOf (runs.find? x.precedes)) := rfl
  rw [hcount, Group.stop]
  omega

theorem mergedRun_stop :
    ((mergedRun x q runs).stop = x.stop ∧ ∀ a ∈ runs, ¬ (a.body.isDeferred = true ∧ a.start = x.stop)) ∨
      ∃ a ∈ runs, a.body.isDeferred = true ∧ a.start = x.stop ∧ (mergedRun x q runs).stop = a.stop := by
  rw [mergedRun_stop_eq]
  cases hafter : runs.find? x.precedes with
  | none =>
    refine .inl ⟨rfl, fun a ha => ?_⟩
    rw [← precedes_iff]
    exact List.find?_eq_none.1 hafter a ha
  | some a =>
    obtain ⟨hdeferred, hstart⟩ := (precedes_iff x a).1 (List.find?_some hafter)
    refine .inr ⟨a, List.mem_of_find?_eq_some hafter, hdeferred, hstart, ?_⟩
    rw [← hstart]
    rfl

end merge

/-- Settles O14: the merged run, and the runs that are left. -/
theorem deferredGroupMerges : Obligations.DeferredGroupMerges := by
  intro x q runs _ _ _
  refine ⟨mergedRun x q runs, (mem_deferRun x q runs _).2 (.inl rfl), ⟨_, rfl⟩, mergedRun_start x q runs,
    mergedRun_stop x q runs, fun r hr => ?_⟩
  rw [mem_deferRun]
  exact or_iff_right hr

end Sys2Proof.Proofs

/-! A forwarded write in ARMED: its number, its entry and the images recorded in it (R23 to R25). -/

namespace Sys2Proof.Proofs
open Sys2Proof.Machine Sys2Proof.Laws

/-! ### One record of the table -/

theorem modify_congr {α : Type} {l : List α} {k : Nat} {f f' : α → α} (h : ∀ x, l[k]? = some x → f x = f' x) :
    l.modify k f = l.modify k f' := by
  refine List.ext_getElem? fun j => ?_
  rw [List.getElem?_modify, List.getElem?_modify]
  split
  · rename_i hk
    subst hk
    cases hx : l[k]? with
    | none => rfl
    | some x => exact congrArg some (h x hx)
  · rfl

theorem modImage_congr {m : MeasureState} {i : Nat} {f f' : Image → Image}
    (h : ∀ g, m.image? i = some g → f g = f' g) : m.modImage i f = m.modImage i f' := by
  unfold MeasureState.modImage
  split
  · rfl
  · rename_i hi
    rw [modify_congr fun g hg => h g ((if_neg hi).trans hg)]

theorem modImage_of_none {m : MeasureState} {i : Nat} (h : m.image? i = none) (f : Image → Image) :
    m.modImage i f = m := by
  rw [modImage_congr (f' := id) fun g hg => nomatch h.symm.trans hg]
  unfold MeasureState.modImage
  rw [List.modify_id, ite_self]

theorem isOpen_iff (m : MeasureState) (i : Nat) : m.isOpen i = true ↔
    ∃ g, m.image? i = some g ∧ (g.state = .declared ∨ g.state = .filling) := by
  have hst (st : ImageState) : st.isOpen = true ↔ st = .declared ∨ st = .filling := by
    cases st <;> simp [ImageState.isOpen]
  rw [MeasureState.isOpen, Option.any_eq_true]
  simp only [hst]

/-! ### The images a request touches -/

theorem foldl_joinIf (p : Nat → Bool) (L l : List Nat) (i : Nat) :
    i ∈ L.foldl (fun l i => if p i then joinTail l i else l) l ↔ i ∈ l ∨ (p i = true ∧ i ∈ L) := by
  induction L generalizing l with
  | nil => simp
  | cons a L ih =>
    rw [List.foldl_cons, ih]
    by_cases ha : p a = true
    · rw [if_pos ha, mem_joinTail, List.mem_cons]
      constructor
      · rintro ((h | rfl) | ⟨hp, h⟩)
        · exact .inl h
        · exact .inr ⟨ha, .inl rfl⟩
        · exact .inr ⟨hp, .inr h⟩
      · rintro (h | ⟨hp, rfl | h⟩)
        · exact .inl (.inl h)
        · exact .inl (.inr rfl)
        · exact .inr ⟨hp, h⟩
    · rw [if_neg ha, List.mem_cons]
      refine or_congr Iff.rfl (and_congr_right fun hp => ?_)
      exact (or_iff_right fun hia : i = a => ha (hia ▸ hp)).symm

theorem nodup_joinIf (p : Nat → Bool) (L : List Nat) {l : List Nat} (h : l.Nodup) :
    (L.foldl (fun l i => if p i then joinTail l i else l) l).Nodup := by
  refine foldl_inv List.Nodup _ L (fun l i _ hl => ?_) l h
  split
  · exact nodup_joinTail hl i
  · exact hl

theorem mem_touched (m : MeasureState) (beats : List (Option ImageBeat)) (i : Nat) :
    i ∈ m.touched beats ↔ m.isOpen i = true ∧ ∃ x, some x ∈ beats ∧ x.image = i := by
  rw [MeasureState.touched, foldl_joinIf]
  simp [List.mem_filterMap]

theorem touched_nodup (m : MeasureState) (beats : List (Option ImageBeat)) : (m.touched beats).Nodup :=
  nodup_joinIf _ _ List.nodup_nil

/-! ### Recording -/

/-- One write more in flight (R25). -/
def countWrite (g : Image) : Image := { g with inFlight := g.inFlight + 1 }

/-- What the recorded set holds of image i (R24). -/
def recordOf (m : MeasureState) (i : Nat) : Option (Nat × BitVec 8) := (m.image? i).map (fun g => (i, g.epoch))

theorem modify_last {α : Type} (l : List α) (a : α) (f : α → α) : (l ++ [a]).modify l.length f = l ++ [f a] := by
  induction l with
  | nil => rfl
  | cons b l ih => exact congrArg (b :: ·) ih

theorem recordIn_last {m : MeasureState} {E : List WriteEntry} {w : WriteEntry} (h : m.entries = E ++ [w]) (i : Nat) :
    m.recordIn i = { m.modImage i countWrite with
      entries := E ++ [{ w with recorded := w.recorded ++ (recordOf m i).toList }] } := by
  unfold MeasureState.recordIn recordOf
  cases hg : m.image? i with
  | none =>
    rw [modImage_of_none hg countWrite, Option.map_none, Option.toList_none, List.append_nil, ← h]
  | some g =>
    have hlast : m.entries.modify (m.entries.length - 1) (·.record i g.epoch) =
        E ++ [w.record i g.epoch] := by
      rw [h, List.length_append, List.length_singleton, Nat.add_sub_cancel, modify_last]
    simp only [hlast]
    rfl

theorem recordOf_modImage (m : MeasureState) (i j : Nat) : recordOf (m.modImage i countWrite) j = recordOf m j := by
  rw [recordOf, image?_modImage]
  split
  · rw [Option.map_map]
    rfl
  · rfl

/-- A list of images recorded in the last entry, none twice. -/
theorem recordAll {L : List Nat} (hnodup : L.Nodup) {m : MeasureState} {E : List WriteEntry} {w : WriteEntry}
    (h : m.entries = E ++ [w]) : ∃ images,
      L.foldl MeasureState.recordIn m = { m with
        images := images, entries := E ++ [{ w with recorded := w.recorded ++ L.filterMap (recordOf m) }] } ∧
      images.length = m.images.length ∧
      ∀ j, (L.foldl MeasureState.recordIn m).image? j =
        if j ∈ L then (m.image? j).map countWrite else m.image? j := by
  induction L generalizing m w with
  | nil =>
    refine ⟨m.images, ?_, rfl, fun j => (if_neg List.not_mem_nil).symm⟩
    rw [List.filterMap_nil, List.append_nil, ← h]
    rfl
  | cons a L ih =>
    obtain ⟨ha, hL⟩ := List.nodup_cons.1 hnodup
    have hone := recordIn_last h a
    have hentries : (m.recordIn a).entries = E ++ [{ w with recorded := w.recorded ++ (recordOf m a).toList }] := by
      rw [hone]
    obtain ⟨images, heq, hlength, himage⟩ := ih hL hentries
    have hrecords : L.filterMap (recordOf (m.recordIn a)) = L.filterMap (recordOf m) := by
      rw [hone]
      exact filterMap_eq_of_mem fun j _ => recordOf_modImage m a j
    refine ⟨images, ?_, ?_, fun j => ?_⟩
    · rw [List.foldl_cons, heq, hrecords, hone, List.filterMap_cons, List.append_assoc]
      cases recordOf m a <;> rfl
    · rw [hlength, hone]
      exact length_modImage m a countWrite
    · rw [List.foldl_cons, himage, hone]
      have hmod : MeasureState.image? { m.modImage a countWrite with
          entries := E ++ [{ w with recorded := w.recorded ++ (recordOf m a).toList }] } j =
          if a = j then (m.image? j).map countWrite else m.image? j := image?_modImage m a j countWrite
      rw [hmod]
      by_cases hj : j ∈ L
      · rw [if_pos hj, if_pos (List.mem_cons_of_mem _ hj), if_neg fun haj : a = j => ha (haj ▸ hj)]
      · rw [if_neg hj]
        exact ite_congr (propext (by simp [hj, eq_comm])) (fun _ => rfl) fun _ => rfl

end Sys2Proof.Proofs

/-! What a forwarded write in ARMED leaves alone (R23 to R26, R90, R97). -/

namespace Sys2Proof.Proofs
open Sys2Proof.Machine Sys2Proof.Laws

/-! ### A change confined to some images and their dependents -/

/-- A change of the measurement that keeps what is declared, the epochs, the cursors and the writes in flight,
and keeps wholly every image that is neither in A nor a dependent of an image in A. -/
structure Confined (A : Nat → Prop) (m m' : MeasureState) : Prop where
  segments : m'.segments = m.segments
  verified : m'.verified = m.verified
  entries : m'.entries = m.entries
  nextSeq : m'.nextSeq = m.nextSeq
  length : m'.images.length = m.images.length
  images : ∀ i g, m.image? i = some g → ∃ g', m'.image? i = some g' ∧ g'.declared = g.declared ∧
    g'.epoch = g.epoch ∧ g'.cursor = g.cursor ∧ g'.inFlight = g.inFlight ∧
    (¬ A i → (∀ x, A x → i ∉ m.dependents x) → g' = g)

theorem image?_none_congr {m m' : MeasureState} (h : m'.images.length = m.images.length) {i : Nat}
    (hi : m.image? i = none) : m'.image? i = none := by
  rw [← Option.not_isSome_iff_eq_none, image?_isSome] at hi ⊢
  rwa [h]

section confined
variable {A : Nat → Prop} {m m' m'' : MeasureState}

theorem Confined.dependents (h : Confined A m m') (x : Nat) : m'.dependents x = m.dependents x := by
  refine dependents_congr h.length (fun d => ?_) x
  cases hd : m.image? d with
  | none => rw [image?_none_congr h.length hd]
  | some g =>
    obtain ⟨g', hg', hdeclared, -⟩ := h.images d g hd
    rw [hg', Option.map_some, Option.map_some, hdeclared]

theorem Confined.refl (m : MeasureState) : Confined A m m :=
  ⟨rfl, rfl, rfl, rfl, rfl, fun _ g hg => ⟨g, hg, rfl, rfl, rfl, rfl, fun _ _ => rfl⟩⟩

theorem Confined.trans (h : Confined A m m') (h' : Confined A m' m'') : Confined A m m'' where
  segments := h'.segments.trans h.segments
  verified := h'.verified.trans h.verified
  entries := h'.entries.trans h.entries
  nextSeq := h'.nextSeq.trans h.nextSeq
  length := h'.length.trans h.length
  images := fun i g hg => by
    obtain ⟨g', hg', hdeclared, hepoch, hcursor, hinFlight, hsame⟩ := h.images i g hg
    obtain ⟨g'', hg'', hdeclared', hepoch', hcursor', hinFlight', hsame'⟩ := h'.images i g' hg'
    refine ⟨g'', hg'', hdeclared'.trans hdeclared, hepoch'.trans hepoch, hcursor'.trans hcursor,
      hinFlight'.trans hinFlight, fun hA hd => ?_⟩
    rw [hsame' hA fun x hx => h.dependents x ▸ hd x hx, hsame hA hd]

theorem confined_foldl {α : Type} {f : MeasureState → α → MeasureState} (L : List α)
    (h : ∀ m, ∀ a ∈ L, Confined A m (f m a)) (m : MeasureState) : Confined A m (L.foldl f m) := by
  induction L generalizing m with
  | nil => exact .refl m
  | cons a L ih =>
    exact (h m a List.mem_cons_self).trans (ih (fun m b hb => h m b (List.mem_cons_of_mem _ hb)) _)

theorem confined_breakImage {i : Nat} (hA : A i) (why : BreakReason) : Confined A m (m.breakImage i why) := by
  by_cases hmeasuring : m.isMeasuring i = true
  · have hevolves := evolves_breakImage m i why
    refine ⟨hevolves.segments, verified_breakImage m i why, hevolves.entries, hevolves.nextSeq, hevolves.length,
      fun j g hg => ?_⟩
    rw [image?_breakImage hmeasuring]
    split
    · rename_i hji
      exact ⟨_, congrArg _ hg, rfl, rfl, rfl, rfl, fun hj => absurd (hji ▸ hA) hj⟩
    · split
      · rename_i hd
        obtain ⟨hdeclared, hepoch, hinFlight, hcursor⟩ := breakIfMeasuring_declared .predecessorFailed g
        exact ⟨_, congrArg _ hg, hdeclared, hepoch, hcursor, hinFlight, fun _ hdep => absurd hd (hdep i hA)⟩
      · exact ⟨g, hg, rfl, rfl, rfl, rfl, fun _ _ => rfl⟩
  · rw [breakImage_of_not_measuring (Bool.not_eq_true _ ▸ hmeasuring)]
    exact .refl m

theorem confined_modImage {i : Nat} (hA : A i) {f : Image → Image}
    (hf : ∀ g, (f g).declared = g.declared ∧ (f g).epoch = g.epoch ∧ (f g).cursor = g.cursor ∧
      (f g).inFlight = g.inFlight) : Confined A m (m.modImage i f) := by
  refine ⟨rfl, rfl, rfl, rfl, length_modImage m i f, fun j g hg => ?_⟩
  rw [image?_modImage]
  split
  · rename_i hij
    obtain ⟨hdeclared, hepoch, hcursor, hinFlight⟩ := hf g
    exact ⟨_, congrArg _ hg, hdeclared, hepoch, hcursor, hinFlight, fun hj => absurd (hij ▸ hA) hj⟩
  · exact ⟨g, hg, rfl, rfl, rfl, rfl, fun _ _ => rfl⟩

theorem confined_enter {i : Nat} (hA : A i) (st : ImageState) : Confined A m (m.enter i st) := by
  have hstate : Confined A m (m.modImage i (fun g => { g with state := st })) :=
    confined_modImage hA fun _ => ⟨rfl, rfl, rfl, rfl⟩
  have hcount := confined_modImage (m := m.modImage i (fun g => { g with state := st })) hA
    (f := fun g => { g with transitions := saturate (g.transitions + 1) }) fun _ => ⟨rfl, rfl, rfl, rfl⟩
  have h := hstate.trans hcount
  exact ⟨h.segments, h.verified, h.entries, h.nextSeq, h.length, h.images⟩

theorem confined_place {i : Nat} (hA : A i) (f : List Run → List Run) : Confined A m (m.place i f) := by
  have hruns : Confined A m (m.modImage i (fun g => { g with runs := f g.runs })) :=
    confined_modImage hA fun _ => ⟨rfl, rfl, rfl, rfl⟩
  unfold MeasureState.place
  dsimp only
  split
  · exact hruns.trans (confined_enter hA .filling)
  · exact hruns

theorem confined_handleGroup (q : SeqNo) {x : Group} (hA : A x.image) : Confined A m (m.handleGroup q x) := by
  unfold MeasureState.handleGroup
  cases m.image? x.image with
  | none => exact .refl m
  | some g =>
    dsimp only
    repeat' split
    · exact .refl m
    · exact confined_breakImage hA _
    · exact confined_place hA _
    · exact confined_place hA _
    · exact confined_breakImage hA _

theorem confined_checkPartial {b : Option ImageBeat} (hA : ∀ x, b = some x → A x.image) :
    Confined A m (m.checkPartial b) := by
  unfold MeasureState.checkPartial
  cases b with
  | none => exact .refl m
  | some x =>
    dsimp only
    split
    · exact confined_breakImage (hA x rfl) _
    · exact .refl m

end confined

/-! ### The stages of a forwarded write -/

/-- The image holds a beat of the request. -/
def holdsBeat (beats : List (Option ImageBeat)) (i : Nat) : Prop := ∃ x, some x ∈ beats ∧ x.image = i

/-- The write is numbered, entered and recorded (R23 to R25). -/
def recordedStage (m : MeasureState) (tag : Nat) (beats : List (Option ImageBeat)) : MeasureState :=
  (m.touched beats).foldl MeasureState.recordIn (m.addEntry tag)

/-- Its partial beats have been looked at besides (R26). -/
def checkedStage (m : MeasureState) (tag : Nat) (beats : List (Option ImageBeat)) : MeasureState :=
  beats.foldl MeasureState.checkPartial (recordedStage m tag beats)

theorem measureWrite_eq (m : MeasureState) (tag : Nat) (beats : List (Option ImageBeat)) :
    m.measureWrite tag beats = ((checkedStage m tag beats).groups beats).foldl
      (MeasureState.handleGroup m.giveNumber) (checkedStage m tag beats) := rfl

theorem recordedStage_spec (m : MeasureState) (tag : Nat) (beats : List (Option ImageBeat)) :
    ∃ images recorded,
      recordedStage m tag beats = { m with
        images := images
        entries := m.entries ++ [{ tag := tag, seq := m.giveNumber, recorded := recorded }]
        nextSeq := nextNumber m.giveNumber.number
        nextOrder := m.nextOrder + 1 } ∧
      images.length = m.images.length ∧
      (∀ i n, (i, n) ∈ recorded ↔ ∃ g, m.image? i = some g ∧ (g.state = .declared ∨ g.state = .filling) ∧
        holdsBeat beats i ∧ n = g.epoch) ∧
      ∀ j, (m.isOpen j = true ∧ holdsBeat beats j →
          (recordedStage m tag beats).image? j = (m.image? j).map countWrite) ∧
        (¬ (m.isOpen j = true ∧ holdsBeat beats j) → (recordedStage m tag beats).image? j = m.image? j) := by
  obtain ⟨images, heq, hlength, himage⟩ := recordAll (touched_nodup m beats) (m := m.addEntry tag)
    (E := m.entries) (w := { tag := tag, seq := m.giveNumber, recorded := [] }) rfl
  refine ⟨images, (m.touched beats).filterMap (recordOf m), heq, hlength, fun i n => ?_, fun j => ?_⟩
  · rw [List.mem_filterMap]
    constructor
    · rintro ⟨j, hj, hn⟩
      obtain ⟨g, hg, hin⟩ := Option.map_eq_some_iff.1 hn
      obtain ⟨rfl, rfl⟩ := Prod.mk.inj hin
      obtain ⟨hopen, hholds⟩ := (mem_touched m beats j).1 hj
      obtain ⟨g', hg', hst⟩ := (isOpen_iff m j).1 hopen
      obtain rfl : g = g' := Option.some.inj (hg.symm.trans hg')
      exact ⟨g, hg, hst, hholds, rfl⟩
    · rintro ⟨g, hg, hst, hholds, rfl⟩
      exact ⟨i, (mem_touched m beats i).2 ⟨(isOpen_iff m i).2 ⟨g, hg, hst⟩, hholds⟩, Option.map_eq_some_iff.2 ⟨g, hg, rfl⟩⟩
  · rw [holdsBeat, ← mem_touched]
    exact ⟨fun h => (himage j).trans (if_pos h), fun h => (himage j).trans (if_neg h)⟩

theorem dependents_recordedStage (m : MeasureState) (tag : Nat) (beats : List (Option ImageBeat)) (x : Nat) :
    (recordedStage m tag beats).dependents x = m.dependents x := by
  obtain ⟨images, recorded, hstage, hlength, -, himage⟩ := recordedStage_spec m tag beats
  refine dependents_congr (by rw [hstage, hlength]) (fun d => ?_) x
  obtain ⟨hcounted, hkept⟩ := himage d
  by_cases hc : m.isOpen d = true ∧ holdsBeat beats d
  · rw [hcounted hc, Option.map_map]
    rfl
  · rw [hkept hc]

theorem confined_checkedStage (m : MeasureState) (tag : Nat) (beats : List (Option ImageBeat)) :
    Confined (holdsBeat beats) (recordedStage m tag beats) (checkedStage m tag beats) :=
  confined_foldl beats (fun _ _ hb => confined_checkPartial fun x hx => ⟨x, hx ▸ hb, rfl⟩) _

theorem holdsBeat_of_group {m : MeasureState} {beats : List (Option ImageBeat)} {x : Group}
    (hx : x ∈ m.groups beats) : holdsBeat beats x.image := by
  obtain ⟨L, hL, hspan, -, -⟩ := groups_spec m beats
  rw [hL] at hx
  obtain ⟨p, hp, rfl⟩ := List.mem_map.1 hx
  obtain ⟨hsize, hbeats⟩ := hspan p hp
  obtain ⟨b, hb, -, himage, -⟩ := hbeats 0 hsize
  exact ⟨b, List.mem_of_getElem? hb, himage⟩

theorem confined_measureWrite (m : MeasureState) (tag : Nat) (beats : List (Option ImageBeat)) :
    Confined (holdsBeat beats) (recordedStage m tag beats) (m.measureWrite tag beats) := by
  rw [measureWrite_eq]
  exact (confined_checkedStage m tag beats).trans
    (confined_foldl _ (fun _ x hx => confined_handleGroup _ (holdsBeat_of_group hx)) _)

/-! ### The beats of a request by image -/

/-- A beat as its image's, when it lies in one (R97). -/
def imageBeatAt (r : Region) (b : WriteBeat) : Option ImageBeat :=
  match r with
  | .image i x => some { image := i, offset := x, beat := b }
  | _ => none

theorem imageBeatAt_eq_some {r : Region} {b : WriteBeat} {x : ImageBeat} :
    imageBeatAt r b = some x ↔ r = .image x.image x.offset ∧ x.beat = b := by
  obtain ⟨i, o, b'⟩ := x
  cases r <;> simp [imageBeatAt, eq_comm, and_assoc]

/-- The beats of a request, each by its own image. -/
def requestBeats (s : State) (addr : Addr) (beats : List WriteBeat) : List (Option ImageBeat) :=
  imageBeats (classifyBeats s addr beats.length) beats

theorem requestBeats_getElem? (s : State) (addr : Addr) (beats : List WriteBeat) (k : Nat) :
    (requestBeats s addr beats)[k]? = (beats[k]?).map (imageBeatAt (classify s (addr.toNat + 16 * k))) := by
  rw [requestBeats, imageBeats, List.getElem?_map, List.zip, List.getElem?_zipWith]
  cases hb : beats[k]? with
  | none => simp
  | some b =>
    have hk : k < beats.length := (List.getElem?_eq_some_iff.1 hb).1
    rw [classifyBeats, List.getElem?_map, List.getElem?_range hk]
    rfl

theorem holdsBeat_iff (s : State) (addr : Addr) (beats : List WriteBeat) (i : Nat) :
    holdsBeat (requestBeats s addr beats) i ↔
      ∃ k x, k < beats.length ∧ classify s (addr.toNat + 16 * k) = .image i x := by
  constructor
  · rintro ⟨x, hx, rfl⟩
    obtain ⟨k, hk⟩ := List.mem_iff_getElem?.1 hx
    obtain ⟨b, hb, hbeat⟩ := Option.map_eq_some_iff.1 ((requestBeats_getElem? s addr beats k).symm.trans hk)
    exact ⟨k, x.offset, (List.getElem?_eq_some_iff.1 hb).1, (imageBeatAt_eq_some.1 hbeat).1⟩
  · rintro ⟨k, x, hk, hclass⟩
    refine ⟨{ image := i, offset := x, beat := beats[k] }, List.mem_iff_getElem?.2 ⟨k, ?_⟩, rfl⟩
    rw [requestBeats_getElem?, List.getElem?_eq_getElem hk, Option.map_some, hclass]
    rfl

/-! ### The row -/

theorem exec_hostWriteAccept_armed {s : State} {tag : Nat} {addr : Addr} {beats : List WriteBeat}
    (harmed : s.manifest.phase = .armed) (hroom : s.link.occupied < 16)
    (hform : malformed s.link .write tag addr beats.length = false)
    (hforwards : ∀ k, k < beats.length → beatForwards s .write (classify s (addr.toNat + 16 * k)) = true)
    (hheader : classify s addr.toNat ≠ .header 1) :
    exec (.hostWriteAccept tag addr beats) s = .next (State.settle { s with
      link := { s.link with
        hostWrites := s.link.hostWrites ++ [tag], memWrites := s.link.memWrites ++ [tag],
        forward := s.link.forward ++ [.write tag addr beats] }
      measure := s.measure.measureWrite tag (requestBeats s addr beats) }) := by
  have htakes : s.takesRequests = true := (takesRequests_iff s).2 ⟨by rw [harmed]; nofun, hroom⟩
  have hhandOff : handOff (enteredWrite s tag addr beats) tag addr beats =
      { enteredWrite s tag addr beats with measure := s.measure.measureWrite tag (requestBeats s addr beats) } := by
    have harmed' : (enteredWrite s tag addr beats).manifest.phase = .armed := harmed
    unfold handOff
    rw [harmed']
    obtain ⟨b, -, hclass, -⟩ | heq := handOffArmed_cases (enteredWrite s tag addr beats) tag addr beats
    · exact absurd hclass hheader
    · exact heq
  rw [exec_hostWriteAccept_forwarded htakes hform ((requestForwards_iff _ _ _ _).2 hforwards), hhandOff]
  rfl

/-- Settles O12: the recorded stage, and the rest of the measuring confined to the images with a beat. -/
theorem writeFrame : Obligations.WriteFrame := by
  intro s tag addr beats harmed hroom hform hforwards hheader holds openTo
  have hholds (i : Nat) : holdsBeat (requestBeats s addr beats) i ↔ holds i := holdsBeat_iff s addr beats i
  obtain ⟨images, recorded, hstage, hlength, hrecorded, himage⟩ :=
    recordedStage_spec s.measure tag (requestBeats s addr beats)
  have hconfined := confined_measureWrite s.measure tag (requestBeats s addr beats)
  have hdependents (x : Nat) :
      (recordedStage s.measure tag (requestBeats s addr beats)).dependents x = s.measure.dependents x :=
    dependents_recordedStage s.measure tag _ x
  refine ⟨_, recorded, exec_hostWriteAccept_armed harmed hroom hform hforwards hheader, ?_, ?_, ?_, ?_, ?_,
    fun i n => ?_, fun i g hg => ?_⟩
  · rw [hconfined.entries, hstage]
  · rw [hconfined.nextSeq, hstage]
  · rw [hconfined.segments, hstage]
  · rw [hconfined.verified, hstage]
  · rw [hconfined.length, hstage, hlength]
  · rw [hrecorded, hholds]
  · have hopen : s.measure.isOpen i = true ↔ openTo g := by
      rw [isOpen_iff]
      exact ⟨fun ⟨g', hg', hst⟩ => Option.some.inj (hg'.symm.trans hg) ▸ hst, fun hst => ⟨g, hg, hst⟩⟩
    obtain ⟨hcounted, hkept⟩ := himage i
    by_cases hc : openTo g ∧ holds i
    · rw [hopen, hholds, hg] at hcounted
      obtain ⟨g', hg', hdeclared, hepoch, hcursor, hinFlight, -⟩ := hconfined.images i _ (hcounted hc)
      exact ⟨g', hg', hdeclared, hepoch, hcursor, fun _ _ => hinFlight, fun hnot => absurd hc hnot,
        fun hnot => absurd hc.2 hnot⟩
    · rw [hopen, hholds, hg] at hkept
      obtain ⟨g', hg', hdeclared, hepoch, hcursor, hinFlight, hsame⟩ := hconfined.images i _ (hkept hc)
      refine ⟨g', hg', hdeclared, hepoch, hcursor, fun hst hi => absurd ⟨hst, hi⟩ hc, fun _ => hinFlight,
        fun hi hdep => hsame (mt (hholds i).1 hi) fun x hx => ?_⟩
      rw [hdependents]
      exact hdep x ((hholds x).1 hx)

end Sys2Proof.Proofs

/-! The groups of a forwarded write, one by one (R26 to R32). -/

namespace Sys2Proof.Proofs
open Sys2Proof.Machine Sys2Proof.Laws

/-! ### One group -/

theorem isRewrite_iff (g : Image) (x : Group) : isRewrite g x = true ↔
    x.start < g.cursor + 16 * g.handOff ∨ ∃ r ∈ g.runs, x.start < r.stop ∧ r.start < x.stop := by
  simp [isRewrite, Group.overlaps]

theorem mergesDeferred_iff (x : Group) (runs : List Run) : mergesDeferred x runs = true ↔
    ∃ r ∈ runs, r.body.isDeferred = true ∧ (r.stop = x.start ∨ r.start = x.stop) := by
  rw [mergesDeferred, List.any_eq_true]
  simp only [Bool.or_eq_true, follows_or_precedes_iff]

theorem place_eq {m : MeasureState} {i : Nat} {g : Image} (hg : m.image? i = some g) (f : List Run → List Run) :
    m.place i f =
      if g.state = .declared then (m.modImage i (fun x => { x with runs := f g.runs })).enter i .filling
      else m.modImage i (fun x => { x with runs := f g.runs }) := by
  have hruns : m.modImage i (fun x => { x with runs := f x.runs }) =
      m.modImage i (fun x => { x with runs := f g.runs }) :=
    modImage_congr fun x hx => by rw [Option.some.inj (hx.symm.trans hg)]
  unfold MeasureState.place
  rw [hruns, hg]
  exact ite_congr (propext beq_iff_eq) (fun _ => rfl) fun _ => rfl

section group
variable {m : MeasureState} {x : Group} {g : Image} (hg : m.image? x.image = some g) (q : SeqNo)
include hg

theorem handleGroup_closed (hdeclared : g.state ≠ .declared) (hfilling : g.state ≠ .filling) :
    m.handleGroup q x = m := by
  have hclosed : (!g.state.isOpen) = true := by cases hst : g.state <;> simp_all [ImageState.isOpen]
  unfold MeasureState.handleGroup
  rw [hg]
  exact if_pos hclosed

variable (hopen : g.state = .declared ∨ g.state = .filling)
include hopen

theorem handleGroup_open : m.handleGroup q x =
    if isRewrite g x then m.breakImage x.image .rewrite
    else if x.data.length ≤ m.freeSlots ∧ 0 < m.freeEntries then m.place x.image (stageRun x)
    else if mergesDeferred x g.runs ∨ 0 < m.freeEntries then m.place x.image (deferRun x q)
    else m.breakImage x.image .runsExhausted := by
  have hst : ¬ (!g.state.isOpen) = true := by obtain h | h := hopen <;> rw [h] <;> decide
  unfold MeasureState.handleGroup
  rw [hg]
  exact if_neg hst

theorem handleGroup_rewrite (h : isRewrite g x = true) : m.handleGroup q x = m.breakImage x.image .rewrite :=
  (handleGroup_open hg q hopen).trans (if_pos h)

variable (hrewrite : ¬ isRewrite g x = true)
include hrewrite

theorem handleGroup_staged (h : x.data.length ≤ m.freeSlots ∧ 0 < m.freeEntries) :
    m.handleGroup q x = m.place x.image (stageRun x) := by
  rw [handleGroup_open hg q hopen, if_neg hrewrite, if_pos h]

theorem handleGroup_deferred (h : ¬ (x.data.length ≤ m.freeSlots ∧ 0 < m.freeEntries))
    (h' : mergesDeferred x g.runs = true ∨ 0 < m.freeEntries) :
    m.handleGroup q x = m.place x.image (deferRun x q) := by
  rw [handleGroup_open hg q hopen, if_neg hrewrite, if_neg h, if_pos h']

theorem handleGroup_exhausted (h : ¬ mergesDeferred x g.runs = true) (h' : m.freeEntries = 0) :
    m.handleGroup q x = m.breakImage x.image .runsExhausted := by
  rw [handleGroup_open hg q hopen, if_neg hrewrite, if_neg (by omega), if_neg]
  rintro (hm | he)
  · exact h hm
  · omega

end group

/-! ### The partial check, beat by beat -/

/-- The state after the partial check of the first k beats (R26). -/
def checkedRun (m : MeasureState) (beats : List (Option ImageBeat)) (k : Nat) : MeasureState :=
  (beats.take k).foldl MeasureState.checkPartial m

theorem checkedRun_succ (m : MeasureState) {beats : List (Option ImageBeat)} {k : Nat} {b : Option ImageBeat}
    (h : beats[k]? = some b) : checkedRun m beats (k + 1) = (checkedRun m beats k).checkPartial b := by
  rw [checkedRun, List.take_add_one, h, List.foldl_append]
  rfl

theorem checkPartial_breaks {m : MeasureState} {x : ImageBeat} (hpartial : beatPartial x.beat = true)
    (hopen : m.isOpen x.image = true) : m.checkPartial (some x) = m.breakImage x.image .partialBeat :=
  if_pos (Bool.and_eq_true_iff.2 ⟨hpartial, hopen⟩)

theorem checkPartial_keeps {m : MeasureState} {b : Option ImageBeat}
    (h : ∀ x, b = some x → beatPartial x.beat = true → ¬ m.isOpen x.image = true) : m.checkPartial b = m := by
  cases b with
  | none => rfl
  | some x =>
    refine if_neg fun hc => ?_
    obtain ⟨hpartial, hopen⟩ := Bool.and_eq_true_iff.1 hc
    exact h x rfl hpartial hopen

theorem keeps_iff (m : MeasureState) (x : ImageBeat) :
    m.keeps x = true ↔ x.beat.strobes = 0xFFFF ∧ m.isOpen x.image = true := by
  rw [MeasureState.keeps, Bool.and_eq_true, beatFull_iff]

/-! ### A request as its beats by image -/

section request
variable {s : State} {addr : Addr} {beats : List WriteBeat} {k : Nat}

theorem requestBeats_some {b : WriteBeat} {i x : Nat} (hb : beats[k]? = some b)
    (hplace : classify s (addr.toNat + 16 * k) = .image i x) :
    (requestBeats s addr beats)[k]? = some (some { image := i, offset := x, beat := b }) := by
  rw [requestBeats_getElem?, hb, Option.map_some, hplace]
  rfl

theorem beat_of_requestBeats {x : ImageBeat} (h : (requestBeats s addr beats)[k]? = some (some x)) :
    beats[k]? = some x.beat ∧ classify s (addr.toNat + 16 * k) = .image x.image x.offset := by
  rw [requestBeats_getElem?] at h
  obtain ⟨b, hb, hx⟩ := Option.map_eq_some_iff.1 h
  obtain ⟨hplace, rfl⟩ := imageBeatAt_eq_some.1 hx
  exact ⟨hb, hplace⟩

theorem length_requestBeats (s : State) (addr : Addr) (beats : List WriteBeat) :
    (requestBeats s addr beats).length = beats.length := by
  simp [requestBeats, imageBeats, classifyBeats]

theorem checkedRun_length (s : State) (tag : Nat) (addr : Addr) (beats : List WriteBeat) :
    checkedRun (recordedStage s.measure tag (requestBeats s addr beats)) (requestBeats s addr beats) beats.length =
      checkedStage s.measure tag (requestBeats s addr beats) := by
  rw [checkedRun, ← length_requestBeats s addr, List.take_length]
  rfl

end request

end Sys2Proof.Proofs

/-! A forwarded write whose beats all lie in one image, and one over any images (R25 to R32). -/

namespace Sys2Proof.Proofs
open Sys2Proof.Machine Sys2Proof.Laws

/-! ### Beats that follow one another in one image -/

/-- The beats of a request that lies in image i from the offset on. -/
def stretch (i : Nat) : Nat → List WriteBeat → List (Option ImageBeat)
  | _, [] => []
  | off, b :: rest => some { image := i, offset := off, beat := b } :: stretch i (off + 16) rest

theorem stretch_getElem? (i off : Nat) (beats : List WriteBeat) (k : Nat) : (stretch i off beats)[k]? =
    (beats[k]?).map (fun b => some { image := i, offset := off + 16 * k, beat := b }) := by
  induction beats generalizing off k with
  | nil => rfl
  | cons b rest ih =>
    cases k with
    | zero => rfl
    | succ k =>
      rw [stretch, List.getElem?_cons_succ, List.getElem?_cons_succ, ih,
        show off + 16 + 16 * k = off + 16 * (k + 1) by omega]

theorem requestBeats_eq_stretch {s : State} {addr : Addr} {beats : List WriteBeat} {i off : Nat}
    (h : ∀ k, k < beats.length → classify s (addr.toNat + 16 * k) = .image i (off + 16 * k)) :
    requestBeats s addr beats = stretch i off beats := by
  refine List.ext_getElem? fun k => ?_
  rw [requestBeats_getElem?, stretch_getElem?]
  cases hb : beats[k]? with
  | none => rfl
  | some b => rw [Option.map_some, Option.map_some, h k (List.getElem?_eq_some_iff.1 hb).1]; rfl

theorem mem_stretch {i off : Nat} {beats : List WriteBeat} {x : ImageBeat} (h : some x ∈ stretch i off beats) :
    x.image = i ∧ x.beat ∈ beats := by
  obtain ⟨k, hk⟩ := List.mem_iff_getElem?.1 h
  obtain ⟨b, hb, hx⟩ := Option.map_eq_some_iff.1 ((stretch_getElem? i off beats k).symm.trans hk)
  obtain rfl := Option.some.inj hx
  exact ⟨rfl, List.mem_of_getElem? hb⟩

section stretch
variable {m : MeasureState} {i off : Nat} {beats : List WriteBeat}

theorem touched_stretch (hopen : m.isOpen i = true) (hne : beats ≠ []) : m.touched (stretch i off beats) = [i] := by
  refine List.perm_singleton.1 ((List.perm_ext_iff_of_nodup (touched_nodup m _)
    (List.pairwise_singleton _ i)).2 fun j => ?_)
  rw [mem_touched, List.mem_singleton]
  constructor
  · rintro ⟨-, x, hx, rfl⟩
    exact (mem_stretch hx).1
  · rintro rfl
    obtain ⟨b, rest, rfl⟩ := List.exists_cons_of_ne_nil hne
    exact ⟨hopen, _, List.mem_cons_self, rfl⟩

theorem checkAll_stretch_keeps (h : (∃ b ∈ beats, beatPartial b = true) → ¬ m.isOpen i = true) :
    (stretch i off beats).foldl MeasureState.checkPartial m = m := by
  refine foldl_inv (· = m) _ _ (fun m' b hb hm' => ?_) m rfl
  rw [hm']
  refine checkPartial_keeps fun x hx hpartial => ?_
  obtain ⟨himage, hbeat⟩ := mem_stretch (hx ▸ hb)
  rw [himage]
  exact h ⟨_, hbeat, hpartial⟩

theorem not_isOpen_broken (hmeasuring : m.isMeasuring i = true) (why : BreakReason) :
    ¬ (m.breakImage i why).isOpen i = true := by
  rw [isOpen_iff, image?_breakImage hmeasuring, if_pos rfl]
  rintro ⟨g, hg, hst⟩
  obtain ⟨g', -, rfl⟩ := Option.map_eq_some_iff.1 hg
  obtain hst | hst := hst <;> cases hst

theorem isMeasuring_of_isOpen (h : m.isOpen i = true) : m.isMeasuring i = true := by
  obtain ⟨g, hg, hst⟩ := (isOpen_iff m i).1 h
  rw [MeasureState.isMeasuring, hg]
  obtain hst | hst := hst <;> rw [Option.any_some, hst] <;> rfl

theorem checkAll_stretch_breaks (hopen : m.isOpen i = true) (h : ∃ b ∈ beats, beatPartial b = true) :
    (stretch i off beats).foldl MeasureState.checkPartial m = m.breakImage i .partialBeat := by
  induction beats generalizing off with
  | nil => obtain ⟨b, hb, -⟩ := h; cases hb
  | cons b rest ih =>
    rw [stretch, List.foldl_cons]
    by_cases hb : beatPartial b = true
    · rw [checkPartial_breaks hb hopen]
      exact checkAll_stretch_keeps fun _ => not_isOpen_broken (isMeasuring_of_isOpen hopen) .partialBeat
    · have hkept : m.checkPartial (some { image := i, offset := off, beat := b }) = m :=
        checkPartial_keeps fun x hx hpartial => by
          cases hx
          exact absurd hpartial hb
      rw [hkept]
      obtain ⟨b', hb', hpartial⟩ := h
      obtain rfl | hmem := List.mem_cons.1 hb'
      · exact absurd hpartial hb
      · exact ih ⟨b', hmem, hpartial⟩

theorem groups_of_none_kept {beats : List (Option ImageBeat)} (h : ∀ x, some x ∈ beats → ¬ m.keeps x = true) :
    m.groups beats = [] := by
  obtain ⟨L, hL, hspan, -, -⟩ := groups_spec m beats
  cases L with
  | nil => exact hL
  | cons p L =>
    obtain ⟨hsize, hbeats⟩ := hspan p List.mem_cons_self
    obtain ⟨b, hb, hkept, -⟩ := hbeats 0 hsize
    exact absurd hkept (h b (List.mem_of_getElem? hb))

/-- Kept beats that go on in the image of the open group join it (R27). -/
theorem foldl_groupBeat_stretch (hopen : m.isOpen i = true) (hfull : ∀ b ∈ beats, b.strobes = 0xFFFF)
    (done : List Group) (data : List Beat) (start : Nat) (hoff : off = start + 16 * data.length) :
    (stretch i off beats).foldl m.groupBeat { done := done, current := some { image := i, start := start, data := data } } =
      { done := done, current := some { image := i, start := start, data := data ++ beats.map (·.data) } } := by
  induction beats generalizing off data with
  | nil => rw [List.map_nil, List.append_nil]; rfl
  | cons b rest ih =>
    obtain ⟨hb, hrest⟩ := List.forall_mem_cons.1 hfull
    have hkept : m.keeps { image := i, offset := off, beat := b } = true := (keeps_iff m _).2 ⟨hb, hopen⟩
    have hjoins : m.groupBeat { done := done, current := some { image := i, start := start, data := data } }
        (some { image := i, offset := off, beat := b }) =
        { done := done, current := some { image := i, start := start, data := data ++ [b.data] } } :=
      (if_pos hkept).trans (if_pos ⟨rfl, hoff.symm⟩)
    rw [stretch, List.foldl_cons, hjoins, ih hrest (data ++ [b.data]) (by rw [List.length_append, hoff]; simp; omega),
      List.append_assoc]
    rfl

theorem groups_stretch (hopen : m.isOpen i = true) (hne : beats ≠ []) (hfull : ∀ b ∈ beats, b.strobes = 0xFFFF) :
    m.groups (stretch i off beats) = [{ image := i, start := off, data := beats.map (·.data) }] := by
  obtain ⟨b, rest, rfl⟩ := List.exists_cons_of_ne_nil hne
  obtain ⟨hb, hrest⟩ := List.forall_mem_cons.1 hfull
  have hkept : m.keeps { image := i, offset := off, beat := b } = true := (keeps_iff m _).2 ⟨hb, hopen⟩
  have hfirst : m.groupBeat { done := [], current := none } (some { image := i, offset := off, beat := b }) =
      { done := [], current := some { image := i, start := off, data := [b.data] } } := if_pos hkept
  rw [MeasureState.groups, stretch, List.foldl_cons, hfirst,
    foldl_groupBeat_stretch (off := off + 16) hopen hrest [] [b.data] off rfl]
  rfl

end stretch

end Sys2Proof.Proofs

/-! The placing of a forwarded write in its images, for one image and for any (R25 to R32). -/

namespace Sys2Proof.Proofs
open Sys2Proof.Machine Sys2Proof.Laws

/-! ### A group against the state it meets -/

theorem handleGroup_rows (m : MeasureState) (q : SeqNo) (x : Group) (g : Image) (hg : m.image? x.image = some g) :
    let stop := x.start + 16 * x.data.length
    let rewrite := x.start < g.cursor + 16 * g.handOff ∨ ∃ r ∈ g.runs, x.start < r.stop ∧ r.start < stop
    let merges := ∃ r ∈ g.runs, r.body.isDeferred = true ∧ (r.stop = x.start ∨ r.start = stop)
    let room := x.data.length ≤ 1024 - m.slotsUsed ∧ 0 < 256 - m.entriesUsed
    let placed (runs : List Run) : MeasureState :=
      if g.state = .declared then
        (m.modImage x.image (fun g => { g with runs := runs })).enter x.image .filling
      else m.modImage x.image (fun g => { g with runs := runs })
    (g.state ≠ .declared → g.state ≠ .filling → m.handleGroup q x = m) ∧
    (g.state = .declared ∨ g.state = .filling →
      (rewrite → m.handleGroup q x = m.breakImage x.image .rewrite) ∧
      (¬ rewrite → room → m.handleGroup q x =
        placed (insertRun { start := x.start, body := .staged x.data } g.runs)) ∧
      (¬ rewrite → ¬ room → (merges ∨ 0 < 256 - m.entriesUsed) →
        m.handleGroup q x = placed (deferRun x q g.runs)) ∧
      (¬ rewrite → ¬ merges → 256 - m.entriesUsed = 0 →
        m.handleGroup q x = m.breakImage x.image .runsExhausted)) := by
  intro stop rewrite merges room placed
  have hrewrite : isRewrite g x = true ↔ rewrite := isRewrite_iff g x
  have hmerges : mergesDeferred x g.runs = true ↔ merges := mergesDeferred_iff x g.runs
  rw [← hrewrite, ← hmerges]
  refine ⟨handleGroup_closed hg q, fun hopen => ⟨handleGroup_rewrite hg q hopen, fun hnew hroom => ?_,
    fun hnew hroom hentry => ?_, handleGroup_exhausted hg q hopen⟩⟩
  · exact (handleGroup_staged hg q hopen hnew hroom).trans (place_eq hg (stageRun x))
  · exact (handleGroup_deferred hg q hopen hnew hroom hentry).trans (place_eq hg (deferRun x q))

/-! ### A write into one image -/

theorem map_modify {α β : Type} {p : α → β} {f : α → α} (h : ∀ x, p (f x) = p x) (l : List α) (k : Nat) :
    (l.modify k f).map p = l.map p := by
  refine List.ext_getElem? fun j => ?_
  rw [List.getElem?_map, List.getElem?_map, List.getElem?_modify]
  split
  · cases l[j]? with
    | none => rfl
    | some x => exact congrArg some (h x)
  · rw [id_map']

/-- The count of writes in flight takes no run entry and no staging slot. -/
theorem used_countWrite (m : MeasureState) (i : Nat) :
    (m.modImage i countWrite).slotsUsed = m.slotsUsed ∧ (m.modImage i countWrite).entriesUsed = m.entriesUsed := by
  unfold MeasureState.slotsUsed MeasureState.entriesUsed MeasureState.modImage
  split
  · exact ⟨rfl, rfl⟩
  · exact ⟨congrArg List.sum (map_modify (p := Image.slotsUsed) (f := countWrite) (fun _ => rfl) _ _),
      congrArg List.sum (map_modify (p := Image.entriesUsed) (f := countWrite) (fun _ => rfl) _ _)⟩

theorem measureWrite_empty {m : MeasureState} {i off tag : Nat} {beats : List WriteBeat}
    (h : ∀ b ∈ beats, b.strobes = 0) :
    m.measureWrite tag (stretch i off beats) = recordedStage m tag (stretch i off beats) := by
  have hchecked : checkedStage m tag (stretch i off beats) = recordedStage m tag (stretch i off beats) :=
    checkAll_stretch_keeps fun ⟨b, hb, hpartial⟩ => absurd (h b hb) ((beatPartial_iff b).1 hpartial).1
  rw [measureWrite_eq, hchecked, groups_of_none_kept fun x hx hkept => ?_]
  · rfl
  · have hfull := ((keeps_iff _ x).1 hkept).1
    rw [h _ (mem_stretch hx).2] at hfull
    cases hfull

section oneImage
variable {m : MeasureState} {i off tag : Nat} {g : Image} {beats : List WriteBeat}
  (hg : m.image? i = some g) (hopen : g.state = .declared ∨ g.state = .filling) (hne : beats ≠ [])
include hg hopen hne

/-- The write numbered, entered and recorded in its one image (R23 to R25). -/
theorem recordedStage_stretch : recordedStage m tag (stretch i off beats) =
    { m.modImage i countWrite with
      entries := m.entries ++ [{ tag := tag, seq := m.giveNumber, recorded := [(i, g.epoch)] }]
      nextSeq := nextNumber m.giveNumber.number
      nextOrder := m.nextOrder + 1 } := by
  have hrecord : recordOf m i = some (i, g.epoch) := by rw [recordOf, hg]; rfl
  rw [recordedStage, touched_stretch ((isOpen_iff m i).2 ⟨g, hg, hopen⟩) hne, List.foldl_cons, List.foldl_nil,
    recordIn_last (m := m.addEntry tag) (E := m.entries) rfl i,
    show recordOf (m.addEntry tag) i = some (i, g.epoch) from hrecord]
  rfl

theorem image?_recordedStage_stretch :
    (recordedStage m tag (stretch i off beats)).image? i = some (countWrite g) := by
  rw [recordedStage_stretch hg hopen hne]
  exact (image?_modImage m i i countWrite).trans ((if_pos rfl).trans (congrArg _ hg))

theorem isOpen_recordedStage_stretch : (recordedStage m tag (stretch i off beats)).isOpen i = true :=
  (isOpen_iff _ i).2 ⟨_, image?_recordedStage_stretch hg hopen hne, hopen⟩

theorem measureWrite_partial (h : ∃ b ∈ beats, beatPartial b = true) : m.measureWrite tag (stretch i off beats) =
    (recordedStage m tag (stretch i off beats)).breakImage i .partialBeat := by
  have hstage := isOpen_recordedStage_stretch (tag := tag) (off := off) hg hopen hne
  have hchecked : checkedStage m tag (stretch i off beats) =
      (recordedStage m tag (stretch i off beats)).breakImage i .partialBeat := checkAll_stretch_breaks hstage h
  rw [measureWrite_eq, hchecked, groups_of_none_kept fun x hx hkept => ?_]
  · rfl
  · have hstays := ((keeps_iff _ x).1 hkept).2
    rw [(mem_stretch hx).1] at hstays
    exact not_isOpen_broken (isMeasuring_of_isOpen hstage) .partialBeat hstays

theorem measureWrite_full (h : ∀ b ∈ beats, b.strobes = 0xFFFF) : m.measureWrite tag (stretch i off beats) =
    (recordedStage m tag (stretch i off beats)).handleGroup m.giveNumber
      { image := i, start := off, data := beats.map (·.data) } := by
  have hchecked : checkedStage m tag (stretch i off beats) = recordedStage m tag (stretch i off beats) :=
    checkAll_stretch_keeps fun ⟨b, hb, hpartial⟩ => absurd (h b hb) ((beatPartial_iff b).1 hpartial).2
  rw [measureWrite_eq, hchecked, groups_stretch (isOpen_recordedStage_stretch hg hopen hne) hne h]
  rfl

end oneImage

theorem beatForwards_open {s : State} (harmed : s.manifest.phase = .armed) {i : Nat} {g : Image}
    (hg : s.measure.image? i = some g) (hopen : g.state = .declared ∨ g.state = .filling) (x : Nat) :
    beatForwards s .write (.image i x) = true := by
  rw [beatForwards_armed harmed, armedForwards, hg]
  exact (imageForwards_write g).2 (hopen.imp_right .inl)

/-- A write that lies in one open image is forwarded and measured as its stretch of beats. -/
theorem exec_write_stretch (s : State) (tag : Nat) (addr : Addr) (beats : List WriteBeat) (i off : Nat) (g : Image)
    (harmed : s.manifest.phase = .armed) (hroom : s.link.occupied < 16)
    (hform : malformed s.link .write tag addr beats.length = false)
    (hplace : ∀ k, k < beats.length → classify s (addr.toNat + 16 * k) = .image i (off + 16 * k))
    (hg : s.measure.image? i = some g) (hopen : g.state = .declared ∨ g.state = .filling) :
    beats ≠ [] ∧ exec (.hostWriteAccept tag addr beats) s = .next (State.settle { s with
      link := { s.link with
        hostWrites := s.link.hostWrites ++ [tag], memWrites := s.link.memWrites ++ [tag],
        forward := s.link.forward ++ [.write tag addr beats] }
      measure := s.measure.measureWrite tag (stretch i off beats) }) := by
  have hpos := beats_pos_of_wellFormed hform
  have hforwards (k : Nat) (hk : k < beats.length) :
      beatForwards s .write (classify s (addr.toNat + 16 * k)) = true := by
    rw [hplace k hk]
    exact beatForwards_open harmed hg hopen _
  have hfirst : classify s addr.toNat ≠ .header 1 := by
    rw [show classify s addr.toNat = .image i (off + 16 * 0) from hplace 0 hpos]
    nofun
  refine ⟨List.ne_nil_of_length_pos hpos, ?_⟩
  rw [exec_hostWriteAccept_armed harmed hroom hform hforwards hfirst, requestBeats_eq_stretch hplace]

/-- Settles O13: the stages of the measuring, first with every beat in one image, then in general. -/
theorem writeIntoOneImage : Obligations.WriteIntoOneImage := by
  refine ⟨fun s tag addr beats i off g harmed hroom hform hplace hg hopen m₀ hm₀ => ?one,
    fun s tag addr beats harmed hroom hform hforwards hheader => ?many, handleGroup_rows⟩
  case one =>
    intro forwarded stop rewrite merges group placed
    obtain ⟨hne, hexec⟩ := exec_write_stretch s tag addr beats i off g harmed hroom hform hplace hg hopen
    have hstage : recordedStage s.measure tag (stretch i off beats) = m₀ :=
      (recordedStage_stretch hg hopen hne).trans hm₀.symm
    have himage : m₀.image? group.image = some (countWrite g) := by
      rw [← hstage]
      exact image?_recordedStage_stretch hg hopen hne
    obtain ⟨hslots, hentries⟩ := used_countWrite s.measure i
    have hslots' : m₀.slotsUsed = s.measure.slotsUsed := by rw [hm₀]; exact hslots
    have hentries' : m₀.entriesUsed = s.measure.entriesUsed := by rw [hm₀]; exact hentries
    obtain ⟨-, hrows⟩ := handleGroup_rows m₀ s.measure.giveNumber group (countWrite g) himage
    rw [hslots', hentries', show group.data.length = beats.length from List.length_map ..] at hrows
    obtain ⟨hrewrite, hstaged, hdeferred, hexhausted⟩ := hrows hopen
    refine ⟨fun ⟨b, hb, hempty, hfull⟩ => ?_, fun hempty => ?_, fun hfull => ?_⟩
    · rw [hexec, measureWrite_partial hg hopen hne ⟨b, hb, (beatPartial_iff b).2 ⟨hempty, hfull⟩⟩, hstage]
    · rw [hexec, measureWrite_empty hempty, hstage]
    · rw [hexec, measureWrite_full hg hopen hne hfull, hstage]
      refine ⟨fun h => ?_, fun h hs he => ?_, fun h hn hm => ?_, fun h hn he => ?_⟩
      · rw [hrewrite h]
      · rw [hstaged h ⟨hs, he⟩]
        rfl
      · rw [hdeferred h hn hm]
        rfl
      · rw [hexhausted h hn he]
  case many =>
    intro place opens holds size
    have hopens (m : MeasureState) (i : Nat) : m.isOpen i = true ↔ opens m i := isOpen_iff m i
    have hholds (i : Nat) : holdsBeat (requestBeats s addr beats) i ↔ holds i := holdsBeat_iff s addr beats i
    obtain ⟨images, recorded, hstage, hlength, hrecorded, himage⟩ :=
      recordedStage_spec s.measure tag (requestBeats s addr beats)
    obtain ⟨groups, hgroups, hspans, hapart, hcovers⟩ :=
      groups_spec (checkedStage s.measure tag (requestBeats s addr beats)) (requestBeats s addr beats)
    refine ⟨recordedStage s.measure tag (requestBeats s addr beats),
      checkedStage s.measure tag (requestBeats s addr beats), recorded, groups, by rw [hstage], by rw [hstage, hlength],
      fun i n => ?_, fun i g hg => ⟨fun hopen hi => ?_, fun hnot => ?_⟩,
      ⟨checkedRun _ (requestBeats s addr beats), rfl, checkedRun_length s tag addr beats, fun k b hb => ⟨?_, ?_⟩⟩,
      fun p hp => ?_, hapart, fun k b i x hb hfull hx hopen => ?_, ?_⟩
    · rw [hrecorded]
      refine exists_congr fun g => and_congr_right fun hg => ?_
      rw [hholds]
      exact and_congr_left fun _ => ⟨fun hst => ⟨g, hg, hst⟩, fun ⟨g', hg', hst⟩ => Option.some.inj (hg'.symm.trans hg) ▸ hst⟩
    · rw [(himage i).1 ⟨(hopens _ i).2 hopen, (hholds i).2 hi⟩, hg]
      rfl
    · rw [(himage i).2 (by rwa [hopens, hholds]), hg]
    · intro i x hx hempty hfull hopen
      rw [checkedRun_succ _ (requestBeats_some hb hx)]
      exact checkPartial_breaks ((beatPartial_iff b).2 ⟨hempty, hfull⟩) ((hopens _ i).2 hopen)
    · intro hkept
      rw [checkedRun_succ _ (b := imageBeatAt (place k) b) (by rw [requestBeats_getElem?, hb]; rfl)]
      refine checkPartial_keeps fun x hx hpartial hopen => ?_
      obtain ⟨hregion, rfl⟩ := imageBeatAt_eq_some.1 hx
      obtain ⟨hempty, hfull⟩ := (beatPartial_iff _).1 hpartial
      obtain h | h | h := hkept
      · exact hempty h
      · exact hfull h
      · exact h _ _ hregion ((hopens _ _).1 hopen)
    · obtain ⟨hsize, hbeats⟩ := hspans p hp
      refine ⟨hsize, fun j hj => ?_⟩
      obtain ⟨b, hb, hkept, himage, hoffset, hdata⟩ := hbeats j hj
      obtain ⟨hbeat, hplace⟩ := beat_of_requestBeats hb
      obtain ⟨hfull, hopen⟩ := (keeps_iff _ b).1 hkept
      rw [himage, hoffset] at hplace
      rw [himage] at hopen
      exact ⟨b.beat, hbeat, hfull, hplace, (hopens _ _).1 hopen, hdata⟩
    · exact hcovers k _ (requestBeats_some hb hx) ((keeps_iff _ _).2 ⟨hfull, (hopens _ i).2 hopen⟩)
    · rw [exec_hostWriteAccept_armed harmed hroom hform hforwards hheader, measureWrite_eq, hgroups]

end Sys2Proof.Proofs

/-! Images that take their turns in increasing order, each with a cascade of its own (R35, R36, R128, R129): the
shape of a write response, whether it brings verdicts or breaks. -/

namespace Sys2Proof.Proofs
open Sys2Proof.Machine Sys2Proof.Laws

/-! ### Dependents -/

theorem dependsOn_trans {m : MeasureState} {x y z : Nat} (h : dependsOn m x y) (h' : dependsOn m y z) :
    dependsOn m x z := by
  induction h' with
  | direct hg hp => exact .through hg hp h
  | through hg hp _ ih => exact .through hg hp ih

theorem mem_dependents_trans {m : MeasureState} (hlower : m.predecessorsLower) {x y z : Nat}
    (h : y ∈ m.dependents x) (h' : z ∈ m.dependents y) : z ∈ m.dependents x :=
  (mem_dependents hlower x z).2 (dependsOn_trans ((mem_dependents hlower x y).1 h) ((mem_dependents hlower y z).1 h'))

theorem dependents_of_evolves {m m' : MeasureState} (h : Evolves m m') (x : Nat) :
    m'.dependents x = m.dependents x := by
  refine dependents_congr h.length (fun d => ?_) x
  cases hd : m.image? d with
  | none => rw [image?_none_congr h.length hd]
  | some g =>
    obtain ⟨g', hg', hevolves⟩ := h.images d g hd
    rw [hg', Option.map_some, Option.map_some, hevolves.declared]

/-! ### One turn -/

/-- What one image's turn does: nothing unless the image acts; otherwise it becomes what `own` says, its dependents
are broken when it fails, and it joins the release lines' record when it verifies. -/
structure Turn (turn : MeasureState → Nat → MeasureState) (own : Image → Image) (acts fails verifies : Image → Prop) :
    Prop where
  evolves : ∀ m i, Evolves m (turn m i)
  measuring : ∀ g, acts g → g.state.isMeasuring = true
  failing : ∀ g, fails g → acts g
  verifying : ∀ g, verifies g → acts g
  idle : ∀ m i g, m.image? i = some g → ¬ acts g → turn m i = m
  self : ∀ m i g, m.image? i = some g → (turn m i).image? i = some (own g)
  dependent : ∀ m i g j, m.image? i = some g → fails g → j ≠ i → j ∈ m.dependents i →
    (turn m i).image? j = (m.image? j).map (breakIfMeasuring .predecessorFailed)
  other : ∀ m i g j, m.image? i = some g → j ≠ i → ¬ (fails g ∧ j ∈ m.dependents i) →
    (turn m i).image? j = m.image? j
  verified : ∀ m i g j, m.image? i = some g → (j ∈ (turn m i).verified ↔ j ∈ m.verified ∨ j = i ∧ verifies g)

/-! ### Turns one after another -/

/-- Image i is a dependent of an image of the list that fails. -/
def lostIn (fails : Image → Prop) (m : MeasureState) (L : List Nat) (i : Nat) : Prop :=
  ∃ x ∈ L, (∃ g, m.image? x = some g ∧ fails g) ∧ i ∈ m.dependents x

/-- The state after the images of the list have had their turns, against the state before. -/
structure TurnsTaken (own : Image → Image) (fails verifies : Image → Prop) (m₀ : MeasureState) (L : List Nat)
    (m : MeasureState) : Prop where
  evolves : Evolves m₀ m
  lost : ∀ i g, m₀.image? i = some g → g.state.isMeasuring = true → lostIn fails m₀ L i →
    m.image? i = some (brokenImage .predecessorFailed g)
  taken : ∀ i g, m₀.image? i = some g → i ∈ L → ¬ (lostIn fails m₀ L i ∧ g.state.isMeasuring = true) →
    m.image? i = some (own g)
  rest : ∀ i g, m₀.image? i = some g → i ∉ L → ¬ (lostIn fails m₀ L i ∧ g.state.isMeasuring = true) →
    m.image? i = some g
  verified : ∀ i, i ∈ m.verified ↔
    i ∈ m₀.verified ∨ i ∈ L ∧ ¬ lostIn fails m₀ L i ∧ ∃ g, m₀.image? i = some g ∧ verifies g

theorem breakIfMeasuring_broken (why : BreakReason) (g : Image) :
    breakIfMeasuring why (brokenImage why g) = brokenImage why g := if_neg Bool.false_ne_true

theorem lostIn_append (fails : Image → Prop) {m : MeasureState} {L : List Nat} {x : Nat} {g : Image}
    (hg : m.image? x = some g) (i : Nat) :
    lostIn fails m (L ++ [x]) i ↔ lostIn fails m L i ∨ fails g ∧ i ∈ m.dependents x := by
  unfold lostIn
  constructor
  · rintro ⟨y, hy, hfails, hi⟩
    obtain hy | hy := List.mem_append.1 hy
    · exact .inl ⟨y, hy, hfails, hi⟩
    · obtain rfl := List.mem_singleton.1 hy
      obtain ⟨g', hg', hfails⟩ := hfails
      exact .inr ⟨Option.some.inj (hg'.symm.trans hg) ▸ hfails, hi⟩
  · rintro (⟨y, hy, hfails, hi⟩ | ⟨hfails, hi⟩)
    · exact ⟨y, List.mem_append_left _ hy, hfails, hi⟩
    · exact ⟨x, List.mem_append_right _ (List.mem_singleton.2 rfl), ⟨g, hg, hfails⟩, hi⟩

section turns
variable {turn : MeasureState → Nat → MeasureState} {own : Image → Image} {acts fails verifies : Image → Prop}
  (hturn : Turn turn own acts fails verifies) {m₀ m : MeasureState} (hlower : m₀.predecessorsLower)
  {L : List Nat} {x : Nat} {gx : Image} (hgx : m₀.image? x = some gx) (hL : ∀ y ∈ L, y < x)

theorem turnsTaken_nil : TurnsTaken own fails verifies m₀ [] m₀ := by
  have hnone (i : Nat) : ¬ lostIn fails m₀ [] i := by
    rintro ⟨x, hx, -⟩
    cases hx
  refine ⟨.refl m₀, fun i g _ _ h => absurd h (hnone i), fun i g _ h => absurd h List.not_mem_nil,
    fun i g hg _ _ => hg, fun i => ?_⟩
  simp

include hturn hlower hgx hL

/-- The turn of an image that an earlier one has taken down: nothing is left to act. -/
theorem turnsTaken_of_lost (h : TurnsTaken own fails verifies m₀ L m) (hlost : lostIn fails m₀ L x)
    (hmeasuring : gx.state.isMeasuring = true) : TurnsTaken own fails verifies m₀ (L ++ [x]) (turn m x) := by
  have himage := h.lost x gx hgx hmeasuring hlost
  have hidle : turn m x = m := hturn.idle m x _ himage fun hacts => by cases hturn.measuring _ hacts
  have hsame (i : Nat) : lostIn fails m₀ (L ++ [x]) i ↔ lostIn fails m₀ L i := by
    rw [lostIn_append fails hgx]
    refine or_iff_left_of_imp fun ⟨_, hi⟩ => ?_
    obtain ⟨y, hy, hfails, hxy⟩ := hlost
    exact ⟨y, hy, hfails, mem_dependents_trans hlower hxy hi⟩
  rw [hidle]
  refine ⟨h.evolves, fun i g hg hm hi => h.lost i g hg hm ((hsame i).1 hi), fun i g hg hi hnot => ?_,
    fun i g hg hi hnot => h.rest i g hg (fun hiL => hi (List.mem_append_left _ hiL)) (by rwa [← hsame]), fun i => ?_⟩
  · rw [hsame] at hnot
    obtain hi | hi := List.mem_append.1 hi
    · exact h.taken i g hg hi hnot
    · obtain rfl := List.mem_singleton.1 hi
      obtain rfl : gx = g := Option.some.inj (hgx.symm.trans hg)
      exact absurd ⟨hlost, hmeasuring⟩ hnot
  · rw [h.verified, hsame, List.mem_append, List.mem_singleton]
    refine or_congr Iff.rfl (and_congr_left fun ⟨hnot, _⟩ => ?_)
    exact (or_iff_left fun hix : i = x => hnot (hix ▸ hlost)).symm

/-- The turn of an image that no earlier one has taken down. -/
theorem turnsTaken_of_standing (h : TurnsTaken own fails verifies m₀ L m)
    (hstands : ¬ (lostIn fails m₀ L x ∧ gx.state.isMeasuring = true)) :
    TurnsTaken own fails verifies m₀ (L ++ [x]) (turn m x) := by
  have hxL : x ∉ L := fun hx => Nat.lt_irrefl x (hL x hx)
  have himage := h.rest x gx hgx hxL hstands
  have hdependents := dependents_of_evolves h.evolves x
  have habove {i : Nat} (hi : i ∈ m₀.dependents x) : x < i := lt_of_mem_dependents hlower hi
  have hlost := lostIn_append fails (L := L) hgx
  have hbelow {i : Nat} (hi : i ≤ x) : lostIn fails m₀ (L ++ [x]) i ↔ lostIn fails m₀ L i := by
    rw [hlost]
    exact or_iff_left fun hd => absurd (habove hd.2) (Nat.not_lt.2 hi)
  have hother {i : Nat} (hi : i ≠ x) (hd : ¬ (fails gx ∧ i ∈ m₀.dependents x)) :
      (turn m x).image? i = m.image? i := hturn.other m x gx i himage hi (by rwa [hdependents])
  have hbreaks {i : Nat} (hfails : fails gx) (hd : i ∈ m₀.dependents x) :
      (turn m x).image? i = (m.image? i).map (breakIfMeasuring .predecessorFailed) :=
    hturn.dependent m x gx i himage hfails (Nat.ne_of_gt (habove hd)) (by rwa [hdependents])
  refine ⟨h.evolves.trans (hturn.evolves m x), fun i g hg hm hi => ?_, fun i g hg hi hnot => ?_,
    fun i g hg hi hnot => ?_, fun i => ?_⟩
  · by_cases hd : fails gx ∧ i ∈ m₀.dependents x
    · rw [hbreaks hd.1 hd.2]
      by_cases hearlier : lostIn fails m₀ L i
      · rw [h.lost i g hg hm hearlier, Option.map_some, breakIfMeasuring_broken]
      · have hiL : i ∉ L := fun hiL => absurd (hL i hiL) (Nat.not_lt.2 (Nat.le_of_lt (habove hd.2)))
        rw [h.rest i g hg hiL fun hc => hearlier hc.1]
        exact congrArg some (if_pos hm)
    · have hearlier := ((hlost i).1 hi).resolve_right hd
      have hix : i ≠ x := by
        rintro rfl
        obtain rfl : gx = g := Option.some.inj (hgx.symm.trans hg)
        exact hstands ⟨hearlier, hm⟩
      rw [hother hix hd]
      exact h.lost i g hg hm hearlier
  · obtain hi | hi := List.mem_append.1 hi
    · have hix := hL i hi
      rw [hbelow (Nat.le_of_lt hix)] at hnot
      rw [hother (Nat.ne_of_lt hix) fun hd => absurd (habove hd.2) (Nat.not_lt.2 (Nat.le_of_lt hix))]
      exact h.taken i g hg hi hnot
    · obtain rfl := List.mem_singleton.1 hi
      obtain rfl : gx = g := Option.some.inj (hgx.symm.trans hg)
      exact hturn.self m i gx himage
  · obtain ⟨hiL, hix⟩ := not_or.1 (mt List.mem_append.2 hi)
    rw [List.mem_singleton] at hix
    have hrest := h.rest i g hg hiL fun hc => hnot ⟨(hlost i).2 (.inl hc.1), hc.2⟩
    by_cases hd : fails gx ∧ i ∈ m₀.dependents x
    · rw [hbreaks hd.1 hd.2, hrest]
      exact congrArg some (if_neg fun hm => hnot ⟨(hlost i).2 (.inr hd), hm⟩)
    · rw [hother hix hd, hrest]
  · rw [hturn.verified m x gx i himage, h.verified, or_assoc, List.mem_append, List.mem_singleton]
    refine or_congr Iff.rfl ?_
    constructor
    · rintro (⟨hi, hnot, hverifies⟩ | ⟨rfl, hverifies⟩)
      · exact ⟨.inl hi, mt (hbelow (Nat.le_of_lt (hL i hi))).1 hnot, hverifies⟩
      · refine ⟨.inr rfl, fun hl => ?_, gx, hgx, hverifies⟩
        exact hstands ⟨(hbelow (Nat.le_refl _)).1 hl, hturn.measuring _ (hturn.verifying _ hverifies)⟩
    · rintro ⟨hi | rfl, hnot, hverifies⟩
      · exact .inl ⟨hi, mt (hbelow (Nat.le_of_lt (hL i hi))).2 hnot, hverifies⟩
      · obtain ⟨g, hg, hverifies⟩ := hverifies
        exact .inr ⟨rfl, Option.some.inj (hg.symm.trans hgx) ▸ hverifies⟩

theorem turnsTaken_step (h : TurnsTaken own fails verifies m₀ L m) :
    TurnsTaken own fails verifies m₀ (L ++ [x]) (turn m x) := by
  by_cases hlost : lostIn fails m₀ L x ∧ gx.state.isMeasuring = true
  · exact turnsTaken_of_lost hturn hlower hgx hL h hlost.1 hlost.2
  · exact turnsTaken_of_standing hturn hlower hgx hL h hlost

end turns

section fold
variable {turn : MeasureState → Nat → MeasureState} {own : Image → Image} {acts fails verifies : Image → Prop}
  (hturn : Turn turn own acts fails verifies) {m : MeasureState} {L : List Nat}
include hturn

theorem turnsTaken_foldl (hlower : m.predecessorsLower) (hsorted : L.Pairwise (· < ·))
    (hsome : ∀ x ∈ L, ∃ g, m.image? x = some g) : TurnsTaken own fails verifies m L (L.foldl turn m) := by
  induction L using concatInduction with
  | nil => exact turnsTaken_nil
  | append_singleton L x ih =>
    obtain ⟨hL, -, hbelow⟩ := List.pairwise_append.1 hsorted
    obtain ⟨g, hg⟩ := hsome x (List.mem_append_right _ (List.mem_singleton.2 rfl))
    rw [List.foldl_append]
    exact turnsTaken_step hturn hlower hg (fun y hy => hbelow y hy x (List.mem_singleton.2 rfl))
      (ih hL fun y hy => hsome y (List.mem_append_left _ hy))

theorem foldl_turn_idle (hidle : ∀ x ∈ L, ∃ g, m.image? x = some g ∧ ¬ acts g) : L.foldl turn m = m := by
  refine foldl_inv (· = m) turn L (fun m' x hx hm' => ?_) m rfl
  obtain ⟨g, hg, hacts⟩ := hidle x hx
  rw [hm']
  exact hturn.idle m x g hg hacts

end fold

end Sys2Proof.Proofs

/-! The order tracker at a write response: the counts, the turns of the images it acts on, the settlement (R34 to
R37). -/

namespace Sys2Proof.Proofs
open Sys2Proof.Machine Sys2Proof.Laws

/-! ### One write fewer in flight -/

/-- The image after the response: one write fewer in flight when it is recorded in its epoch (R35). -/
def fewer (recorded : List (Nat × BitVec 8)) (i : Nat) (g : Image) : Image :=
  { g with inFlight := if (i, g.epoch) ∈ recorded then g.inFlight - 1 else g.inFlight }

theorem fewer_of_mem {recorded : List (Nat × BitVec 8)} {i : Nat} {g : Image} (h : (i, g.epoch) ∈ recorded) :
    fewer recorded i g = { g with inFlight := g.inFlight - 1 } := by
  rw [fewer, if_pos h]

theorem fewer_of_not_mem {recorded : List (Nat × BitVec 8)} {i : Nat} {g : Image}
    (h : (i, g.epoch) ∉ recorded) : fewer recorded i g = g := by
  rw [fewer, if_neg h]

theorem mem_current (m : MeasureState) (recorded : List (Nat × BitVec 8)) (i : Nat) :
    i ∈ m.current recorded ↔ ∃ g, m.image? i = some g ∧ (i, g.epoch) ∈ recorded := by
  rw [MeasureState.current, List.mem_filter, Option.any_eq_true]
  simp only [List.contains_iff_mem]
  refine ⟨And.right, fun h => ⟨?_, h⟩⟩
  obtain ⟨g, hg, -⟩ := h
  have hbounds := (image?_isSome m i).1 (by rw [hg]; rfl)
  exact List.mem_map.2 ⟨i - 1, List.mem_range.2 (by omega), by omega⟩

theorem current_increasing (m : MeasureState) (recorded : List (Nat × BitVec 8)) :
    (m.current recorded).Pairwise (· < ·) := (indices_increasing m).filter _

theorem foldl_answered {L : List Nat} (hnodup : L.Nodup) (m : MeasureState) :
    L.foldl MeasureState.answered m = { m with images := (L.foldl MeasureState.answered m).images } ∧
      ∀ j, (L.foldl MeasureState.answered m).image? j =
        if j ∈ L then (m.image? j).map (fun g => { g with inFlight := g.inFlight - 1 }) else m.image? j := by
  induction L generalizing m with
  | nil => exact ⟨rfl, fun j => (if_neg List.not_mem_nil).symm⟩
  | cons a L ih =>
    obtain ⟨ha, hL⟩ := List.nodup_cons.1 hnodup
    obtain ⟨heq, himage⟩ := ih hL (m.answered a)
    have hone : m.answered a = { m with images := (m.answered a).images } := by
      unfold MeasureState.answered MeasureState.modImage
      (repeat' split) <;> rfl
    refine ⟨?_, fun j => ?_⟩
    · rw [List.foldl_cons]
      exact heq.trans (congrArg (fun x : MeasureState =>
        { x with images := (L.foldl MeasureState.answered (m.answered a)).images }) hone)
    · rw [List.foldl_cons, himage, MeasureState.answered, image?_modImage]
      by_cases hj : j ∈ L
      · rw [if_pos hj, if_pos (List.mem_cons_of_mem _ hj), if_neg fun haj : a = j => ha (haj ▸ hj)]
      · rw [if_neg hj]
        exact ite_congr (propext (by simp [hj, eq_comm])) (fun _ => rfl) fun _ => rfl

/-- The measurement once the entry has left and the counts are lowered. -/
def counted (m : MeasureState) (entries : List WriteEntry) (recorded : List (Nat × BitVec 8)) : MeasureState :=
  (m.current recorded).foldl MeasureState.answered { m with entries := entries }

section counted
variable (m : MeasureState) (entries : List WriteEntry) (recorded : List (Nat × BitVec 8))

theorem counted_eq : counted m entries recorded =
    { m with images := (counted m entries recorded).images, entries := entries } :=
  (foldl_answered ((current_increasing m recorded).imp Nat.ne_of_lt) { m with entries := entries }).1

theorem image?_counted {i : Nat} {g : Image} (hg : m.image? i = some g) :
    (counted m entries recorded).image? i = some (fewer recorded i g) := by
  have himage := (foldl_answered ((current_increasing m recorded).imp Nat.ne_of_lt) { m with entries := entries }).2 i
  refine himage.trans ?_
  have hsame : MeasureState.image? { m with entries := entries } i = some g := hg
  rw [hsame]
  by_cases hi : (i, g.epoch) ∈ recorded
  · rw [if_pos ((mem_current m recorded i).2 ⟨g, hg, hi⟩), fewer_of_mem hi]
    rfl
  · rw [fewer_of_not_mem hi, if_neg]
    intro hmem
    obtain ⟨g', hg', hi'⟩ := (mem_current m recorded i).1 hmem
    exact hi (Option.some.inj (hg'.symm.trans hg) ▸ hi')

theorem evolves_counted : Evolves { m with entries := entries } (counted m entries recorded) :=
  evolves_foldl MeasureState.answered evolves_answered _ _

theorem dependents_counted (x : Nat) : (counted m entries recorded).dependents x = m.dependents x :=
  (dependents_of_evolves (evolves_counted m entries recorded) x).trans rfl

/-- Every image of the counted measurement is one of the measurement before, its count lowered. -/
theorem image?_of_counted {i : Nat} {g' : Image} (h : (counted m entries recorded).image? i = some g') :
    ∃ g, m.image? i = some g ∧ g' = fewer recorded i g := by
  cases hg : m.image? i with
  | none =>
    have hnone := image?_none_congr (evolves_counted m entries recorded).length hg
    rw [hnone] at h
    cases h
  | some g => exact ⟨g, rfl, Option.some.inj (h.symm.trans (image?_counted m entries recorded hg))⟩

theorem predecessorsLower_counted {m : MeasureState} (hlower : m.predecessorsLower) :
    (counted m entries recorded).predecessorsLower := by
  intro i g' p hg' hp
  obtain ⟨g, hg, rfl⟩ := image?_of_counted m entries recorded hg'
  exact hlower i g p hg hp

end counted

/-! ### The turn of one image -/

/-- A pending verdict falls due: OK, a result that waits, and no write in flight any more (R8, R35). -/
def fallsDue (status : LinkStatus) (g : Image) (r : PendingResult) : Prop :=
  status = .ok ∧ g.state = .finishing (some r) ∧ g.inFlight = 0

/-- The image is broken by the response (R36). -/
def faulted (status : LinkStatus) (g : Image) : Prop := status ≠ .ok ∧ g.state.isMeasuring = true

/-- The turn of one image at a response (R35, R36). -/
def turnOf (status : LinkStatus) (m : MeasureState) (i : Nat) : MeasureState :=
  if status = .ok then m.pendingVerdict i else m.breakImage i .writeFault

/-- The image's own record after a verdict. -/
def verdictTaken (g : Image) (r : PendingResult) : Image :=
  { g with state := verdictState g r, transitions := saturate (g.transitions + 1) }

/-- The image's own record after its turn. -/
def afterTurn (status : LinkStatus) (g : Image) : Image :=
  match status, g.state with
  | .ok, .finishing (some r) => if g.inFlight = 0 then verdictTaken g r else g
  | .ok, _ => g
  | _, _ => breakIfMeasuring .writeFault g

/-- The turn brings the cascade: a break or a MISMATCHED verdict. -/
def failsIn (status : LinkStatus) (g : Image) : Prop :=
  faulted status g ∨ ∃ r d, fallsDue status g r ∧ verdictState g r = .mismatched d

/-- The turn brings the image into the release lines' record. -/
def verifiesIn (status : LinkStatus) (g : Image) : Prop :=
  ∃ r d, fallsDue status g r ∧ verdictState g r = .verified d

theorem fallsDue_unique {status : LinkStatus} {g : Image} {r r' : PendingResult} (h : fallsDue status g r)
    (h' : fallsDue status g r') : r = r' := by
  obtain ⟨-, hr, -⟩ := h
  obtain ⟨-, hr', -⟩ := h'
  rw [hr] at hr'
  cases hr'
  rfl

theorem afterTurn_failed {status : LinkStatus} (h : status ≠ .ok) (g : Image) :
    afterTurn status g = breakIfMeasuring .writeFault g := by
  cases status with
  | ok => exact absurd rfl h
  | _ => rfl

section cases
variable {status : LinkStatus} {m : MeasureState} {i : Nat} {g : Image}

theorem turn_faulted (hg : m.image? i = some g) (h : faulted status g) :
    m.isMeasuring i = true ∧ turnOf status m i = m.breakImage i .writeFault ∧
      afterTurn status g = brokenImage .writeFault g :=
  ⟨(isMeasuring_of_image hg).trans h.2, if_neg h.1, (afterTurn_failed h.1 g).trans (if_pos h.2)⟩

theorem afterTurn_due {r : PendingResult} (h : fallsDue status g r) : afterTurn status g = verdictTaken g r := by
  obtain ⟨rfl, hstate, hcount⟩ := h
  unfold afterTurn
  rw [hstate]
  exact if_pos hcount

theorem turn_due (hg : m.image? i = some g) {r : PendingResult} (h : fallsDue status g r) :
    turnOf status m i = m.verdict i r := by
  obtain ⟨rfl, hstate, hcount⟩ := h
  unfold turnOf MeasureState.pendingVerdict
  rw [if_pos rfl, hg]
  simp only [hstate, hcount, if_true]

theorem afterTurn_idle (hfault : ¬ faulted status g) (hdue : ∀ r, ¬ fallsDue status g r) :
    afterTurn status g = g := by
  by_cases hstatus : status = .ok
  · subst hstatus
    unfold afterTurn
    split
    · rename_i r _ hstate
      exact if_neg fun hcount => hdue r ⟨rfl, hstate, hcount⟩
    · rfl
    · rename_i hnot _
      exact absurd rfl hnot
  · exact (afterTurn_failed hstatus g).trans (if_neg fun hm => hfault ⟨hstatus, hm⟩)

theorem turn_idle (hg : m.image? i = some g) (hfault : ¬ faulted status g) (hdue : ∀ r, ¬ fallsDue status g r) :
    turnOf status m i = m := by
  unfold turnOf
  split
  · rename_i hstatus
    unfold MeasureState.pendingVerdict
    rw [hg]
    simp only
    split
    · rename_i r hstate
      exact if_neg fun hcount => hdue r ⟨hstatus, hstate, hcount⟩
    · rfl
  · rename_i hstatus
    refine breakImage_of_not_measuring ?_ _
    rw [isMeasuring_of_image hg, ← Bool.not_eq_true]
    exact fun hm => hfault ⟨hstatus, hm⟩

theorem not_due_of_faulted (h : faulted status g) (r : PendingResult) : ¬ fallsDue status g r :=
  fun hdue => h.1 hdue.1

theorem fallsDue_finishing {r : PendingResult} (h : fallsDue status g r) : g.state.isFinishing = true := by
  rw [h.2.1]
  rfl

theorem fallsDue_measuring {r : PendingResult} (h : fallsDue status g r) : g.state.isMeasuring = true := by
  rw [h.2.1]
  rfl

theorem failsIn_due {r : PendingResult} (h : fallsDue status g r) :
    failsIn status g ↔ ∃ d, verdictState g r = .mismatched d := by
  constructor
  · rintro (hfault | ⟨r', d, hdue, hd⟩)
    · exact absurd h (not_due_of_faulted hfault r)
    · exact ⟨d, fallsDue_unique hdue h ▸ hd⟩
  · exact fun ⟨d, hd⟩ => .inr ⟨r, d, h, hd⟩

theorem verifiesIn_due {r : PendingResult} (h : fallsDue status g r) :
    verifiesIn status g ↔ ∃ d, verdictState g r = .verified d :=
  ⟨fun ⟨_, d, hdue, hd⟩ => ⟨d, fallsDue_unique hdue h ▸ hd⟩, fun ⟨d, hd⟩ => ⟨r, d, h, hd⟩⟩

end cases

/-- The image acts: it is broken, or its verdict falls due. -/
def actsIn (status : LinkStatus) (g : Image) : Prop := faulted status g ∨ ∃ r, fallsDue status g r

/-- The three kinds of turn. -/
theorem actsIn_cases (status : LinkStatus) (g : Image) :
    faulted status g ∨ (∃ r, fallsDue status g r) ∨ (¬ faulted status g ∧ ∀ r, ¬ fallsDue status g r) := by
  by_cases hfault : faulted status g
  · exact .inl hfault
  · by_cases hdue : ∃ r, fallsDue status g r
    · exact .inr (.inl hdue)
    · exact .inr (.inr ⟨hfault, not_exists.1 hdue⟩)

section turn
variable {status : LinkStatus} {m : MeasureState} {i : Nat} {g : Image} (hg : m.image? i = some g)
include hg

theorem image?_turnOf_self : (turnOf status m i).image? i = some (afterTurn status g) := by
  obtain hfault | ⟨r, hdue⟩ | ⟨hfault, hdue⟩ := actsIn_cases status g
  · obtain ⟨hmeasuring, hturn, hafter⟩ := turn_faulted hg hfault
    rw [hturn, hafter, image?_breakImage hmeasuring, if_pos rfl, hg, Option.map_some]
  · rw [turn_due hg hdue, afterTurn_due hdue]
    exact image?_verdict_self hg (fallsDue_finishing hdue) r
  · rw [turn_idle hg hfault hdue, afterTurn_idle hfault hdue, hg]

theorem image?_turnOf_dependent {j : Nat} (hfails : failsIn status g) (hj : j ≠ i) (hd : j ∈ m.dependents i) :
    (turnOf status m i).image? j = (m.image? j).map (breakIfMeasuring .predecessorFailed) := by
  obtain hfault | ⟨r, d, hdue, hmismatch⟩ := hfails
  · obtain ⟨hmeasuring, hturn, -⟩ := turn_faulted hg hfault
    rw [hturn, image?_breakImage hmeasuring, if_neg hj, if_pos hd]
  · rw [turn_due hg hdue]
    exact image?_verdict_of_dependent hg (fallsDue_finishing hdue) r hmismatch hj hd

theorem image?_turnOf_other {j : Nat} (hj : j ≠ i) (hnot : ¬ (failsIn status g ∧ j ∈ m.dependents i)) :
    (turnOf status m i).image? j = m.image? j := by
  obtain hfault | ⟨r, hdue⟩ | ⟨hfault, hdue⟩ := actsIn_cases status g
  · obtain ⟨hmeasuring, hturn, -⟩ := turn_faulted hg hfault
    rw [hturn, image?_breakImage hmeasuring, if_neg hj, if_neg fun hd => hnot ⟨.inl hfault, hd⟩]
  · rw [failsIn_due hdue] at hnot
    rw [turn_due hg hdue]
    exact image?_verdict_of_not hg (fallsDue_finishing hdue) r hj hnot
  · rw [turn_idle hg hfault hdue]

theorem mem_verified_turnOf (j : Nat) :
    j ∈ (turnOf status m i).verified ↔ j ∈ m.verified ∨ j = i ∧ verifiesIn status g := by
  have hnone (h : ¬ verifiesIn status g) : j ∈ m.verified ↔ j ∈ m.verified ∨ j = i ∧ verifiesIn status g :=
    (or_iff_left fun hv => h hv.2).symm
  obtain hfault | ⟨r, hdue⟩ | ⟨hfault, hdue⟩ := actsIn_cases status g
  · obtain ⟨-, hturn, -⟩ := turn_faulted hg hfault
    rw [hturn, verified_breakImage]
    exact hnone fun ⟨r, _, hdue, _⟩ => not_due_of_faulted hfault r hdue
  · rw [turn_due hg hdue]
    by_cases hv : ∃ d, verdictState g r = .verified d
    · obtain ⟨d, hd⟩ := hv
      rw [verified_verdict_verified hg (fallsDue_finishing hdue) r hd, mem_joinTail]
      exact or_congr Iff.rfl (and_iff_left ⟨r, d, hdue, hd⟩).symm
    · rw [verified_verdict_of_not hg (fallsDue_finishing hdue) r (not_exists.1 hv)]
      exact hnone (mt (verifiesIn_due hdue).1 hv)
  · rw [turn_idle hg hfault hdue]
    exact hnone fun ⟨r, _, hr, _⟩ => hdue r hr

end turn

theorem turn_turnOf (status : LinkStatus) :
    Turn (turnOf status) (afterTurn status) (actsIn status) (failsIn status) (verifiesIn status) where
  evolves := fun m i => by
    unfold turnOf
    split
    · exact evolves_pendingVerdict m i
    · exact evolves_breakImage m i _
  measuring := fun g hacts => hacts.elim And.right fun ⟨_, hdue⟩ => fallsDue_measuring hdue
  failing := fun g hfails => hfails.imp id fun ⟨r, _, hdue, _⟩ => ⟨r, hdue⟩
  verifying := fun g ⟨r, _, hdue, _⟩ => .inr ⟨r, hdue⟩
  idle := fun m i g hg hacts => turn_idle hg (fun h => hacts (.inl h)) fun r h => hacts (.inr ⟨r, h⟩)
  self := fun m i g hg => image?_turnOf_self hg
  dependent := fun m i g j hg hfails hj hd => image?_turnOf_dependent hg hfails hj hd
  other := fun m i g j hg hj hnot => image?_turnOf_other hg hj hnot
  verified := fun m i g j hg => mem_verified_turnOf hg j

/-! ### The whole response -/

/-- The order tracker takes the entry away, lowers the counts, gives every image recorded its turn and settles. -/
theorem writeAnswered_eq {m : MeasureState} {tag : Nat} {w : WriteEntry}
    (h : m.entries.find? (·.tag == tag) = some w) (status : LinkStatus) :
    m.writeAnswered tag status = ((m.current w.recorded).foldl (turnOf status)
      (counted m (m.entries.filter (·.tag != tag)) w.recorded)).settleRuns := by
  unfold MeasureState.writeAnswered
  rw [h]
  by_cases hstatus : status = .ok
  · have hturn : turnOf status = MeasureState.pendingVerdict := funext fun m => funext fun i => if_pos hstatus
    rw [hturn]
    simp only [hstatus, if_true]
    rfl
  · have hturn : turnOf status = fun m i => m.breakImage i .writeFault := funext fun m => funext fun i => if_neg hstatus
    rw [hturn]
    simp only [hstatus, if_false]
    rfl

theorem image?_settleRuns (m : MeasureState) (i : Nat) : m.settleRuns.image? i =
    (m.image? i).map (fun g => { g with runs := g.runs.map (settleRun m.entries) }) := by
  unfold MeasureState.settleRuns MeasureState.image?
  split
  · rfl
  · exact List.getElem?_map ..

end Sys2Proof.Proofs

/-! A response of memory for a forwarded write, and what it does to the images and to the manifest window (R34 to
R37, R110, R111, R167). -/

namespace Sys2Proof.Proofs
open Sys2Proof.Machine Sys2Proof.Laws

/-! ### The images -/

section tracker
variable {m : MeasureState} (status : LinkStatus)

/-- The images on which the response acts have taken their turns, against the counted measurement. -/
theorem turnsTaken_counted {m : MeasureState} (hlower : m.predecessorsLower) (entries : List WriteEntry)
    (recorded : List (Nat × BitVec 8)) (status : LinkStatus) :
    TurnsTaken (afterTurn status) (failsIn status) (verifiesIn status) (counted m entries recorded)
      (m.current recorded) ((m.current recorded).foldl (turnOf status) (counted m entries recorded)) := by
  refine turnsTaken_foldl (turn_turnOf status) (predecessorsLower_counted entries recorded hlower)
    (current_increasing m recorded) fun x hx => ?_
  obtain ⟨g, hg, -⟩ := (mem_current m recorded x).1 hx
  exact ⟨_, image?_counted m entries recorded hg⟩

theorem mem_current_of_image {recorded : List (Nat × BitVec 8)} {i : Nat} {g : Image} (hg : m.image? i = some g) :
    i ∈ m.current recorded ↔ (i, g.epoch) ∈ recorded := by
  rw [mem_current]
  refine ⟨fun ⟨g', hg', hi⟩ => ?_, fun hi => ⟨g, hg, hi⟩⟩
  exact Option.some.inj (hg'.symm.trans hg) ▸ hi

theorem fallsDue_fewer {recorded : List (Nat × BitVec 8)} {i : Nat} {g : Image} (hi : (i, g.epoch) ∈ recorded)
    (r : PendingResult) : fallsDue status (fewer recorded i g) r ↔
      status = .ok ∧ g.state = .finishing (some r) ∧ g.inFlight ≤ 1 := by
  rw [fewer_of_mem hi]
  exact and_congr_right fun _ => and_congr_right fun _ => by simp only; omega

/-- The image's verdict falls due at this response, said of its record before it. -/
def dueAt (recorded : List (Nat × BitVec 8)) (status : LinkStatus) (i : Nat) (g : Image) (r : PendingResult) : Prop :=
  (i, g.epoch) ∈ recorded ∧ status = .ok ∧ g.state = .finishing (some r) ∧ g.inFlight ≤ 1

/-- The image fails by this response: it is broken, or its verdict is MISMATCHED. -/
def failsAt (m : MeasureState) (recorded : List (Nat × BitVec 8)) (status : LinkStatus) (i : Nat) : Prop :=
  ∃ g, m.image? i = some g ∧
    (((i, g.epoch) ∈ recorded ∧ status ≠ .ok ∧ g.state.isMeasuring = true) ∨
      ∃ r d, dueAt recorded status i g r ∧ verdictState g r = .mismatched d)

/-- The image is a dependent of one that fails by this response. -/
def lostAt (m : MeasureState) (recorded : List (Nat × BitVec 8)) (status : LinkStatus) (i : Nat) : Prop :=
  ∃ x, failsAt m recorded status x ∧ i ∈ m.dependents x

theorem failsAt_iff (recorded : List (Nat × BitVec 8)) (i : Nat) : failsAt m recorded status i ↔
    ∃ g, m.image? i = some g ∧ (i, g.epoch) ∈ recorded ∧ failsIn status (fewer recorded i g) := by
  refine exists_congr fun g => and_congr_right fun _ => ?_
  constructor
  · rintro (⟨hi, hfault⟩ | ⟨r, d, ⟨hi, hdue⟩, hd⟩)
    · exact ⟨hi, .inl hfault⟩
    · exact ⟨hi, .inr ⟨r, d, (fallsDue_fewer status hi r).2 hdue, hd⟩⟩
  · rintro ⟨hi, hfault | ⟨r, d, hdue, hd⟩⟩
    · exact .inl ⟨hi, hfault⟩
    · exact .inr ⟨r, d, ⟨hi, (fallsDue_fewer status hi r).1 hdue⟩, hd⟩

theorem lostIn_counted (entries : List WriteEntry) (recorded : List (Nat × BitVec 8)) (i : Nat) :
    lostIn (failsIn status) (counted m entries recorded) (m.current recorded) i ↔ lostAt m recorded status i := by
  refine exists_congr fun x => ?_
  rw [dependents_counted, failsAt_iff, ← and_assoc]
  refine and_congr_left fun _ => ?_
  constructor
  · rintro ⟨hx, g', hg', hfails⟩
    obtain ⟨g, hg, rfl⟩ := image?_of_counted m entries recorded hg'
    exact ⟨g, hg, (mem_current_of_image hg).1 hx, hfails⟩
  · rintro ⟨g, hg, hx, hfails⟩
    exact ⟨(mem_current_of_image hg).2 hx, _, image?_counted m entries recorded hg, hfails⟩

section response
variable (hlower : m.predecessorsLower) {tag : Nat} {w : WriteEntry}
  (hfind : m.entries.find? (·.tag == tag) = some w)
include hfind

theorem verified_writeAnswered : (m.writeAnswered tag status).verified = ((m.current w.recorded).foldl
    (turnOf status) (counted m (m.entries.filter (·.tag != tag)) w.recorded)).verified := by
  rw [writeAnswered_eq hfind]
  rfl

/-- An image after its turn, then settled. -/
theorem image?_writeAnswered {i : Nat} {g : Image} (h : ((m.current w.recorded).foldl
    (turnOf status) (counted m (m.entries.filter (·.tag != tag)) w.recorded)).image? i = some g) :
    (m.writeAnswered tag status).image? i =
      some { g with runs := g.runs.map (settleRun (m.entries.filter (·.tag != tag))) } := by
  have hentries : ((m.current w.recorded).foldl (turnOf status)
      (counted m (m.entries.filter (·.tag != tag)) w.recorded)).entries = m.entries.filter (·.tag != tag) :=
    (evolves_foldl _ (turn_turnOf status).evolves _ _).entries.trans (evolves_counted _ _ _).entries
  rw [writeAnswered_eq hfind, image?_settleRuns, h, hentries]
  rfl

/-- Where nothing acts, the counts and the marks alone change. -/
theorem writeAnswered_idle (hidle : ∀ i g, m.image? i = some g → (i, g.epoch) ∈ w.recorded →
    ¬ actsIn status (fewer w.recorded i g)) : m.writeAnswered tag status = { m with
      images := (m.writeAnswered tag status).images, entries := m.entries.filter (·.tag != tag) } := by
  have hnone : (m.current w.recorded).foldl (turnOf status)
      (counted m (m.entries.filter (·.tag != tag)) w.recorded) =
        counted m (m.entries.filter (·.tag != tag)) w.recorded := by
    refine foldl_turn_idle (turn_turnOf status) fun x hx => ?_
    obtain ⟨g, hg, hrecorded⟩ := (mem_current m w.recorded x).1 hx
    exact ⟨_, image?_counted m _ _ hg, hidle x g hg hrecorded⟩
  rw [writeAnswered_eq hfind, hnone, counted_eq]
  rfl

include hlower

theorem mem_verified_writeAnswered (i : Nat) : i ∈ (m.writeAnswered tag status).verified ↔
    i ∈ m.verified ∨ ∃ g r d, m.image? i = some g ∧ dueAt w.recorded status i g r ∧
      ¬ lostAt m w.recorded status i ∧ verdictState g r = .verified d := by
  have hturns := turnsTaken_counted hlower (m.entries.filter (·.tag != tag)) w.recorded status
  have hsame : (counted m (m.entries.filter (·.tag != tag)) w.recorded).verified = m.verified := by
    rw [counted_eq]
  rw [verified_writeAnswered status hfind, hturns.verified, hsame, lostIn_counted]
  refine or_congr Iff.rfl ?_
  constructor
  · rintro ⟨hi, hlost, g', hg', r, d, hdue, hd⟩
    obtain ⟨g, hg, rfl⟩ := image?_of_counted m _ _ hg'
    have hrecorded := (mem_current_of_image hg).1 hi
    exact ⟨g, r, d, hg, ⟨hrecorded, (fallsDue_fewer status hrecorded r).1 hdue⟩, hlost, hd⟩
  · rintro ⟨g, r, d, hg, ⟨hrecorded, hdue⟩, hlost, hd⟩
    exact ⟨(mem_current_of_image hg).2 hrecorded, hlost, _, image?_counted m _ _ hg, r, d,
      (fallsDue_fewer status hrecorded r).2 hdue, hd⟩

/-- A dependent of an image that fails. -/
theorem image?_writeAnswered_lost {i : Nat} {g : Image} (hg : m.image? i = some g)
    (hlost : lostAt m w.recorded status i) (hmeasuring : g.state.isMeasuring = true) :
    (m.writeAnswered tag status).image? i = some { fewer w.recorded i (brokenImage .predecessorFailed g) with
      runs := [] } :=
  image?_writeAnswered status hfind ((turnsTaken_counted hlower _ _ _).lost i _ (image?_counted m _ _ hg) hmeasuring
    ((lostIn_counted status _ _ i).2 hlost))

/-- An image of the recorded set that no other has taken down. -/
theorem image?_writeAnswered_taken {i : Nat} {g : Image} (hg : m.image? i = some g)
    (hrecorded : (i, g.epoch) ∈ w.recorded)
    (hstands : lostAt m w.recorded status i → g.state.isMeasuring = false) :
    (m.writeAnswered tag status).image? i = some { afterTurn status (fewer w.recorded i g) with
      runs := (afterTurn status (fewer w.recorded i g)).runs.map
        (settleRun (m.entries.filter (·.tag != tag))) } := by
  refine image?_writeAnswered status hfind ((turnsTaken_counted hlower _ _ _).taken i _ (image?_counted m _ _ hg)
    ((mem_current_of_image hg).2 hrecorded) fun h => ?_)
  exact absurd h.2 (Bool.not_eq_true _ ▸ hstands ((lostIn_counted status _ _ i).1 h.1))

/-- An image outside the recorded set that no other has taken down. -/
theorem image?_writeAnswered_rest {i : Nat} {g : Image} (hg : m.image? i = some g)
    (hrecorded : (i, g.epoch) ∉ w.recorded)
    (hstands : lostAt m w.recorded status i → g.state.isMeasuring = false) :
    (m.writeAnswered tag status).image? i = some { fewer w.recorded i g with
      runs := g.runs.map (settleRun (m.entries.filter (·.tag != tag))) } := by
  refine image?_writeAnswered status hfind ((turnsTaken_counted hlower _ _ _).rest i _ (image?_counted m _ _ hg)
    (mt (mem_current_of_image hg).1 hrecorded) fun h => ?_)
  exact absurd h.2 (Bool.not_eq_true _ ▸ hstands ((lostIn_counted status _ _ i).1 h.1))

end response

end tracker

/-! ### The row -/

section row
variable {s : State} {tag : Nat} (hlt : tag < 32) (hmem : tag ∈ s.link.memWrites) (status : LinkStatus)

/-- The state once the response is relayed and the order tracker has acted. -/
def writeRelayed (s : State) (tag : Nat) (status : LinkStatus) (m : MeasureState) : State :=
  { s with
    link := { s.link with
      memWrites := s.link.memWrites.filter (· != tag),
      relay := s.link.relay ++ [{ kind := .write, tag := tag, status := status, data := [] }] }
    measure := m }

/-- The same for a write of the window write set, in MANIFEST_LOADING: its entry and its tag leave. -/
def windowRelayed (s : State) (tag : Nat) (status : LinkStatus) : State :=
  { writeRelayed s tag status { s.measure with entries := s.measure.entries.filter (·.tag != tag) } with
    manifest := { s.manifest with windowWrites := s.manifest.windowWrites.filter (· != tag) } }

include hlt hmem in
theorem exec_fwdWriteResponse : exec (.fwdWriteResponse tag status) s = .next
    ((writeRelayed s tag status
      (s.measure.writeAnswered tag status)).windowAnswered tag status).advanceManifest.settle := by
  have hroute : exec (.fwdWriteResponse tag status) s = .next (answerWrite s tag status) := by
    simp [exec, execFwdWriteResponse, routeResponse, hlt, hmem]
  rw [hroute]
  rfl

theorem windowAnswered_of_not_mem {s : State} (h : tag ∉ s.manifest.windowWrites) :
    s.windowAnswered tag status = s :=
  if_neg (mt List.contains_iff_mem.1 h)

theorem windowAnswered_ok {s : State} (h : tag ∈ s.manifest.windowWrites) : s.windowAnswered tag .ok =
    { s with manifest := { s.manifest with windowWrites := s.manifest.windowWrites.filter (· != tag) } } :=
  if_pos (List.contains_iff_mem.2 h)

theorem windowAnswered_failed {s : State} (h : tag ∈ s.manifest.windowWrites) {status : LinkStatus}
    (hstatus : status ≠ .ok) : s.windowAnswered tag status = State.failAttempt
      { s with manifest := { s.manifest with windowWrites := s.manifest.windowWrites.filter (· != tag) } }
      .writeFault :=
  (if_pos (List.contains_iff_mem.2 h)).trans (if_neg hstatus)

end row

/-- Without images the order tracker takes the entry away and does nothing else. -/
theorem writeAnswered_without_images {m : MeasureState} (h : m.images = []) {tag : Nat} {w : WriteEntry}
    (hfind : m.entries.find? (·.tag == tag) = some w) (status : LinkStatus) :
    m.writeAnswered tag status = { m with entries := m.entries.filter (·.tag != tag) } := by
  rw [writeAnswered_eq hfind, counted, current_of_images_nil h, List.foldl_nil, List.foldl_nil,
    MeasureState.settleRuns, h]
  rfl

/-- Settles O20: the turns of the images recorded, each with its cascade, and the manifest unit at a window
write. -/
theorem writeResponseActs : Obligations.WriteResponseActs := by
  refine ⟨fun s tag status w hlt hmem hnot hfind hlower => ?_,
    fun s tag status w hlt hmem hphase hwindow hfind himages => ?_⟩
  · have hexec : exec (.fwdWriteResponse tag status) s =
        .next (writeRelayed s tag status (s.measure.writeAnswered tag status)).advanceManifest.settle := by
      rw [exec_fwdWriteResponse hlt hmem, windowAnswered_of_not_mem]
      exact hnot
    have hevolves := writeAnswered_evolves s.measure tag status
    refine ⟨s.measure.writeAnswered tag status, hexec, fun hphase => ?_, hevolves.entries, hevolves.segments,
      hevolves.nextSeq, hevolves.nextOrder, hevolves.length, mem_verified_writeAnswered status hlower hfind,
      fun hfails hdue => ?_, fun i g hg => ⟨image?_writeAnswered_lost status hlower hfind hg,
        fun hi hrecorded hstatus hmeasuring => ?_, fun hi r hr => ?_, fun hi hfault hdue => ?_⟩⟩
    · rw [hexec, advanceManifest_of_not_loading]
      · rfl
      · exact hphase
    · refine writeAnswered_idle status hfind fun i g hg hrecorded => ?_
      rintro (hfault | ⟨r, hr⟩)
      · exact hfails i ⟨g, hg, .inl ⟨hrecorded, hfault⟩⟩
      · exact hdue i g r hg ⟨hrecorded, (fallsDue_fewer status hrecorded r).1 hr⟩
    · have htaken := image?_writeAnswered_taken status hlower hfind hg hrecorded fun h => absurd h hi
      have hbroken : afterTurn status (fewer w.recorded i g) = brokenImage .writeFault (fewer w.recorded i g) :=
        (afterTurn_failed hstatus _).trans (if_pos hmeasuring)
      rw [hbroken] at htaken
      exact htaken
    · have htaken := image?_writeAnswered_taken status hlower hfind hg hr.1 fun h => absurd h hi
      rw [afterTurn_due ((fallsDue_fewer status hr.1 r).2 hr.2)] at htaken
      exact htaken
    · by_cases hrecorded : (i, g.epoch) ∈ w.recorded
      · have htaken := image?_writeAnswered_taken status hlower hfind hg hrecorded hi
        have hkeeps : afterTurn status (fewer w.recorded i g) = fewer w.recorded i g :=
          afterTurn_idle (fun h => Bool.false_ne_true ((hfault hrecorded h.1).symm.trans h.2))
            fun r hr => hdue r ⟨hrecorded, (fallsDue_fewer status hrecorded r).1 hr⟩
        rw [hkeeps] at htaken
        exact htaken
      · exact image?_writeAnswered_rest status hlower hfind hg hrecorded hi
  · have hmeasure := writeAnswered_without_images himages hfind status
    have hok (h : status = .ok) : exec (.fwdWriteResponse tag status) s =
        .next (windowRelayed s tag status).advanceManifest.settle := by
      rw [exec_fwdWriteResponse hlt hmem, hmeasure, h, windowAnswered_ok]
      · rfl
      · exact hwindow
    refine ⟨hok, fun h hleft n hlength habsorbed hholding hmanifest => ?_, fun h hleft => ?_, fun h => ?_⟩
    · have hidle : (windowRelayed s tag status).measure.engines[(0 : EngineId)].idleForManifest = true :=
        idleForManifest_of (p := True) (q := True) (.inr ⟨hholding, hmanifest, trivial⟩)
      have hnone : ¬ (windowRelayed s tag status).manifest.absorbOffset < 64 * n := Nat.not_lt.2 habsorbed
      have hempty : (windowRelayed s tag status).manifest.windowWrites = [] := hleft
      rw [hok h, advanceManifest_eq (s := windowRelayed s tag status) hphase hlength hidle, if_neg hnone,
        if_pos hempty]
      rfl
    · obtain ⟨-, hwrites, hstays⟩ := advanceManifest_phase (windowRelayed s tag status)
      refine ⟨_, hok h, ?_, hwrites⟩
      obtain hstays | ⟨-, -, hempty, -⟩ := hstays
      · exact hstays.trans hphase
      · exact absurd hempty hleft
    · have hfailed := failedFrom_failAttempt (windowRelayed s tag status) .writeFault
      have hanswered : (writeRelayed s tag status { s.measure with
          entries := s.measure.entries.filter (·.tag != tag) }).windowAnswered tag status =
          (windowRelayed s tag status).failAttempt .writeFault :=
        windowAnswered_failed (s := writeRelayed s tag status _) hwindow h
      rw [exec_fwdWriteResponse hlt hmem, hmeasure, hanswered, advanceManifest_of_not_loading hfailed.not_loading]
      rfl

end Sys2Proof.Proofs
